-- ==== Sys2Proof/Word.lean ====
section
/-! DEFINITION. The two word sizes of the block: a byte (00_scope.md R11) and the 32-bit width of every
host-visible register, of IN and OUT addresses and of the accumulator (R10 `AW`, R9 `ACCW`). -/

namespace Sys2Proof

/-- 8 bits (R11). -/
abbrev Byte := BitVec 8

/-- 32 bits (R10 `AW`, R21). -/
abbrev Word := BitVec 32

end Sys2Proof
end

