-- ==== Sys2Proof/Config.lean ====
section
/-! DEFINITION. What an implementation fixes: the parameters FE fixes (00_scope.md R9), those it leaves open
(R10), the size of a step (40_commands.md R141), and the model's one free value. -/

namespace Sys2Proof.Config

/-- Alphabet size (R9). -/
abbrev symbols : Nat := 256
/-- The format tag, byte 0 of an encoded buffer (R9, R92). -/
abbrev tag : Byte := 0x28#8
/-- An `ENCODE` input is shorter than this, 2^24 (R9 `MAXLEN` + 1, R151). -/
abbrev lenLimit : Nat := 16777216
/-- Largest value of the skip field (R9). -/
abbrev maxSkip : Nat := 63
/-- Largest rank(child) - rank(stem) (R9, R181 P3). -/
abbrev maxGap : Nat := 64
/-- Width of the accumulator in bits (R9). -/
abbrev accW : Nat := 32

/-- How much one step of the machine does (R141: "A model that wants small steps may take one micro-operation,
one loop iteration or one statement as a step"). DESIGN CHOICE, log entry 1. -/
inductive Grain where
  /-- one command, from the `CMD` write to `DONE` or `FAULT` -/
  | command
  /-- one micro-operation -/
  | phase
  /-- one micro-operation of `ENCODE`; one interpreted item (count byte, header, table entry, group) of `DECODE` -/
  | item
deriving DecidableEq, Repr

/-- The parameters fixed when the model is instantiated (R10, R336); no step changes them. Log entry 2. -/
structure Params where
  /-- `INSIZE` in bytes (R60) -/
  inSize : Nat
  /-- `OUTSIZE` in bytes, `none` for `unbounded` (R61) -/
  outSize : Option Nat
  /-- `MAXCODELEN` (R10, R224) -/
  maxCodeLen : Nat
  /-- the size of a step (R141) -/
  grain : Grain
deriving DecidableEq, Repr

/-- The constraints of R10 and R60 on the parameters. -/
abbrev Params.wf (p : Params) : Prop := p.inSize ≤ 4294967296 ∧ p.maxCodeLen ≤ 255

/-- FREE VALUE (70_reset_and_hazards.md R322, 93_implementation_defined.md V5): how many `OUT` addresses of the
micro-operation in progress a reset while `BUSY` finds written. Nothing constrains it. Log entry 7. -/
opaque resetCut : Nat → Nat

end Sys2Proof.Config
end

