-- ==== Sys2Proof/Syntax.lean ====
section
/-! DEFINITION. Instructions: one constructor per row of spec/opcode_table.json (30_encoding.md R90, R106). -/

namespace Sys2Proof

/-- The seven formats (30_encoding.md R90). Which one a word has is decided by where it stands, never by the
word itself (R98, R106). -/
inductive Format where
  /-- the host's write to register 0 (R91) -/
  | cmd
  /-- `STATUS.PHASE` (R25) -/
  | phase
  /-- buffer offsets 0 to 3 (R92) -/
  | hdr
  /-- buffer offset 4 (R93) -/
  | count
  /-- a table byte that refers to a stem, and the bootstrap entry (R96, R99) -/
  | ref
  /-- a table byte that holds a literal (R95) -/
  | leaf
  /-- four payload bytes (R100) -/
  | group
deriving DecidableEq, Repr

/-- The rows of the opcode table. The two commands and nine micro-operations name no operand (R91, R25); the five
data formats carry their fields, each on its own width. -/
inductive Instr where
  /-- `ENCODE` (R133) -/
  | encodeCmd
  /-- `DECODE` (R137) -/
  | decodeCmd
  /-- `FREQ` (R151) -/
  | freq
  /-- `MERGE` (R161 to R166) -/
  | merge
  /-- `PLACE` (R186 to R189) -/
  | place
  /-- `SERIALIZE` (R201 to R204) -/
  | serialize
  /-- `CODEBUILD` (R221 to R224) -/
  | codebuild
  /-- `HDRWRITE` (R206, R207) -/
  | hdrwrite
  /-- `PACK` (R226 to R231) -/
  | pack
  /-- `DVALIDATE` (R251) -/
  | dvalidate
  /-- `DWALK` (R255 to R262) -/
  | dwalk
  /-- `HDR`: tag bits 7:0, original length bits 31:8 (R92) -/
  | hdr (tag : Byte) (len : BitVec 24)
  /-- `COUNT`: n - 1 (R93) -/
  | count (nminus1 : Byte)
  /-- `REF`: the two leaf flags of the referenced stem and the skip (R96) -/
  | ref (f1 f2 : Bool) (skip : BitVec 6)
  /-- `LEAF`: a literal byte (R95) -/
  | leaf (value : Byte)
  /-- `GROUP`: 32 bits of the bitstream, bit 31 the earliest (R100) -/
  | group (bits : Word)
deriving DecidableEq, Repr

/-- The format a row names in spec/opcode_table.json. -/
def Instr.format : Instr → Format
  | .encodeCmd | .decodeCmd => .cmd
  | .freq | .merge | .place | .serialize | .codebuild | .hdrwrite | .pack | .dvalidate | .dwalk => .phase
  | .hdr _ _ => .hdr
  | .count _ => .count
  | .ref _ _ _ => .ref
  | .leaf _ => .leaf
  | .group _ => .group

end Sys2Proof
end

