-- ==== Sys2Proof/WellFormed.lean ====
section
/-! DEFINITION. Which instructions are well formed. Every field's width is its type's, so the one check left is the
header's tag (30_encoding.md R92, R103). -/

namespace Sys2Proof

/-- R92: `tag` "must be 0x28"; every other format's every value is legal (R91, R103). -/
def Instr.wellFormed : Instr → Bool
  | .hdr tag _ => tag == Config.tag
  | _ => true

end Sys2Proof
end

