-- ==== Sys2Proof/Decode.lean ====
section
/-! DEFINITION. Decoding and encoding of the seven formats (30_encoding.md R90 to R100). The decoder is given the
format, because the place of a word decides it (R98, R106), and the bytes, lowest address first; multi-byte words are
little-endian (20_memory.md R64). -/

namespace Sys2Proof

/-- Why bytes are not an instruction of a format. -/
inductive DecodeError where
  /-- not as many bytes as the format has -/
  | wrongSize
  /-- `PHASE` 0 (`NONE`) or a reserved code 10 to 15, which is never produced (R25, R103) -/
  | noSuchPhase (code : Nat)
  /-- a header tag other than 0x28 (R92, R103) -/
  | badTag (tag : Byte)
deriving DecidableEq, Repr

/-- The little-endian 32-bit value of four bytes, the first the lowest (R12 `MemRead`, R64). -/
def wordOfBytes (b0 b1 b2 b3 : Byte) : Word := b3 ++ b2 ++ b1 ++ b0

/-- Byte `i` of a word: bits 8i+7 to 8i (R12). -/
def byteOfWord (w : Word) (i : Nat) : Byte := w.extractLsb' (8 * i) 8

/-- The four bytes of a word, the lowest first (R12 `MemWrite`, R64). -/
def bytesOfWord (w : Word) : List Byte := [byteOfWord w 0, byteOfWord w 1, byteOfWord w 2, byteOfWord w 3]

/-- `CMD`: bit 0 is `OP`, bits 31:1 are ignored (R91). -/
def decodeCommand (w : Word) : Instr := if w.getLsbD 0 then .decodeCmd else .encodeCmd

/-- `PHASE` codes (10_state.md R25). -/
def decodePhase (code : Nat) : Except DecodeError Instr :=
  match code with
  | 1 => .ok .freq
  | 2 => .ok .merge
  | 3 => .ok .place
  | 4 => .ok .serialize
  | 5 => .ok .codebuild
  | 6 => .ok .hdrwrite
  | 7 => .ok .pack
  | 8 => .ok .dvalidate
  | 9 => .ok .dwalk
  | c => .error (.noSuchPhase c)

/-- `HDR`: tag in bits 7:0, length in bits 31:8 (R92). -/
def decodeHeader (w : Word) : Except DecodeError Instr :=
  if w.extractLsb' 0 8 = Config.tag then .ok (.hdr (w.extractLsb' 0 8) (w.extractLsb' 8 24))
  else .error (.badTag (w.extractLsb' 0 8))

/-- Flag `f1` of a `REF` entry, bit 7 (R96). -/
def refF1 (e : Byte) : Bool := e.getLsbD 7

/-- Flag `f2` of a `REF` entry, bit 6 (R96). -/
def refF2 (e : Byte) : Bool := e.getLsbD 6

/-- The skip of a `REF` entry, bits 5:0 (R96). -/
def refSkip (e : Byte) : BitVec 6 := e.extractLsb' 0 6

/-- A `REF` entry from its fields: `(f1 << 7) | (f2 << 6) | skip` (R96, R202). -/
def refByte (f1 f2 : Bool) (skip : BitVec 6) : Byte := BitVec.ofBool f1 ++ BitVec.ofBool f2 ++ skip

/-- Decode the bytes of one word of a format (R90 to R100). Every byte list has an outcome. -/
def decode (f : Format) (bytes : List Byte) : Except DecodeError Instr :=
  match f, bytes with
  | .cmd, [b0, b1, b2, b3] => .ok (decodeCommand (wordOfBytes b0 b1 b2 b3))
  | .phase, [b] => decodePhase b.toNat
  | .hdr, [b0, b1, b2, b3] => decodeHeader (wordOfBytes b0 b1 b2 b3)
  | .count, [b] => .ok (.count b)
  | .ref, [b] => .ok (.ref (refF1 b) (refF2 b) (refSkip b))
  | .leaf, [b] => .ok (.leaf b)
  | .group, [b0, b1, b2, b3] => .ok (.group (wordOfBytes b0 b1 b2 b3))
  | _, _ => .error .wrongSize

/-- How many bytes a word of a format takes (R90): `PHASE`'s four bits stand in a byte. -/
def Format.size : Format → Nat
  | .cmd | .hdr | .group => 4
  | .phase | .count | .ref | .leaf => 1

/-- The word of a header: `len` above the tag (R92). -/
def headerWord (tag : Byte) (len : BitVec 24) : Word := len ++ tag

/-- The bytes of an instruction, lowest address first; a command's ignored bits are written as 0 (R91), a phase code
stands alone in its byte (R25). -/
def encode : Instr → List Byte
  | .encodeCmd => bytesOfWord 0
  | .decodeCmd => bytesOfWord 1
  | .freq => [1]
  | .merge => [2]
  | .place => [3]
  | .serialize => [4]
  | .codebuild => [5]
  | .hdrwrite => [6]
  | .pack => [7]
  | .dvalidate => [8]
  | .dwalk => [9]
  | .hdr tag len => bytesOfWord (headerWord tag len)
  | .count n => [n]
  | .ref f1 f2 skip => [refByte f1 f2 skip]
  | .leaf v => [v]
  | .group w => bytesOfWord w

/-- The format a bare word of the opcode table is read in, where no place says which: a DESIGN CHOICE of the probe
`decodeTableWord`, log entry 12, not a rule of the spec (R98, R106: the place decides). 32 bits: the tag 0x28 in bits
7:0 is a header, 0 and 1 are the two commands, all else a group. 8 bits: 1 to 9 are phase codes, 0 a count, a set bit 7
a reference, all else a literal. -/
def tableFormat (nbits w : Nat) : Option Format :=
  if nbits = 32 then
    some (if w % 256 = 0x28 then .hdr else if w < 2 then .cmd else .group)
  else if nbits = 8 then
    some (if w = 0 then .count else if w < 10 then .phase else if 128 ≤ w then .ref else .leaf)
  else none

/-- The bytes of an opcode-table word, lowest address first (R64). -/
def tableBytes (nbits w : Nat) : List Byte :=
  if nbits = 32 then bytesOfWord (BitVec.ofNat 32 w) else [BitVec.ofNat 8 w]

/-- The instruction the decoder reads from a bare word of the opcode table, in the format of `tableFormat`. -/
def decodeTableWord (nbits w : Nat) : Option Instr :=
  match tableFormat nbits w with
  | some f => (decode f (tableBytes nbits w)).toOption
  | none => none

end Sys2Proof
end

