-- ==== Sys2Proof/Machine/State.lean ====
section
/-! DEFINITION. The machine's state as plain data: everything 10_state.md gives the block, the two memories, the
parameters, and the model's own fields (named as such). INVENTORY.md lists each with its rule and reset value. -/

namespace Sys2Proof.Machine

/-- Why the machine stops. No spec fault is among these: the spec's faults are the architectural state `FAULT`
(60_exceptions.md R283) and are next states. -/
inductive Fault where
  /-- An `IN` address at or above `INSIZE` (20_memory.md R60): raised by a sequencer read (R12: no rule makes one) or a
  host access. Safe: the machine stops where the spec gives no byte. Log entry 8. -/
  | noInByte (address : Nat)
  /-- An `OUT` address at or above `OUTSIZE` (20_memory.md R61): raised by a sequencer write (R71: no rule makes one) or
  a host access. Safe. Log entry 8. -/
  | noOutByte (address : Nat)
  /-- `PLACE` needs a frontier entry and the frontier is empty (43_node_placer.md R187, R188): raised by `PLACE` on a stem
  list that is no tree. Safe: a stuck state where the pseudocode reads an entry that is not there. Log entry 10. -/
  | frontierEmpty
deriving DecidableEq, Repr

/-- Why an action has no meaning. -/
inductive Refusal where
  /-- An instruction that has no meaning yet; raised by `exec` alone. Safe. -/
  | notModelled (mnemonic : String)
  /-- A host access to `IN` or `OUT` while `BUSY` (70_reset_and_hazards.md R325, 93_implementation_defined.md V6: "a model
  may `refuse`"): raised by the step on a host action. Safe. Log entry 6. -/
  | hostAccessWhileBusy
deriving DecidableEq, Repr

/-- `STATUS.STATE` (R24). -/
inductive RunState where
  | idle | busy | done | fault
deriving DecidableEq, Repr

/-- `STATUS.PHASE` (R25). -/
inductive Phase where
  | none | freq | merge | place | serialize | codebuild | hdrwrite | pack | dvalidate | dwalk
deriving DecidableEq, Repr

/-- `STATUS.ERR` (R26). -/
inductive Err where
  | none | inputTooLarge | truncatedHeader | truncatedTable | badFormatTag | positionOutOfTree | skipOverflow
  | placementUnsatisfiable | codeTooLong | badRange | outOverflow
deriving DecidableEq, Repr

/-- The `OP` bit: 0 `ENCODE`, 1 `DECODE` (R22, R31). -/
inductive Op where
  | encode | decode
deriving DecidableEq, Repr

/-- The fields of `STATUS` (R24); the 32-bit word is computed from them (`Status.word`). Log entry 15. -/
structure Status where
  /-- `STATE`, bits 1:0 -/
  state : RunState
  /-- `PHASE`, bits 5:2 -/
  phase : Phase
  /-- `ERR`, bits 9:6 -/
  err : Err
  /-- `TRAILING`, bit 10 (R27) -/
  trailing : Bool
  /-- `SHORT`, bit 11 (R27) -/
  short : Bool
  /-- `LASTOP`, bit 12 -/
  lastop : Op
deriving DecidableEq, Repr

/-- `kind` of a working-set item (R34). -/
inductive Kind where
  | leaf | stem
deriving DecidableEq, Repr

/-- An item of the working set (R34). -/
structure Item where
  w : BitVec 24
  kind : Kind
  id : Byte
  seq : BitVec 10
deriving DecidableEq, Repr

/-- An entry of the stem list (R35): `f = true` is "the child is a leaf and `c` its byte value". -/
structure Stem where
  f1 : Bool
  c1 : BitVec 9
  f2 : Bool
  c2 : BitVec 9
deriving DecidableEq, Repr

/-- An entry of the frontier (R37). -/
structure FrontierEntry where
  node : Byte
  due : BitVec 9
deriving DecidableEq, Repr

/-- A byte-addressed memory: the listed bytes, addresses strictly rising, none equal to what an unlisted address
reads as (`Memory.wf` in Ops.lean). -/
abbrev Memory := List Host.Cell

/-- A code: the path's bits, the first bit first (R39). Its `len` is the list's length; the empty list is "no code".
Log entry 13. -/
abbrev Code := List Bool

/-- The model's own: where `DVALIDATE` or `DWALK` stands when one step is one item (R42(b)). Log entry 14. -/
inductive Point where
  /-- at the entry of the micro-operation -/
  | enter
  /-- `DVALIDATE` is about to read the count byte -/
  | count
  /-- `DVALIDATE` is about to read the header -/
  | header
  /-- `DVALIDATE` is about to read the bootstrap entry -/
  | boot
  /-- `DWALK` is in its loops -/
  | walk
deriving DecidableEq, Repr

/-- The model's own: one action of the host (R20, R21, R130, R320; 95_test_vectors.md part 3). Log entry 5. -/
inductive HostAction where
  /-- write a register by number (R21); a write to `CMD` starts a command (R22) -/
  | writeReg (number : Nat) (value : Word)
  /-- read a register by number (R21) -/
  | readReg (number : Nat)
  /-- write a byte of `IN` (R60) -/
  | writeIn (address : Word) (value : Byte)
  /-- read a byte of `IN` (R60) -/
  | readIn (address : Word)
  /-- write a byte of `OUT` (R61) -/
  | writeOut (address : Word) (value : Byte)
  /-- read a byte of `OUT` (R61) -/
  | readOut (address : Word)
  /-- let the sequencer take one step, if it is `BUSY` (R331: `BUSY` lasts an unspecified time) -/
  | pass
  /-- read `STATUS` until `STATE` is not `BUSY` (R130) -/
  | wait
  /-- reset the block (R320) -/
  | reset
deriving DecidableEq, Repr

/-- The whole state. -/
structure State where
  /-- the parameters (R10) -/
  cfg : Config.Params
  -- host-visible registers (R21); `CMD` has no stored value (R47)
  /-- `SRC_OFF`, register 1 (R23) -/
  srcOff : Word
  /-- `SRC_LEN`, register 2 (R23) -/
  srcLen : Word
  /-- `STATUS`, register 3 (R24) -/
  status : Status
  /-- `OUT_LEN`, register 4 (R28) -/
  outLen : Word
  /-- `EXP_LEN`, register 5 (R29) -/
  expLen : Word
  -- working registers common to both commands and of the encoder (R31)
  /-- `OP` -/
  op : Op
  /-- `OFF` -/
  off : Word
  /-- `LEN` -/
  len : Word
  /-- `SEQ` -/
  seq : BitVec 10
  /-- `NS` -/
  ns : BitVec 9
  /-- `N` -/
  n : BitVec 9
  /-- `ROOT` -/
  root : Byte
  /-- `T` -/
  t : BitVec 9
  /-- `ACC` (R40) -/
  acc : Word
  /-- `REM` (R40) -/
  rem : BitVec 6
  /-- `OPOS` -/
  opos : Word
  /-- `TBITS` -/
  tbits : BitVec 33
  -- working registers of the decoder (R32)
  /-- `CNT` -/
  cnt : Byte
  /-- `EXPLEN` -/
  explen : BitVec 24
  /-- `BOOT` -/
  boot : Byte
  /-- `CUR` (R41) -/
  cur : Byte
  /-- `POS` (R41) -/
  pos : BitVec 9
  /-- `OUTCNT` -/
  outcnt : BitVec 24
  /-- `PAY` -/
  pay : BitVec 33
  /-- `NG` -/
  ng : BitVec 30
  /-- `G` -/
  g : BitVec 30
  /-- `W` -/
  w : Word
  -- working tables
  /-- `FREQ` (R33) -/
  freq : Vector (BitVec 24) 256
  /-- `WS` (R34) -/
  ws : List Item
  /-- `STEM` (R35) -/
  stem : Vector Stem 256
  /-- `RANK` (R37) -/
  rank : Vector Byte 256
  /-- `HASRANK` (R37) -/
  hasRank : Vector Bool 256
  /-- `SZ` (R37) -/
  sz : Vector (BitVec 9) 256
  /-- `FR` (R37) -/
  fr : List FrontierEntry
  /-- `TABLE` (R38) -/
  table : Vector Byte 512
  /-- `CODE` (R39) -/
  code : Vector Code 256
  -- memories (R44)
  /-- `IN` (R60) -/
  inMem : Memory
  /-- `OUT` (R61) -/
  outMem : Memory
  -- the model's own
  /-- bits of `W` still to walk: `DWALK`'s loop counter `k` is `k - 1` of this (R42(b), R256). Log entry 14. -/
  k : BitVec 6
  /-- where a micro-operation that runs item by item stands. Log entry 14. -/
  point : Point
  /-- the host's pending actions, oldest first. Log entry 5. -/
  script : List HostAction
  /-- what the host has read, oldest first. Log entry 5. -/
  reads : List Word
  /-- how many times a free value has been taken. Log entry 7. -/
  free : Nat
deriving DecidableEq, Repr

/-- The machine right after reset (10_state.md R47 to R49, 70_reset_and_hazards.md R321). The spec gives `STATUS`,
`OUT_LEN`, `EXP_LEN`, `SRC_OFF` and `SRC_LEN`; the parameters are log entry 2's and entry 1's, the working registers and
tables entry 3's, the empty memories entry 4's. -/
def State.reset : State where
  cfg := { inSize := 4294967296, outSize := none, maxCodeLen := 255, grain := .command }
  srcOff := 0
  srcLen := 0
  status := { state := .idle, phase := .none, err := .none, trailing := false, short := false, lastop := .encode }
  outLen := 0
  expLen := 0
  op := .encode
  off := 0
  len := 0
  seq := 0
  ns := 0
  n := 0
  root := 0
  t := 0
  acc := 0
  rem := 0
  opos := 0
  tbits := 0
  cnt := 0
  explen := 0
  boot := 0
  cur := 0
  pos := 0
  outcnt := 0
  pay := 0
  ng := 0
  g := 0
  w := 0
  freq := Vector.replicate 256 0
  ws := []
  stem := Vector.replicate 256 { f1 := false, c1 := 0, f2 := false, c2 := 0 }
  rank := Vector.replicate 256 0
  hasRank := Vector.replicate 256 false
  sz := Vector.replicate 256 0
  fr := []
  table := Vector.replicate 512 0
  code := Vector.replicate 256 []
  inMem := []
  outMem := []
  k := 0
  point := .enter
  script := []
  reads := []
  free := 0

end Sys2Proof.Machine
end

