-- ==== Sys2Proof/Machine/Ops.lean ====
section
/-! DEFINITION. The named operations over memory, tables and registers; the outcome of a run of statements (`Flow`);
starting a command, raising a fault, moving between micro-operations and ending a command. -/

namespace Sys2Proof.Machine

/-! ## Memory (20_memory.md) -/

/-- What a byte that is not listed reads as. DESIGN CHOICE, log entry 4: R49 leaves `IN` and `OUT` after power-up
unspecified. -/
def Memory.unlisted : Byte := 0

/-- Read one byte. -/
def Memory.read : Memory → Nat → Byte
  | [], _ => Memory.unlisted
  | (x, b) :: rest, a => if x = a then b else Memory.read rest a

/-- Write one byte, keeping the addresses rising and no entry equal to `Memory.unlisted`. -/
def Memory.write : Memory → Nat → Byte → Memory
  | [], a, v => if v = Memory.unlisted then [] else [(a, v)]
  | (x, b) :: rest, a, v =>
    if a < x then (if v = Memory.unlisted then (x, b) :: rest else (a, v) :: (x, b) :: rest)
    else if a = x then (if v = Memory.unlisted then rest else (a, v) :: rest)
    else (x, b) :: Memory.write rest a v

/-- The canonical form: addresses strictly rising, no entry equal to what an unlisted address reads as. -/
abbrev Memory.wf (m : Memory) : Prop :=
  m.Pairwise (fun x y => x.1 < y.1) ∧ ∀ c ∈ m, c.2 ≠ Memory.unlisted

/-- The bytes of `new` below `cut` and those of `old` from `cut` on. -/
def Memory.splice (cut : Nat) (new old : Memory) : Memory :=
  new.filter (fun c => decide (c.1 < cut)) ++ old.filter (fun c => decide (cut ≤ c.1))

/-- `MemRead(a, 1)` on `IN` (R12): an address at or above `INSIZE` does not exist (R60). -/
def readIn (s : State) (a : Nat) : Except Fault Byte :=
  if a < s.cfg.inSize then .ok (Memory.read s.inMem a) else .error (.noInByte a)

/-- `count` single-byte reads of `IN` at `a`, `a + 1`, ..., ascending (R63). -/
def readInRange (s : State) : Nat → Nat → Except Fault (List Byte)
  | _, 0 => .ok []
  | a, count + 1 =>
    match readIn s a, readInRange s (a + 1) count with
    | .ok b, .ok bs => .ok (b :: bs)
    | .error f, _ => .error f
    | _, .error f => .error f

/-- Whether an address is one of `OUT` (R61: `OUTSIZE` may be unbounded). -/
def outHas (cfg : Config.Params) (a : Nat) : Bool :=
  match cfg.outSize with
  | some size => decide (a < size)
  | none => true

/-- Whether a result of `length` bytes is too long for `OUT` (R206, R251). -/
def exceedsOut (cfg : Config.Params) (length : Nat) : Bool :=
  match cfg.outSize with
  | some size => decide (size < length)
  | none => false

/-- `MemWrite(a, 1, v)` on `OUT` (R12): an address at or above `OUTSIZE` does not exist (R61). -/
def writeOut (cfg : Config.Params) (m : Memory) (a : Nat) (v : Byte) : Except Fault Memory :=
  if outHas cfg a then .ok (Memory.write m a v) else .error (.noOutByte a)

/-- Single-byte writes of `OUT` at `a`, `a + 1`, ..., ascending (R63, R66). -/
def writeOutBytes (cfg : Config.Params) : Memory → Nat → List Byte → Except Fault Memory
  | m, _, [] => .ok m
  | m, a, v :: vs =>
    match writeOut cfg m a v with
    | .ok m' => writeOutBytes cfg m' (a + 1) vs
    | .error f => .error f

/-! ## Tables (10_state.md section 4) -/

/-- `T[i]` of a 256-entry table. -/
def entry {α : Type} (t : Vector α 256) (i : Byte) : α := t[i.toNat]'(i.isLt)

/-- `T[i] <- v` of a 256-entry table. -/
def setEntry {α : Type} (t : Vector α 256) (i : Byte) (v : α) : Vector α 256 := t.set i.toNat v i.isLt

/-- `TABLE[i]` (R38). -/
def slotByte (t : Vector Byte 512) (i : BitVec 9) : Byte := t[i.toNat]'(i.isLt)

/-- `TABLE[i] <- v` (R38). -/
def setSlotByte (t : Vector Byte 512) (i : BitVec 9) (v : Byte) : Vector Byte 512 := t.set i.toNat v i.isLt

/-! ## Runs of statements (00_scope.md R12) -/

/-- How a run of statements over `α` ends: it ran through, it raised a spec fault with the state the statements
before the `raise` left (R282), or it has no meaning on this state. -/
inductive Flow (α : Type) where
  | ok (a : α)
  | raise (e : Err) (a : α)
  | stop (f : Fault)
deriving DecidableEq, Repr

/-- Statements after statements: a `raise` "ends the command at once: no later statement of the command runs" (R12). -/
def Flow.andThen {α : Type} (x : Flow α) (k : α → Flow α) : Flow α :=
  match x with
  | .ok a => k a
  | .raise e a => .raise e a
  | .stop f => .stop f

/-- Put the registers a loop worked on back into a larger state. -/
def Flow.map {α β : Type} (g : α → β) (x : Flow α) : Flow β :=
  match x with
  | .ok a => .ok (g a)
  | .raise e a => .raise e (g a)
  | .stop f => .stop f

/-- Go on with what an access gave. -/
def Flow.access {α β : Type} (r : Except Fault β) (k : β → Flow α) : Flow α :=
  match r with
  | .ok b => k b
  | .error f => .stop f

/-! ## Registers (10_state.md R21) -/

/-- A host write of a register other than `CMD` (R21): `SRC_OFF` and `SRC_LEN` take the value at any time (R326);
`STATUS`, `OUT_LEN`, `EXP_LEN` and numbers that do not exist ignore it. -/
def writeReg (number : Nat) (v : Word) (s : State) : State :=
  match number with
  | 1 => { s with srcOff := v }
  | 2 => { s with srcLen := v }
  | _ => s

/-! ## Commands and faults (40_commands.md, 60_exceptions.md) -/

/-- Command start (R131). Started from `FAULT` exactly as from `DONE` or `IDLE` (R284): it stands where another machine
has a return from an exception. -/
def startCommand (op : Op) (s : State) : State :=
  { s with
    op := op
    off := s.srcOff
    len := s.srcLen
    outLen := 0
    expLen := 0
    point := .enter
    status := { state := .busy, phase := .none, err := .none, trailing := false, short := false, lastop := op } }

/-- TAKING A FAULT, the whole of it (R283): `PHASE`, `LASTOP`, `EXP_LEN`, `SRC_OFF` and `SRC_LEN` keep their values. -/
def takeFault (e : Err) (s : State) : State :=
  { s with
    outLen := 0
    status := { s.status with err := e, trailing := false, short := false, state := .fault } }

/-- `PHASE <- p`, the block's control transfer (R12, R133, R137). -/
def enterPhase (p : Phase) (s : State) : State :=
  { s with point := .enter, status := { s.status with phase := p } }

/-- The first micro-operation of a command (R133, R137). -/
def firstPhase : Op → Phase
  | .encode => .freq
  | .decode => .dvalidate

/-- The range check on the 33-bit sum (R132), then the first micro-operation (R133, R137). -/
def enterSequence (s : State) : Flow State :=
  if s.cfg.inSize < s.off.toNat + s.len.toNat then .raise .badRange s
  else .ok (enterPhase (firstPhase s.op) s)

/-- Command end without fault (R140). -/
def endCommand (s : State) : State :=
  { s with
    outLen := match s.op with
      | .encode => s.opos
      | .decode => s.outcnt.setWidth 32
    point := .enter
    status := { s.status with phase := .none, state := .done } }

/-- The outcome of a run of statements of a command: a raised fault is taken. -/
def Flow.finish (x : Flow State) : Host.Outcome State Fault Refusal :=
  match x with
  | .ok s => .next s
  | .raise e s => .next (takeFault e s)
  | .stop f => .fault f

end Sys2Proof.Machine
end

