-- ==== Sys2Proof/Machine/Operands.lean ====
section
/-! DEFINITION. Operand forms: the input bytes of a command, the references of a stem, the addresses the decoder
reads, the bit it takes and the fields of the entry it holds. -/

namespace Sys2Proof.Machine

/-- `OP` as bit 0 of a value written to `CMD` (10_state.md R22, R91). -/
def commandOp (v : Word) : Op := if v.getLsbD 0 then .decode else .encode

/-- The `LEN` input bytes at `OFF`, ascending: the reads of `FREQ` and of `PACK` (R63, R151, R227). -/
def sourceBytes (s : State) : Except Fault (List Byte) := readInRange s s.off.toNat s.len.toNat

/-- The byte value or stem index of a child reference: bits 7:0 of the 9-bit field (R35: only the sentinel's child-1
uses bit 8; R202 `c[7:0]`). Log entry 9. -/
def childId (c : BitVec 9) : Byte := c.setWidth 8

/-- Address of the count byte, buffer offset 4 (R72, R251). -/
def countAddress (s : State) : Nat := s.off.toNat + 4

/-- Address of the bootstrap entry, buffer offset 5 (R72, R251). -/
def bootAddress (s : State) : Nat := s.off.toNat + 5

/-- Size of header and table, `6 + 2 CNT` (R251). -/
def tableEnd (s : State) : Nat := 6 + 2 * s.cnt.toNat

/-- Address of table byte `2 POS + b` (R257). -/
def tableAddress (s : State) (b : Bool) : Nat := s.off.toNat + 4 + 2 * s.pos.toNat + b.toNat

/-- Address of the next payload group (R256). -/
def groupAddress (s : State) : Nat := s.pay.toNat + 4 * s.g.toNat

/-- The input bit about to be walked: bit `k - 1` of `W`, counting down from bit 31 (R256, R65). -/
def nextBit (s : State) : Bool := s.w.getLsbD (s.k.toNat - 1)

/-- The position a step goes to: `POS + CUR[5:0] + 1` (R97, R257). -/
def nextPosition (s : State) : Nat := s.pos.toNat + (refSkip s.cur).toNat + 1

/-- `CUR[7 - b]`: whether the child of branch `b` is a leaf (R98, R257). -/
def leafFlag (cur : Byte) (b : Bool) : Bool := if b then refF2 cur else refF1 cur

end Sys2Proof.Machine
end

