-- ==== Sys2Proof/Machine/Frequency.lean ====
section
/-! DEFINITION. `FREQ` (41_frequency_counter.md). -/

namespace Sys2Proof.Machine

/-- The tally loop of R151 over the bytes read. -/
def tally (freq : Vector (BitVec 24) 256) : List Byte → Vector (BitVec 24) 256
  | [] => freq
  | v :: vs => tally (setEntry freq v (entry freq v + 1)) vs

/-- `FREQ` (R151), then `PHASE <- MERGE` (R133). -/
def freqOp (s : State) : Flow State :=
  if Config.lenLimit ≤ s.len.toNat then .raise .inputTooLarge s
  else Flow.access (sourceBytes s) fun bytes =>
    .ok (enterPhase .merge { s with freq := tally (Vector.replicate 256 0) bytes })

/-- The meaning of `FREQ`. -/
def execFreq (s : State) : Host.Outcome State Fault Refusal := (freqOp s).finish

end Sys2Proof.Machine
end

