-- ==== Sys2Proof/Machine/Merger.lean ====
section
/-! DEFINITION. `MERGE` (42_huffman_merger.md). -/

namespace Sys2Proof.Machine

/-- Leaf enumeration in descending byte order (R161): the items for byte values `b - 1` down to 0, the first numbered
`seq`. -/
def leafItems (freq : Vector (BitVec 24) 256) : Nat → Nat → List Item
  | 0, _ => []
  | b + 1, seq =>
    let f := entry freq (BitVec.ofNat 8 b)
    if f = 0 then leafItems freq b seq
    else { w := f, kind := .leaf, id := BitVec.ofNat 8 b, seq := BitVec.ofNat 10 seq } :: leafItems freq b (seq + 1)

/-- Fewer than two symbols: the synthetic leaves (R162). -/
def withSynthetic (ws : List Item) : List Item :=
  match ws with
  | [] => [{ w := 0, kind := .leaf, id := 0x00, seq := 0 }, { w := 0, kind := .leaf, id := 0xFF, seq := 1 }]
  | [x] => [x, { w := 0, kind := .leaf, id := x.id ^^^ 0xFF#8, seq := 1 }]
  | _ => ws

/-- The working set after R161 and R162. -/
def initialItems (freq : Vector (BitVec 24) 256) : List Item := withSynthetic (leafItems freq 256 0)

/-- The order of the working set: weight, then insertion sequence (R163). -/
def Item.smaller (x y : Item) : Bool := decide (x.w < y.w) || (decide (x.w = y.w) && decide (x.seq < y.seq))

/-- The smallest item of a working set that holds `best`. -/
def smallestItem (best : Item) : List Item → Item
  | [] => best
  | x :: xs => smallestItem (if x.smaller best then x else best) xs

/-- The registers of the merge loop (R164). -/
structure MergeRegs where
  ws : List Item
  seq : BitVec 10
  ns : BitVec 9
  stem : Vector Stem 256
deriving DecidableEq, Repr

/-- The new stem of a merge: `hi` is child-1, `lo` is child-2 (R164). -/
def mergedStem (lo hi : Item) : Stem where
  f1 := hi.kind == .leaf
  c1 := hi.id.setWidth 9
  f2 := lo.kind == .leaf
  c2 := lo.id.setWidth 9

/-- One iteration of R164 with `lo` and `hi` found and `rest` what remains. -/
def mergePair (lo hi : Item) (rest : List Item) (r : MergeRegs) : MergeRegs where
  ws := rest ++ [{ w := lo.w + hi.w, kind := .stem, id := r.ns.setWidth 8, seq := r.seq }]
  seq := r.seq + 1
  ns := r.ns + 1
  stem := setEntry r.stem (r.ns.setWidth 8) (mergedStem lo hi)

/-- The loop of R164: each iteration takes one item off the working set, so its length bounds the loop (R143). -/
def mergeLoop : Nat → MergeRegs → MergeRegs
  | 0, r => r
  | fuel + 1, r =>
    match r.ws with
    | x :: y :: zs =>
      let lo := smallestItem x (y :: zs)
      match (x :: y :: zs).erase lo with
      | u :: us =>
        let hi := smallestItem u us
        mergeLoop fuel (mergePair lo hi ((u :: us).erase hi) r)
      | [] => r
    | _ => r

/-- The sentinel (10_state.md R36, R166). -/
def sentinel (root : Byte) : Stem where
  f1 := true
  c1 := 0x100
  f2 := false
  c2 := root.setWidth 9

/-- The merge loop from the initial working set (R161, R162, R164). -/
def mergedRegs (s : State) : MergeRegs :=
  let ws := initialItems s.freq
  mergeLoop ws.length { ws := ws, seq := BitVec.ofNat 10 ws.length, ns := 0, stem := s.stem }

/-- `MERGE` (R161 to R166), then `PHASE <- PLACE` (R133). -/
def mergeOp (s : State) : Flow State :=
  let r := mergedRegs s
  let root : Byte := (r.ns - 1).setWidth 8
  .ok (enterPhase .place
    { s with
      ws := r.ws
      seq := r.seq
      ns := r.ns
      stem := setEntry r.stem (r.ns.setWidth 8) (sentinel root)
      root := root
      n := r.ns + 1 })

/-- The meaning of `MERGE`. -/
def execMerge (s : State) : Host.Outcome State Fault Refusal := (mergeOp s).finish

end Sys2Proof.Machine
end

