-- ==== Sys2Proof/Machine/Packer.lean ====
section
/-! DEFINITION. `CODEBUILD` and `PACK` (45_code_builder_bit_packer.md). -/

namespace Sys2Proof.Machine

/-- `VISIT(s, p)` (R222). The first argument is how many more bits a path may take, `MAXCODELEN - |p|`: at 0 the test
`|p| + 1 > MAXCODELEN` raises `CodeTooLong`. -/
def visit (stem : Vector Stem 256) : Nat → Byte → Code → Vector Code 256 → Flow (Vector Code 256)
  | 0, _, _, code => .raise .codeTooLong code
  | room + 1, s, p, code =>
    let m := entry stem s
    (if m.f1 then .ok (setEntry code (childId m.c1) (p ++ [false]))
      else visit stem room (childId m.c1) (p ++ [false]) code).andThen fun code =>
    if m.f2 then .ok (setEntry code (childId m.c2) (p ++ [true]))
    else visit stem room (childId m.c2) (p ++ [true]) code

/-- `CODEBUILD` (R221, R222), then `PHASE <- HDRWRITE` (R133). -/
def codebuildOp (s : State) : Flow State :=
  ((visit s.stem s.cfg.maxCodeLen s.root [] (Vector.replicate 256 [])).map (fun code => { s with code := code })).andThen
    (fun s' => .ok (enterPhase .hdrwrite s'))

/-- The meaning of `CODEBUILD`. -/
def execCodebuild (s : State) : Host.Outcome State Fault Refusal := (codebuildOp s).finish

/-- The registers of the bit-packer (R226, R227). -/
structure PackRegs where
  acc : Word
  rem : BitVec 6
  opos : Word
  out : Memory
deriving DecidableEq, Repr

/-- `FLUSH` (R227): the accumulator as 4 little-endian bytes, then a fresh accumulator. -/
def flush (cfg : Config.Params) (r : PackRegs) : Flow PackRegs :=
  Flow.access (writeOutBytes cfg r.out r.opos.toNat (encode (.group r.acc))) fun m =>
    .ok { acc := 0, rem := 32, opos := r.opos + 4, out := m }

/-- Put one bit at the top of what remains of the accumulator (R227). -/
def putBit (b : Bool) (r : PackRegs) : PackRegs :=
  let rem := r.rem - 1
  { r with rem := rem, acc := r.acc ||| ((BitVec.ofBool b).setWidth 32 <<< rem.toNat) }

/-- The inner loop body of R227: flush a full accumulator when the next bit arrives. -/
def packBit (cfg : Config.Params) (b : Bool) (r : PackRegs) : Flow PackRegs :=
  (if r.rem = 0 then flush cfg r else .ok r).andThen fun r => .ok (putBit b r)

/-- The bits of one code, in path order (R227). -/
def packBits (cfg : Config.Params) : List Bool → PackRegs → Flow PackRegs
  | [], r => .ok r
  | b :: bs, r => (packBit cfg b r).andThen (packBits cfg bs)

/-- The outer loop of R227 over the input bytes. -/
def packBytes (cfg : Config.Params) (code : Vector Code 256) : List Byte → PackRegs → Flow PackRegs
  | [], r => .ok r
  | v :: vs, r => (packBits cfg (entry code v) r).andThen (packBytes cfg code vs)

/-- `PACK` (R226, R227; the final `FLUSH` always runs), then the command end (R133, R140). -/
def packOp (s : State) : Flow State :=
  Flow.access (sourceBytes s) fun bytes =>
    (((packBytes s.cfg s.code bytes { acc := 0, rem := 32, opos := s.opos, out := s.outMem }).andThen (flush s.cfg)).map
      (fun r => { s with acc := r.acc, rem := r.rem, opos := r.opos, outMem := r.out })).andThen
      (fun s' => .ok (endCommand s'))

/-- The meaning of `PACK`. -/
def execPack (s : State) : Host.Outcome State Fault Refusal := (packOp s).finish

end Sys2Proof.Machine
end

