-- ==== Sys2Proof/Machine/Placer.lean ====
section
/-! DEFINITION. `PLACE`: the reference placer (43_node_placer.md R186 to R189). -/

namespace Sys2Proof.Machine

/-- The size of the subtree below one child (R186): 0 for a leaf. -/
def childSize (sz : Vector (BitVec 9) 256) (f : Bool) (c : BitVec 9) : BitVec 9 :=
  if f then 0 else entry sz (childId c)

/-- `SZ[s]` for `count` stems from `s` on, ascending (R186). -/
def sizes (stem : Vector Stem 256) : Nat → Nat → Vector (BitVec 9) 256 → Vector (BitVec 9) 256
  | _, 0, sz => sz
  | s, count + 1, sz =>
    let i := BitVec.ofNat 8 s
    let m := entry stem i
    sizes stem (s + 1) count (setEntry sz i (1 + childSize sz m.f1 m.c1 + childSize sz m.f2 m.c2))

/-- `HASRANK[s] <- 0` for `count` stems from `s` on (R186). -/
def clearRanked : Nat → Nat → Vector Bool 256 → Vector Bool 256
  | _, 0, h => h
  | s, count + 1, h => clearRanked (s + 1) count (setEntry h (BitVec.ofNat 8 s) false)

/-- A frontier entry for a stem child of a stem placed at rank `t`: `due = t + 64` (R186). -/
def frontierChild (f : Bool) (c : BitVec 9) (t : Nat) : List FrontierEntry :=
  if f then [] else [{ node := childId c, due := BitVec.ofNat 9 (t + Config.maxGap) }]

/-- `PUSH(s, t)`: child-1 before child-2 (R186). -/
def pushChildren (m : Stem) (t : Nat) (fr : List FrontierEntry) : List FrontierEntry :=
  fr ++ frontierChild m.f1 m.c1 t ++ frontierChild m.f2 m.c2 t

/-- The test of R187 on the entries from index `k` on: `none` when some `due < T + k`, else whether some
`due = T + k`. -/
def frontierTight (t : Nat) : Nat → List FrontierEntry → Option Bool
  | _, [] => some false
  | k, e :: es =>
    if e.due.toNat < t + k then none
    else match frontierTight t (k + 1) es with
      | none => none
      | some tight => some (decide (e.due.toNat = t + k) || tight)

/-- The smallest index at which `SZ[FR[k].node]` is minimal (R187), given the best index and size so far. -/
def smallestSubtree (sz : Vector (BitVec 9) 256) (bestIndex bestSize : Nat) : Nat → List FrontierEntry → Nat
  | _, [] => bestIndex
  | k, e :: es =>
    let size := (entry sz e.node).toNat
    if size < bestSize then smallestSubtree sz k size (k + 1) es
    else smallestSubtree sz bestIndex bestSize (k + 1) es

/-- The index the loop of R187 takes. -/
def frontierPick (sz : Vector (BitVec 9) 256) (tight : Bool) (fr : List FrontierEntry) : Nat :=
  match tight, fr with
  | false, e :: es => smallestSubtree sz 0 (entry sz e.node).toNat 1 es
  | _, _ => 0

/-- The registers of the placement loop (R187). -/
structure PlaceRegs where
  rank : Vector Byte 256
  hasRank : Vector Bool 256
  fr : List FrontierEntry
  t : BitVec 9
deriving DecidableEq, Repr

/-- Give the stem of frontier entry `i` rank `t` (R187). -/
def placeEntry (stem : Vector Stem 256) (t i : Nat) (e : FrontierEntry) (r : PlaceRegs) : PlaceRegs where
  rank := setEntry r.rank e.node (BitVec.ofNat 8 t)
  hasRank := setEntry r.hasRank e.node true
  fr := pushChildren (entry stem e.node) t (r.fr.eraseIdx i)
  t := BitVec.ofNat 9 t

/-- `count` iterations of the loop of R187 from rank `t` on. -/
def placeLoop (stem : Vector Stem 256) (sz : Vector (BitVec 9) 256) : Nat → Nat → PlaceRegs → Flow PlaceRegs
  | _, 0, r => .ok r
  | t, count + 1, r =>
    match frontierTight t 0 r.fr with
    | none => .raise .placementUnsatisfiable { r with t := BitVec.ofNat 9 t }
    | some tight =>
      let i := frontierPick sz tight r.fr
      match r.fr[i]? with
      | some e => placeLoop stem sz (t + 1) count (placeEntry stem t i e r)
      | none => .stop .frontierEmpty

/-- The index of the sentinel, `N - 1` (R166). -/
def sentinelIndex (s : State) : Byte := (s.n - 1).setWidth 8

/-- The registers after the initialisation of R186: the sentinel at rank 0, its stem child in the frontier. -/
def placeStart (s : State) : PlaceRegs where
  rank := setEntry s.rank (sentinelIndex s) 0
  hasRank := setEntry (clearRanked 0 s.n.toNat s.hasRank) (sentinelIndex s) true
  fr := pushChildren (entry s.stem (sentinelIndex s)) 0 []
  t := s.t

/-- `PLACE` (R186, R187), then `PHASE <- SERIALIZE` (R133). -/
def placeOp (s : State) : Flow State :=
  let sz := sizes s.stem 0 s.n.toNat s.sz
  ((placeLoop s.stem sz 1 (s.n.toNat - 1) (placeStart s)).map
    (fun r => { s with sz := sz, rank := r.rank, hasRank := r.hasRank, fr := r.fr, t := r.t })).andThen
    (fun s' => .ok (enterPhase .serialize s'))

/-- The meaning of `PLACE`. -/
def execPlace (s : State) : Host.Outcome State Fault Refusal := (placeOp s).finish

end Sys2Proof.Machine
end

