-- ==== Sys2Proof/Machine/Serializer.lean ====
section
/-! DEFINITION. `SERIALIZE` and `HDRWRITE` (44_tree_serializer.md). -/

namespace Sys2Proof.Machine

/-- `ENTRY(j, f, c)` (R202): the literal of a leaf, else the target's flags and `RANK[c] - j - 1`; `none` is
`SkipOverflow`. -/
def tableEntry (stem : Vector Stem 256) (rank : Vector Byte 256) (j : Byte) (f : Bool) (c : BitVec 9) : Option Byte :=
  if f then some (childId c)
  else
    let d : Int := (entry rank (childId c)).toNat - j.toNat - 1
    if d < 0 ∨ Config.maxSkip < d then none
    else some (refByte (entry stem (childId c)).f1 (entry stem (childId c)).f2 (BitVec.ofInt 6 d))

/-- The slot of one stem (R201): child-1's entry at `2j`, child-2's at `2j + 1`. -/
def serializeStem (stem : Vector Stem 256) (rank : Vector Byte 256) (i : Byte) (table : Vector Byte 512) :
    Flow (Vector Byte 512) :=
  let m := entry stem i
  let j := entry rank i
  match tableEntry stem rank j m.f1 m.c1 with
  | none => .raise .skipOverflow table
  | some e1 =>
    let table := setSlotByte table (BitVec.ofNat 9 (2 * j.toNat)) e1
    match tableEntry stem rank j m.f2 m.c2 with
    | none => .raise .skipOverflow table
    | some e2 => .ok (setSlotByte table (BitVec.ofNat 9 (2 * j.toNat + 1)) e2)

/-- The loop of R201 over `count` stems from `s` on. -/
def serializeLoop (stem : Vector Stem 256) (rank : Vector Byte 256) :
    Nat → Nat → Vector Byte 512 → Flow (Vector Byte 512)
  | _, 0, table => .ok table
  | s, count + 1, table =>
    (serializeStem stem rank (BitVec.ofNat 8 s) table).andThen (serializeLoop stem rank (s + 1) count)

/-- `SERIALIZE` (R201 to R204; the last statement writes the count byte), then `PHASE <- CODEBUILD` (R133). -/
def serializeOp (s : State) : Flow State :=
  ((serializeLoop s.stem s.rank 0 s.n.toNat s.table).map (fun table => { s with table := table })).andThen
    (fun s' => .ok (enterPhase .codebuild { s' with table := setSlotByte s'.table 0 ((s.n - 1).setWidth 8) }))

/-- The meaning of `SERIALIZE`. -/
def execSerialize (s : State) : Host.Outcome State Fault Refusal := (serializeOp s).finish

/-- `TBITS`: the sum over byte values below `b` of `FREQ[b] × CODE[b].len` (R206). -/
def totalBits (freq : Vector (BitVec 24) 256) (code : Vector Code 256) : Nat → Nat
  | 0 => 0
  | b + 1 =>
    totalBits freq code b + (entry freq (BitVec.ofNat 8 b)).toNat * (entry code (BitVec.ofNat 8 b)).length

/-- `G`, the number of payload groups for a number of bits: `max(1, ceil(bits / 32))` (R206, R229). -/
def groupsFor (bits : Nat) : Nat := max 1 ((bits + 31) / 32)

/-- `TABLE[i]` for `count` indices from `i` on (R207). -/
def tableBytesFrom (table : Vector Byte 512) : Nat → Nat → List Byte
  | _, 0 => []
  | i, count + 1 => slotByte table (BitVec.ofNat 9 i) :: tableBytesFrom table (i + 1) count

/-- The bytes `HDRWRITE` writes from `OUT` address 0 on: header, then table (R207, R72). -/
def headerAndTable (s : State) : List Byte :=
  encode (.hdr Config.tag (s.len.setWidth 24)) ++ tableBytesFrom s.table 0 (2 * s.n.toNat)

/-- `total`: the length of the whole result, `4 + 2N + 4G` (R206, R74). -/
def resultLength (s : State) (bits : Nat) : Nat := 4 + 2 * s.n.toNat + 4 * groupsFor bits

/-- `HDRWRITE` (R206, R207), then `PHASE <- PACK` (R133). -/
def hdrwriteOp (s : State) : Flow State :=
  let bits := totalBits s.freq s.code 256
  let s1 := { s with tbits := BitVec.ofNat 33 bits }
  if exceedsOut s.cfg (resultLength s bits) then .raise .outOverflow s1
  else Flow.access (writeOutBytes s.cfg s.outMem 0 (headerAndTable s)) fun m =>
    .ok (enterPhase .pack { s1 with outMem := m, opos := BitVec.ofNat 32 (4 + 2 * s.n.toNat) })

/-- The meaning of `HDRWRITE`. -/
def execHdrwrite (s : State) : Host.Outcome State Fault Refusal := (hdrwriteOp s).finish

end Sys2Proof.Machine
end

