-- ==== Sys2Proof/Machine/Flags.lean ====
section
/-! DEFINITION. The codes of `STATUS` and its 32-bit word (10_state.md R24 to R26), the two anomaly flags
(46_bit_walker.md R262), and what the host reads from a register (R21, R328). -/

namespace Sys2Proof.Machine

/-- `STATE` codes (R24). -/
def RunState.code : RunState → Nat
  | .idle => 0
  | .busy => 1
  | .done => 2
  | .fault => 3

/-- `PHASE` codes (R25). -/
def Phase.code : Phase → Nat
  | .none => 0
  | .freq => 1
  | .merge => 2
  | .place => 3
  | .serialize => 4
  | .codebuild => 5
  | .hdrwrite => 6
  | .pack => 7
  | .dvalidate => 8
  | .dwalk => 9

/-- `ERR` codes (R26). -/
def Err.code : Err → Nat
  | .none => 0
  | .inputTooLarge => 1
  | .truncatedHeader => 2
  | .truncatedTable => 3
  | .badFormatTag => 4
  | .positionOutOfTree => 5
  | .skipOverflow => 6
  | .placementUnsatisfiable => 7
  | .codeTooLong => 8
  | .badRange => 9
  | .outOverflow => 10

/-- `LASTOP` and `OP` codes (R22, R24). -/
def Op.code : Op → Nat
  | .encode => 0
  | .decode => 1

/-- `STATUS` as the host reads it: `STATE` 1:0, `PHASE` 5:2, `ERR` 9:6, `TRAILING` 10, `SHORT` 11, `LASTOP` 12, bits
31:13 zero (R24). -/
def Status.word (st : Status) : Word :=
  BitVec.ofNat 32
    (st.state.code + st.phase.code * 4 + st.err.code * 64 + st.trailing.toNat * 1024 + st.short.toNat * 2048
      + st.lastop.code * 4096)

/-- `OUTCNT < EXPLEN`: another symbol is still wanted (R256), and the `SHORT` flag when the walk has ended (R262). -/
def shortOf (s : State) : Bool := decide (s.outcnt.toNat < s.explen.toNat)

/-- The `TRAILING` flag (R262): some payload byte was never fetched. -/
def trailingOf (s : State) : Bool := decide (s.pay.toNat + 4 * s.g.toNat < s.off.toNat + s.len.toNat)

/-- What a host read of a register gives (R21): `CMD` and numbers that do not exist read 0. -/
def readReg (number : Nat) (s : State) : Word :=
  match number with
  | 1 => s.srcOff
  | 2 => s.srcLen
  | 3 => s.status.word
  | 4 => s.outLen
  | 5 => s.expLen
  | _ => 0

end Sys2Proof.Machine
end

