-- ==== Sys2Proof/Machine/Walker.lean ====
section
/-! DEFINITION. `DVALIDATE` and `DWALK` (46_bit_walker.md), and the items of the encoded buffer they interpret: `HDR`,
`COUNT`, `REF`, `LEAF`, `GROUP` (30_encoding.md). Log entry 11: the meaning of a data format is what the decoder does on
reading it. -/

namespace Sys2Proof.Machine

/-! ## DVALIDATE -/

/-- The two length tests that need no byte (R251). -/
def lengthTests (s : State) : Flow State :=
  if s.len.toNat < 4 then .raise .truncatedHeader s
  else if s.len.toNat < 6 then .raise .truncatedTable s
  else .ok { s with point := .count }

/-- On the count byte (R251): `CNT`, and the test that the whole table is present. -/
def countItem (nminus1 : Byte) (s : State) : Flow State :=
  let s1 := { s with cnt := nminus1 }
  if s1.len.toNat < tableEnd s1 then .raise .truncatedTable s1 else .ok { s1 with point := .header }

/-- On the header (R251): the tag test (R288), `EXPLEN`, and the test that the result fits `OUT` (R254). -/
def headerItem (tag : Byte) (len : BitVec 24) (s : State) : Flow State :=
  if tag ≠ Config.tag then .raise .badFormatTag s
  else
    let s1 := { s with explen := len }
    if exceedsOut s.cfg len.toNat then .raise .outOverflow s1 else .ok { s1 with point := .boot }

/-- On the bootstrap entry (R251): `BOOT`, `PAY`, `NG` and the register `EXP_LEN`, then `PHASE <- DWALK` (R137). -/
def bootItem (e : Byte) (s : State) : State :=
  enterPhase .dwalk
    { s with
      boot := e
      pay := BitVec.ofNat 33 (s.off.toNat + tableEnd s)
      ng := BitVec.ofNat 30 ((s.len.toNat - tableEnd s) / 4)
      expLen := s.explen.setWidth 32 }

/-- Read the count byte. -/
def readCount (s : State) : Flow State := Flow.access (readIn s (countAddress s)) fun b => countItem b s

/-- Read the header's tag and length, little-endian (R64, R92). -/
def readHeader (s : State) : Flow State :=
  Flow.access (readInRange s s.off.toNat 4) fun bytes =>
    match bytes with
    | [b0, b1, b2, b3] => headerItem b0 (b3 ++ b2 ++ b1) s
    | _ => .ok s

/-- Read the bootstrap entry. -/
def readBoot (s : State) : Flow State := Flow.access (readIn s (bootAddress s)) fun b => .ok (bootItem b s)

/-- `DVALIDATE` (R251), in the order of R252. -/
def dvalidateOp (s : State) : Flow State :=
  (((lengthTests s).andThen readCount).andThen readHeader).andThen readBoot

/-- The meaning of `DVALIDATE`. -/
def execDvalidate (s : State) : Host.Outcome State Fault Refusal := (dvalidateOp s).finish

/-! ## DWALK -/

/-- Initialisation (R255). -/
def walkStart (s : State) : State :=
  { s with cur := s.boot, pos := 0, outcnt := 0, g := 0, k := 0, point := .walk }

/-- On a payload group (R256): `W`, `G`, and 32 bits to walk. -/
def groupItem (bits : Word) (s : State) : State := { s with w := bits, g := s.g + 1, k := 32 }

/-- Fetch the next group, `MemRead(PAY + 4 G, 4)` (R256). -/
def readGroup (s : State) : Flow State :=
  Flow.access (readInRange s (groupAddress s) 4) fun bytes =>
    match bytes with
    | [b0, b1, b2, b3] => .ok (groupItem (wordOfBytes b0 b1 b2 b3) s)
    | _ => .ok s

/-- The first two statements of `STEP` (R257), the bit taken off `W`: the new position and the bound test. -/
def advance (s : State) : Flow State :=
  let s1 := { s with k := s.k - 1, pos := BitVec.ofNat 9 (nextPosition s) }
  if s.cnt.toNat < nextPosition s then .raise .positionOutOfTree s1 else .ok s1

/-- On a literal (R257): emit it and stand at `(BOOT, 0)` again (R259). -/
def leafItem (v : Byte) (s : State) : Flow State :=
  Flow.access (writeOut s.cfg s.outMem s.outcnt.toNat v) fun m =>
    .ok { s with outMem := m, outcnt := s.outcnt + 1, cur := s.boot, pos := 0 }

/-- On a reference (R257): it is the current entry. -/
def refItem (e : Byte) (s : State) : State := { s with cur := e }

/-- The rest of `STEP(b)` (R257): the table byte, a literal or a reference by the flag of the entry held before
(R98). -/
def interpret (b : Bool) (s : State) : Flow State :=
  Flow.access (readIn s (tableAddress s b)) fun e => if leafFlag s.cur b then leafItem e s else .ok (refItem e s)

/-- `STEP(W[k])` (R256, R257). -/
def stepBit (s : State) : Flow State := (advance s).andThen (interpret (nextBit s))

/-- The inner loop of R256: `count` more bits, left when the expected length is reached. -/
def walkBits : Nat → State → Flow State
  | 0, s => .ok s
  | count + 1, s => if s.outcnt = s.explen then .ok s else (stepBit s).andThen (walkBits count)

/-- The group loop of R256: at most `count` more whole groups are left. -/
def walkGroups : Nat → State → Flow State
  | 0, s => .ok s
  | count + 1, s =>
    if shortOf s then ((readGroup s).andThen (walkBits 32)).andThen (walkGroups count) else .ok s

/-- After the loops: the anomaly flags (R262), then the command end (R137, R140). -/
def finishWalk (s : State) : State :=
  endCommand { s with status := { s.status with short := shortOf s, trailing := trailingOf s } }

/-- `DWALK` (R255 to R262). -/
def dwalkOp (s : State) : Flow State :=
  (walkGroups s.ng.toNat (walkStart s)).andThen fun s' => .ok (finishWalk s')

/-- The meaning of `DWALK`. -/
def execDwalk (s : State) : Host.Outcome State Fault Refusal := (dwalkOp s).finish

/-! ## The items as rows of the opcode table -/

/-- The meaning of `HDR` (R92, R251). -/
def execHdr (tag : Byte) (len : BitVec 24) (s : State) : Host.Outcome State Fault Refusal :=
  (headerItem tag len s).finish

/-- The meaning of `COUNT` (R93, R251). -/
def execCount (nminus1 : Byte) (s : State) : Host.Outcome State Fault Refusal := (countItem nminus1 s).finish

/-- The meaning of `REF` (R96): in `DVALIDATE` the bootstrap entry (R99, R251), else the walk's new entry (R257). -/
def execRef (f1 f2 : Bool) (skip : BitVec 6) (s : State) : Host.Outcome State Fault Refusal :=
  match s.status.phase with
  | .dvalidate => .next (bootItem (refByte f1 f2 skip) s)
  | _ => .next (refItem (refByte f1 f2 skip) s)

/-- The meaning of `LEAF` (R95, R257). -/
def execLeaf (value : Byte) (s : State) : Host.Outcome State Fault Refusal := (leafItem value s).finish

/-- The meaning of `GROUP` (R100, R256). -/
def execGroup (bits : Word) (s : State) : Host.Outcome State Fault Refusal := .next (groupItem bits s)

end Sys2Proof.Machine
end

