-- ==== Sys2Proof/Machine/Command.lean ====
section
/-! DEFINITION. The commands `ENCODE` and `DECODE` (40_commands.md), each as one transition (R141), and the
micro-operations by phase. -/

namespace Sys2Proof.Machine

/-- The micro-operation a phase names; at `NONE` a started command makes its range check (R132, R133, R137). -/
def microOp : Phase → State → Flow State
  | .none => enterSequence
  | .freq => freqOp
  | .merge => mergeOp
  | .place => placeOp
  | .serialize => serializeOp
  | .codebuild => codebuildOp
  | .hdrwrite => hdrwriteOp
  | .pack => packOp
  | .dvalidate => dvalidateOp
  | .dwalk => dwalkOp

/-- The seven micro-operations of `ENCODE` in their fixed order, after the range check (R132, R133). -/
def encodeFlow (s : State) : Flow State :=
  (((((((enterSequence s).andThen freqOp).andThen mergeOp).andThen placeOp).andThen serializeOp).andThen
    codebuildOp).andThen hdrwriteOp).andThen packOp

/-- The two micro-operations of `DECODE`, after the range check (R132, R137). -/
def decodeFlow (s : State) : Flow State := ((enterSequence s).andThen dvalidateOp).andThen dwalkOp

/-- The meaning of `ENCODE` (R131 to R133, R140); a `CMD` write while `BUSY` is ignored (R327). -/
def execEncode (s : State) : Host.Outcome State Fault Refusal :=
  if s.status.state = .busy then .next s else (encodeFlow (startCommand .encode s)).finish

/-- The meaning of `DECODE` (R131, R132, R137, R140); a `CMD` write while `BUSY` is ignored (R327). -/
def execDecode (s : State) : Host.Outcome State Fault Refusal :=
  if s.status.state = .busy then .next s else (decodeFlow (startCommand .decode s)).finish

end Sys2Proof.Machine
end

