-- ==== Sys2Proof/Machine/Dispatch.lean ====
section
/-! DEFINITION. One arm per instruction, each one call of its meaning. -/

namespace Sys2Proof.Machine

def exec (i : Instr) (s : State) : Host.Outcome State Fault Refusal :=
  match i with
  | .encodeCmd => Sys2Proof.Machine.execEncode s
  | .decodeCmd => Sys2Proof.Machine.execDecode s
  | .freq => Sys2Proof.Machine.execFreq s
  | .merge => Sys2Proof.Machine.execMerge s
  | .place => Sys2Proof.Machine.execPlace s
  | .serialize => Sys2Proof.Machine.execSerialize s
  | .codebuild => Sys2Proof.Machine.execCodebuild s
  | .hdrwrite => Sys2Proof.Machine.execHdrwrite s
  | .pack => Sys2Proof.Machine.execPack s
  | .dvalidate => Sys2Proof.Machine.execDvalidate s
  | .dwalk => Sys2Proof.Machine.execDwalk s
  | .hdr tag len => Sys2Proof.Machine.execHdr tag len s
  | .count nminus1 => Sys2Proof.Machine.execCount nminus1 s
  | .ref f1 f2 skip => Sys2Proof.Machine.execRef f1 f2 skip s
  | .leaf value => Sys2Proof.Machine.execLeaf value s
  | .group bits => Sys2Proof.Machine.execGroup bits s

end Sys2Proof.Machine
end

