-- ==== Sys2Proof/Machine/HostPort.lean ====
section
/-! DEFINITION. What the host does to the block besides starting commands: memory accesses, register reads, reset
(10_state.md R20, R21; 70_reset_and_hazards.md). -/

namespace Sys2Proof.Machine

/-- Whether a command runs. -/
def State.busy (s : State) : Bool := decide (s.status.state = .busy)

/-- Record what the host has read. -/
def hostReads (v : Word) (s : State) : State := { s with reads := s.reads ++ [v] }

/-- `OUT` as the micro-operation in progress would leave it; a micro-operation that runs item by item has made its
writes one by one. -/
def outWhenDone (s : State) : Memory :=
  if s.point = .enter then
    match microOp s.status.phase s with
    | .ok t => t.outMem
    | .raise _ t => t.outMem
    | .stop _ => s.outMem
  else s.outMem

/-- `OUT` after a reset (R322): not written when no command runs; while `BUSY`, "whatever bytes the command had written
so far", its writes ascending (20_memory.md R70), so those below a free address. Log entry 7. -/
def outAtReset (s : State) : Memory :=
  if s.busy then Memory.splice (Config.resetCut s.free) (outWhenDone s) s.outMem else s.outMem

/-- Reset of a running machine (R320 to R322): the state of `State.reset`, but for the parameters, the memories and
the model's own fields. -/
def resetBlock (s : State) : State :=
  { State.reset with
    cfg := s.cfg
    inMem := s.inMem
    outMem := outAtReset s
    script := s.script
    reads := s.reads
    free := if s.busy then s.free + 1 else s.free }

end Sys2Proof.Machine
end

