-- ==== Sys2Proof/Machine/Fetch.lean ====
section
/-! DEFINITION. What the next step does: the host's next action, or what the sequencer runs next. The block fetches no
instructions (10_state.md R42); what selects the next one is a `CMD` write, `STATUS.PHASE`, or, item by item, the byte
of the encoded buffer the decoder stands at (20_memory.md R80). -/

namespace Sys2Proof.Machine

/-- What a step does. -/
inductive Fetched where
  /-- run an instruction on a state -/
  | run (i : Instr) (s : State)
  /-- a host action or a move of the sequencer that is no row of the opcode table -/
  | settled (f : Flow State)
  /-- a host action without a meaning -/
  | refuse (r : Refusal)
deriving DecidableEq, Repr

/-- Read one byte of the encoded buffer and decode it in a format. A format of one byte decodes always, but `PHASE`. -/
def fetchByte (f : Format) (a : Nat) (s : State) : Fetched :=
  match readIn s a with
  | .error fault => .settled (.stop fault)
  | .ok b =>
    match decode f [b] with
    | .ok i => .run i s
    | .error _ => .settled (.ok s)

/-- Read four bytes of the encoded buffer and decode them; a header's wrong tag is `BadFormatTag` (R288). -/
def fetchWord (f : Format) (a : Nat) (s : State) : Fetched :=
  match readInRange s a 4 with
  | .error fault => .settled (.stop fault)
  | .ok bytes =>
    match decode f bytes with
    | .ok i => .run i s
    | .error _ => .settled (.raise .badFormatTag s)

/-- The next table byte of the walk, after the position has moved and passed the bound (R257); its kind is decided by
the flag of the entry held (R98). -/
def fetchEntry (s : State) : Fetched :=
  match advance s with
  | .ok s1 => fetchByte (if leafFlag s1.cur (nextBit s) then .leaf else .ref) (tableAddress s1 (nextBit s)) s1
  | settled => .settled settled

/-- One item of the walk (R256, R261): a bit while bits of `W` are left, else a group, else the end. -/
def fetchWalk (s : State) : Fetched :=
  if shortOf s then
    if s.k ≠ 0 then fetchEntry s
    else if s.g.toNat < s.ng.toNat then fetchWord .group (groupAddress s) s
    else .settled (.ok (finishWalk s))
  else .settled (.ok (finishWalk s))

/-- The micro-operation `STATUS.PHASE` names, through its code (R25); at `NONE` the started command makes its range
check and enters its sequence (R132, R133, R137). -/
def fetchPhase (s : State) : Fetched :=
  match decode .phase [BitVec.ofNat 8 s.status.phase.code] with
  | .ok i => .run i s
  | .error _ => .settled (enterSequence s)

/-- One item of a micro-operation of `DECODE` (R141: "one loop iteration or one statement as a step"). -/
def fetchItem (s : State) : Fetched :=
  match s.status.phase, s.point with
  | .dvalidate, .count => fetchByte .count (countAddress s) s
  | .dvalidate, .header => fetchWord .hdr s.off.toNat s
  | .dvalidate, .boot => fetchByte .ref (bootAddress s) s
  | .dvalidate, _ => .settled (lengthTests s)
  | .dwalk, .walk => fetchWalk s
  | .dwalk, _ => .settled (.ok (walkStart s))
  | _, _ => fetchPhase s

/-- What the sequencer does next while `BUSY`, by the size of a step. -/
def fetchSequencer (s : State) : Fetched :=
  match s.cfg.grain with
  | .item => fetchItem s
  | _ => fetchPhase s

/-- A host write of `CMD` (R22, R131): ignored while `BUSY` (R327), else the whole command or its start. -/
def fetchCommand (v : Word) (s : State) : Fetched :=
  if s.busy then .settled (.ok s)
  else
    match s.cfg.grain with
    | .command => .run (decodeCommand v) s
    | _ => .settled (.ok (startCommand (commandOp v) s))

/-- A host access to a memory: not while `BUSY` (R325), and only to a byte that exists (R60, R61). -/
def hostAccess (s : State) (found : Bool) (missing : Fault) (next : State) : Fetched :=
  if s.busy then .refuse .hostAccessWhileBusy
  else if found then .settled (.ok next) else .settled (.stop missing)

/-- The host's next action, already taken off the script. -/
def fetchHost (a : HostAction) (s : State) : Fetched :=
  match a with
  | .writeReg number v => if number = 0 then fetchCommand v s else .settled (.ok (writeReg number v s))
  | .readReg number => .settled (.ok (hostReads (readReg number s) s))
  | .writeIn adr v =>
    hostAccess s (decide (adr.toNat < s.cfg.inSize)) (.noInByte adr.toNat)
      { s with inMem := Memory.write s.inMem adr.toNat v }
  | .readIn adr =>
    hostAccess s (decide (adr.toNat < s.cfg.inSize)) (.noInByte adr.toNat)
      (hostReads ((Memory.read s.inMem adr.toNat).setWidth 32) s)
  | .writeOut adr v =>
    hostAccess s (outHas s.cfg adr.toNat) (.noOutByte adr.toNat)
      { s with outMem := Memory.write s.outMem adr.toNat v }
  | .readOut adr =>
    hostAccess s (outHas s.cfg adr.toNat) (.noOutByte adr.toNat)
      (hostReads ((Memory.read s.outMem adr.toNat).setWidth 32) s)
  | .pass => if s.busy then fetchSequencer s else .settled (.ok s)
  | .wait => if s.busy then fetchSequencer { s with script := .wait :: s.script } else .settled (.ok s)
  | .reset => .settled (.ok (resetBlock s))

/-- What the next step does. With no host action left, a running command goes on, and a block that is not `BUSY` waits
(R49, R321: "the block does nothing until `CMD` is written"). -/
def fetch (s : State) : Fetched :=
  match s.script with
  | a :: rest => fetchHost a { s with script := rest }
  | [] => if s.busy then fetchSequencer s else .settled (.ok s)

/-- Put four bytes, lowest address first, at an `IN` address. -/
def putIn (m : Memory) (a : Nat) (w : Word) : Memory :=
  Memory.write (Memory.write (Memory.write (Memory.write m a (byteOfWord w 0)) (a + 1) (byteOfWord w 1)) (a + 2)
    (byteOfWord w 2)) (a + 3) (byteOfWord w 3)

/-- The state in which the sequencer stands item by item at `point` of a phase of `DECODE`, the buffer at `IN` address 0. -/
def atItem (p : Phase) (point : Point) (s : State) : State :=
  { s with
    cfg := { s.cfg with grain := .item, inSize := max s.cfg.inSize 16 }
    status := { s.status with state := .busy, phase := p }
    point := point
    off := 0
    script := .pass :: s.script }

/-- The phase a micro-operation's code names, `NONE` for the others (R25). -/
def phaseOfCode (code : Nat) : Phase :=
  match code with
  | 1 => .freq
  | 2 => .merge
  | 3 => .place
  | 4 => .serialize
  | 5 => .codebuild
  | 6 => .hdrwrite
  | 7 => .pack
  | 8 => .dvalidate
  | 9 => .dwalk
  | _ => .none

/-- A state whose next step runs a word of the opcode table, in the format `tableFormat` gives it: a command as a `CMD`
write, a phase as the micro-operation in progress, a data format as the next item of the encoded buffer. Log entry 12. -/
def placeWord (s : State) (nbits w : Nat) : State :=
  let v : Word := BitVec.ofNat 32 w
  let b : Byte := BitVec.ofNat 8 w
  match tableFormat nbits w with
  | some .cmd =>
    { s with
      cfg := { s.cfg with grain := .command }
      status := if s.busy then { s.status with state := .idle, phase := .none } else s.status
      script := .writeReg 0 v :: s.script }
  | some .phase =>
    { s with
      cfg := { s.cfg with grain := .phase }
      status := { s.status with state := .busy, phase := phaseOfCode w }
      point := .enter
      script := .pass :: s.script }
  | some .hdr => { atItem .dvalidate .header s with inMem := putIn s.inMem 0 v }
  | some .count => { atItem .dvalidate .count s with inMem := Memory.write s.inMem 4 b }
  | some .ref => { atItem .dvalidate .boot s with inMem := Memory.write s.inMem 5 b }
  | some .leaf =>
    { atItem .dwalk .walk s with
      cnt := 1, cur := 0xC0, pos := 0, w := 0, k := 1, explen := 1, outcnt := 0
      inMem := Memory.write s.inMem 6 b }
  | some .group =>
    { atItem .dwalk .walk s with
      k := 0, explen := 1, outcnt := 0, pay := 8, g := 0, ng := 1
      inMem := putIn s.inMem 8 v }
  | none => s

end Sys2Proof.Machine
end

