-- ==== Sys2Proof/Machine/Step.lean ====
section
/-! DEFINITION. One step of the machine, and the placing of a word where the next step runs it. -/

namespace Sys2Proof.Machine

/-- One step: what `fetch` gives. -/
def step (s : State) : Host.Outcome State Fault Refusal :=
  match fetch s with
  | .run i s1 => exec i s1
  | .settled f => f.finish
  | .refuse r => .refused r

/-- `s` with a word of the opcode table placed so that the next step runs it (log entry 12). -/
def State.withFetchWord (s : State) (nbits w : Nat) : State := placeWord s nbits w

end Sys2Proof.Machine
end

