-- ==== Sys2Proof/Safety.lean ====
section
/-! DEFINITION. The terms the claims are stated in: the input bytes and the bitstream as sequences, the shape of a merge
tree, the placement contract, the path of a leaf, the walk of a bitstream, what a taken fault leaves, and the invariant
of the registers and memories. Nothing here is part of the machine. -/

namespace Sys2Proof.Safety

open Sys2Proof.Machine

/-! ## Bytes and bits -/

/-- The `count` bytes of a memory from address `a` on. -/
def inBytes (m : Memory) (a count : Nat) : List Byte := (List.range count).map fun i => Memory.read m (a + i)

/-- The input bytes of the command whose operands are sampled (10_state.md R23). -/
def inputOf (s : State) : List Byte := inBytes s.inMem s.off.toNat s.len.toNat

/-- The input bytes of the command a `CMD` write would start (10_state.md R23). -/
def operandOf (s : State) : List Byte := inBytes s.inMem s.srcOff.toNat s.srcLen.toNat

/-- Bit `i` of the bitstream that starts at address `a` of a memory (20_memory.md R65): with `k = 31 - (i mod 32)`, bit
`k mod 8` of the byte at `a + 4 (i div 32) + (k div 8)`. -/
def streamBit (m : Memory) (a i : Nat) : Bool :=
  (Memory.read m (a + 4 * (i / 32) + (31 - i % 32) / 8)).getLsbD ((31 - i % 32) % 8)

/-- The bitstream of `groups` groups at address `a` (R65). -/
def streamBits (m : Memory) (a groups : Nat) : List Bool := (List.range (32 * groups)).map (streamBit m a)

/-- The bits `PACK` writes: the codes of the input bytes one after another (45_code_builder_bit_packer.md R227). -/
def codedBits (s : State) : List Bool := (inputOf s).flatMap (entry s.code)

/-- `max(1, ceil(bits / 32))` (R229). -/
def groupCount (bits : Nat) : Nat := max 1 ((bits + 31) / 32)

/-- `TBITS`: the sum over all byte values of `FREQ[b] × CODE[b].len` (44_tree_serializer.md R206). -/
def bitTotal (s : State) : Nat :=
  ((List.range 256).map fun b => (entry s.freq (BitVec.ofNat 8 b)).toNat * (entry s.code (BitVec.ofNat 8 b)).length).sum

/-- Whether a result of `length` bytes fits `OUT` (20_memory.md R61). -/
abbrev fitsOut (cfg : Config.Params) (length : Nat) : Prop := ∀ size ∈ cfg.outSize, length ≤ size

/-! ## Where MERGE and PLACE start (42_huffman_merger.md R161, R162; 43_node_placer.md R186) -/

/-- The byte values with a non-zero frequency, highest first (R161). -/
def symbolsPresent (freq : Vector (BitVec 24) 256) : List Byte :=
  ((List.range 256).reverse.map (BitVec.ofNat 8)).filter fun b => entry freq b ≠ 0

/-- The leaf items of the symbols present, numbered from 0 in their order (R161). -/
def leavesInOrder (freq : Vector (BitVec 24) 256) : List Item :=
  (symbolsPresent freq).zipIdx.map fun p => { w := entry freq p.1, kind := .leaf, id := p.1, seq := BitVec.ofNat 10 p.2 }

/-- The working set the merge loop starts from: a lone leaf gets its complement with weight 0, an empty set the leaves
0x00 and 0xFF (R162). -/
def startingItems (freq : Vector (BitVec 24) 256) : List Item :=
  match leavesInOrder freq with
  | [] => [{ w := 0, kind := .leaf, id := 0x00, seq := 0 }, { w := 0, kind := .leaf, id := 0xFF, seq := 1 }]
  | [x] => [x, { w := 0, kind := .leaf, id := x.id ^^^ 0xFF, seq := 1 }]
  | x :: y :: rest => x :: y :: rest

/-- What `PUSH` appends for one child of a stem that got rank `t`: nothing for a leaf, else the child with
`due = t + 64` (R186). -/
def pushedChild (f : Bool) (c : BitVec 9) (t : Nat) : List FrontierEntry :=
  if f then [] else [{ node := childId c, due := BitVec.ofNat 9 (t + 64) }]

/-- The subtree size of one child, 0 for a leaf (R186). -/
def childSizeOf (sz : Vector (BitVec 9) 256) (f : Bool) (c : BitVec 9) : BitVec 9 := if f then 0 else entry sz (childId c)

/-! ## The merge tree (42_huffman_merger.md R167) -/

/-- Entry `i` of a 256-entry table, by number. -/
def at256 {α : Type} (t : Vector α 256) (i : Nat) : α := entry t (BitVec.ofNat 8 i)

/-- The stem children of a stem, child-1 first. -/
def stemChildren (m : Stem) : List Byte :=
  (if m.f1 then [] else [childId m.c1]) ++ (if m.f2 then [] else [childId m.c2])

/-- The leaf children of a stem, child-1 first. -/
def leafChildren (m : Stem) : List Byte :=
  (if m.f1 then [childId m.c1] else []) ++ (if m.f2 then [childId m.c2] else [])

/-- The real stems of a stem list with `n` stems, the sentinel left out (00_scope.md R16). -/
def realStems (stem : Vector Stem 256) (n : Nat) : List Stem := (List.range (n - 1)).map (at256 stem)

/-- Every reference to a stem made by a real stem. -/
def stemRefs (stem : Vector Stem 256) (n : Nat) : List Byte := (realStems stem n).flatMap stemChildren

/-- Every leaf of the tree. -/
def treeLeaves (stem : Vector Stem 256) (n : Nat) : List Byte := (realStems stem n).flatMap leafChildren

/-- What `MERGE` guarantees of its stem list (R167, R36): 2 to 256 stems; the last is the sentinel with child-2 the
true root `n - 2`; a stem child has a smaller index; every real stem but the root is the child of exactly one real stem;
no leaf occurs twice. -/
abbrev TreeShape (stem : Vector Stem 256) (n : Nat) : Prop :=
  (2 ≤ n ∧ n ≤ 256) ∧
  at256 stem (n - 1) = { f1 := true, c1 := 0x100, f2 := false, c2 := BitVec.ofNat 9 (n - 2) } ∧
  (∀ i < n - 1, ∀ c ∈ stemChildren (at256 stem i), c.toNat < i) ∧
  (∀ i < n - 2, (stemRefs stem n).count (BitVec.ofNat 8 i) = 1) ∧
  (treeLeaves stem n).Nodup

/-- The placement contract P1, P2, P3 (43_node_placer.md R181). -/
abbrev PlacementContract (stem : Vector Stem 256) (rank : Vector Byte 256) (n : Nat) : Prop :=
  (∀ i < n, (at256 rank i).toNat < n) ∧
  (∀ i < n, ∀ j < n, at256 rank i = at256 rank j → i = j) ∧
  (∀ i < n, ∀ c ∈ stemChildren (at256 stem i),
    (at256 rank i).toNat < (entry rank c).toNat ∧ (entry rank c).toNat ≤ (at256 rank i).toNat + 64)

/-- The leaf that a path from stem `s` ends at, `none` when it ends elsewhere (45_code_builder_bit_packer.md R222: bit 0
is child-1, bit 1 child-2). -/
def leafAt (stem : Vector Stem 256) : Byte → List Bool → Option Byte
  | _, [] => none
  | s, b :: bs =>
    let m := entry stem s
    let f := if b then m.f2 else m.f1
    let c := childId (if b then m.c2 else m.c1)
    if f then (match bs with
      | [] => some c
      | _ :: _ => none)
    else leafAt stem c bs

/-- The table entry for a child of a stem at rank `j` (44_tree_serializer.md R202): the literal, or the target's flags in
bits 7 and 6 over the distance minus 1. -/
def entryFor (stem : Vector Stem 256) (rank : Vector Byte 256) (j : Nat) (f : Bool) (c : BitVec 9) : Byte :=
  if f then childId c
  else BitVec.ofNat 8 ((entry stem (childId c)).f1.toNat * 128 + (entry stem (childId c)).f2.toNat * 64 +
    ((entry rank (childId c)).toNat - j - 1))

/-! ## The walk of a bitstream (46_bit_walker.md R255 to R261) -/

/-- Walk a bitstream over a node table given as a function from table index to byte: the bytes emitted and the number of
bits used, until `want` bytes are out or the bits run out; `none` when a step passes the bound `cnt`. -/
def walkStream (table : Nat → Byte) (cnt : Nat) (boot : Byte) :
    List Bool → (pos : Nat) → (cur : Byte) → (want : Nat) → Option (List Byte × Nat)
  | _, _, _, 0 => some ([], 0)
  | [], _, _, _ => some ([], 0)
  | b :: bs, pos, cur, want + 1 =>
    let p := pos + cur.toNat % 64 + 1
    if cnt < p then none
    else
      let e := table (2 * p + b.toNat)
      if cur.getLsbD (if b then 6 else 7) then
        (walkStream table cnt boot bs 0 boot want).map fun r => (e :: r.1, r.2 + 1)
      else (walkStream table cnt boot bs p e (want + 1)).map fun r => (r.1, r.2 + 1)

/-- The bytes that walk emits, those before a step past the bound `cnt` included (46_bit_walker.md R257, R264). -/
def walkEmitted (table : Nat → Byte) (cnt : Nat) (boot : Byte) :
    List Bool → (pos : Nat) → (cur : Byte) → (want : Nat) → List Byte
  | _, _, _, 0 => []
  | [], _, _, _ => []
  | b :: bs, pos, cur, want + 1 =>
    let p := pos + cur.toNat % 64 + 1
    if cnt < p then []
    else
      let e := table (2 * p + b.toNat)
      if cur.getLsbD (if b then 6 else 7) then e :: walkEmitted table cnt boot bs 0 boot want
      else walkEmitted table cnt boot bs p e (want + 1)

/-- The walk of the payload of a state in which `DVALIDATE` has run (R255, R256): table bytes at `OFF + 4`, payload at
`PAY`, `NG` groups. -/
def payloadWalk (s : State) : Option (List Byte × Nat) :=
  walkStream (fun i => Memory.read s.inMem (s.off.toNat + 4 + i)) s.cnt.toNat s.boot
    (streamBits s.inMem s.pay.toNat s.ng.toNat) 0 s.boot s.explen.toNat

/-- The bytes the walk of the payload emits, whether or not it ends at the bound (R257, R264). -/
def payloadEmitted (s : State) : List Byte :=
  walkEmitted (fun i => Memory.read s.inMem (s.off.toNat + 4 + i)) s.cnt.toNat s.boot
    (streamBits s.inMem s.pay.toNat s.ng.toNat) 0 s.boot s.explen.toNat

/-! ## Faults (60_exceptions.md R283) -/

/-- `t` is what taking fault `e` leaves of `s`, as far as the host sees: `ERR` is `e`, the flags and `OUT_LEN` are 0,
`STATE` is `FAULT`; `PHASE`, `LASTOP`, `EXP_LEN`, `SRC_OFF`, `SRC_LEN` are kept. -/
abbrev FaultTaken (e : Err) (s t : State) : Prop :=
  t.status = { s.status with err := e, trailing := false, short := false, state := .fault } ∧
  t.outLen = 0 ∧ t.expLen = s.expLen ∧ t.srcOff = s.srcOff ∧ t.srcLen = s.srcLen

/-- The status after a command that ended in `DONE` (40_commands.md R140). -/
def doneStatus (op : Op) (trailing short : Bool) : Status :=
  { state := .done, phase := .none, err := .none, trailing := trailing, short := short, lastop := op }

/-! ## The invariant -/

/-- The phases a command runs through (R133, R137), and `NONE`. -/
def phaseOf (op : Op) (p : Phase) : Bool :=
  match op with
  | .encode => p ∉ [Phase.dvalidate, Phase.dwalk]
  | .decode => p ∈ [Phase.none, Phase.dvalidate, Phase.dwalk]

/-- What the registers of 10_state.md section 2 say of each other. -/
abbrev RegistersAgree (s : State) : Prop :=
  -- R26: `ERR` is 0 exactly outside `FAULT`
  (s.status.err = .none ↔ s.status.state ≠ .fault) ∧
  -- R25: in `IDLE` and `DONE` `PHASE` reads 0
  (s.status.state = .idle ∨ s.status.state = .done → s.status.phase = .none) ∧
  -- R27, R28: the flags and `OUT_LEN` are 0 but in `DONE`
  (s.status.state ≠ .done → s.outLen = 0 ∧ s.status.trailing = false ∧ s.status.short = false) ∧
  -- R29: bits 31:24 of `EXP_LEN` are 0
  s.expLen.toNat < 16777216 ∧
  -- R24, R131: while `BUSY`, `LASTOP` is the running command
  (s.status.state = .busy → s.op = s.status.lastop) ∧
  -- R25, R133, R137: the phase is one of the command's
  phaseOf s.status.lastop s.status.phase = true ∧
  -- R27, R29: after an `ENCODE` the flags and `EXP_LEN` are 0
  (s.status.lastop = .encode → s.status.trailing = false ∧ s.status.short = false ∧ s.expLen = 0) ∧
  -- R29, R328: `EXP_LEN` is 0 until `DVALIDATE` completes
  (s.status.state = .busy ∨ s.status.state = .fault → s.status.phase ≠ .dwalk → s.expLen = 0) ∧
  -- R47: `IDLE` is the state after reset
  (s.status.state = .idle → s.status.lastop = .encode)

/-- The memories are in canonical form and list only bytes that exist (R60, R61). -/
abbrev MemoriesHold (s : State) : Prop :=
  Memory.wf s.inMem ∧ Memory.wf s.outMem ∧ (∀ c ∈ s.inMem, c.1 < s.cfg.inSize) ∧
    (∀ size ∈ s.cfg.outSize, ∀ c ∈ s.outMem, c.1 < size)

/-- The invariant every step keeps. -/
abbrev Invariant (s : State) : Prop := s.cfg.wf ∧ MemoriesHold s ∧ RegistersAgree s

end Sys2Proof.Safety
end

