-- ==== Sys2Proof/Certificates/Slice0/Obligations.lean ====
section
/-! DEFINITION. The statements about the model, for the provers. Each docstring names the rules it formalises; where a
clause rests on a choice of the model it says so and names the log entry. -/

open Sys2Proof Sys2Proof.Machine Sys2Proof.Safety

/-! ## Encodings (30_encoding.md) -/

/-- Decode and encode agree on every well-formed instruction, every operand at every value (R91 to R100). -/
def Obligations.DecodeOfEncodeIsTheInstruction : Prop :=
  ∀ i : Instr, i.wellFormed = true → decode i.format (encode i) = .ok i

/-- What a format's bytes decode to is a well-formed instruction of that format, and encodes back to the same bytes, but
for a command's ignored bits (R90, R91). -/
def Obligations.EncodeOfDecodedIsTheBytes : Prop :=
  ∀ (f : Format) (bytes : List Byte) (i : Instr), decode f bytes = .ok i →
    i.format = f ∧ i.wellFormed = true ∧ (f ≠ .cmd → encode i = bytes)

/-- Words written out from the spec's encodings decode to their instructions: the commands (R91), the nine phase codes (R25), the
header of a 4-byte input `28 04 00 00` (R92), a count byte, the entry 0xC1 (R96), a literal and a group (R100). -/
def Obligations.WrittenWordsDecode : Prop :=
  decode .cmd [0x00, 0x00, 0x00, 0x00] = .ok .encodeCmd ∧ decode .cmd [0x01, 0x00, 0x00, 0x00] = .ok .decodeCmd ∧
  decode .phase [0x01] = .ok .freq ∧ decode .phase [0x02] = .ok .merge ∧ decode .phase [0x03] = .ok .place ∧
  decode .phase [0x04] = .ok .serialize ∧ decode .phase [0x05] = .ok .codebuild ∧ decode .phase [0x06] = .ok .hdrwrite ∧
  decode .phase [0x07] = .ok .pack ∧ decode .phase [0x08] = .ok .dvalidate ∧ decode .phase [0x09] = .ok .dwalk ∧
  decode .hdr [0x28, 0x04, 0x00, 0x00] = .ok (.hdr 0x28 4) ∧ decode .count [0x05] = .ok (.count 5) ∧
  decode .ref [0xC1] = .ok (.ref true true 1) ∧ decode .ref [0x40] = .ok (.ref false true 0) ∧
  decode .leaf [0x41] = .ok (.leaf 0x41) ∧ decode .group [0x00, 0x06, 0x57, 0x83] = .ok (.group 0x83570600)

/-- Bit 0 of the command word selects the command, bits 31:1 are ignored, no value is illegal (R91). -/
def Obligations.CommandWordBitZeroSelects : Prop :=
  ∀ w : Word, decode .cmd (bytesOfWord w) = .ok (if w.getLsbD 0 then .decodeCmd else .encodeCmd)

/-- `PHASE` 0 and the reserved codes are no instruction, and a header with another tag than 0x28 is rejected by its tag
(R25, R92, R103). -/
def Obligations.ReservedEncodingsAreRejected : Prop :=
  (∀ b : Byte, (b = 0 ∨ 10 ≤ b.toNat) → decode .phase [b] = .error (.noSuchPhase b.toNat)) ∧
  ∀ b0 b1 b2 b3 : Byte, b0 ≠ 0x28 → decode .hdr [b0, b1, b2, b3] = .error (.badTag b0)

/-! ## Host-visible registers (10_state.md section 2) -/

/-- The `STATUS` word holds each field at its bits; bits 31:13 read 0; `STATE`, `PHASE` and `ERR` have the code numbers of
their tables; `LASTOP` is 0 after reset (R24, R25, R26). -/
def Obligations.StatusWordHoldsItsFields : Prop :=
  (∀ st : Status,
    st.word.extractLsb' 0 2 = BitVec.ofNat 2 st.state.code ∧ st.word.extractLsb' 2 4 = BitVec.ofNat 4 st.phase.code ∧
    st.word.extractLsb' 6 4 = BitVec.ofNat 4 st.err.code ∧ st.word.getLsbD 10 = st.trailing ∧
    st.word.getLsbD 11 = st.short ∧ st.word.getLsbD 12 = decide (st.lastop = .decode) ∧
    st.word.extractLsb' 13 19 = 0) ∧
  (RunState.idle.code = 0 ∧ RunState.busy.code = 1 ∧ RunState.done.code = 2 ∧ RunState.fault.code = 3) ∧
  (Phase.none.code = 0 ∧ Phase.freq.code = 1 ∧ Phase.merge.code = 2 ∧ Phase.place.code = 3 ∧ Phase.serialize.code = 4 ∧
    Phase.codebuild.code = 5 ∧ Phase.hdrwrite.code = 6 ∧ Phase.pack.code = 7 ∧ Phase.dvalidate.code = 8 ∧
    Phase.dwalk.code = 9) ∧
  (Err.none.code = 0 ∧ Err.inputTooLarge.code = 1 ∧ Err.truncatedHeader.code = 2 ∧ Err.truncatedTable.code = 3 ∧
    Err.badFormatTag.code = 4 ∧ Err.positionOutOfTree.code = 5 ∧ Err.skipOverflow.code = 6 ∧
    Err.placementUnsatisfiable.code = 7 ∧ Err.codeTooLong.code = 8 ∧ Err.badRange.code = 9 ∧ Err.outOverflow.code = 10) ∧
  State.reset.status.lastop = .encode

/-- A host read of a register by number gives the register, `CMD` and the numbers above 5 read 0, and nothing else changes
but what the host has read (R21; the list of read values is the model's own, log entry 5). -/
def Obligations.RegisterReadsFollowTheTable : Prop :=
  ∀ (s : State) (number : Nat) (rest : List HostAction), s.script = .readReg number :: rest →
    step s = .next { s with
      script := rest
      reads := s.reads ++ [if number = 1 then s.srcOff else if number = 2 then s.srcLen
        else if number = 3 then s.status.word else if number = 4 then s.outLen
        else if number = 5 then s.expLen else 0] }

/-- Writes to `STATUS`, `OUT_LEN`, `EXP_LEN` and to numbers that do not exist are ignored (R21). -/
def Obligations.ReadOnlyRegistersIgnoreWrites : Prop :=
  ∀ (s : State) (number : Nat) (v : Word) (rest : List HostAction), s.script = .writeReg number v :: rest →
    3 ≤ number → step s = .next { s with script := rest }

/-- The host may write `SRC_OFF` and `SRC_LEN` at any time; the running command's copies `OFF` and `LEN` do not change, and
the next command start takes the registers' values (R326; the start is seen where a step is smaller than a command). -/
def Obligations.SourceRegistersAreWritableAnyTime : Prop :=
  ∀ (s : State) (v : Word) (rest : List HostAction),
    (s.script = .writeReg 1 v :: rest → step s = .next { s with script := rest, srcOff := v }) ∧
    (s.script = .writeReg 2 v :: rest → step s = .next { s with script := rest, srcLen := v }) ∧
    (s.script = .writeReg 0 v :: rest → s.status.state ≠ .busy → s.cfg.grain ≠ .command →
      ∃ t, step s = .next t ∧ t.off = s.srcOff ∧ t.len = s.srcLen)

/-! ## Reset (10_state.md R47, 70_reset_and_hazards.md R321, R322) -/

/-- After reset `STATUS`, `OUT_LEN`, `EXP_LEN`, `SRC_OFF` and `SRC_LEN` are 0, and `CMD` reads 0 (R47). -/
def Obligations.ResetLeavesTheStatedValues : Prop :=
  State.reset.status = { state := .idle, phase := .none, err := .none, trailing := false, short := false, lastop := .encode } ∧
  State.reset.status.word = 0 ∧ State.reset.outLen = 0 ∧ State.reset.expLen = 0 ∧ State.reset.srcOff = 0 ∧
  State.reset.srcLen = 0 ∧ readReg 0 State.reset = 0

/-- A reset at any time leaves the host-visible registers 0, does not write `IN`, and leaves `OUT` alone when no command
runs; while `BUSY` it leaves `OUT` as the running micro-operation would, below some address, and untouched from there
on (R322 "whatever bytes the command had written so far"; that the cut is a free value is the model's choice, log
entry 7). -/
def Obligations.ResetAtAnyTime : Prop :=
  ∀ (s : State) (rest : List HostAction), s.script = .reset :: rest →
    ∃ t, step s = .next t ∧ t.status = State.reset.status ∧ t.outLen = 0 ∧ t.expLen = 0 ∧ t.srcOff = 0 ∧ t.srcLen = 0 ∧
      t.inMem = s.inMem ∧ t.cfg = s.cfg ∧ t.script = rest ∧ t.reads = s.reads ∧
      (s.status.state ≠ .busy → t.outMem = s.outMem) ∧
      (s.status.state = .busy → ∃ cut, ∀ a, Memory.read t.outMem a =
        if a < cut then Memory.read (outWhenDone { s with script := rest }) a else Memory.read s.outMem a)

/-- With no host action left, a block that is not `BUSY`, in `IDLE`, `DONE` or `FAULT`, keeps its state (R49 and R321 of
the block after reset, R329 of `DONE`, R298 of `FAULT`). MODEL'S READING: that a step of such a block gives the same state,
in all three (log entry 19, DEDUCED), and the script of host actions (log entry 5). -/
def Obligations.BlockWaitsWithoutACommand : Prop :=
  ∀ s : State, s.script = [] → s.status.state ≠ .busy → step s = .next s

/-! ## A step runs the selected instruction -/

/-- A `CMD` write runs the decoded command when a step is a command, and while `BUSY` the next step runs the
micro-operation that the `PHASE` code decodes to, but for the two of `DECODE` when a step is one item (R22, R25, R141).
MODEL'S CHOICE: the size of a step (log entry 1), the host's script with its `pass` and `wait` (log entry 5), and that an
empty script leaves the sequencer alone and a `wait` stays for the next step (log entry 19); the spec fixes none of
these. -/
def Obligations.StepRunsTheCommandOrPhase : Prop :=
  ∀ (s : State) (i : Instr) (rest : List HostAction),
    (∀ v : Word, s.script = .writeReg 0 v :: rest → s.status.state ≠ .busy → s.cfg.grain = .command →
      decode .cmd (bytesOfWord v) = .ok i → step s = exec i { s with script := rest }) ∧
    (s.status.state = .busy →
      (s.cfg.grain = .item → s.status.phase ≠ .dvalidate ∧ s.status.phase ≠ .dwalk) → decode .phase [BitVec.ofNat 8 s.status.phase.code] = .ok i →
      (s.script = [] → step s = exec i s) ∧ (s.script = .pass :: rest → step s = exec i { s with script := rest }) ∧
      (s.script = .wait :: rest → step s = exec i s))

/-- When a step is one item, the byte or bytes at the place the decoder stands decode to the instruction the step runs: the
count byte, the header, the bootstrap entry, a payload group, and a table entry, on the state with the position moved and
the bit taken, its format chosen by the flag held. What is read where, and the flag, are the spec's (R251, R256, R257, R98).
MODEL'S CHOICE: that a step is one item (log entry 1), that a data format is an instruction a step runs (log entry 11), and
the fields `point` and `k` that say where the decoder stands (log entry 14). -/
def Obligations.StepRunsTheBufferItem : Prop :=
  ∀ (s : State) (i : Instr), s.script = [] → s.status.state = .busy → s.cfg.grain = .item →
    (s.status.phase = .dvalidate →
      (∀ b, s.point = .count → readIn s (s.off.toNat + 4) = .ok b → decode .count [b] = .ok i → step s = exec i s) ∧
      (∀ bytes, s.point = .header → readInRange s s.off.toNat 4 = .ok bytes → decode .hdr bytes = .ok i →
        step s = exec i s) ∧
      (∀ b, s.point = .boot → readIn s (s.off.toNat + 5) = .ok b → decode .ref [b] = .ok i → step s = exec i s)) ∧
    (s.status.phase = .dwalk → s.point = .walk → s.outcnt.toNat < s.explen.toNat →
      (∀ bytes, s.k = 0 → s.g.toNat < s.ng.toNat → readInRange s (s.pay.toNat + 4 * s.g.toNat) 4 = .ok bytes →
        decode .group bytes = .ok i → step s = exec i s) ∧
      (∀ e, s.k ≠ 0 → nextPosition s ≤ s.cnt.toNat →
        readIn s (s.off.toNat + 4 + 2 * nextPosition s + (nextBit s).toNat) = .ok e →
        decode (if leafFlag s.cur (nextBit s) then .leaf else .ref) [e] = .ok i →
        step s = exec i { s with k := s.k - 1, pos := BitVec.ofNat 9 (nextPosition s) }))

/-! ## Starting and ending commands (40_commands.md) -/

/-- Command start, register by register, from `IDLE`, `DONE` or `FAULT` alike, seen where a step is smaller than a command;
then the range check raises `BadRange` or the first micro-operation is entered (R131, R132, R133, R137). MODEL'S CHOICE: that
the range check is a step of its own after the `CMD` write (log entry 1), and the field `point` (log entry 14). -/
def Obligations.CommandStartSetsTheRegisters : Prop :=
  ∀ (s : State) (v : Word), s.script = [.writeReg 0 v] → s.status.state ≠ .busy → s.cfg.grain ≠ .command →
    ∃ t, t = { s with
        script := []
        op := if v.getLsbD 0 then .decode else .encode
        off := s.srcOff
        len := s.srcLen
        outLen := 0
        expLen := 0
        point := .enter
        status := { state := .busy, phase := .none, err := .none, trailing := false, short := false,
                    lastop := if v.getLsbD 0 then .decode else .encode } } ∧
      step s = .next t ∧
      (t.cfg.inSize < t.off.toNat + t.len.toNat → ∃ u, step t = .next u ∧ FaultTaken .badRange t u) ∧
      (t.off.toNat + t.len.toNat ≤ t.cfg.inSize →
        step t = .next { t with
          status := { t.status with phase := if v.getLsbD 0 then .dvalidate else .freq } })

/-- A `CMD` write while `BUSY` changes no state and is not queued; neither command does anything then (R327). -/
def Obligations.BusyCommandWriteIsIgnored : Prop :=
  ∀ s : State, s.status.state = .busy →
    (∀ (v : Word) (rest : List HostAction), s.script = .writeReg 0 v :: rest → step s = .next { s with script := rest }) ∧
    exec .encodeCmd s = .next s ∧ exec .decodeCmd s = .next s

/-- Both commands raise `BadRange` exactly when `OFF + LEN` exceeds `INSIZE`, the sum not wrapped, before anything else
(R132, R293). -/
def Obligations.BadRangeExactlyWhenOutOfRange : Prop :=
  ∀ (s : State) (i : Instr), (i = .encodeCmd ∨ i = .decodeCmd) → s.status.state ≠ .busy →
    (s.cfg.inSize < s.srcOff.toNat + s.srcLen.toNat →
      ∃ t, exec i s = .next t ∧
        t.status = { state := .fault, phase := .none, err := .badRange, trailing := false, short := false,
                     lastop := if i = .encodeCmd then .encode else .decode } ∧
        t.outLen = 0 ∧ t.expLen = 0 ∧ t.srcOff = s.srcOff ∧ t.srcLen = s.srcLen ∧ t.inMem = s.inMem ∧ t.outMem = s.outMem) ∧
    (s.srcOff.toNat + s.srcLen.toNat ≤ s.cfg.inSize → ∀ t, exec i s = .next t → t.status.err ≠ .badRange)

/-- FE's worked example: `ENCODE` of `41 41 41 42` gives `28 04 00 00 01 C0 41 42 00 00 00 10`, `OUT_LEN` 12 (R136). -/
def Obligations.EncodeOfTheWorkedExample : Prop :=
  ∃ t, exec .encodeCmd { State.reset with inMem := [(0, 0x41), (1, 0x41), (2, 0x41), (3, 0x42)], srcLen := 4 } = .next t ∧
    t.outLen = 12 ∧ inBytes t.outMem 0 12 = [0x28, 0x04, 0x00, 0x00, 0x01, 0xC0, 0x41, 0x42, 0x00, 0x00, 0x00, 0x10]

/-! ## FREQ (41_frequency_counter.md) -/

/-- `FREQ` raises `InputTooLarge` for an input of 2^24 bytes and more; else it counts every byte value of the input, changes
no other register or memory byte, and goes on to `MERGE` (R151, on the range that R132 has checked). -/
def Obligations.FreqTalliesTheInput : Prop :=
  ∀ s : State, s.off.toNat + s.len.toNat ≤ s.cfg.inSize →
    (16777216 ≤ s.len.toNat → ∃ t, exec .freq s = .next t ∧ FaultTaken .inputTooLarge s t) ∧
    (s.len.toNat < 16777216 →
      ∃ f, exec .freq s = .next { s with freq := f, point := .enter, status := { s.status with phase := .merge } } ∧
        ∀ b : Byte, (entry f b).toNat = (inputOf s).count b)

/-- `FREQ` raises `InputTooLarge` for every `LEN` of 2^24 and more, before it reads `IN` or writes `FREQ` (R153). -/
def Obligations.FreqRejectsLongInput : Prop :=
  ∀ s : State, 16777216 ≤ s.len.toNat →
    ∃ t, exec .freq s = .next t ∧ FaultTaken .inputTooLarge s t ∧ t = { s with outLen := t.outLen, status := t.status }

/-! ## MERGE (42_huffman_merger.md) -/

/-- `MERGE` always completes, with a merge tree over the symbols present and its root; it changes only its own results
and the phase (R160, R167). -/
def Obligations.MergeBuildsATree : Prop :=
  ∀ s : State, ∃ t, exec .merge s = .next t ∧ TreeShape t.stem t.n.toNat ∧ t.root.toNat + 2 = t.n.toNat ∧
    t.n.toNat = max 2 ((List.range 256).countP fun b => entry s.freq (BitVec.ofNat 8 b) ≠ 0) ∧
    (∀ b : Byte, entry s.freq b ≠ 0 → b ∈ treeLeaves t.stem t.n.toNat) ∧
    t = { s with
      ws := t.ws
      seq := t.seq
      ns := t.ns
      stem := t.stem
      root := t.root
      n := t.n
      point := .enter
      status := { s.status with phase := .place } }

/-- `MERGE` leaves the stems, the working set and the counters of the merge loop run to one item from the leaves in
descending byte order, numbered from 0, a second leaf added where there are fewer than two. One turn of the loop takes the
two smallest items by weight and then sequence number: the smaller becomes child-2, the other child-1, and the new stem is
appended with their weight and the next sequence number; the loop ends at one item (R161, R162, R163, R164). -/
def Obligations.MergeTakesTheTwoSmallest : Prop :=
  (∀ s : State,
    let ws := startingItems s.freq
    let r := mergeLoop ws.length { ws := ws, seq := BitVec.ofNat 10 ws.length, ns := 0, stem := s.stem }
    r.ws.length = 1 ∧ ∃ t, exec .merge s = .next t ∧ t.ws = r.ws ∧ t.seq = r.seq ∧ t.ns = r.ns ∧
      ∀ b : Byte, b ≠ r.ns.setWidth 8 → entry t.stem b = entry r.stem b) ∧
  (∀ (fuel : Nat) (r : MergeRegs), r.ws.length ≤ 1 → mergeLoop fuel r = r) ∧
  ∀ (fuel : Nat) (r : MergeRegs), 2 ≤ r.ws.length → (r.ws.map (·.seq)).Nodup →
    ∃ lo hi rest, r.ws.Perm (lo :: hi :: rest) ∧
      (∀ x ∈ hi :: rest, lo.w < x.w ∨ (lo.w = x.w ∧ lo.seq < x.seq)) ∧
      (∀ x ∈ rest, hi.w < x.w ∨ (hi.w = x.w ∧ hi.seq < x.seq)) ∧
      mergeLoop (fuel + 1) r = mergeLoop fuel
        { ws := rest ++ [{ w := lo.w + hi.w, kind := .stem, id := r.ns.setWidth 8, seq := r.seq }]
          seq := r.seq + 1
          ns := r.ns + 1
          stem := setEntry r.stem (r.ns.setWidth 8)
            { f1 := decide (hi.kind = .leaf), c1 := hi.id.setWidth 9, f2 := decide (lo.kind = .leaf), c2 := lo.id.setWidth 9 } }

/-- The sentinel is appended after the real stems, `ROOT` is the last of them, `N` counts both (R166). -/
def Obligations.MergeAppendsTheSentinel : Prop :=
  ∀ s t : State, exec .merge s = .next t →
    t.root = (t.ns - 1).setWidth 8 ∧ t.n = t.ns + 1 ∧
    entry t.stem (t.ns.setWidth 8) = { f1 := true, c1 := 0x100, f2 := false, c2 := t.root.setWidth 9 }

/-- Fewer than two symbols: a synthetic second leaf, the complement, for one symbol; the leaves 0x00 and 0xFF for none
(R162, R169). -/
def Obligations.MergeOfFewSymbols : Prop :=
  ∀ s : State,
    ((∀ b : Byte, entry s.freq b = 0) → ∃ t, exec .merge s = .next t ∧ t.n = 2 ∧ t.root = 0 ∧
      at256 t.stem 0 = { f1 := true, c1 := 0xFF, f2 := true, c2 := 0x00 }) ∧
    (∀ v : Byte, entry s.freq v ≠ 0 → (∀ b : Byte, b ≠ v → entry s.freq b = 0) →
      ∃ t, exec .merge s = .next t ∧ t.n = 2 ∧ t.root = 0 ∧
        at256 t.stem 0 = { f1 := true, c1 := v.setWidth 9, f2 := true, c2 := (v ^^^ 0xFF).setWidth 9 })

/-! ## PLACE (43_node_placer.md) -/

/-- On a merge tree `PLACE` either meets the contract P1 to P3, every stem ranked, or raises `PlacementUnsatisfiable`; it
changes only its own results, and the status (R181, R188, R189). -/
def Obligations.PlaceMeetsTheContract : Prop :=
  ∀ s : State, TreeShape s.stem s.n.toNat →
    ∃ t, exec .place s = .next t ∧
      t = { s with
        sz := t.sz
        rank := t.rank
        hasRank := t.hasRank
        fr := t.fr
        t := t.t
        outLen := t.outLen
        point := t.point
        status := t.status } ∧
      ((t.status = { s.status with phase := .serialize } ∧ t.outLen = s.outLen ∧
          PlacementContract s.stem t.rank s.n.toNat ∧ ∀ i < s.n.toNat, at256 t.hasRank i = true) ∨
        FaultTaken .placementUnsatisfiable s t)

/-- A tree of at most 65 stems is always placed: no rank can then be more than 64 behind its stem's parent (R187, R181). -/
def Obligations.PlaceOfASmallTreeCompletes : Prop :=
  ∀ s : State, TreeShape s.stem s.n.toNat → s.n.toNat ≤ 65 →
    ∃ t, exec .place s = .next t ∧ t.status = { s.status with phase := .serialize } ∧
      PlacementContract s.stem t.rank s.n.toNat ∧ t.outMem = s.outMem ∧ t.inMem = s.inMem ∧ t.stem = s.stem

/-- The placement loop. From a merge tree `PLACE` runs it with the subtree sizes, the sentinel at rank 0 and the root in the
frontier with `due` 64. One turn raises `PlacementUnsatisfiable`, and nothing else, exactly when some frontier entry `k` has
`due < T + k`; else it ranks `T` the entry at index 0 when some entry has `due = T + k`, and the first entry of smallest
subtree otherwise, and appends that stem's stem children, child-1 before child-2, with `due = T + 64` (R186, R187, R189). -/
def Obligations.PlacementFaultExactlyAtTheTest : Prop :=
  (∀ s : State, TreeShape s.stem s.n.toNat → ∃ sz ranked t,
    (∀ i < s.n.toNat, at256 sz i = 1 + childSizeOf sz (at256 s.stem i).f1 (at256 s.stem i).c1 +
      childSizeOf sz (at256 s.stem i).f2 (at256 s.stem i).c2) ∧
    (∀ i < s.n.toNat, at256 ranked i = decide (i = s.n.toNat - 1)) ∧
    exec .place s = .next t ∧ t.sz = sz ∧
    match placeLoop s.stem sz 1 (s.n.toNat - 1)
      { rank := setEntry s.rank (BitVec.ofNat 8 (s.n.toNat - 1)) 0
        hasRank := ranked
        fr := [{ node := BitVec.ofNat 8 (s.n.toNat - 2), due := 64 }]
        t := s.t } with
    | .ok r => t.rank = r.rank ∧ t.hasRank = r.hasRank ∧ t.fr = r.fr ∧ t.t = r.t ∧
        t.status = { s.status with phase := .serialize }
    | .raise e r => e = .placementUnsatisfiable ∧ FaultTaken e s t ∧ t.rank = r.rank ∧ t.hasRank = r.hasRank ∧
        t.fr = r.fr ∧ t.t = r.t
    | .stop _ => False) ∧
  (∀ (stem : Vector Stem 256) (sz : Vector (BitVec 9) 256) (t : Nat) (r : PlaceRegs), placeLoop stem sz t 0 r = .ok r) ∧
  (∀ (stem : Vector Stem 256) (sz : Vector (BitVec 9) 256) (count t : Nat) (r : PlaceRegs), r.fr ≠ [] →
    (∀ k, ∀ h : k < r.fr.length, t + k ≤ (r.fr[k]).due.toNat) →
    ∃ i, ∃ h : i < r.fr.length,
      ((∃ k, ∃ hk : k < r.fr.length, (r.fr[k]).due.toNat = t + k) → i = 0) ∧
      ((∀ k, ∀ hk : k < r.fr.length, (r.fr[k]).due.toNat ≠ t + k) →
        (∀ k, ∀ hk : k < r.fr.length, entry sz (r.fr[i]).node ≤ entry sz (r.fr[k]).node) ∧
        ∀ k, ∀ hk : k < i, entry sz (r.fr[i]).node < entry sz (r.fr[k]).node) ∧
      placeLoop stem sz t (count + 1) r = placeLoop stem sz (t + 1) count
        { rank := setEntry r.rank (r.fr[i]).node (BitVec.ofNat 8 t)
          hasRank := setEntry r.hasRank (r.fr[i]).node true
          fr := r.fr.eraseIdx i ++
            pushedChild (entry stem (r.fr[i]).node).f1 (entry stem (r.fr[i]).node).c1 t ++
            pushedChild (entry stem (r.fr[i]).node).f2 (entry stem (r.fr[i]).node).c2 t
          t := BitVec.ofNat 9 t }) ∧
  ∀ (stem : Vector Stem 256) (sz : Vector (BitVec 9) 256) (count t : Nat) (r : PlaceRegs), t + count ≤ 256 →
    (∀ e r', placeLoop stem sz t count r = .raise e r' →
      e = .placementUnsatisfiable ∧ ∃ k, ∃ h : k < r'.fr.length, (r'.fr[k]).due.toNat < r'.t.toNat + k) ∧
    (0 < count → (∃ k, ∃ h : k < r.fr.length, (r.fr[k]).due.toNat < t + k) →
      ∃ r', placeLoop stem sz t count r = .raise .placementUnsatisfiable r' ∧ r'.rank = r.rank ∧ r'.fr = r.fr)

/-! ## SERIALIZE and HDRWRITE (44_tree_serializer.md) -/

/-- With ranks that meet the contract, `SERIALIZE` writes each stem's two entries at table bytes `2j` and `2j + 1` of its
rank `j`, the count byte over table byte 0, and nothing else (R201, R202, R204). -/
def Obligations.SerializeWritesTheNodeTable : Prop :=
  ∀ s : State, 2 ≤ s.n.toNat → s.n.toNat ≤ 256 → PlacementContract s.stem s.rank s.n.toNat →
    ∃ tbl, exec .serialize s =
        .next { s with table := tbl, point := .enter, status := { s.status with phase := .codebuild } } ∧
      (slotByte tbl 0).toNat = s.n.toNat - 1 ∧
      (∀ i < s.n.toNat,
        ((at256 s.rank i).toNat ≠ 0 → slotByte tbl (BitVec.ofNat 9 (2 * (at256 s.rank i).toNat)) =
          entryFor s.stem s.rank (at256 s.rank i).toNat (at256 s.stem i).f1 (at256 s.stem i).c1) ∧
        slotByte tbl (BitVec.ofNat 9 (2 * (at256 s.rank i).toNat + 1)) =
          entryFor s.stem s.rank (at256 s.rank i).toNat (at256 s.stem i).f2 (at256 s.stem i).c2) ∧
      ∀ j : BitVec 9, 2 * s.n.toNat ≤ j.toNat → slotByte tbl j = slotByte s.table j

/-- `SERIALIZE` raises `SkipOverflow` when a stem child's rank is not 1 to 64 past its stem's (R290). -/
def Obligations.SerializeRejectsABadSkip : Prop :=
  ∀ s : State, s.n.toNat ≤ 256 →
    (∃ i < s.n.toNat, ∃ c ∈ stemChildren (at256 s.stem i),
      ¬ ((at256 s.rank i).toNat < (entry s.rank c).toNat ∧ (entry s.rank c).toNat ≤ (at256 s.rank i).toNat + 64)) →
    ∃ t, exec .serialize s = .next t ∧ FaultTaken .skipOverflow s t ∧ t.outMem = s.outMem ∧ t.inMem = s.inMem

/-- `HDRWRITE` sizes the result; when it fits it writes tag, length and table at `OUT` 0 to `3 + 2N` and no other byte, and
leaves `OPOS` behind them; when it does not fit it raises `OutOverflow` and writes nothing (R206, R207). -/
def Obligations.HdrwriteWritesHeaderAndTable : Prop :=
  ∀ s : State, s.n.toNat ≤ 256 → Memory.wf s.outMem →
    (fitsOut s.cfg (4 + 2 * s.n.toNat + 4 * groupCount (bitTotal s)) →
      ∃ m, exec .hdrwrite s = .next { s with
          tbits := BitVec.ofNat 33 (bitTotal s)
          outMem := m
          opos := BitVec.ofNat 32 (4 + 2 * s.n.toNat)
          point := .enter
          status := { s.status with phase := .pack } } ∧
        Memory.read m 0 = 0x28 ∧ Memory.read m 1 = s.len.extractLsb' 0 8 ∧ Memory.read m 2 = s.len.extractLsb' 8 8 ∧
        Memory.read m 3 = s.len.extractLsb' 16 8 ∧
        (∀ i < 2 * s.n.toNat, Memory.read m (4 + i) = slotByte s.table (BitVec.ofNat 9 i)) ∧
        ∀ a, 4 + 2 * s.n.toNat ≤ a → Memory.read m a = Memory.read s.outMem a) ∧
    (¬ fitsOut s.cfg (4 + 2 * s.n.toNat + 4 * groupCount (bitTotal s)) →
      ∃ t, exec .hdrwrite s = .next t ∧ FaultTaken .outOverflow s t ∧
        t = { s with tbits := BitVec.ofNat 33 (bitTotal s), outLen := t.outLen, status := t.status })

/-! ## CODEBUILD and PACK (45_code_builder_bit_packer.md) -/

/-- On a merge tree, at `MAXCODELEN` 255, `CODEBUILD` gives every leaf its path from the true root, child-1 a 0 bit and
child-2 a 1 bit, and no code to any other byte value; it changes nothing else but the phase (R221, R222). -/
def Obligations.CodebuildAssignsThePaths : Prop :=
  ∀ s : State, TreeShape s.stem s.n.toNat → s.root.toNat + 2 = s.n.toNat → s.cfg.maxCodeLen = 255 →
    ∃ code, exec .codebuild s =
        .next { s with code := code, point := .enter, status := { s.status with phase := .hdrwrite } } ∧
      (∀ (b : Byte) (p : List Bool), p ≠ [] → (entry code b = p ↔ leafAt s.stem s.root p = some b)) ∧
      ∀ b : Byte, entry code b = [] ↔ b ∉ treeLeaves s.stem s.n.toNat

/-- The codes `CODEBUILD` makes of a merge tree at `MAXCODELEN` 255 are a prefix code: no code is the beginning of another's
(R223). -/
def Obligations.CodesArePrefixFree : Prop :=
  ∀ s t : State, TreeShape s.stem s.n.toNat → s.root.toNat + 2 = s.n.toNat → s.cfg.maxCodeLen = 255 →
    exec .codebuild s = .next t →
    ∀ b c : Byte, b ≠ c → entry t.code b ≠ [] → ¬ (entry t.code b).IsPrefix (entry t.code c)

/-- `CODEBUILD` raises `CodeTooLong` when a leaf is deeper than `MAXCODELEN`; at 255 it never does on a merge tree (R292). -/
def Obligations.CodeTooLongForADeepLeaf : Prop :=
  ∀ s : State, TreeShape s.stem s.n.toNat → s.root.toNat + 2 = s.n.toNat →
    ((∃ p b, leafAt s.stem s.root p = some b ∧ s.cfg.maxCodeLen < p.length) →
      ∃ t, exec .codebuild s = .next t ∧ FaultTaken .codeTooLong s t ∧ t.outMem = s.outMem ∧ t.inMem = s.inMem) ∧
    (s.cfg.maxCodeLen = 255 → ∀ t, exec .codebuild s = .next t → t.status = { s.status with phase := .hdrwrite })

/-- `PACK` writes the codes of the input bytes as one bitstream at `OPOS`: bit `i` at its place in group `i div 32`, the
rest of the last group 0, `max(1, ceil(TBITS / 32))` groups and no other byte of `OUT`; then the command ends in `DONE`
(R227, R229, R230, R65, R140). -/
def Obligations.PackWritesTheBitstream : Prop :=
  ∀ s : State, Memory.wf s.outMem → s.off.toNat + s.len.toNat ≤ s.cfg.inSize →
    s.opos.toNat + 4 * groupCount (codedBits s).length < 4294967296 →
    fitsOut s.cfg (s.opos.toNat + 4 * groupCount (codedBits s).length) →
    ∃ t, exec .pack s = .next t ∧
      t = { s with
        acc := 0
        rem := 32
        opos := t.opos
        outMem := t.outMem
        outLen := match s.op with
          | .encode => t.opos
          | .decode => s.outcnt.setWidth 32
        point := .enter
        status := { s.status with phase := .none, state := .done } } ∧
      t.opos.toNat = s.opos.toNat + 4 * groupCount (codedBits s).length ∧
      (∀ i < 32 * groupCount (codedBits s).length, streamBit t.outMem s.opos.toNat i = (codedBits s).getD i false) ∧
      ∀ a, (a < s.opos.toNat ∨ s.opos.toNat + 4 * groupCount (codedBits s).length ≤ a) →
        Memory.read t.outMem a = Memory.read s.outMem a

/-! ## DVALIDATE and DWALK (46_bit_walker.md) -/

/-- `DVALIDATE` makes its tests in order, each fault before the next test, and on success sets `CNT`, `EXPLEN`, `BOOT`,
`PAY`, `NG` and the register `EXP_LEN`; it writes no other register and no byte of `OUT` (R251). -/
def Obligations.DvalidateTestsInOrder : Prop :=
  ∀ s : State, s.off.toNat + s.len.toNat ≤ s.cfg.inSize →
    let byte := fun i => Memory.read s.inMem (s.off.toNat + i)
    let size := 6 + 2 * (byte 4).toNat
    let want : BitVec 24 := byte 3 ++ byte 2 ++ byte 1
    ∃ t, exec .dvalidate s = .next t ∧
      t = { s with
        cnt := t.cnt
        explen := t.explen
        boot := t.boot
        pay := t.pay
        ng := t.ng
        expLen := t.expLen
        outLen := t.outLen
        point := t.point
        status := t.status } ∧
      if s.len.toNat < 4 then FaultTaken .truncatedHeader s t
      else if s.len.toNat < 6 then FaultTaken .truncatedTable s t
      else if s.len.toNat < size then FaultTaken .truncatedTable s t
      else if byte 0 ≠ 0x28 then FaultTaken .badFormatTag s t
      else if exceedsOut s.cfg want.toNat then FaultTaken .outOverflow s t
      else t.status = { s.status with phase := .dwalk } ∧ t.outLen = s.outLen ∧ t.cnt = byte 4 ∧ t.explen = want ∧
        t.boot = byte 5 ∧ t.pay.toNat = s.off.toNat + size ∧ t.ng.toNat = (s.len.toNat - size) / 4 ∧
        t.expLen = want.setWidth 32

/-- `DWALK` completes when the walk of the payload's bitstream over the table never passes the bound: it ends in `DONE` with
exactly the bytes of that walk at `OUT` 0, and `SHORT` and `TRAILING` by their formulas. When a step passes the bound it
raises `PositionOutOfTree`, and the bytes emitted before are at `OUT` 0. In both cases no byte of `OUT` beyond those emitted
changes, nor any register but the walk's own and the result's (R255 to R257, R262, R264, R140). -/
def Obligations.DwalkFollowsTheTable : Prop :=
  ∀ s : State, Memory.wf s.outMem → s.pay.toNat + 4 * s.ng.toNat ≤ s.cfg.inSize →
    s.off.toNat + 6 + 2 * s.cnt.toNat ≤ s.cfg.inSize → fitsOut s.cfg s.explen.toNat →
    (∀ (out : List Byte) (used : Nat), payloadWalk s = some (out, used) →
      ∃ t, exec .dwalk s = .next t ∧
        t = { s with
          w := t.w
          g := t.g
          k := t.k
          pos := t.pos
          cur := t.cur
          outcnt := t.outcnt
          outMem := t.outMem
          outLen := t.outLen
          point := t.point
          status := t.status } ∧
        t.status = { s.status with
          phase := .none
          state := .done
          short := decide (out.length < s.explen.toNat)
          trailing := decide (s.pay.toNat + 4 * ((used + 31) / 32) < s.off.toNat + s.len.toNat) } ∧
        t.outcnt.toNat = out.length ∧ (s.op = .decode → t.outLen.toNat = out.length) ∧
        inBytes t.outMem 0 out.length = out ∧
        ∀ a, t.outcnt.toNat ≤ a → Memory.read t.outMem a = Memory.read s.outMem a) ∧
    (payloadWalk s = none →
      ∃ t, exec .dwalk s = .next t ∧
        t = { s with
          w := t.w
          g := t.g
          k := t.k
          pos := t.pos
          cur := t.cur
          outcnt := t.outcnt
          outMem := t.outMem
          outLen := t.outLen
          point := t.point
          status := t.status } ∧
        FaultTaken .positionOutOfTree s t ∧
        t.outcnt.toNat = (payloadEmitted s).length ∧
        inBytes t.outMem 0 t.outcnt.toNat = payloadEmitted s ∧
        ∀ a, t.outcnt.toNat ≤ a → Memory.read t.outMem a = Memory.read s.outMem a)

/-! ## The items of the encoded buffer (30_encoding.md, 46_bit_walker.md R251, R256, R257; log entry 11) -/

/-- On the count byte the decoder sets `CNT`, and raises `TruncatedTable` when the table it declares is not all there
(R93, R251, R287). -/
def Obligations.CountByteSetsCnt : Prop :=
  ∀ (s : State) (b : Byte),
    (6 + 2 * b.toNat ≤ s.len.toNat → exec (.count b) s = .next { s with cnt := b, point := .header }) ∧
    (s.len.toNat < 6 + 2 * b.toNat →
      ∃ t, exec (.count b) s = .next t ∧ FaultTaken .truncatedTable s t ∧
        t = { s with cnt := b, outLen := t.outLen, status := t.status })

/-- On the header the decoder raises `BadFormatTag` for a wrong tag, `OutOverflow` for a length that does not fit, and
else takes the length (R92, R251, R288, R254). -/
def Obligations.HeaderSetsTheExpectedLength : Prop :=
  ∀ (s : State) (tag : Byte) (len : BitVec 24),
    (tag ≠ 0x28 → ∃ t, exec (.hdr tag len) s = .next t ∧ FaultTaken .badFormatTag s t ∧
      t = { s with outLen := t.outLen, status := t.status }) ∧
    (tag = 0x28 → ¬ fitsOut s.cfg len.toNat → ∃ t, exec (.hdr tag len) s = .next t ∧ FaultTaken .outOverflow s t ∧
      t = { s with explen := len, outLen := t.outLen, status := t.status }) ∧
    (tag = 0x28 → fitsOut s.cfg len.toNat → exec (.hdr tag len) s = .next { s with explen := len, point := .boot })

/-- A reference read in `DVALIDATE` is the bootstrap entry and starts the walk's bounds; read elsewhere it becomes the
current entry; its byte holds `f1` in bit 7, `f2` in bit 6 and the skip in bits 5:0 (R96, R99, R251, R257). -/
def Obligations.ReferenceBecomesTheEntry : Prop :=
  ∀ (s : State) (f1 f2 : Bool) (skip : BitVec 6), ∃ e : Byte,
    e.toNat = f1.toNat * 128 + f2.toNat * 64 + skip.toNat ∧
    (s.status.phase ≠ .dvalidate → exec (.ref f1 f2 skip) s = .next { s with cur := e }) ∧
    (s.status.phase = .dvalidate → exec (.ref f1 f2 skip) s = .next { s with
      boot := e
      pay := BitVec.ofNat 33 (s.off.toNat + 6 + 2 * s.cnt.toNat)
      ng := BitVec.ofNat 30 ((s.len.toNat - 6 - 2 * s.cnt.toNat) / 4)
      expLen := s.explen.setWidth 32
      point := .enter
      status := { s.status with phase := .dwalk } })

/-- When `OUT` has a byte at address `OUTCNT`, a literal is emitted there, no other byte changes, and the walk
stands at `(BOOT, 0)` again (R257, R259). -/
def Obligations.LiteralIsEmitted : Prop :=
  ∀ (s : State) (v : Byte), Memory.wf s.outMem → fitsOut s.cfg (s.outcnt.toNat + 1) →
    ∃ m, exec (.leaf v) s = .next { s with outMem := m, outcnt := s.outcnt + 1, cur := s.boot, pos := 0 } ∧
      Memory.read m s.outcnt.toNat = v ∧ ∀ a, a ≠ s.outcnt.toNat → Memory.read m a = Memory.read s.outMem a

/-- A group is the word to walk, 32 bits from bit 31 down, and is counted (R100, R256; the counter of bits left is the
model's own, log entry 14). -/
def Obligations.GroupIsTakenToWalk : Prop :=
  ∀ (s : State) (bits : Word),
    exec (.group bits) s = .next { s with w := bits, g := s.g + 1, k := 32 } ∧
    nextBit { s with w := bits, g := s.g + 1, k := 32 } = bits.getLsbD 31

/-! ## Whole commands -/

/-- `ENCODE` of an input of fewer than 2^24 bytes with at most 65 distinct byte values, into an unbounded `OUT`, at
`MAXCODELEN` 255, ends in `DONE` with a result of `4 + 2N + 4G` bytes (R133, R134, R140). -/
def Obligations.EncodeOfFewSymbolsCompletes : Prop :=
  ∀ s : State, s.status.state ≠ .busy → s.srcOff.toNat + s.srcLen.toNat ≤ s.cfg.inSize → s.srcLen.toNat < 16777216 →
    s.cfg.outSize = none → s.cfg.maxCodeLen = 255 → (operandOf s).dedup.length ≤ 65 →
    ∃ t, exec .encodeCmd s = .next t ∧ t.status = doneStatus .encode false false ∧
      t.n.toNat = max 2 (operandOf s).dedup.length ∧ t.tbits.toNat = bitTotal t ∧
      t.outLen.toNat = 4 + 2 * t.n.toNat + 4 * groupCount t.tbits.toNat

/-- At `MAXCODELEN` 255 every `ENCODE` ends in `DONE` without an anomaly or in `FAULT` with one of its
reachable errors; it never stops in any other way (R3, R15, R280, R296). -/
def Obligations.EncodeEndsInDoneOrFault : Prop :=
  ∀ s : State, s.cfg.wf → s.cfg.maxCodeLen = 255 → s.status.state ≠ .busy →
    ∃ t, exec .encodeCmd s = .next t ∧ (t.status = doneStatus .encode false false ∨
      (t.status.state = .fault ∧ t.outLen = 0 ∧
        t.status.err ∈ [Err.badRange, Err.inputTooLarge, Err.placementUnsatisfiable, Err.outOverflow]))

/-- Every `DECODE` ends in `DONE`, with or without an anomaly, or in `FAULT` with one of its errors; it never stops in any
other way (R3, R15, R138, R280, R296). -/
def Obligations.DecodeEndsInDoneOrFault : Prop :=
  ∀ s : State, s.cfg.wf → s.status.state ≠ .busy →
    ∃ t, exec .decodeCmd s = .next t ∧
      ((∃ trailing short, t.status = doneStatus .decode trailing short ∧ t.outLen.toNat ≤ t.expLen.toNat ∧
          (t.outLen = t.expLen ↔ short = false)) ∨
        (t.status.state = .fault ∧ t.outLen = 0 ∧
          t.status.err ∈ [Err.badRange, Err.truncatedHeader, Err.truncatedTable, Err.badFormatTag, Err.outOverflow,
            Err.positionOutOfTree]))

/-- `DECODE` of a buffer whose header and table are valid and whose walk stays inside the table ends in `DONE` with the
bytes of that walk, `EXP_LEN` the header's length, and the flags by their formulas (R137, R138, R262). -/
def Obligations.DecodeOfAValidBufferCompletes : Prop :=
  ∀ (s : State) (out : List Byte) (used : Nat),
    let byte := fun i => Memory.read s.inMem (s.srcOff.toNat + i)
    let size := 6 + 2 * (byte 4).toNat
    let want : BitVec 24 := byte 3 ++ byte 2 ++ byte 1
    s.status.state ≠ .busy → Memory.wf s.outMem → s.cfg.wf → s.srcOff.toNat + s.srcLen.toNat ≤ s.cfg.inSize →
    size ≤ s.srcLen.toNat → byte 0 = 0x28 → fitsOut s.cfg want.toNat →
    walkStream (fun i => byte (4 + i)) (byte 4).toNat (byte 5)
      (streamBits s.inMem (s.srcOff.toNat + size) ((s.srcLen.toNat - size) / 4)) 0 (byte 5) want.toNat = some (out, used) →
    ∃ t, exec .decodeCmd s = .next t ∧
      t.status = doneStatus .decode (decide (size + 4 * ((used + 31) / 32) < s.srcLen.toNat))
        (decide (out.length < want.toNat)) ∧
      t.outLen.toNat = out.length ∧ t.expLen = want.setWidth 32 ∧ inBytes t.outMem 0 out.length = out

/-- A command that ends in `FAULT` has written nothing to `OUT`, but for `PositionOutOfTree` (R133, R282). -/
def Obligations.FaultBeforeTheWalkLeavesOutAlone : Prop :=
  ∀ (s t : State) (i : Instr), (i = .encodeCmd ∨ i = .decodeCmd) → s.status.state ≠ .busy → exec i s = .next t →
    t.status.state = .fault → t.status.err ≠ .positionOutOfTree → ∀ a, Memory.read t.outMem a = Memory.read s.outMem a

/-- Bytes of `OUT` at `OUT_LEN` and above keep the value they had before a command that ends in `DONE` (R70). -/
def Obligations.OutBeyondTheResultIsKept : Prop :=
  ∀ (s t : State) (i : Instr), (i = .encodeCmd ∨ i = .decodeCmd) → Memory.wf s.outMem → s.status.state ≠ .busy →
    exec i s = .next t → t.status.state = .done → ∀ a, t.outLen.toNat ≤ a → Memory.read t.outMem a = Memory.read s.outMem a

/-- The result of a command is a function of its input bytes and the parameters alone: not of `OFF`, of `IN` outside the
input, or of anything an earlier command or reset left (R134, R138, R46, R323). -/
def Obligations.ResultDependsOnTheInputAlone : Prop :=
  ∀ (s1 s2 t1 t2 : State) (i : Instr), (i = .encodeCmd ∨ i = .decodeCmd) →
    s1.status.state ≠ .busy → s2.status.state ≠ .busy → s1.cfg.wf → s2.cfg.wf →
    s1.cfg.outSize = s2.cfg.outSize → s1.cfg.maxCodeLen = s2.cfg.maxCodeLen → Memory.wf s1.outMem → Memory.wf s2.outMem →
    s1.srcOff.toNat + s1.srcLen.toNat ≤ s1.cfg.inSize → s2.srcOff.toNat + s2.srcLen.toNat ≤ s2.cfg.inSize →
    operandOf s1 = operandOf s2 → exec i s1 = .next t1 → exec i s2 = .next t2 →
    t1.status = t2.status ∧ t1.outLen = t2.outLen ∧ t1.expLen = t2.expLen ∧
      inBytes t1.outMem 0 t1.outLen.toNat = inBytes t2.outMem 0 t2.outLen.toNat

/-- Round trip, at `MAXCODELEN` 255. `ENCODE` of a byte sequence shorter than 2^24 ends in `DONE` unless `PLACE`
faults or `OUT` is too small; and what it then left in `OUT`, decoded, gives the byte sequence back, `SHORT` clear, `TRAILING` set only for the empty
sequence (R142). -/
def Obligations.DecodeOfEncodedIsTheInput : Prop :=
  ∀ s : State, s.cfg.wf → s.cfg.maxCodeLen = 255 → Memory.wf s.outMem → s.status.state ≠ .busy →
    s.srcOff.toNat + s.srcLen.toNat ≤ s.cfg.inSize → s.srcLen.toNat < 16777216 →
    ∃ t, exec .encodeCmd s = .next t ∧
      (t.status.state ≠ .done → t.status.err = .placementUnsatisfiable ∨ t.status.err = .outOverflow) ∧
      (t.status.state = .done → ∀ u : State, u.cfg.wf → Memory.wf u.outMem → u.status.state ≠ .busy →
        u.srcLen = t.outLen → u.srcOff.toNat + u.srcLen.toNat ≤ u.cfg.inSize →
        operandOf u = inBytes t.outMem 0 t.outLen.toNat → fitsOut u.cfg s.srcLen.toNat →
        ∃ v, exec .decodeCmd u = .next v ∧ v.status = doneStatus .decode (decide (s.srcLen = 0)) false ∧
          v.outLen = s.srcLen ∧ v.expLen = s.srcLen ∧ inBytes v.outMem 0 v.outLen.toNat = operandOf s)

/-! ## Size of a step (40_commands.md R141) -/

/-- Run micro-operation by micro-operation, a command reaches what it reaches as one transition: the `CMD` write, the
range check and at most seven micro-operations (R133, R137, R141). -/
def Obligations.PhaseStepsMakeTheCommand : Prop :=
  ∀ (s : State) (v : Word), s.script = [.writeReg 0 v] → s.status.state ≠ .busy → s.cfg.grain = .phase →
    Sys2Proof.core.run 9 s = exec (if v.getLsbD 0 then .decodeCmd else .encodeCmd) { s with script := [] }

/-- Run item by item, a `DECODE` reaches what it reaches as one transition (R137, R141, R256). -/
def Obligations.ItemStepsMakeTheDecode : Prop :=
  ∀ (s : State) (v : Word), s.script = [.writeReg 0 v] → v.getLsbD 0 = true → s.status.state ≠ .busy →
    s.cfg.grain = .item → ∃ n, Sys2Proof.core.run n s = exec .decodeCmd { s with script := [] }

/-- Every running command has ended, or the machine has stopped, after some number of steps of the sequencer, whatever the
size of a step; within eight steps when a step is not one item (R143). MODEL'S CHOICE: the size of a step, and so every count
of steps (log entry 1); that an empty script leaves the sequencer alone (log entry 19). -/
def Obligations.EveryCommandTerminates : Prop :=
  ∀ s : State, s.script = [] → s.status.state = .busy →
    (∃ n, ∀ t, Sys2Proof.core.run n s = .next t → t.status.state ≠ .busy) ∧
    (s.cfg.grain ≠ .item → ∀ t, Sys2Proof.core.run 8 s = .next t → t.status.state ≠ .busy)

/-! ## Invariants and frames -/

/-- Every step keeps the invariant: the memories in canonical form and inside their spaces, and what the registers say of
each other (R24 to R29, R60, R61). -/
def Obligations.EveryStepKeepsTheInvariant : Prop :=
  ∀ s t : State, Invariant s → step s = .next t → Invariant t

/-- The state after reset meets the invariant (its parameters are the model's choice, log entries 1 and 2). -/
def Obligations.ResetMeetsTheInvariant : Prop := Invariant State.reset

/-- No step changes a parameter (R336). -/
def Obligations.NoStepChangesTheParameters : Prop :=
  ∀ s t : State, step s = .next t → t.cfg = s.cfg

/-- No instruction writes `IN`, `SRC_OFF`, `SRC_LEN`, a parameter or what belongs to the host (R21, R60, R69). -/
def Obligations.InstructionsKeepInputAndHostState : Prop :=
  ∀ (i : Instr) (s t : State), exec i s = .next t →
    (∀ a, Memory.read t.inMem a = Memory.read s.inMem a) ∧ t.srcOff = s.srcOff ∧ t.srcLen = s.srcLen ∧ t.cfg = s.cfg ∧
      t.script = s.script ∧ t.reads = s.reads ∧ t.free = s.free

/-- The frame of the micro-operations of `ENCODE` and of the items of `DECODE`, as sets of registers: those of `ENCODE`
keep every register of the decoder and the sampled operands, those of `DECODE` every register and table of the encoder;
`MERGE`, `PLACE`, `SERIALIZE`, `CODEBUILD`, `FREQ`, `DVALIDATE` and the items but a literal keep every byte of `OUT`; only
`FREQ` writes `FREQ`, only `MERGE` writes `STEM`, only `PLACE` writes `RANK`, only `SERIALIZE` writes `TABLE`, only
`CODEBUILD` writes `CODE` (R31 to R41, R63). -/
def Obligations.MicroOperationFrames : Prop :=
  ∀ (i : Instr) (s t : State), exec i s = .next t →
    (i ∈ [Instr.freq, .merge, .place, .serialize, .codebuild, .hdrwrite, .pack] →
      t.cnt = s.cnt ∧ t.explen = s.explen ∧ t.boot = s.boot ∧ t.cur = s.cur ∧ t.pos = s.pos ∧ t.outcnt = s.outcnt ∧
      t.pay = s.pay ∧ t.ng = s.ng ∧ t.g = s.g ∧ t.w = s.w ∧ t.k = s.k ∧ t.op = s.op ∧ t.off = s.off ∧ t.len = s.len ∧
      t.expLen = s.expLen ∧
      (i ≠ .freq → t.freq = s.freq) ∧ (i ≠ .merge → t.stem = s.stem ∧ t.n = s.n ∧ t.root = s.root ∧ t.ws = s.ws) ∧
      (i ≠ .place → t.rank = s.rank ∧ t.hasRank = s.hasRank ∧ t.sz = s.sz ∧ t.fr = s.fr) ∧
      (i ≠ .serialize → t.table = s.table) ∧ (i ≠ .codebuild → t.code = s.code)) ∧
    (i.format ∉ [Format.cmd] → i ∉ [Instr.freq, .merge, .place, .serialize, .codebuild, .hdrwrite, .pack] →
      t.freq = s.freq ∧ t.ws = s.ws ∧ t.stem = s.stem ∧ t.rank = s.rank ∧ t.hasRank = s.hasRank ∧ t.sz = s.sz ∧
      t.fr = s.fr ∧ t.table = s.table ∧ t.code = s.code ∧ t.seq = s.seq ∧ t.ns = s.ns ∧ t.n = s.n ∧ t.root = s.root ∧
      t.t = s.t ∧ t.acc = s.acc ∧ t.rem = s.rem ∧ t.opos = s.opos ∧ t.tbits = s.tbits ∧ t.op = s.op ∧ t.off = s.off ∧
      t.len = s.len) ∧
    ((i ∈ [Instr.freq, .merge, .place, .serialize, .codebuild, .dvalidate] ∨
        i.format ∈ [Format.hdr, .count, .ref, .group]) →
      ∀ a, Memory.read t.outMem a = Memory.read s.outMem a)

/-- Taking a fault sets `ERR`, the flags, `OUT_LEN` and `STATE`, and nothing else; and when a micro-operation or an item
ends in `FAULT`, the host sees that change alone: `PHASE` the phase that raised it, `LASTOP`, `EXP_LEN`, `SRC_OFF` and
`SRC_LEN` kept (R283). -/
def Obligations.FaultsChangeTheStatusAsStated : Prop :=
  (∀ (e : Err) (s : State), takeFault e s = { s with
    outLen := 0
    status := { s.status with err := e, trailing := false, short := false, state := .fault } }) ∧
  ∀ (i : Instr) (s t : State), i ≠ .encodeCmd → i ≠ .decodeCmd → s.status.state ≠ .fault → exec i s = .next t →
    t.status.state = .fault → ∃ e, e ≠ .none ∧ FaultTaken e s t

/-! ## The host's memory accesses (20_memory.md R60, R61; 70_reset_and_hazards.md R325) -/

/-- While no command runs, the host reads back from `IN` and from `OUT` the byte it wrote there (R60, R61, R77). -/
def Obligations.HostReadsBackWhatItWrote : Prop :=
  ∀ (s : State) (a : Word) (v : Byte), s.status.state ≠ .busy → Memory.wf s.inMem → Memory.wf s.outMem →
    (s.script = [.writeIn a v, .readIn a] → a.toNat < s.cfg.inSize →
      ∃ t, Sys2Proof.core.run 2 s = .next t ∧ t.reads = s.reads ++ [v.setWidth 32] ∧ t.outMem = s.outMem ∧
        t.status = s.status) ∧
    (s.script = [.writeOut a v, .readOut a] → fitsOut s.cfg (a.toNat + 1) →
      ∃ t, Sys2Proof.core.run 2 s = .next t ∧ t.reads = s.reads ++ [v.setWidth 32] ∧ t.inMem = s.inMem ∧
        t.status = s.status)

/-- A host access to `IN` or `OUT` while `BUSY` is refused: the spec calls the result UNPREDICTABLE and lets a model refuse
it (R325, 93_implementation_defined.md V6); that this model does is its choice, log entry 6. -/
def Obligations.HostAccessWhileBusyIsRefused : Prop :=
  ∀ (s : State) (a : Word) (v : Byte) (rest : List HostAction), s.status.state = .busy →
    (s.script = .writeIn a v :: rest ∨ s.script = .readIn a :: rest ∨ s.script = .writeOut a v :: rest ∨
      s.script = .readOut a :: rest) → step s = .refused .hostAccessWhileBusy
end

