-- ==== Sys2Proof/Laws/Flow.lean ====
section
/-! SUPPORT. Runs of statements: when a composed run goes through, raises or stops, and what its outcome is. Later proofs
cite these and do not unfold `Flow.andThen`, `Flow.map`, `Flow.access` or `Flow.finish`. -/

namespace Sys2Proof.Machine

variable {α β : Type}

@[simp] theorem Flow.andThen_ok (a : α) (k : α → Flow α) : (Flow.ok a).andThen k = k a := rfl
@[simp] theorem Flow.andThen_raise (e : Err) (a : α) (k : α → Flow α) : (Flow.raise e a).andThen k = .raise e a := rfl
@[simp] theorem Flow.andThen_stop (f : Fault) (k : α → Flow α) : (Flow.stop f).andThen k = .stop f := rfl
@[simp] theorem Flow.map_ok (g : α → β) (a : α) : (Flow.ok a).map g = .ok (g a) := rfl
@[simp] theorem Flow.map_raise (g : α → β) (e : Err) (a : α) : (Flow.raise e a).map g = .raise e (g a) := rfl
@[simp] theorem Flow.map_stop (g : α → β) (f : Fault) : (Flow.stop f : Flow α).map g = .stop f := rfl
@[simp] theorem Flow.access_ok (b : β) (k : β → Flow α) : Flow.access (.ok b) k = k b := rfl
@[simp] theorem Flow.access_error (f : Fault) (k : β → Flow α) : Flow.access (.error f) k = .stop f := rfl
@[simp] theorem Flow.finish_ok (s : State) : (Flow.ok s).finish = .next s := rfl
@[simp] theorem Flow.finish_raise (e : Err) (s : State) : (Flow.raise e s).finish = .next (takeFault e s) := rfl
@[simp] theorem Flow.finish_stop (f : Fault) : (Flow.stop f : Flow State).finish = .fault f := rfl

/-- A composed run goes through exactly when both parts do. -/
theorem Flow.andThen_eq_ok {x : Flow α} {k : α → Flow α} {b : α} :
    x.andThen k = .ok b ↔ ∃ a, x = .ok a ∧ k a = .ok b := by
  cases x <;> simp

/-- A composed run raises when the first part does, or the second after it. -/
theorem Flow.andThen_eq_raise {x : Flow α} {k : α → Flow α} {e : Err} {b : α} :
    x.andThen k = .raise e b ↔ x = .raise e b ∨ ∃ a, x = .ok a ∧ k a = .raise e b := by
  cases x <;> simp

/-- A composed run stops when the first part does, or the second after it. -/
theorem Flow.andThen_eq_stop {x : Flow α} {k : α → Flow α} {f : Fault} :
    x.andThen k = .stop f ↔ x = .stop f ∨ ∃ a, x = .ok a ∧ k a = .stop f := by
  cases x <;> simp

theorem Flow.map_eq_ok {x : Flow α} {g : α → β} {b : β} : x.map g = .ok b ↔ ∃ a, x = .ok a ∧ g a = b := by
  cases x <;> simp

theorem Flow.map_eq_raise {x : Flow α} {g : α → β} {e : Err} {b : β} :
    x.map g = .raise e b ↔ ∃ a, x = .raise e a ∧ g a = b := by
  cases x <;> simp [and_comm]

theorem Flow.map_eq_stop {x : Flow α} {g : α → β} {f : Fault} : x.map g = .stop f ↔ x = .stop f := by
  cases x <;> simp

theorem Flow.access_eq_ok {r : Except Fault β} {k : β → Flow α} {a : α} :
    Flow.access r k = .ok a ↔ ∃ b, r = .ok b ∧ k b = .ok a := by
  cases r <;> simp

theorem Flow.access_eq_raise {r : Except Fault β} {k : β → Flow α} {e : Err} {a : α} :
    Flow.access r k = .raise e a ↔ ∃ b, r = .ok b ∧ k b = .raise e a := by
  cases r <;> simp

/-- A run's outcome is a next state exactly when it went through or raised a fault that was taken (R283). -/
theorem Flow.finish_eq_next {x : Flow State} {t : State} :
    x.finish = .next t ↔ x = .ok t ∨ ∃ e s, x = .raise e s ∧ t = takeFault e s := by
  cases x <;> simp [eq_comm]

/-- A run's outcome is a fault of the model exactly when it stopped. -/
theorem Flow.finish_eq_fault {x : Flow State} {f : Fault} : x.finish = .fault f ↔ x = .stop f := by
  cases x <;> simp

/-- A run is never refused. -/
theorem Flow.finish_ne_refused (x : Flow State) (r : Refusal) : x.finish ≠ .refused r := by
  cases x <;> simp

/-- Two runs in a row associate. -/
theorem Flow.andThen_assoc (x : Flow α) (k l : α → Flow α) :
    (x.andThen k).andThen l = x.andThen fun a => (k a).andThen l := by
  cases x <;> rfl

/-- A property that both parts keep, whether they go through or raise, the composed run keeps. -/
def Flow.Keeps (P : α → Prop) : Flow α → Prop
  | .ok a => P a
  | .raise _ a => P a
  | .stop _ => True

@[simp] theorem Flow.keeps_ok {P : α → Prop} {a : α} : Flow.Keeps P (.ok a) ↔ P a := Iff.rfl
@[simp] theorem Flow.keeps_raise {P : α → Prop} {e : Err} {a : α} : Flow.Keeps P (.raise e a) ↔ P a := Iff.rfl
@[simp] theorem Flow.keeps_stop {P : α → Prop} {f : Fault} : Flow.Keeps P (.stop f : Flow α) := trivial

theorem Flow.Keeps.andThen {P Q : α → Prop} {x : Flow α} {k : α → Flow α} (hx : x.Keeps P)
    (hpq : ∀ a, P a → Q a) (hk : ∀ a, P a → (k a).Keeps Q) : (x.andThen k).Keeps Q := by
  cases x with
  | ok a => exact hk a hx
  | raise e a => exact hpq a hx
  | stop f => trivial

theorem Flow.Keeps.mono {P Q : α → Prop} {x : Flow α} (hx : x.Keeps P) (h : ∀ a, P a → Q a) : x.Keeps Q := by
  cases x with
  | ok a => exact h a hx
  | raise e a => exact h a hx
  | stop f => trivial

theorem Flow.Keeps.map {P : α → Prop} {Q : β → Prop} {x : Flow α} {g : α → β} (hx : x.Keeps P)
    (hg : ∀ a, P a → Q (g a)) : (x.map g).Keeps Q := by
  cases x with
  | ok a => exact hg a hx
  | raise e a => exact hg a hx
  | stop f => trivial

theorem Flow.Keeps.access {P : α → Prop} {r : Except Fault β} {k : β → Flow α} (hk : ∀ b, r = .ok b → (k b).Keeps P) :
    (Flow.access r k).Keeps P := by
  cases r with
  | ok b => exact hk b rfl
  | error f => trivial

/-- What a kept property says of the outcome, when taking a fault keeps it too. -/
theorem Flow.Keeps.finish {P : State → Prop} {x : Flow State} {t : State} (hx : x.Keeps P)
    (hf : ∀ e s, P s → P (takeFault e s)) (h : x.finish = .next t) : P t := by
  cases x with
  | ok s => simp at h; exact h ▸ hx
  | raise e s => simp at h; exact h ▸ hf e s hx
  | stop f => simp at h

end Sys2Proof.Machine
end

