-- ==== Sys2Proof/Laws/Memory.lean ====
section
/-! SUPPORT. The laws of the memories and tables: a read after a write, and that every memory operation keeps the
canonical form and the bound of the address space (20_memory.md R60, R61). -/

namespace Sys2Proof.Machine

open Sys2Proof.Safety

/-! ### One byte -/

/-- Every listed address is below a bound. -/
abbrev Memory.below (m : Memory) (bound : Nat) : Prop := ∀ c ∈ m, c.1 < bound

theorem Memory.wf_nil : Memory.wf [] := by simp [Memory.wf]

theorem Memory.wf_cons {c : Host.Cell} {m : Memory} :
    Memory.wf (c :: m) ↔ ((∀ x ∈ m, c.1 < x.1) ∧ c.2 ≠ Memory.unlisted) ∧ Memory.wf m := by
  simp only [Memory.wf, List.pairwise_cons, List.forall_mem_cons]
  tauto

theorem Memory.read_of_lt {m : Memory} {a : Nat} (h : ∀ x ∈ m, a < x.1) : Memory.read m a = Memory.unlisted := by
  induction m with
  | nil => rfl
  | cons c m ih =>
    have hc := h c List.mem_cons_self
    have : ¬ c.1 = a := by omega
    simp only [Memory.read, this, if_false]
    exact ih fun x hx => h x (List.mem_cons_of_mem _ hx)

theorem Memory.mem_write {m : Memory} {a : Nat} {v : Byte} {c : Host.Cell} (h : c ∈ Memory.write m a v) :
    c ∈ m ∨ (c = (a, v) ∧ v ≠ Memory.unlisted) := by
  induction m with
  | nil =>
    simp only [Memory.write] at h
    split at h <;> simp_all
  | cons d m ih =>
    obtain ⟨x, b⟩ := d
    simp only [Memory.write] at h
    split at h
    · split at h <;> simp_all
      tauto
    · split at h
      · split at h <;> simp_all
        · tauto
      · rcases List.mem_cons.1 h with h | h
        · simp [h]
        · rcases ih h with h | h
          · simp [h]
          · simp [h]

theorem Memory.write_wf {m : Memory} (h : Memory.wf m) (a : Nat) (v : Byte) : Memory.wf (Memory.write m a v) := by
  induction m with
  | nil =>
    simp only [Memory.write]
    split
    · exact Memory.wf_nil
    · rename_i hv
      exact Memory.wf_cons.2 ⟨⟨by simp, hv⟩, Memory.wf_nil⟩
  | cons d m ih =>
    obtain ⟨x, b⟩ := d
    have h' := Memory.wf_cons.1 h
    simp only [Memory.write]
    split
    · split
      · exact h
      · rename_i hax hv
        refine Memory.wf_cons.2 ⟨⟨?_, hv⟩, h⟩
        intro y hy
        rcases List.mem_cons.1 hy with rfl | hy
        · exact hax
        · exact lt_trans hax (h'.1.1 y hy)
    · split
      · rename_i hax
        subst hax
        split
        · exact h'.2
        · rename_i hv
          exact Memory.wf_cons.2 ⟨⟨h'.1.1, hv⟩, h'.2⟩
      · refine Memory.wf_cons.2 ⟨⟨?_, h'.1.2⟩, ih h'.2⟩
        intro y hy
        rcases Memory.mem_write hy with hy | ⟨rfl, -⟩
        · exact h'.1.1 y hy
        · dsimp only
          omega

theorem Memory.write_below {m : Memory} {bound a : Nat} {v : Byte} (h : Memory.below m bound) (ha : a < bound) :
    Memory.below (Memory.write m a v) bound := by
  intro c hc
  rcases Memory.mem_write hc with hc | ⟨rfl, -⟩
  · exact h c hc
  · exact ha

/-- A read after a write (R77): the byte written there, every other byte as before. -/
theorem Memory.read_write {m : Memory} (h : Memory.wf m) (a : Nat) (v : Byte) (i : Nat) :
    Memory.read (Memory.write m a v) i = if i = a then v else Memory.read m i := by
  induction m with
  | nil =>
    simp only [Memory.write]
    by_cases hv : v = Memory.unlisted <;> by_cases hi : i = a <;> simp [Memory.read, hv, hi]
    omega
  | cons d m ih =>
    obtain ⟨x, b⟩ := d
    have h' := Memory.wf_cons.1 h
    have hlow : ∀ j, j ≤ x → Memory.read m j = Memory.unlisted := fun j hj =>
      Memory.read_of_lt fun y hy => lt_of_le_of_lt hj (h'.1.1 y hy)
    simp only [Memory.write]
    by_cases hax : a < x
    · simp only [hax, if_true]
      by_cases hv : v = Memory.unlisted
      · simp only [hv, if_true]
        by_cases hi : i = a
        · subst hi
          have hxi : ¬ x = i := by omega
          simp [Memory.read, hxi, hlow i (by omega)]
        · simp [hi]
      · by_cases hi : i = a
        · subst hi
          simp [Memory.read, hv]
        · have hai : ¬ a = i := fun e => hi e.symm
          simp [Memory.read, hv, hi, hai]
    · by_cases hx : a = x
      · subst hx
        simp only [if_true, lt_irrefl, if_false]
        by_cases hv : v = Memory.unlisted
        · by_cases hi : i = a
          · subst hi
            simp [hv, hlow i le_rfl]
          · have hai : ¬ a = i := fun e => hi e.symm
            simp [Memory.read, hv, hi, hai]
        · by_cases hi : i = a
          · subst hi
            simp [Memory.read, hv]
          · have hai : ¬ a = i := fun e => hi e.symm
            simp [Memory.read, hv, hi, hai]
      · simp only [hax, hx, if_false]
        by_cases hxi : x = i
        · subst hxi
          have : ¬ x = a := fun e => hx e.symm
          simp [Memory.read, this]
        · simp [Memory.read, hxi, ih h'.2]

@[simp] theorem Memory.read_nil (a : Nat) : Memory.read [] a = Memory.unlisted := rfl

/-! ### Splicing (R322) -/

theorem Memory.filter_wf {m : Memory} (h : Memory.wf m) (p : Host.Cell → Bool) : Memory.wf (m.filter p) :=
  ⟨h.1.filter p, fun c hc => h.2 c (List.mem_filter.1 hc).1⟩

theorem Memory.splice_wf {new old : Memory} (hn : Memory.wf new) (ho : Memory.wf old) (cut : Nat) :
    Memory.wf (Memory.splice cut new old) := by
  have h1 := Memory.filter_wf hn fun c => decide (c.1 < cut)
  have h2 := Memory.filter_wf ho fun c => decide (cut ≤ c.1)
  refine ⟨List.pairwise_append.2 ⟨h1.1, h2.1, ?_⟩, ?_⟩
  · intro x hx y hy
    have hx' := (List.mem_filter.1 hx).2
    have hy' := (List.mem_filter.1 hy).2
    simp only [decide_eq_true_eq] at hx' hy'
    omega
  · intro c hc
    rcases List.mem_append.1 hc with hc | hc
    · exact h1.2 c hc
    · exact h2.2 c hc

theorem Memory.splice_below {new old : Memory} {bound : Nat} (hn : Memory.below new bound) (ho : Memory.below old bound)
    (cut : Nat) : Memory.below (Memory.splice cut new old) bound := by
  intro c hc
  rcases List.mem_append.1 hc with hc | hc
  · exact hn c (List.mem_filter.1 hc).1
  · exact ho c (List.mem_filter.1 hc).1

theorem Memory.read_append (m1 m2 : Memory) (a : Nat) :
    Memory.read (m1 ++ m2) a = if a ∈ m1.map (·.1) then Memory.read m1 a else Memory.read m2 a := by
  induction m1 with
  | nil => simp
  | cons c m1 ih =>
    obtain ⟨x, b⟩ := c
    by_cases hx : x = a
    · simp [Memory.read, hx]
    · have : ¬ a = x := fun e => hx e.symm
      simp [Memory.read, hx, this, ih]

theorem Memory.read_filter {m : Memory} (p : Nat → Bool) (a : Nat) :
    Memory.read (m.filter fun c => p c.1) a = if p a then Memory.read m a else Memory.unlisted := by
  induction m with
  | nil => simp
  | cons c m ih =>
    obtain ⟨x, b⟩ := c
    by_cases hp : p x
    · rw [List.filter_cons_of_pos (by simpa using hp)]
      by_cases hx : x = a
      · subst hx
        simp [Memory.read, hp]
      · simp [Memory.read, hx, ih]
    · rw [List.filter_cons_of_neg (by simpa using hp)]
      by_cases hx : x = a
      · subst hx
        simp [ih, hp]
      · simp [Memory.read, hx, ih]

theorem Memory.read_eq_unlisted {m : Memory} {a : Nat} (h : a ∉ m.map (·.1)) : Memory.read m a = Memory.unlisted := by
  induction m with
  | nil => rfl
  | cons c m ih =>
    obtain ⟨x, b⟩ := c
    simp only [List.map_cons, List.mem_cons, not_or] at h
    have : ¬ x = a := fun e => h.1 e.symm
    simp [Memory.read, this, ih h.2]

/-- What a spliced memory reads as: the new memory below the cut, the old one from it on. -/
theorem Memory.read_splice (cut : Nat) (new old : Memory) (a : Nat) :
    Memory.read (Memory.splice cut new old) a = if a < cut then Memory.read new a else Memory.read old a := by
  rw [Memory.splice, Memory.read_append]
  have h1 := Memory.read_filter (m := new) (fun x => decide (x < cut)) a
  have h2 := Memory.read_filter (m := old) (fun x => decide (cut ≤ x)) a
  simp only [decide_eq_true_eq] at h1 h2
  rw [h1, h2]
  by_cases ha : a < cut
  · have hc : ¬ cut ≤ a := by omega
    simp only [ha, if_true, hc, if_false]
    split
    · rfl
    · rename_i hm
      have := Memory.read_eq_unlisted hm
      rw [h1] at this
      simpa [ha] using this.symm
  · have hc : cut ≤ a := by omega
    have : a ∉ (new.filter fun c => decide (c.1 < cut)).map (·.1) := by
      intro hm
      obtain ⟨c, hc1, rfl⟩ := List.mem_map.1 hm
      have := (List.mem_filter.1 hc1).2
      simp only [decide_eq_true_eq] at this
      exact ha this
    simp [ha, hc, this]

/-! ### Reads of IN -/

theorem readIn_ok {s : State} {a : Nat} (h : a < s.cfg.inSize) : readIn s a = .ok (Memory.read s.inMem a) := by
  simp [readIn, h]

theorem readIn_eq_ok {s : State} {a : Nat} {b : Byte} (h : readIn s a = .ok b) :
    a < s.cfg.inSize ∧ b = Memory.read s.inMem a := by
  unfold readIn at h
  split at h
  · exact ⟨‹_›, by simpa using h.symm⟩
  · cases h

theorem inBytes_succ (m : Memory) (a count : Nat) :
    inBytes m a (count + 1) = Memory.read m a :: inBytes m (a + 1) count := by
  simp only [inBytes, List.range_succ_eq_map, List.map_cons, List.map_map, Nat.add_zero, List.cons.injEq, true_and]
  refine List.map_congr_left fun i _ => ?_
  simp only [Function.comp_apply, Nat.succ_eq_add_one]
  congr 1
  omega

/-- Reads inside `IN` give the bytes that are there, ascending (R63, R77). -/
theorem readInRange_ok {s : State} {a count : Nat} (h : a + count ≤ s.cfg.inSize) :
    readInRange s a count = .ok (inBytes s.inMem a count) := by
  induction count generalizing a with
  | zero => simp [readInRange, inBytes]
  | succ count ih => rw [readInRange, readIn_ok (by omega), ih (by omega), inBytes_succ]

theorem readInRange_eq_ok {s : State} {a count : Nat} {bs : List Byte} (h : readInRange s a count = .ok bs) :
    bs = inBytes s.inMem a count ∧ (0 < count → a + count ≤ s.cfg.inSize) := by
  induction count generalizing a bs with
  | zero =>
    simp only [readInRange, Except.ok.injEq] at h
    simp [← h, inBytes]
  | succ count ih =>
    simp only [readInRange] at h
    split at h
    · rename_i b bs' h1 h2
      obtain ⟨hlt, rfl⟩ := readIn_eq_ok h1
      obtain ⟨rfl, hle⟩ := ih h2
      simp only [Except.ok.injEq] at h
      refine ⟨by rw [← h, inBytes_succ], fun _ => ?_⟩
      by_cases hc : 0 < count
      · have := hle hc
        omega
      · omega
    · cases h
    · cases h

/-! ### Writes of OUT -/

theorem writeOut_ok {cfg : Config.Params} {m : Memory} {a : Nat} {v : Byte} (h : outHas cfg a = true) :
    writeOut cfg m a v = .ok (Memory.write m a v) := by simp [writeOut, h]

theorem writeOut_eq_ok {cfg : Config.Params} {m m' : Memory} {a : Nat} {v : Byte} (h : writeOut cfg m a v = .ok m') :
    outHas cfg a = true ∧ m' = Memory.write m a v := by
  unfold writeOut at h
  split at h
  · exact ⟨‹_›, by simpa using h.symm⟩
  · cases h

theorem outHas_mono {cfg : Config.Params} {a b : Nat} (h : outHas cfg b = true) (hab : a ≤ b) : outHas cfg a = true := by
  unfold outHas at *
  cases hs : cfg.outSize with
  | none => rfl
  | some size =>
    simp only [hs, decide_eq_true_eq] at h ⊢
    omega

/-- When the last byte exists, a run of byte writes goes through. -/
theorem writeOutBytes_ok {cfg : Config.Params} {m : Memory} {a : Nat} {vs : List Byte}
    (h : ∀ i < vs.length, outHas cfg (a + i) = true) : ∃ m', writeOutBytes cfg m a vs = .ok m' := by
  induction vs generalizing m a with
  | nil => exact ⟨m, rfl⟩
  | cons v vs ih =>
    have h0 := h 0 (by simp)
    simp only [Nat.add_zero] at h0
    rw [writeOutBytes, writeOut_ok h0]
    exact ih fun i hi => by
      have := h (i + 1) (by simpa using hi)
      rwa [Nat.add_assoc, Nat.add_comm 1 i]

/-- What a run of byte writes does: every written byte existed, the canonical form is kept, the bytes stand at their
addresses, and every other byte is as before. -/
theorem writeOutBytes_spec {cfg : Config.Params} {m m' : Memory} {a : Nat} {vs : List Byte}
    (h : writeOutBytes cfg m a vs = .ok m') :
    (∀ i < vs.length, outHas cfg (a + i) = true) ∧ (Memory.wf m → Memory.wf m' ∧ ∀ x, Memory.read m' x =
      if a ≤ x ∧ x < a + vs.length then vs.getD (x - a) 0 else Memory.read m x) := by
  induction vs generalizing m a with
  | nil =>
    simp only [writeOutBytes, Except.ok.injEq] at h
    subst h
    refine ⟨by simp, fun hw => ⟨hw, fun x => ?_⟩⟩
    have : ¬ (a ≤ x ∧ x < a + ([] : List Byte).length) := by simp
    rw [if_neg this]
  | cons v vs ih =>
    simp only [writeOutBytes] at h
    split at h
    · rename_i m1 h1
      obtain ⟨ho, rfl⟩ := writeOut_eq_ok h1
      obtain ⟨h2, h3⟩ := ih h
      refine ⟨?_, fun hw => ?_⟩
      · intro i hi
        cases i with
        | zero => simpa using ho
        | succ i =>
          have := h2 i (by simpa using hi)
          rwa [Nat.add_assoc, Nat.add_comm 1 i] at this
      · obtain ⟨h4, h5⟩ := h3 (Memory.write_wf hw a v)
        refine ⟨h4, fun x => ?_⟩
        rw [h5 x, Memory.read_write hw]
        simp only [List.length_cons]
        by_cases hx : x = a
        · subst hx
          simp
        · by_cases hc : a + 1 ≤ x ∧ x < a + 1 + vs.length
          · have c2 : a ≤ x ∧ x < a + (vs.length + 1) := by omega
            have c3 : x - a = (x - (a + 1)) + 1 := by omega
            simp only [hc, and_self, if_true, c2, c3, List.getD_cons_succ]
          · have c2 : ¬ (a ≤ x ∧ x < a + (vs.length + 1)) := by omega
            rw [if_neg hc, if_neg hx, if_neg c2]
    · cases h

theorem writeOutBytes_below {cfg : Config.Params} {m m' : Memory} {a bound : Nat} {vs : List Byte}
    (h : writeOutBytes cfg m a vs = .ok m') (hm : Memory.below m bound) (hb : ∀ x, outHas cfg x = true → x < bound) :
    Memory.below m' bound := by
  induction vs generalizing m a with
  | nil =>
    simp only [writeOutBytes, Except.ok.injEq] at h
    exact h ▸ hm
  | cons v vs ih =>
    simp only [writeOutBytes] at h
    split at h
    · rename_i m1 h1
      obtain ⟨ho, rfl⟩ := writeOut_eq_ok h1
      exact ih h (Memory.write_below hm (hb a ho))
    · cases h

/-! ### Tables -/

@[simp] theorem entry_setEntry_same {α : Type} (t : Vector α 256) (i : Byte) (v : α) : entry (setEntry t i v) i = v := by
  simp [entry, setEntry]

theorem entry_setEntry {α : Type} (t : Vector α 256) (i j : Byte) (v : α) :
    entry (setEntry t i v) j = if j = i then v else entry t j := by
  unfold entry setEntry
  rw [Vector.getElem_set]
  by_cases h : i = j
  · simp [h]
  · have h1 : ¬ i.toNat = j.toNat := fun e => h (BitVec.eq_of_toNat_eq e)
    have h2 : ¬ j = i := fun e => h e.symm
    simp [h1, h2]

@[simp] theorem entry_replicate {α : Type} (v : α) (i : Byte) : entry (Vector.replicate 256 v) i = v := by
  simp [entry]

theorem slotByte_setSlotByte (t : Vector Byte 512) (i j : BitVec 9) (v : Byte) :
    slotByte (setSlotByte t i v) j = if j = i then v else slotByte t j := by
  unfold slotByte setSlotByte
  rw [Vector.getElem_set]
  by_cases h : i = j
  · simp [h]
  · have h1 : ¬ i.toNat = j.toNat := fun e => h (BitVec.eq_of_toNat_eq e)
    have h2 : ¬ j = i := fun e => h e.symm
    simp [h1, h2]

end Sys2Proof.Machine
end

