-- ==== Sys2Proof/Laws/State.lean ====
section
/-! SUPPORT. One lemma per field per named update of the state, true by `rfl`, so that no proof unfolds a record update:
what command start (R131), a fault (R283), `PHASE <- p` (R12), command end (R140) and the decoder's items (R251 to R262)
set, and that every other field keeps its value. -/

namespace Sys2Proof.Machine

/-! ### startCommand -/

@[simp] theorem startCommand_cfg (op : Op) (s : State) : (startCommand op s).cfg = s.cfg := rfl
@[simp] theorem startCommand_srcOff (op : Op) (s : State) : (startCommand op s).srcOff = s.srcOff := rfl
@[simp] theorem startCommand_srcLen (op : Op) (s : State) : (startCommand op s).srcLen = s.srcLen := rfl
@[simp] theorem startCommand_status (op : Op) (s : State) :
    (startCommand op s).status = { state := .busy, phase := .none, err := .none, trailing := false, short := false, lastop := op } := rfl
@[simp] theorem startCommand_outLen (op : Op) (s : State) : (startCommand op s).outLen = 0 := rfl
@[simp] theorem startCommand_expLen (op : Op) (s : State) : (startCommand op s).expLen = 0 := rfl
@[simp] theorem startCommand_op (op : Op) (s : State) : (startCommand op s).op = op := rfl
@[simp] theorem startCommand_off (op : Op) (s : State) : (startCommand op s).off = s.srcOff := rfl
@[simp] theorem startCommand_len (op : Op) (s : State) : (startCommand op s).len = s.srcLen := rfl
@[simp] theorem startCommand_seq (op : Op) (s : State) : (startCommand op s).seq = s.seq := rfl
@[simp] theorem startCommand_ns (op : Op) (s : State) : (startCommand op s).ns = s.ns := rfl
@[simp] theorem startCommand_n (op : Op) (s : State) : (startCommand op s).n = s.n := rfl
@[simp] theorem startCommand_root (op : Op) (s : State) : (startCommand op s).root = s.root := rfl
@[simp] theorem startCommand_t (op : Op) (s : State) : (startCommand op s).t = s.t := rfl
@[simp] theorem startCommand_acc (op : Op) (s : State) : (startCommand op s).acc = s.acc := rfl
@[simp] theorem startCommand_rem (op : Op) (s : State) : (startCommand op s).rem = s.rem := rfl
@[simp] theorem startCommand_opos (op : Op) (s : State) : (startCommand op s).opos = s.opos := rfl
@[simp] theorem startCommand_tbits (op : Op) (s : State) : (startCommand op s).tbits = s.tbits := rfl
@[simp] theorem startCommand_cnt (op : Op) (s : State) : (startCommand op s).cnt = s.cnt := rfl
@[simp] theorem startCommand_explen (op : Op) (s : State) : (startCommand op s).explen = s.explen := rfl
@[simp] theorem startCommand_boot (op : Op) (s : State) : (startCommand op s).boot = s.boot := rfl
@[simp] theorem startCommand_cur (op : Op) (s : State) : (startCommand op s).cur = s.cur := rfl
@[simp] theorem startCommand_pos (op : Op) (s : State) : (startCommand op s).pos = s.pos := rfl
@[simp] theorem startCommand_outcnt (op : Op) (s : State) : (startCommand op s).outcnt = s.outcnt := rfl
@[simp] theorem startCommand_pay (op : Op) (s : State) : (startCommand op s).pay = s.pay := rfl
@[simp] theorem startCommand_ng (op : Op) (s : State) : (startCommand op s).ng = s.ng := rfl
@[simp] theorem startCommand_g (op : Op) (s : State) : (startCommand op s).g = s.g := rfl
@[simp] theorem startCommand_w (op : Op) (s : State) : (startCommand op s).w = s.w := rfl
@[simp] theorem startCommand_freq (op : Op) (s : State) : (startCommand op s).freq = s.freq := rfl
@[simp] theorem startCommand_ws (op : Op) (s : State) : (startCommand op s).ws = s.ws := rfl
@[simp] theorem startCommand_stem (op : Op) (s : State) : (startCommand op s).stem = s.stem := rfl
@[simp] theorem startCommand_rank (op : Op) (s : State) : (startCommand op s).rank = s.rank := rfl
@[simp] theorem startCommand_hasRank (op : Op) (s : State) : (startCommand op s).hasRank = s.hasRank := rfl
@[simp] theorem startCommand_sz (op : Op) (s : State) : (startCommand op s).sz = s.sz := rfl
@[simp] theorem startCommand_fr (op : Op) (s : State) : (startCommand op s).fr = s.fr := rfl
@[simp] theorem startCommand_table (op : Op) (s : State) : (startCommand op s).table = s.table := rfl
@[simp] theorem startCommand_code (op : Op) (s : State) : (startCommand op s).code = s.code := rfl
@[simp] theorem startCommand_inMem (op : Op) (s : State) : (startCommand op s).inMem = s.inMem := rfl
@[simp] theorem startCommand_outMem (op : Op) (s : State) : (startCommand op s).outMem = s.outMem := rfl
@[simp] theorem startCommand_k (op : Op) (s : State) : (startCommand op s).k = s.k := rfl
@[simp] theorem startCommand_point (op : Op) (s : State) : (startCommand op s).point = .enter := rfl
@[simp] theorem startCommand_script (op : Op) (s : State) : (startCommand op s).script = s.script := rfl
@[simp] theorem startCommand_reads (op : Op) (s : State) : (startCommand op s).reads = s.reads := rfl
@[simp] theorem startCommand_free (op : Op) (s : State) : (startCommand op s).free = s.free := rfl

/-! ### takeFault -/

@[simp] theorem takeFault_cfg (e : Err) (s : State) : (takeFault e s).cfg = s.cfg := rfl
@[simp] theorem takeFault_srcOff (e : Err) (s : State) : (takeFault e s).srcOff = s.srcOff := rfl
@[simp] theorem takeFault_srcLen (e : Err) (s : State) : (takeFault e s).srcLen = s.srcLen := rfl
@[simp] theorem takeFault_status (e : Err) (s : State) :
    (takeFault e s).status = { s.status with err := e, trailing := false, short := false, state := .fault } := rfl
@[simp] theorem takeFault_outLen (e : Err) (s : State) : (takeFault e s).outLen = 0 := rfl
@[simp] theorem takeFault_expLen (e : Err) (s : State) : (takeFault e s).expLen = s.expLen := rfl
@[simp] theorem takeFault_op (e : Err) (s : State) : (takeFault e s).op = s.op := rfl
@[simp] theorem takeFault_off (e : Err) (s : State) : (takeFault e s).off = s.off := rfl
@[simp] theorem takeFault_len (e : Err) (s : State) : (takeFault e s).len = s.len := rfl
@[simp] theorem takeFault_seq (e : Err) (s : State) : (takeFault e s).seq = s.seq := rfl
@[simp] theorem takeFault_ns (e : Err) (s : State) : (takeFault e s).ns = s.ns := rfl
@[simp] theorem takeFault_n (e : Err) (s : State) : (takeFault e s).n = s.n := rfl
@[simp] theorem takeFault_root (e : Err) (s : State) : (takeFault e s).root = s.root := rfl
@[simp] theorem takeFault_t (e : Err) (s : State) : (takeFault e s).t = s.t := rfl
@[simp] theorem takeFault_acc (e : Err) (s : State) : (takeFault e s).acc = s.acc := rfl
@[simp] theorem takeFault_rem (e : Err) (s : State) : (takeFault e s).rem = s.rem := rfl
@[simp] theorem takeFault_opos (e : Err) (s : State) : (takeFault e s).opos = s.opos := rfl
@[simp] theorem takeFault_tbits (e : Err) (s : State) : (takeFault e s).tbits = s.tbits := rfl
@[simp] theorem takeFault_cnt (e : Err) (s : State) : (takeFault e s).cnt = s.cnt := rfl
@[simp] theorem takeFault_explen (e : Err) (s : State) : (takeFault e s).explen = s.explen := rfl
@[simp] theorem takeFault_boot (e : Err) (s : State) : (takeFault e s).boot = s.boot := rfl
@[simp] theorem takeFault_cur (e : Err) (s : State) : (takeFault e s).cur = s.cur := rfl
@[simp] theorem takeFault_pos (e : Err) (s : State) : (takeFault e s).pos = s.pos := rfl
@[simp] theorem takeFault_outcnt (e : Err) (s : State) : (takeFault e s).outcnt = s.outcnt := rfl
@[simp] theorem takeFault_pay (e : Err) (s : State) : (takeFault e s).pay = s.pay := rfl
@[simp] theorem takeFault_ng (e : Err) (s : State) : (takeFault e s).ng = s.ng := rfl
@[simp] theorem takeFault_g (e : Err) (s : State) : (takeFault e s).g = s.g := rfl
@[simp] theorem takeFault_w (e : Err) (s : State) : (takeFault e s).w = s.w := rfl
@[simp] theorem takeFault_freq (e : Err) (s : State) : (takeFault e s).freq = s.freq := rfl
@[simp] theorem takeFault_ws (e : Err) (s : State) : (takeFault e s).ws = s.ws := rfl
@[simp] theorem takeFault_stem (e : Err) (s : State) : (takeFault e s).stem = s.stem := rfl
@[simp] theorem takeFault_rank (e : Err) (s : State) : (takeFault e s).rank = s.rank := rfl
@[simp] theorem takeFault_hasRank (e : Err) (s : State) : (takeFault e s).hasRank = s.hasRank := rfl
@[simp] theorem takeFault_sz (e : Err) (s : State) : (takeFault e s).sz = s.sz := rfl
@[simp] theorem takeFault_fr (e : Err) (s : State) : (takeFault e s).fr = s.fr := rfl
@[simp] theorem takeFault_table (e : Err) (s : State) : (takeFault e s).table = s.table := rfl
@[simp] theorem takeFault_code (e : Err) (s : State) : (takeFault e s).code = s.code := rfl
@[simp] theorem takeFault_inMem (e : Err) (s : State) : (takeFault e s).inMem = s.inMem := rfl
@[simp] theorem takeFault_outMem (e : Err) (s : State) : (takeFault e s).outMem = s.outMem := rfl
@[simp] theorem takeFault_k (e : Err) (s : State) : (takeFault e s).k = s.k := rfl
@[simp] theorem takeFault_point (e : Err) (s : State) : (takeFault e s).point = s.point := rfl
@[simp] theorem takeFault_script (e : Err) (s : State) : (takeFault e s).script = s.script := rfl
@[simp] theorem takeFault_reads (e : Err) (s : State) : (takeFault e s).reads = s.reads := rfl
@[simp] theorem takeFault_free (e : Err) (s : State) : (takeFault e s).free = s.free := rfl

/-! ### enterPhase -/

@[simp] theorem enterPhase_cfg (p : Phase) (s : State) : (enterPhase p s).cfg = s.cfg := rfl
@[simp] theorem enterPhase_srcOff (p : Phase) (s : State) : (enterPhase p s).srcOff = s.srcOff := rfl
@[simp] theorem enterPhase_srcLen (p : Phase) (s : State) : (enterPhase p s).srcLen = s.srcLen := rfl
@[simp] theorem enterPhase_status (p : Phase) (s : State) :
    (enterPhase p s).status = { s.status with phase := p } := rfl
@[simp] theorem enterPhase_outLen (p : Phase) (s : State) : (enterPhase p s).outLen = s.outLen := rfl
@[simp] theorem enterPhase_expLen (p : Phase) (s : State) : (enterPhase p s).expLen = s.expLen := rfl
@[simp] theorem enterPhase_op (p : Phase) (s : State) : (enterPhase p s).op = s.op := rfl
@[simp] theorem enterPhase_off (p : Phase) (s : State) : (enterPhase p s).off = s.off := rfl
@[simp] theorem enterPhase_len (p : Phase) (s : State) : (enterPhase p s).len = s.len := rfl
@[simp] theorem enterPhase_seq (p : Phase) (s : State) : (enterPhase p s).seq = s.seq := rfl
@[simp] theorem enterPhase_ns (p : Phase) (s : State) : (enterPhase p s).ns = s.ns := rfl
@[simp] theorem enterPhase_n (p : Phase) (s : State) : (enterPhase p s).n = s.n := rfl
@[simp] theorem enterPhase_root (p : Phase) (s : State) : (enterPhase p s).root = s.root := rfl
@[simp] theorem enterPhase_t (p : Phase) (s : State) : (enterPhase p s).t = s.t := rfl
@[simp] theorem enterPhase_acc (p : Phase) (s : State) : (enterPhase p s).acc = s.acc := rfl
@[simp] theorem enterPhase_rem (p : Phase) (s : State) : (enterPhase p s).rem = s.rem := rfl
@[simp] theorem enterPhase_opos (p : Phase) (s : State) : (enterPhase p s).opos = s.opos := rfl
@[simp] theorem enterPhase_tbits (p : Phase) (s : State) : (enterPhase p s).tbits = s.tbits := rfl
@[simp] theorem enterPhase_cnt (p : Phase) (s : State) : (enterPhase p s).cnt = s.cnt := rfl
@[simp] theorem enterPhase_explen (p : Phase) (s : State) : (enterPhase p s).explen = s.explen := rfl
@[simp] theorem enterPhase_boot (p : Phase) (s : State) : (enterPhase p s).boot = s.boot := rfl
@[simp] theorem enterPhase_cur (p : Phase) (s : State) : (enterPhase p s).cur = s.cur := rfl
@[simp] theorem enterPhase_pos (p : Phase) (s : State) : (enterPhase p s).pos = s.pos := rfl
@[simp] theorem enterPhase_outcnt (p : Phase) (s : State) : (enterPhase p s).outcnt = s.outcnt := rfl
@[simp] theorem enterPhase_pay (p : Phase) (s : State) : (enterPhase p s).pay = s.pay := rfl
@[simp] theorem enterPhase_ng (p : Phase) (s : State) : (enterPhase p s).ng = s.ng := rfl
@[simp] theorem enterPhase_g (p : Phase) (s : State) : (enterPhase p s).g = s.g := rfl
@[simp] theorem enterPhase_w (p : Phase) (s : State) : (enterPhase p s).w = s.w := rfl
@[simp] theorem enterPhase_freq (p : Phase) (s : State) : (enterPhase p s).freq = s.freq := rfl
@[simp] theorem enterPhase_ws (p : Phase) (s : State) : (enterPhase p s).ws = s.ws := rfl
@[simp] theorem enterPhase_stem (p : Phase) (s : State) : (enterPhase p s).stem = s.stem := rfl
@[simp] theorem enterPhase_rank (p : Phase) (s : State) : (enterPhase p s).rank = s.rank := rfl
@[simp] theorem enterPhase_hasRank (p : Phase) (s : State) : (enterPhase p s).hasRank = s.hasRank := rfl
@[simp] theorem enterPhase_sz (p : Phase) (s : State) : (enterPhase p s).sz = s.sz := rfl
@[simp] theorem enterPhase_fr (p : Phase) (s : State) : (enterPhase p s).fr = s.fr := rfl
@[simp] theorem enterPhase_table (p : Phase) (s : State) : (enterPhase p s).table = s.table := rfl
@[simp] theorem enterPhase_code (p : Phase) (s : State) : (enterPhase p s).code = s.code := rfl
@[simp] theorem enterPhase_inMem (p : Phase) (s : State) : (enterPhase p s).inMem = s.inMem := rfl
@[simp] theorem enterPhase_outMem (p : Phase) (s : State) : (enterPhase p s).outMem = s.outMem := rfl
@[simp] theorem enterPhase_k (p : Phase) (s : State) : (enterPhase p s).k = s.k := rfl
@[simp] theorem enterPhase_point (p : Phase) (s : State) : (enterPhase p s).point = .enter := rfl
@[simp] theorem enterPhase_script (p : Phase) (s : State) : (enterPhase p s).script = s.script := rfl
@[simp] theorem enterPhase_reads (p : Phase) (s : State) : (enterPhase p s).reads = s.reads := rfl
@[simp] theorem enterPhase_free (p : Phase) (s : State) : (enterPhase p s).free = s.free := rfl

/-! ### endCommand -/

@[simp] theorem endCommand_cfg (s : State) : (endCommand s).cfg = s.cfg := rfl
@[simp] theorem endCommand_srcOff (s : State) : (endCommand s).srcOff = s.srcOff := rfl
@[simp] theorem endCommand_srcLen (s : State) : (endCommand s).srcLen = s.srcLen := rfl
@[simp] theorem endCommand_status (s : State) :
    (endCommand s).status = { s.status with phase := .none, state := .done } := rfl
@[simp] theorem endCommand_outLen (s : State) :
    (endCommand s).outLen = match s.op with | .encode => s.opos | .decode => s.outcnt.setWidth 32 := rfl
@[simp] theorem endCommand_expLen (s : State) : (endCommand s).expLen = s.expLen := rfl
@[simp] theorem endCommand_op (s : State) : (endCommand s).op = s.op := rfl
@[simp] theorem endCommand_off (s : State) : (endCommand s).off = s.off := rfl
@[simp] theorem endCommand_len (s : State) : (endCommand s).len = s.len := rfl
@[simp] theorem endCommand_seq (s : State) : (endCommand s).seq = s.seq := rfl
@[simp] theorem endCommand_ns (s : State) : (endCommand s).ns = s.ns := rfl
@[simp] theorem endCommand_n (s : State) : (endCommand s).n = s.n := rfl
@[simp] theorem endCommand_root (s : State) : (endCommand s).root = s.root := rfl
@[simp] theorem endCommand_t (s : State) : (endCommand s).t = s.t := rfl
@[simp] theorem endCommand_acc (s : State) : (endCommand s).acc = s.acc := rfl
@[simp] theorem endCommand_rem (s : State) : (endCommand s).rem = s.rem := rfl
@[simp] theorem endCommand_opos (s : State) : (endCommand s).opos = s.opos := rfl
@[simp] theorem endCommand_tbits (s : State) : (endCommand s).tbits = s.tbits := rfl
@[simp] theorem endCommand_cnt (s : State) : (endCommand s).cnt = s.cnt := rfl
@[simp] theorem endCommand_explen (s : State) : (endCommand s).explen = s.explen := rfl
@[simp] theorem endCommand_boot (s : State) : (endCommand s).boot = s.boot := rfl
@[simp] theorem endCommand_cur (s : State) : (endCommand s).cur = s.cur := rfl
@[simp] theorem endCommand_pos (s : State) : (endCommand s).pos = s.pos := rfl
@[simp] theorem endCommand_outcnt (s : State) : (endCommand s).outcnt = s.outcnt := rfl
@[simp] theorem endCommand_pay (s : State) : (endCommand s).pay = s.pay := rfl
@[simp] theorem endCommand_ng (s : State) : (endCommand s).ng = s.ng := rfl
@[simp] theorem endCommand_g (s : State) : (endCommand s).g = s.g := rfl
@[simp] theorem endCommand_w (s : State) : (endCommand s).w = s.w := rfl
@[simp] theorem endCommand_freq (s : State) : (endCommand s).freq = s.freq := rfl
@[simp] theorem endCommand_ws (s : State) : (endCommand s).ws = s.ws := rfl
@[simp] theorem endCommand_stem (s : State) : (endCommand s).stem = s.stem := rfl
@[simp] theorem endCommand_rank (s : State) : (endCommand s).rank = s.rank := rfl
@[simp] theorem endCommand_hasRank (s : State) : (endCommand s).hasRank = s.hasRank := rfl
@[simp] theorem endCommand_sz (s : State) : (endCommand s).sz = s.sz := rfl
@[simp] theorem endCommand_fr (s : State) : (endCommand s).fr = s.fr := rfl
@[simp] theorem endCommand_table (s : State) : (endCommand s).table = s.table := rfl
@[simp] theorem endCommand_code (s : State) : (endCommand s).code = s.code := rfl
@[simp] theorem endCommand_inMem (s : State) : (endCommand s).inMem = s.inMem := rfl
@[simp] theorem endCommand_outMem (s : State) : (endCommand s).outMem = s.outMem := rfl
@[simp] theorem endCommand_k (s : State) : (endCommand s).k = s.k := rfl
@[simp] theorem endCommand_point (s : State) : (endCommand s).point = .enter := rfl
@[simp] theorem endCommand_script (s : State) : (endCommand s).script = s.script := rfl
@[simp] theorem endCommand_reads (s : State) : (endCommand s).reads = s.reads := rfl
@[simp] theorem endCommand_free (s : State) : (endCommand s).free = s.free := rfl

/-! ### walkStart -/

@[simp] theorem walkStart_cfg (s : State) : (walkStart s).cfg = s.cfg := rfl
@[simp] theorem walkStart_srcOff (s : State) : (walkStart s).srcOff = s.srcOff := rfl
@[simp] theorem walkStart_srcLen (s : State) : (walkStart s).srcLen = s.srcLen := rfl
@[simp] theorem walkStart_status (s : State) : (walkStart s).status = s.status := rfl
@[simp] theorem walkStart_outLen (s : State) : (walkStart s).outLen = s.outLen := rfl
@[simp] theorem walkStart_expLen (s : State) : (walkStart s).expLen = s.expLen := rfl
@[simp] theorem walkStart_op (s : State) : (walkStart s).op = s.op := rfl
@[simp] theorem walkStart_off (s : State) : (walkStart s).off = s.off := rfl
@[simp] theorem walkStart_len (s : State) : (walkStart s).len = s.len := rfl
@[simp] theorem walkStart_seq (s : State) : (walkStart s).seq = s.seq := rfl
@[simp] theorem walkStart_ns (s : State) : (walkStart s).ns = s.ns := rfl
@[simp] theorem walkStart_n (s : State) : (walkStart s).n = s.n := rfl
@[simp] theorem walkStart_root (s : State) : (walkStart s).root = s.root := rfl
@[simp] theorem walkStart_t (s : State) : (walkStart s).t = s.t := rfl
@[simp] theorem walkStart_acc (s : State) : (walkStart s).acc = s.acc := rfl
@[simp] theorem walkStart_rem (s : State) : (walkStart s).rem = s.rem := rfl
@[simp] theorem walkStart_opos (s : State) : (walkStart s).opos = s.opos := rfl
@[simp] theorem walkStart_tbits (s : State) : (walkStart s).tbits = s.tbits := rfl
@[simp] theorem walkStart_cnt (s : State) : (walkStart s).cnt = s.cnt := rfl
@[simp] theorem walkStart_explen (s : State) : (walkStart s).explen = s.explen := rfl
@[simp] theorem walkStart_boot (s : State) : (walkStart s).boot = s.boot := rfl
@[simp] theorem walkStart_cur (s : State) : (walkStart s).cur = s.boot := rfl
@[simp] theorem walkStart_pos (s : State) : (walkStart s).pos = 0 := rfl
@[simp] theorem walkStart_outcnt (s : State) : (walkStart s).outcnt = 0 := rfl
@[simp] theorem walkStart_pay (s : State) : (walkStart s).pay = s.pay := rfl
@[simp] theorem walkStart_ng (s : State) : (walkStart s).ng = s.ng := rfl
@[simp] theorem walkStart_g (s : State) : (walkStart s).g = 0 := rfl
@[simp] theorem walkStart_w (s : State) : (walkStart s).w = s.w := rfl
@[simp] theorem walkStart_freq (s : State) : (walkStart s).freq = s.freq := rfl
@[simp] theorem walkStart_ws (s : State) : (walkStart s).ws = s.ws := rfl
@[simp] theorem walkStart_stem (s : State) : (walkStart s).stem = s.stem := rfl
@[simp] theorem walkStart_rank (s : State) : (walkStart s).rank = s.rank := rfl
@[simp] theorem walkStart_hasRank (s : State) : (walkStart s).hasRank = s.hasRank := rfl
@[simp] theorem walkStart_sz (s : State) : (walkStart s).sz = s.sz := rfl
@[simp] theorem walkStart_fr (s : State) : (walkStart s).fr = s.fr := rfl
@[simp] theorem walkStart_table (s : State) : (walkStart s).table = s.table := rfl
@[simp] theorem walkStart_code (s : State) : (walkStart s).code = s.code := rfl
@[simp] theorem walkStart_inMem (s : State) : (walkStart s).inMem = s.inMem := rfl
@[simp] theorem walkStart_outMem (s : State) : (walkStart s).outMem = s.outMem := rfl
@[simp] theorem walkStart_k (s : State) : (walkStart s).k = 0 := rfl
@[simp] theorem walkStart_point (s : State) : (walkStart s).point = .walk := rfl
@[simp] theorem walkStart_script (s : State) : (walkStart s).script = s.script := rfl
@[simp] theorem walkStart_reads (s : State) : (walkStart s).reads = s.reads := rfl
@[simp] theorem walkStart_free (s : State) : (walkStart s).free = s.free := rfl

/-! ### groupItem -/

@[simp] theorem groupItem_cfg (bits : Word) (s : State) : (groupItem bits s).cfg = s.cfg := rfl
@[simp] theorem groupItem_srcOff (bits : Word) (s : State) : (groupItem bits s).srcOff = s.srcOff := rfl
@[simp] theorem groupItem_srcLen (bits : Word) (s : State) : (groupItem bits s).srcLen = s.srcLen := rfl
@[simp] theorem groupItem_status (bits : Word) (s : State) : (groupItem bits s).status = s.status := rfl
@[simp] theorem groupItem_outLen (bits : Word) (s : State) : (groupItem bits s).outLen = s.outLen := rfl
@[simp] theorem groupItem_expLen (bits : Word) (s : State) : (groupItem bits s).expLen = s.expLen := rfl
@[simp] theorem groupItem_op (bits : Word) (s : State) : (groupItem bits s).op = s.op := rfl
@[simp] theorem groupItem_off (bits : Word) (s : State) : (groupItem bits s).off = s.off := rfl
@[simp] theorem groupItem_len (bits : Word) (s : State) : (groupItem bits s).len = s.len := rfl
@[simp] theorem groupItem_seq (bits : Word) (s : State) : (groupItem bits s).seq = s.seq := rfl
@[simp] theorem groupItem_ns (bits : Word) (s : State) : (groupItem bits s).ns = s.ns := rfl
@[simp] theorem groupItem_n (bits : Word) (s : State) : (groupItem bits s).n = s.n := rfl
@[simp] theorem groupItem_root (bits : Word) (s : State) : (groupItem bits s).root = s.root := rfl
@[simp] theorem groupItem_t (bits : Word) (s : State) : (groupItem bits s).t = s.t := rfl
@[simp] theorem groupItem_acc (bits : Word) (s : State) : (groupItem bits s).acc = s.acc := rfl
@[simp] theorem groupItem_rem (bits : Word) (s : State) : (groupItem bits s).rem = s.rem := rfl
@[simp] theorem groupItem_opos (bits : Word) (s : State) : (groupItem bits s).opos = s.opos := rfl
@[simp] theorem groupItem_tbits (bits : Word) (s : State) : (groupItem bits s).tbits = s.tbits := rfl
@[simp] theorem groupItem_cnt (bits : Word) (s : State) : (groupItem bits s).cnt = s.cnt := rfl
@[simp] theorem groupItem_explen (bits : Word) (s : State) : (groupItem bits s).explen = s.explen := rfl
@[simp] theorem groupItem_boot (bits : Word) (s : State) : (groupItem bits s).boot = s.boot := rfl
@[simp] theorem groupItem_cur (bits : Word) (s : State) : (groupItem bits s).cur = s.cur := rfl
@[simp] theorem groupItem_pos (bits : Word) (s : State) : (groupItem bits s).pos = s.pos := rfl
@[simp] theorem groupItem_outcnt (bits : Word) (s : State) : (groupItem bits s).outcnt = s.outcnt := rfl
@[simp] theorem groupItem_pay (bits : Word) (s : State) : (groupItem bits s).pay = s.pay := rfl
@[simp] theorem groupItem_ng (bits : Word) (s : State) : (groupItem bits s).ng = s.ng := rfl
@[simp] theorem groupItem_g (bits : Word) (s : State) : (groupItem bits s).g = s.g + 1 := rfl
@[simp] theorem groupItem_w (bits : Word) (s : State) : (groupItem bits s).w = bits := rfl
@[simp] theorem groupItem_freq (bits : Word) (s : State) : (groupItem bits s).freq = s.freq := rfl
@[simp] theorem groupItem_ws (bits : Word) (s : State) : (groupItem bits s).ws = s.ws := rfl
@[simp] theorem groupItem_stem (bits : Word) (s : State) : (groupItem bits s).stem = s.stem := rfl
@[simp] theorem groupItem_rank (bits : Word) (s : State) : (groupItem bits s).rank = s.rank := rfl
@[simp] theorem groupItem_hasRank (bits : Word) (s : State) : (groupItem bits s).hasRank = s.hasRank := rfl
@[simp] theorem groupItem_sz (bits : Word) (s : State) : (groupItem bits s).sz = s.sz := rfl
@[simp] theorem groupItem_fr (bits : Word) (s : State) : (groupItem bits s).fr = s.fr := rfl
@[simp] theorem groupItem_table (bits : Word) (s : State) : (groupItem bits s).table = s.table := rfl
@[simp] theorem groupItem_code (bits : Word) (s : State) : (groupItem bits s).code = s.code := rfl
@[simp] theorem groupItem_inMem (bits : Word) (s : State) : (groupItem bits s).inMem = s.inMem := rfl
@[simp] theorem groupItem_outMem (bits : Word) (s : State) : (groupItem bits s).outMem = s.outMem := rfl
@[simp] theorem groupItem_k (bits : Word) (s : State) : (groupItem bits s).k = 32 := rfl
@[simp] theorem groupItem_point (bits : Word) (s : State) : (groupItem bits s).point = s.point := rfl
@[simp] theorem groupItem_script (bits : Word) (s : State) : (groupItem bits s).script = s.script := rfl
@[simp] theorem groupItem_reads (bits : Word) (s : State) : (groupItem bits s).reads = s.reads := rfl
@[simp] theorem groupItem_free (bits : Word) (s : State) : (groupItem bits s).free = s.free := rfl

/-! ### refItem -/

@[simp] theorem refItem_cfg (e : Byte) (s : State) : (refItem e s).cfg = s.cfg := rfl
@[simp] theorem refItem_srcOff (e : Byte) (s : State) : (refItem e s).srcOff = s.srcOff := rfl
@[simp] theorem refItem_srcLen (e : Byte) (s : State) : (refItem e s).srcLen = s.srcLen := rfl
@[simp] theorem refItem_status (e : Byte) (s : State) : (refItem e s).status = s.status := rfl
@[simp] theorem refItem_outLen (e : Byte) (s : State) : (refItem e s).outLen = s.outLen := rfl
@[simp] theorem refItem_expLen (e : Byte) (s : State) : (refItem e s).expLen = s.expLen := rfl
@[simp] theorem refItem_op (e : Byte) (s : State) : (refItem e s).op = s.op := rfl
@[simp] theorem refItem_off (e : Byte) (s : State) : (refItem e s).off = s.off := rfl
@[simp] theorem refItem_len (e : Byte) (s : State) : (refItem e s).len = s.len := rfl
@[simp] theorem refItem_seq (e : Byte) (s : State) : (refItem e s).seq = s.seq := rfl
@[simp] theorem refItem_ns (e : Byte) (s : State) : (refItem e s).ns = s.ns := rfl
@[simp] theorem refItem_n (e : Byte) (s : State) : (refItem e s).n = s.n := rfl
@[simp] theorem refItem_root (e : Byte) (s : State) : (refItem e s).root = s.root := rfl
@[simp] theorem refItem_t (e : Byte) (s : State) : (refItem e s).t = s.t := rfl
@[simp] theorem refItem_acc (e : Byte) (s : State) : (refItem e s).acc = s.acc := rfl
@[simp] theorem refItem_rem (e : Byte) (s : State) : (refItem e s).rem = s.rem := rfl
@[simp] theorem refItem_opos (e : Byte) (s : State) : (refItem e s).opos = s.opos := rfl
@[simp] theorem refItem_tbits (e : Byte) (s : State) : (refItem e s).tbits = s.tbits := rfl
@[simp] theorem refItem_cnt (e : Byte) (s : State) : (refItem e s).cnt = s.cnt := rfl
@[simp] theorem refItem_explen (e : Byte) (s : State) : (refItem e s).explen = s.explen := rfl
@[simp] theorem refItem_boot (e : Byte) (s : State) : (refItem e s).boot = s.boot := rfl
@[simp] theorem refItem_cur (e : Byte) (s : State) : (refItem e s).cur = e := rfl
@[simp] theorem refItem_pos (e : Byte) (s : State) : (refItem e s).pos = s.pos := rfl
@[simp] theorem refItem_outcnt (e : Byte) (s : State) : (refItem e s).outcnt = s.outcnt := rfl
@[simp] theorem refItem_pay (e : Byte) (s : State) : (refItem e s).pay = s.pay := rfl
@[simp] theorem refItem_ng (e : Byte) (s : State) : (refItem e s).ng = s.ng := rfl
@[simp] theorem refItem_g (e : Byte) (s : State) : (refItem e s).g = s.g := rfl
@[simp] theorem refItem_w (e : Byte) (s : State) : (refItem e s).w = s.w := rfl
@[simp] theorem refItem_freq (e : Byte) (s : State) : (refItem e s).freq = s.freq := rfl
@[simp] theorem refItem_ws (e : Byte) (s : State) : (refItem e s).ws = s.ws := rfl
@[simp] theorem refItem_stem (e : Byte) (s : State) : (refItem e s).stem = s.stem := rfl
@[simp] theorem refItem_rank (e : Byte) (s : State) : (refItem e s).rank = s.rank := rfl
@[simp] theorem refItem_hasRank (e : Byte) (s : State) : (refItem e s).hasRank = s.hasRank := rfl
@[simp] theorem refItem_sz (e : Byte) (s : State) : (refItem e s).sz = s.sz := rfl
@[simp] theorem refItem_fr (e : Byte) (s : State) : (refItem e s).fr = s.fr := rfl
@[simp] theorem refItem_table (e : Byte) (s : State) : (refItem e s).table = s.table := rfl
@[simp] theorem refItem_code (e : Byte) (s : State) : (refItem e s).code = s.code := rfl
@[simp] theorem refItem_inMem (e : Byte) (s : State) : (refItem e s).inMem = s.inMem := rfl
@[simp] theorem refItem_outMem (e : Byte) (s : State) : (refItem e s).outMem = s.outMem := rfl
@[simp] theorem refItem_k (e : Byte) (s : State) : (refItem e s).k = s.k := rfl
@[simp] theorem refItem_point (e : Byte) (s : State) : (refItem e s).point = s.point := rfl
@[simp] theorem refItem_script (e : Byte) (s : State) : (refItem e s).script = s.script := rfl
@[simp] theorem refItem_reads (e : Byte) (s : State) : (refItem e s).reads = s.reads := rfl
@[simp] theorem refItem_free (e : Byte) (s : State) : (refItem e s).free = s.free := rfl

/-! ### bootItem -/

@[simp] theorem bootItem_cfg (e : Byte) (s : State) : (bootItem e s).cfg = s.cfg := rfl
@[simp] theorem bootItem_srcOff (e : Byte) (s : State) : (bootItem e s).srcOff = s.srcOff := rfl
@[simp] theorem bootItem_srcLen (e : Byte) (s : State) : (bootItem e s).srcLen = s.srcLen := rfl
@[simp] theorem bootItem_status (e : Byte) (s : State) :
    (bootItem e s).status = { s.status with phase := .dwalk } := rfl
@[simp] theorem bootItem_outLen (e : Byte) (s : State) : (bootItem e s).outLen = s.outLen := rfl
@[simp] theorem bootItem_expLen (e : Byte) (s : State) : (bootItem e s).expLen = s.explen.setWidth 32 := rfl
@[simp] theorem bootItem_op (e : Byte) (s : State) : (bootItem e s).op = s.op := rfl
@[simp] theorem bootItem_off (e : Byte) (s : State) : (bootItem e s).off = s.off := rfl
@[simp] theorem bootItem_len (e : Byte) (s : State) : (bootItem e s).len = s.len := rfl
@[simp] theorem bootItem_seq (e : Byte) (s : State) : (bootItem e s).seq = s.seq := rfl
@[simp] theorem bootItem_ns (e : Byte) (s : State) : (bootItem e s).ns = s.ns := rfl
@[simp] theorem bootItem_n (e : Byte) (s : State) : (bootItem e s).n = s.n := rfl
@[simp] theorem bootItem_root (e : Byte) (s : State) : (bootItem e s).root = s.root := rfl
@[simp] theorem bootItem_t (e : Byte) (s : State) : (bootItem e s).t = s.t := rfl
@[simp] theorem bootItem_acc (e : Byte) (s : State) : (bootItem e s).acc = s.acc := rfl
@[simp] theorem bootItem_rem (e : Byte) (s : State) : (bootItem e s).rem = s.rem := rfl
@[simp] theorem bootItem_opos (e : Byte) (s : State) : (bootItem e s).opos = s.opos := rfl
@[simp] theorem bootItem_tbits (e : Byte) (s : State) : (bootItem e s).tbits = s.tbits := rfl
@[simp] theorem bootItem_cnt (e : Byte) (s : State) : (bootItem e s).cnt = s.cnt := rfl
@[simp] theorem bootItem_explen (e : Byte) (s : State) : (bootItem e s).explen = s.explen := rfl
@[simp] theorem bootItem_boot (e : Byte) (s : State) : (bootItem e s).boot = e := rfl
@[simp] theorem bootItem_cur (e : Byte) (s : State) : (bootItem e s).cur = s.cur := rfl
@[simp] theorem bootItem_pos (e : Byte) (s : State) : (bootItem e s).pos = s.pos := rfl
@[simp] theorem bootItem_outcnt (e : Byte) (s : State) : (bootItem e s).outcnt = s.outcnt := rfl
@[simp] theorem bootItem_pay (e : Byte) (s : State) :
    (bootItem e s).pay = BitVec.ofNat 33 (s.off.toNat + tableEnd s) := rfl
@[simp] theorem bootItem_ng (e : Byte) (s : State) :
    (bootItem e s).ng = BitVec.ofNat 30 ((s.len.toNat - tableEnd s) / 4) := rfl
@[simp] theorem bootItem_g (e : Byte) (s : State) : (bootItem e s).g = s.g := rfl
@[simp] theorem bootItem_w (e : Byte) (s : State) : (bootItem e s).w = s.w := rfl
@[simp] theorem bootItem_freq (e : Byte) (s : State) : (bootItem e s).freq = s.freq := rfl
@[simp] theorem bootItem_ws (e : Byte) (s : State) : (bootItem e s).ws = s.ws := rfl
@[simp] theorem bootItem_stem (e : Byte) (s : State) : (bootItem e s).stem = s.stem := rfl
@[simp] theorem bootItem_rank (e : Byte) (s : State) : (bootItem e s).rank = s.rank := rfl
@[simp] theorem bootItem_hasRank (e : Byte) (s : State) : (bootItem e s).hasRank = s.hasRank := rfl
@[simp] theorem bootItem_sz (e : Byte) (s : State) : (bootItem e s).sz = s.sz := rfl
@[simp] theorem bootItem_fr (e : Byte) (s : State) : (bootItem e s).fr = s.fr := rfl
@[simp] theorem bootItem_table (e : Byte) (s : State) : (bootItem e s).table = s.table := rfl
@[simp] theorem bootItem_code (e : Byte) (s : State) : (bootItem e s).code = s.code := rfl
@[simp] theorem bootItem_inMem (e : Byte) (s : State) : (bootItem e s).inMem = s.inMem := rfl
@[simp] theorem bootItem_outMem (e : Byte) (s : State) : (bootItem e s).outMem = s.outMem := rfl
@[simp] theorem bootItem_k (e : Byte) (s : State) : (bootItem e s).k = s.k := rfl
@[simp] theorem bootItem_point (e : Byte) (s : State) : (bootItem e s).point = .enter := rfl
@[simp] theorem bootItem_script (e : Byte) (s : State) : (bootItem e s).script = s.script := rfl
@[simp] theorem bootItem_reads (e : Byte) (s : State) : (bootItem e s).reads = s.reads := rfl
@[simp] theorem bootItem_free (e : Byte) (s : State) : (bootItem e s).free = s.free := rfl

/-! ### finishWalk -/

@[simp] theorem finishWalk_cfg (s : State) : (finishWalk s).cfg = s.cfg := rfl
@[simp] theorem finishWalk_srcOff (s : State) : (finishWalk s).srcOff = s.srcOff := rfl
@[simp] theorem finishWalk_srcLen (s : State) : (finishWalk s).srcLen = s.srcLen := rfl
@[simp] theorem finishWalk_status (s : State) :
    (finishWalk s).status = { s.status with short := shortOf s, trailing := trailingOf s, phase := .none, state := .done } := rfl
@[simp] theorem finishWalk_outLen (s : State) :
    (finishWalk s).outLen = match s.op with | .encode => s.opos | .decode => s.outcnt.setWidth 32 := rfl
@[simp] theorem finishWalk_expLen (s : State) : (finishWalk s).expLen = s.expLen := rfl
@[simp] theorem finishWalk_op (s : State) : (finishWalk s).op = s.op := rfl
@[simp] theorem finishWalk_off (s : State) : (finishWalk s).off = s.off := rfl
@[simp] theorem finishWalk_len (s : State) : (finishWalk s).len = s.len := rfl
@[simp] theorem finishWalk_seq (s : State) : (finishWalk s).seq = s.seq := rfl
@[simp] theorem finishWalk_ns (s : State) : (finishWalk s).ns = s.ns := rfl
@[simp] theorem finishWalk_n (s : State) : (finishWalk s).n = s.n := rfl
@[simp] theorem finishWalk_root (s : State) : (finishWalk s).root = s.root := rfl
@[simp] theorem finishWalk_t (s : State) : (finishWalk s).t = s.t := rfl
@[simp] theorem finishWalk_acc (s : State) : (finishWalk s).acc = s.acc := rfl
@[simp] theorem finishWalk_rem (s : State) : (finishWalk s).rem = s.rem := rfl
@[simp] theorem finishWalk_opos (s : State) : (finishWalk s).opos = s.opos := rfl
@[simp] theorem finishWalk_tbits (s : State) : (finishWalk s).tbits = s.tbits := rfl
@[simp] theorem finishWalk_cnt (s : State) : (finishWalk s).cnt = s.cnt := rfl
@[simp] theorem finishWalk_explen (s : State) : (finishWalk s).explen = s.explen := rfl
@[simp] theorem finishWalk_boot (s : State) : (finishWalk s).boot = s.boot := rfl
@[simp] theorem finishWalk_cur (s : State) : (finishWalk s).cur = s.cur := rfl
@[simp] theorem finishWalk_pos (s : State) : (finishWalk s).pos = s.pos := rfl
@[simp] theorem finishWalk_outcnt (s : State) : (finishWalk s).outcnt = s.outcnt := rfl
@[simp] theorem finishWalk_pay (s : State) : (finishWalk s).pay = s.pay := rfl
@[simp] theorem finishWalk_ng (s : State) : (finishWalk s).ng = s.ng := rfl
@[simp] theorem finishWalk_g (s : State) : (finishWalk s).g = s.g := rfl
@[simp] theorem finishWalk_w (s : State) : (finishWalk s).w = s.w := rfl
@[simp] theorem finishWalk_freq (s : State) : (finishWalk s).freq = s.freq := rfl
@[simp] theorem finishWalk_ws (s : State) : (finishWalk s).ws = s.ws := rfl
@[simp] theorem finishWalk_stem (s : State) : (finishWalk s).stem = s.stem := rfl
@[simp] theorem finishWalk_rank (s : State) : (finishWalk s).rank = s.rank := rfl
@[simp] theorem finishWalk_hasRank (s : State) : (finishWalk s).hasRank = s.hasRank := rfl
@[simp] theorem finishWalk_sz (s : State) : (finishWalk s).sz = s.sz := rfl
@[simp] theorem finishWalk_fr (s : State) : (finishWalk s).fr = s.fr := rfl
@[simp] theorem finishWalk_table (s : State) : (finishWalk s).table = s.table := rfl
@[simp] theorem finishWalk_code (s : State) : (finishWalk s).code = s.code := rfl
@[simp] theorem finishWalk_inMem (s : State) : (finishWalk s).inMem = s.inMem := rfl
@[simp] theorem finishWalk_outMem (s : State) : (finishWalk s).outMem = s.outMem := rfl
@[simp] theorem finishWalk_k (s : State) : (finishWalk s).k = s.k := rfl
@[simp] theorem finishWalk_point (s : State) : (finishWalk s).point = .enter := rfl
@[simp] theorem finishWalk_script (s : State) : (finishWalk s).script = s.script := rfl
@[simp] theorem finishWalk_reads (s : State) : (finishWalk s).reads = s.reads := rfl
@[simp] theorem finishWalk_free (s : State) : (finishWalk s).free = s.free := rfl

/-! ### hostReads -/

@[simp] theorem hostReads_cfg (v : Word) (s : State) : (hostReads v s).cfg = s.cfg := rfl
@[simp] theorem hostReads_srcOff (v : Word) (s : State) : (hostReads v s).srcOff = s.srcOff := rfl
@[simp] theorem hostReads_srcLen (v : Word) (s : State) : (hostReads v s).srcLen = s.srcLen := rfl
@[simp] theorem hostReads_status (v : Word) (s : State) : (hostReads v s).status = s.status := rfl
@[simp] theorem hostReads_outLen (v : Word) (s : State) : (hostReads v s).outLen = s.outLen := rfl
@[simp] theorem hostReads_expLen (v : Word) (s : State) : (hostReads v s).expLen = s.expLen := rfl
@[simp] theorem hostReads_op (v : Word) (s : State) : (hostReads v s).op = s.op := rfl
@[simp] theorem hostReads_off (v : Word) (s : State) : (hostReads v s).off = s.off := rfl
@[simp] theorem hostReads_len (v : Word) (s : State) : (hostReads v s).len = s.len := rfl
@[simp] theorem hostReads_seq (v : Word) (s : State) : (hostReads v s).seq = s.seq := rfl
@[simp] theorem hostReads_ns (v : Word) (s : State) : (hostReads v s).ns = s.ns := rfl
@[simp] theorem hostReads_n (v : Word) (s : State) : (hostReads v s).n = s.n := rfl
@[simp] theorem hostReads_root (v : Word) (s : State) : (hostReads v s).root = s.root := rfl
@[simp] theorem hostReads_t (v : Word) (s : State) : (hostReads v s).t = s.t := rfl
@[simp] theorem hostReads_acc (v : Word) (s : State) : (hostReads v s).acc = s.acc := rfl
@[simp] theorem hostReads_rem (v : Word) (s : State) : (hostReads v s).rem = s.rem := rfl
@[simp] theorem hostReads_opos (v : Word) (s : State) : (hostReads v s).opos = s.opos := rfl
@[simp] theorem hostReads_tbits (v : Word) (s : State) : (hostReads v s).tbits = s.tbits := rfl
@[simp] theorem hostReads_cnt (v : Word) (s : State) : (hostReads v s).cnt = s.cnt := rfl
@[simp] theorem hostReads_explen (v : Word) (s : State) : (hostReads v s).explen = s.explen := rfl
@[simp] theorem hostReads_boot (v : Word) (s : State) : (hostReads v s).boot = s.boot := rfl
@[simp] theorem hostReads_cur (v : Word) (s : State) : (hostReads v s).cur = s.cur := rfl
@[simp] theorem hostReads_pos (v : Word) (s : State) : (hostReads v s).pos = s.pos := rfl
@[simp] theorem hostReads_outcnt (v : Word) (s : State) : (hostReads v s).outcnt = s.outcnt := rfl
@[simp] theorem hostReads_pay (v : Word) (s : State) : (hostReads v s).pay = s.pay := rfl
@[simp] theorem hostReads_ng (v : Word) (s : State) : (hostReads v s).ng = s.ng := rfl
@[simp] theorem hostReads_g (v : Word) (s : State) : (hostReads v s).g = s.g := rfl
@[simp] theorem hostReads_w (v : Word) (s : State) : (hostReads v s).w = s.w := rfl
@[simp] theorem hostReads_freq (v : Word) (s : State) : (hostReads v s).freq = s.freq := rfl
@[simp] theorem hostReads_ws (v : Word) (s : State) : (hostReads v s).ws = s.ws := rfl
@[simp] theorem hostReads_stem (v : Word) (s : State) : (hostReads v s).stem = s.stem := rfl
@[simp] theorem hostReads_rank (v : Word) (s : State) : (hostReads v s).rank = s.rank := rfl
@[simp] theorem hostReads_hasRank (v : Word) (s : State) : (hostReads v s).hasRank = s.hasRank := rfl
@[simp] theorem hostReads_sz (v : Word) (s : State) : (hostReads v s).sz = s.sz := rfl
@[simp] theorem hostReads_fr (v : Word) (s : State) : (hostReads v s).fr = s.fr := rfl
@[simp] theorem hostReads_table (v : Word) (s : State) : (hostReads v s).table = s.table := rfl
@[simp] theorem hostReads_code (v : Word) (s : State) : (hostReads v s).code = s.code := rfl
@[simp] theorem hostReads_inMem (v : Word) (s : State) : (hostReads v s).inMem = s.inMem := rfl
@[simp] theorem hostReads_outMem (v : Word) (s : State) : (hostReads v s).outMem = s.outMem := rfl
@[simp] theorem hostReads_k (v : Word) (s : State) : (hostReads v s).k = s.k := rfl
@[simp] theorem hostReads_point (v : Word) (s : State) : (hostReads v s).point = s.point := rfl
@[simp] theorem hostReads_script (v : Word) (s : State) : (hostReads v s).script = s.script := rfl
@[simp] theorem hostReads_reads (v : Word) (s : State) : (hostReads v s).reads = s.reads ++ [v] := rfl
@[simp] theorem hostReads_free (v : Word) (s : State) : (hostReads v s).free = s.free := rfl

end Sys2Proof.Machine
end

