-- ==== Sys2Proof/Laws/Operations.lean ====
section
/-! SUPPORT. For each shared operation, what it can do, said once: if it answers, then one of these cases holds. Proofs
about the micro-operations cite these instead of unfolding the operations. -/

namespace Sys2Proof.Machine

open Sys2Proof.Safety

/-! ### Commands (R131, R132) -/

/-- The range check raises `BadRange` or enters the first micro-operation (R132, R133, R137). -/
theorem enterSequence_cases (s : State) :
    (s.cfg.inSize < s.off.toNat + s.len.toNat ∧ enterSequence s = .raise .badRange s) ∨
      (s.off.toNat + s.len.toNat ≤ s.cfg.inSize ∧ enterSequence s = .ok (enterPhase (firstPhase s.op) s)) := by
  unfold enterSequence
  by_cases h : s.cfg.inSize < s.off.toNat + s.len.toNat
  · exact .inl ⟨h, by simp [h]⟩
  · exact .inr ⟨by omega, by simp [h]⟩

/-- The bytes of a command whose range lies in `IN` (R132, R151). -/
theorem sourceBytes_ok {s : State} (h : s.off.toNat + s.len.toNat ≤ s.cfg.inSize) :
    sourceBytes s = .ok (inBytes s.inMem s.off.toNat s.len.toNat) := readInRange_ok h

theorem sourceBytes_eq_ok {s : State} {bs : List Byte} (h : sourceBytes s = .ok bs) :
    bs = inBytes s.inMem s.off.toNat s.len.toNat := (readInRange_eq_ok h).1

/-! ### The micro-operations of ENCODE -/

/-- `FREQ` raises `InputTooLarge`, tallies, or stops at a missing byte (R151). -/
theorem freqOp_cases (s : State) :
    (Config.lenLimit ≤ s.len.toNat ∧ freqOp s = .raise .inputTooLarge s) ∨
      (s.len.toNat < Config.lenLimit ∧ ((∃ f, freqOp s = .stop f) ∨ ∃ bs, sourceBytes s = .ok bs ∧
        freqOp s = .ok (enterPhase .merge { s with freq := tally (Vector.replicate 256 0) bs }))) := by
  unfold freqOp
  by_cases h : Config.lenLimit ≤ s.len.toNat
  · exact .inl ⟨h, by rw [if_pos h]⟩
  · refine .inr ⟨by omega, ?_⟩
    rw [if_neg h]
    cases hs : sourceBytes s with
    | error f => exact .inl ⟨f, rfl⟩
    | ok bs => exact .inr ⟨bs, rfl, rfl⟩

/-- The smallest item is one of the set (R163). -/
theorem smallestItem_mem (best : Item) (xs : List Item) : smallestItem best xs ∈ best :: xs := by
  induction xs generalizing best with
  | nil => simp [smallestItem]
  | cons x xs ih =>
    simp only [smallestItem]
    have := ih (if x.smaller best then x else best)
    split at this <;> rename_i h <;> simp only [h, if_true, Bool.false_eq_true, if_false] <;>
      simp only [List.mem_cons] at this ⊢ <;> tauto

/-- The frontier test of R187: it fails exactly when some entry `k` has `due < T + k`. -/
theorem frontierTight_eq_none {t k : Nat} {fr : List FrontierEntry} :
    frontierTight t k fr = none ↔ ∃ i, ∃ h : i < fr.length, (fr[i]).due.toNat < t + (k + i) := by
  induction fr generalizing k with
  | nil => simp [frontierTight]
  | cons e es ih =>
    simp only [frontierTight]
    split
    · rename_i h
      refine ⟨fun _ => ⟨0, by simp, by simpa using h⟩, fun _ => rfl⟩
    · rename_i h
      have hih := ih (k := k + 1)
      constructor
      · intro hn
        have : frontierTight t (k + 1) es = none := by
          cases hc : frontierTight t (k + 1) es with
          | none => rfl
          | some b => simp [hc] at hn
        obtain ⟨i, hi, hd⟩ := hih.1 this
        exact ⟨i + 1, by simpa using hi, by simpa [Nat.add_assoc, Nat.add_comm 1 i] using hd⟩
      · rintro ⟨i, hi, hd⟩
        cases i with
        | zero => exact absurd (by simpa using hd) h
        | succ i =>
          have : frontierTight t (k + 1) es = none :=
            hih.2 ⟨i, by simpa using hi, by simpa [Nat.add_assoc, Nat.add_comm 1 i] using hd⟩
          simp [this]

/-- The frontier test of R187: when it passes, it says whether some entry `k` has `due = T + k`. -/
theorem frontierTight_eq_some {t k : Nat} {fr : List FrontierEntry} {tight : Bool}
    (h : frontierTight t k fr = some tight) :
    tight = true ↔ ∃ i, ∃ hi : i < fr.length, (fr[i]).due.toNat = t + (k + i) := by
  induction fr generalizing k tight with
  | nil => simp [frontierTight] at h; simp [← h]
  | cons e es ih =>
    simp only [frontierTight] at h
    split at h
    · cases h
    · cases hc : frontierTight t (k + 1) es with
      | none => simp [hc] at h
      | some b =>
        have hb := ih hc
        simp only [hc, Option.some.injEq] at h
        subst h
        rw [Bool.or_eq_true, decide_eq_true_eq, hb]
        constructor
        · rintro (h0 | ⟨i, hi, hd⟩)
          · exact ⟨0, by simp, by simpa using h0⟩
          · exact ⟨i + 1, by simpa using hi, by simpa [Nat.add_assoc, Nat.add_comm 1 i] using hd⟩
        · rintro ⟨i, hi, hd⟩
          cases i with
          | zero => exact .inl (by simpa using hd)
          | succ i => exact .inr ⟨i, by simpa using hi, by simpa [Nat.add_assoc, Nat.add_comm 1 i] using hd⟩

/-- The picked index is the best one so far or one of the entries still to look at (R187). -/
theorem smallestSubtree_bound (sz : Vector (BitVec 9) 256) (bi bs k : Nat) (fr : List FrontierEntry) :
    smallestSubtree sz bi bs k fr = bi ∨
      (k ≤ smallestSubtree sz bi bs k fr ∧ smallestSubtree sz bi bs k fr < k + fr.length) := by
  induction fr generalizing bi bs k with
  | nil => exact .inl rfl
  | cons e es ih =>
    simp only [smallestSubtree, List.length_cons]
    split
    · rcases ih k (entry sz e.node).toNat (k + 1) with h | h
      · exact .inr (by omega)
      · exact .inr (by omega)
    · rcases ih bi bs (k + 1) with h | h
      · exact .inl h
      · exact .inr (by omega)

/-- A non-empty frontier has an entry at the picked index (R187, R188). -/
theorem frontierPick_lt (sz : Vector (BitVec 9) 256) (tight : Bool) {fr : List FrontierEntry} (h : fr ≠ []) :
    frontierPick sz tight fr < fr.length := by
  cases fr with
  | nil => exact absurd rfl h
  | cons e es =>
    cases tight with
    | true => simp [frontierPick]
    | false =>
      have := smallestSubtree_bound sz 0 (entry sz e.node).toNat 1 es
      simp only [frontierPick, List.length_cons]
      omega

/-- One iteration of the placement loop (R187): the fault, a ranked stem, or an empty frontier. -/
theorem placeLoop_succ_cases (stem : Vector Stem 256) (sz : Vector (BitVec 9) 256) (t count : Nat) (r : PlaceRegs) :
    (frontierTight t 0 r.fr = none ∧
        placeLoop stem sz t (count + 1) r = .raise .placementUnsatisfiable { r with t := BitVec.ofNat 9 t }) ∨
      (r.fr = [] ∧ placeLoop stem sz t (count + 1) r = .stop .frontierEmpty) ∨
      ∃ tight, ∃ h : frontierPick sz tight r.fr < r.fr.length, frontierTight t 0 r.fr = some tight ∧
        placeLoop stem sz t (count + 1) r = placeLoop stem sz (t + 1) count
          (placeEntry stem t (frontierPick sz tight r.fr) (r.fr[frontierPick sz tight r.fr]) r) := by
  cases ht : frontierTight t 0 r.fr with
  | none => exact .inl ⟨rfl, by simp [placeLoop, ht]⟩
  | some tight =>
    right
    by_cases he : r.fr = []
    · left
      refine ⟨he, ?_⟩
      have hnone : r.fr[frontierPick sz tight r.fr]? = none := by simp [he]
      simp only [placeLoop, ht, hnone]
    · right
      have hl := frontierPick_lt sz tight he
      refine ⟨tight, hl, rfl, ?_⟩
      simp [placeLoop, ht, List.getElem?_eq_getElem hl]

/-- A table entry is a literal, or a reference whose distance fits (R202). -/
theorem tableEntry_eq_some {stem : Vector Stem 256} {rank : Vector Byte 256} {j e : Byte} {f : Bool} {c : BitVec 9}
    (h : tableEntry stem rank j f c = some e) :
    (f = true ∧ e = childId c) ∨
      (f = false ∧ j.toNat < (entry rank (childId c)).toNat ∧ (entry rank (childId c)).toNat ≤ j.toNat + 64 ∧
        e = refByte (entry stem (childId c)).f1 (entry stem (childId c)).f2
          (BitVec.ofNat 6 ((entry rank (childId c)).toNat - j.toNat - 1))) := by
  unfold tableEntry at h
  split at h
  · exact .inl ⟨‹_›, by simpa using h.symm⟩
  · rename_i hf
    simp only at h
    split at h
    · cases h
    · rename_i hd
      simp only [Config.maxSkip, not_or, not_lt] at hd
      have h1 : j.toNat < (entry rank (childId c)).toNat := by omega
      refine .inr ⟨by simpa using hf, h1, by omega, ?_⟩
      simp only [Option.some.injEq] at h
      rw [← h]
      congr 1
      have : ((entry rank (childId c)).toNat : Int) - j.toNat - 1 =
          (((entry rank (childId c)).toNat - j.toNat - 1 : Nat) : Int) := by omega
      rw [this, BitVec.ofInt_natCast]

/-- A table entry overflows exactly when a reference's distance is not 1 to 64 (R202, R290). -/
theorem tableEntry_eq_none {stem : Vector Stem 256} {rank : Vector Byte 256} {j : Byte} {f : Bool} {c : BitVec 9} :
    tableEntry stem rank j f c = none ↔
      f = false ∧ ¬ (j.toNat < (entry rank (childId c)).toNat ∧ (entry rank (childId c)).toNat ≤ j.toNat + 64) := by
  unfold tableEntry
  cases f
  · simp only [Bool.false_eq_true, if_false, Config.maxSkip, true_and]
    split
    · simp only [true_iff]
      omega
    · simp only [reduceCtorEq, false_iff, not_not]
      omega
  · simp

/-- `VISIT` with no room left raises, with room it visits child-1 and then child-2 (R222). -/
theorem visit_succ (stem : Vector Stem 256) (room : Nat) (s : Byte) (p : Code) (code : Vector Code 256) :
    visit stem (room + 1) s p code =
      (if (entry stem s).f1 then .ok (setEntry code (childId (entry stem s).c1) (p ++ [false]))
        else visit stem room (childId (entry stem s).c1) (p ++ [false]) code).andThen fun code =>
      if (entry stem s).f2 then .ok (setEntry code (childId (entry stem s).c2) (p ++ [true]))
      else visit stem room (childId (entry stem s).c2) (p ++ [true]) code := rfl

/-- `FLUSH` writes the four bytes of the accumulator and starts a fresh one (R227). -/
theorem flush_eq_ok {cfg : Config.Params} {r r' : PackRegs} (h : flush cfg r = .ok r') :
    r'.acc = 0 ∧ r'.rem = 32 ∧ r'.opos = r.opos + 4 ∧
      writeOutBytes cfg r.out r.opos.toNat (bytesOfWord r.acc) = .ok r'.out := by
  obtain ⟨m, hm, hr⟩ := Flow.access_eq_ok.1 h
  simp only [Flow.ok.injEq] at hr
  subst hr
  exact ⟨rfl, rfl, rfl, hm⟩

/-- The packer never raises a spec fault (R232). -/
theorem flush_ne_raise (cfg : Config.Params) (r r' : PackRegs) (e : Err) : flush cfg r ≠ .raise e r' := by
  intro h
  obtain ⟨m, -, hr⟩ := Flow.access_eq_raise.1 h
  cases hr

theorem packBit_ne_raise (cfg : Config.Params) (b : Bool) (r r' : PackRegs) (e : Err) : packBit cfg b r ≠ .raise e r' := by
  intro h
  rcases Flow.andThen_eq_raise.1 h with h | ⟨a, -, h⟩
  · split at h
    · exact flush_ne_raise _ _ _ _ h
    · cases h
  · cases h

theorem packBits_ne_raise (cfg : Config.Params) (bs : List Bool) (r r' : PackRegs) (e : Err) :
    packBits cfg bs r ≠ .raise e r' := by
  induction bs generalizing r with
  | nil => intro h; cases h
  | cons b bs ih =>
    intro h
    rcases Flow.andThen_eq_raise.1 h with h | ⟨a, -, h⟩
    · exact packBit_ne_raise _ _ _ _ _ h
    · exact ih a h

theorem packBytes_ne_raise (cfg : Config.Params) (code : Vector Code 256) (vs : List Byte) (r r' : PackRegs) (e : Err) :
    packBytes cfg code vs r ≠ .raise e r' := by
  induction vs generalizing r with
  | nil => intro h; cases h
  | cons v vs ih =>
    intro h
    rcases Flow.andThen_eq_raise.1 h with h | ⟨a, -, h⟩
    · exact packBits_ne_raise _ _ _ _ _ h
    · exact ih a h

/-- The bits of the input bytes one after another are packed as one sequence (R227). -/
theorem packBits_append (cfg : Config.Params) (bs cs : List Bool) (r : PackRegs) :
    packBits cfg (bs ++ cs) r = (packBits cfg bs r).andThen (packBits cfg cs) := by
  induction bs generalizing r with
  | nil => rfl
  | cons b bs ih =>
    simp only [List.cons_append, packBits, Flow.andThen_assoc]
    congr 1
    funext a
    exact ih a

theorem packBytes_eq (cfg : Config.Params) (code : Vector Code 256) (vs : List Byte) (r : PackRegs) :
    packBytes cfg code vs r = packBits cfg (vs.flatMap (entry code)) r := by
  induction vs generalizing r with
  | nil => rfl
  | cons v vs ih =>
    simp only [packBytes, List.flatMap_cons, packBits_append]
    congr 1
    funext a
    exact ih a

/-! ### The decoder -/

/-- On the count byte: the table is there or it is not (R251). -/
theorem countItem_cases (b : Byte) (s : State) :
    (s.len.toNat < 6 + 2 * b.toNat ∧ countItem b s = .raise .truncatedTable { s with cnt := b }) ∨
      (6 + 2 * b.toNat ≤ s.len.toNat ∧ countItem b s = .ok { s with cnt := b, point := .header }) := by
  by_cases h : s.len.toNat < 6 + 2 * b.toNat
  · exact .inl ⟨h, if_pos h⟩
  · exact .inr ⟨by omega, if_neg h⟩

/-- On the header: a wrong tag, a result too long for `OUT`, or the expected length (R251). -/
theorem headerItem_cases (tag : Byte) (len : BitVec 24) (s : State) :
    (tag ≠ Config.tag ∧ headerItem tag len s = .raise .badFormatTag s) ∨
      (tag = Config.tag ∧ exceedsOut s.cfg len.toNat = true ∧
        headerItem tag len s = .raise .outOverflow { s with explen := len }) ∨
      (tag = Config.tag ∧ exceedsOut s.cfg len.toNat = false ∧
        headerItem tag len s = .ok { s with explen := len, point := .boot }) := by
  unfold headerItem
  by_cases ht : tag = Config.tag
  · right
    cases he : exceedsOut s.cfg len.toNat
    · exact .inr ⟨ht, rfl, by simp [ht]⟩
    · exact .inl ⟨ht, rfl, by simp [ht]⟩
  · exact .inl ⟨ht, by simp [ht]⟩

/-- A literal goes through exactly when its `OUT` byte exists (R257, R259). -/
theorem leafItem_eq_ok {v : Byte} {s t : State} (h : leafItem v s = .ok t) :
    outHas s.cfg s.outcnt.toNat = true ∧
      t = { s with
        outMem := Memory.write s.outMem s.outcnt.toNat v
        outcnt := s.outcnt + 1
        cur := s.boot
        pos := 0 } := by
  obtain ⟨m, hm, hr⟩ := Flow.access_eq_ok.1 h
  obtain ⟨ho, rfl⟩ := writeOut_eq_ok hm
  exact ⟨ho, by simpa using hr.symm⟩

theorem leafItem_ne_raise (v : Byte) (s t : State) (e : Err) : leafItem v s ≠ .raise e t := by
  intro h
  obtain ⟨m, -, hr⟩ := Flow.access_eq_raise.1 h
  cases hr

/-- The move of a walk step: past the bound, or to the next position (R257). -/
theorem advance_cases (s : State) :
    (s.cnt.toNat < nextPosition s ∧
        advance s = .raise .positionOutOfTree { s with k := s.k - 1, pos := BitVec.ofNat 9 (nextPosition s) }) ∨
      (nextPosition s ≤ s.cnt.toNat ∧
        advance s = .ok { s with k := s.k - 1, pos := BitVec.ofNat 9 (nextPosition s) }) := by
  unfold advance
  split
  · exact .inl ⟨‹_›, rfl⟩
  · exact .inr ⟨by omega, rfl⟩

/-- The table byte of a walk step is a literal or a reference by the flag held (R98, R257). -/
theorem interpret_eq_ok {b : Bool} {s t : State} (h : interpret b s = .ok t) :
    tableAddress s b < s.cfg.inSize ∧
      ((leafFlag s.cur b = true ∧ leafItem (Memory.read s.inMem (tableAddress s b)) s = .ok t) ∨
        (leafFlag s.cur b = false ∧ t = refItem (Memory.read s.inMem (tableAddress s b)) s)) := by
  obtain ⟨e, he, hr⟩ := Flow.access_eq_ok.1 h
  obtain ⟨hlt, rfl⟩ := readIn_eq_ok he
  refine ⟨hlt, ?_⟩
  split at hr
  · exact .inl ⟨‹_›, hr⟩
  · rename_i hf
    exact .inr ⟨by simpa using hf, by simpa using hr.symm⟩

/-- A fetched group is the four payload bytes, little-endian (R64, R256). -/
theorem readGroup_eq_ok {s t : State} (h : readGroup s = .ok t) :
    groupAddress s + 4 ≤ s.cfg.inSize ∧
      t = groupItem (wordOfBytes (Memory.read s.inMem (groupAddress s)) (Memory.read s.inMem (groupAddress s + 1))
        (Memory.read s.inMem (groupAddress s + 2)) (Memory.read s.inMem (groupAddress s + 3))) s := by
  obtain ⟨bs, hb, hr⟩ := Flow.access_eq_ok.1 h
  obtain ⟨rfl, hle⟩ := readInRange_eq_ok hb
  refine ⟨hle (by omega), ?_⟩
  simpa [inBytes, List.range_succ, eq_comm] using hr

/-- The header read is little-endian: the tag is the first byte (R64, R92). -/
theorem readHeader_ok {s : State} (h : s.off.toNat + 4 ≤ s.cfg.inSize) :
    readHeader s = headerItem (Memory.read s.inMem s.off.toNat)
      (Memory.read s.inMem (s.off.toNat + 3) ++ Memory.read s.inMem (s.off.toNat + 2) ++
        Memory.read s.inMem (s.off.toNat + 1)) s := by
  simp [readHeader, readInRange_ok h, inBytes, List.range_succ]

end Sys2Proof.Machine
end

