-- ==== Sys2Proof/Laws/PerInstr.lean ====
section
/-! SUPPORT. The family `EncodeSize`: an instruction's encoding has the size of its format (30_encoding.md R90), said for
each constructor. -/

namespace Sys2Proof.Laws.EncodeSize

/-- The bytes of an instruction are as many as its format has (R90). -/
def Statement (i : Instr) : Prop := (encode i).length = i.format.size

theorem encodeCmd : Statement .encodeCmd := rfl

theorem decodeCmd : Statement .decodeCmd := rfl

theorem freq : Statement .freq := rfl

theorem merge : Statement .merge := rfl

theorem place : Statement .place := rfl

theorem serialize : Statement .serialize := rfl

theorem codebuild : Statement .codebuild := rfl

theorem hdrwrite : Statement .hdrwrite := rfl

theorem pack : Statement .pack := rfl

theorem dvalidate : Statement .dvalidate := rfl

theorem dwalk : Statement .dwalk := rfl

theorem hdr (tag : Byte) (len : BitVec 24) : Statement (.hdr tag len) := rfl

theorem count (nminus1 : Byte) : Statement (.count nminus1) := rfl

theorem ref (f1 f2 : Bool) (skip : BitVec 6) : Statement (.ref f1 f2 skip) := rfl

theorem leaf (value : Byte) : Statement (.leaf value) := rfl

theorem group (bits : Word) : Statement (.group bits) := rfl

end Sys2Proof.Laws.EncodeSize
end

