-- ==== Sys2Proof/Laws/Walk.lean ====
section
/-! SUPPORT. The loops of `DWALK` (46_bit_walker.md R256, R257), said once: which registers they write, and that `OUT`
keeps its canonical form; and the first equations of the walk the claims are stated with (Safety.lean). -/

namespace Sys2Proof.Machine

open Sys2Proof.Safety

/-! ### The walk of a bitstream, bit by bit -/

@[simp] theorem walkStream_zero (table : Nat → Byte) (cnt : Nat) (boot cur : Byte) (bits : List Bool) (pos : Nat) :
    walkStream table cnt boot bits pos cur 0 = some ([], 0) := by cases bits <;> rfl

@[simp] theorem walkStream_nil (table : Nat → Byte) (cnt : Nat) (boot cur : Byte) (pos want : Nat) :
    walkStream table cnt boot [] pos cur want = some ([], 0) := by cases want <;> rfl

@[simp] theorem walkEmitted_zero (table : Nat → Byte) (cnt : Nat) (boot cur : Byte) (bits : List Bool) (pos : Nat) :
    walkEmitted table cnt boot bits pos cur 0 = [] := by cases bits <;> rfl

@[simp] theorem walkEmitted_nil (table : Nat → Byte) (cnt : Nat) (boot cur : Byte) (pos want : Nat) :
    walkEmitted table cnt boot [] pos cur want = [] := by cases want <;> rfl

/-- A walk that ends inside the bound emits what `walkEmitted` says. -/
theorem walkEmitted_of_walkStream {table : Nat → Byte} {cnt : Nat} {boot cur : Byte} {bits : List Bool}
    {pos want used : Nat} {out : List Byte} (h : walkStream table cnt boot bits pos cur want = some (out, used)) :
    walkEmitted table cnt boot bits pos cur want = out := by
  induction bits generalizing pos cur want out used with
  | nil =>
    rw [walkStream_nil] at h
    rw [walkEmitted_nil]
    exact (Prod.mk.inj (Option.some.inj h)).1
  | cons b bs ih =>
    cases want with
    | zero =>
      rw [walkStream_zero] at h
      rw [walkEmitted_zero]
      exact (Prod.mk.inj (Option.some.inj h)).1
    | succ want =>
      by_cases hp : cnt < pos + cur.toNat % 64 + 1
      · simp [walkStream, hp] at h
      · by_cases hf : cur.getLsbD (if b then 6 else 7) = true
        · simp only [walkStream, if_neg hp, if_pos hf, Option.map_eq_some_iff, Prod.mk.injEq] at h
          obtain ⟨⟨o, n⟩, hw, rfl, -⟩ := h
          simp only [walkEmitted, if_neg hp, if_pos hf, ih hw]
        · simp only [walkStream, if_neg hp, if_neg hf, Option.map_eq_some_iff, Prod.mk.injEq] at h
          obtain ⟨⟨o, n⟩, hw, rfl, -⟩ := h
          simp only [walkEmitted, if_neg hp, if_neg hf, ih hw]

@[simp] theorem pushedChild_leaf (c : BitVec 9) (t : Nat) : pushedChild true c t = [] := rfl

@[simp] theorem pushedChild_stem (c : BitVec 9) (t : Nat) :
    pushedChild false c t = [{ node := childId c, due := BitVec.ofNat 9 (t + 64) }] := rfl

/-! ### The loops -/

/-- `t` differs from `s` in the walk's own registers and in `OUT` alone. -/
def WalkKeeps (s t : State) : Prop :=
  t = { s with
    w := t.w
    g := t.g
    k := t.k
    pos := t.pos
    cur := t.cur
    outcnt := t.outcnt
    outMem := t.outMem }

theorem WalkKeeps.refl (s : State) : WalkKeeps s s := rfl

theorem WalkKeeps.trans {s t u : State} (h1 : WalkKeeps s t) (h2 : WalkKeeps t u) : WalkKeeps s u := by
  unfold WalkKeeps at *
  rw [h2, h1]

/-- The move of a step writes `k` and `POS` (R257). -/
theorem advance_walkKeeps (s : State) : (advance s).Keeps (WalkKeeps s) := by
  rcases advance_cases s with ⟨-, h⟩ | ⟨-, h⟩ <;> rw [h] <;> exact rfl

/-- A literal writes `OUT`, `OUTCNT`, `CUR` and `POS` (R257, R259). -/
theorem leafItem_walkKeeps (v : Byte) (s : State) : (leafItem v s).Keeps (WalkKeeps s) :=
  Flow.Keeps.access fun _ _ => by simp only [Flow.keeps_ok, WalkKeeps]

/-- The rest of a step writes what a literal or a reference writes (R257). -/
theorem interpret_walkKeeps (b : Bool) (s : State) : (interpret b s).Keeps (WalkKeeps s) := by
  refine Flow.Keeps.access fun e _ => ?_
  split
  · exact leafItem_walkKeeps e s
  · simp only [Flow.keeps_ok, WalkKeeps, refItem]

theorem stepBit_walkKeeps (s : State) : (stepBit s).Keeps (WalkKeeps s) := by
  refine Flow.Keeps.andThen (advance_walkKeeps s) (fun _ h => h) fun a ha => ?_
  exact Flow.Keeps.mono (interpret_walkKeeps (nextBit s) a) fun _ h => ha.trans h

/-- A group writes `W`, `G` and `k` (R256). -/
theorem readGroup_walkKeeps (s : State) : (readGroup s).Keeps (WalkKeeps s) := by
  refine Flow.Keeps.access fun bytes _ => ?_
  split <;> simp only [Flow.keeps_ok, WalkKeeps, groupItem]

theorem walkBits_walkKeeps (count : Nat) (s : State) : (walkBits count s).Keeps (WalkKeeps s) := by
  induction count generalizing s with
  | zero => exact WalkKeeps.refl s
  | succ count ih =>
    simp only [walkBits]
    split
    · exact WalkKeeps.refl s
    · exact Flow.Keeps.andThen (stepBit_walkKeeps s) (fun _ h => h)
        fun a ha => Flow.Keeps.mono (ih a) fun _ h => ha.trans h

/-- The loops of `DWALK` write the walk's own registers and `OUT`, and nothing else (R256). -/
theorem walkGroups_walkKeeps (count : Nat) (s : State) : (walkGroups count s).Keeps (WalkKeeps s) := by
  induction count generalizing s with
  | zero => exact WalkKeeps.refl s
  | succ count ih =>
    simp only [walkGroups]
    split
    · refine Flow.Keeps.andThen (P := WalkKeeps s) ?_ (fun _ h => h)
        fun a ha => Flow.Keeps.mono (ih a) fun _ h => ha.trans h
      exact Flow.Keeps.andThen (readGroup_walkKeeps s) (fun _ h => h)
        fun a ha => Flow.Keeps.mono (walkBits_walkKeeps 32 a) fun _ h => ha.trans h
    · exact WalkKeeps.refl s

/-- Every `OUT` byte the loops write exists, and the canonical form is kept (R61, R70). -/
abbrev OutHolds (s : State) : Prop := Memory.wf s.outMem ∧ ∀ size ∈ s.cfg.outSize, Memory.below s.outMem size

theorem leafItem_outHolds (v : Byte) {s : State} (h : OutHolds s) : (leafItem v s).Keeps OutHolds := by
  refine Flow.Keeps.access fun m hm => ?_
  obtain ⟨ho, rfl⟩ := writeOut_eq_ok hm
  refine ⟨Memory.write_wf h.1 _ _, fun size hs => Memory.write_below (h.2 size hs) ?_⟩
  rw [Option.mem_def] at hs
  unfold outHas at ho
  rw [hs] at ho
  simpa using ho

theorem stepBit_outHolds {s : State} (h : OutHolds s) : (stepBit s).Keeps OutHolds := by
  refine Flow.Keeps.andThen (P := OutHolds) ?_ (fun _ h => h) fun a ha => ?_
  · rcases advance_cases s with ⟨-, hs⟩ | ⟨-, hs⟩ <;> rw [hs] <;> exact h
  · refine Flow.Keeps.access fun e _ => ?_
    split
    · exact leafItem_outHolds e ha
    · exact ha

theorem readGroup_outHolds {s : State} (h : OutHolds s) : (readGroup s).Keeps OutHolds := by
  refine Flow.Keeps.access fun bytes _ => ?_
  split <;> exact h

theorem walkBits_outHolds (count : Nat) {s : State} (h : OutHolds s) : (walkBits count s).Keeps OutHolds := by
  induction count generalizing s with
  | zero => exact h
  | succ count ih =>
    simp only [walkBits]
    split
    · exact h
    · exact Flow.Keeps.andThen (stepBit_outHolds h) (fun _ h => h) fun a ha => ih ha

theorem walkGroups_outHolds (count : Nat) {s : State} (h : OutHolds s) : (walkGroups count s).Keeps OutHolds := by
  induction count generalizing s with
  | zero => exact h
  | succ count ih =>
    simp only [walkGroups]
    split
    · exact Flow.Keeps.andThen (Flow.Keeps.andThen (readGroup_outHolds h) (fun _ h => h)
        fun a ha => walkBits_outHolds 32 ha) (fun _ h => h) fun a ha => ih ha
    · exact h

end Sys2Proof.Machine
end

