-- ==== Sys2Proof/Tests/Slice0.lean ====
section
/-! SUPPORT. Tests and witnesses. Expected values come from spec/95_test_vectors.md (its vector is named) or are worked
out by hand from the rule named. After the tests, one theorem for each obligation with hypotheses shows a state and
operands that meet them. -/

namespace Sys2Proof.Tests

set_option Elab.async false

open Sys2Proof.Machine Sys2Proof.Safety

/-! ## Small states -/

/-- A memory that holds the bytes from address `a` on. -/
def image : Nat → List Byte → Memory
  | _, [] => []
  | a, b :: bs => if b = 0 then image (a + 1) bs else (a, b) :: image (a + 1) bs

/-- Reset, with `bytes` in `IN` at 0 as the operand of the next command. -/
def withInput (bytes : List Byte) : State :=
  { State.reset with inMem := image 0 bytes, srcLen := BitVec.ofNat 32 bytes.length }

/-- A command runs in phase `p` over `bytes` in `IN` at 0. -/
def running (op : Op) (p : Phase) (bytes : List Byte) : State :=
  { withInput bytes with
    op := op
    len := BitVec.ofNat 32 bytes.length
    status := { State.reset.status with state := .busy, phase := p, lastop := op } }

/-- The same with steps of another size and a host script. -/
def sized (g : Config.Grain) (script : List HostAction) (s : State) : State :=
  { s with cfg := { s.cfg with grain := g }, script := script }

def isNext (o : Host.Outcome State Fault Refusal) : Bool :=
  match o with
  | .next _ => true
  | _ => false

/-- The next state, when there is one. -/
def after (o : Host.Outcome State Fault Refusal) : State :=
  match o with
  | .next t => t
  | _ => State.reset

theorem eq_next {o : Host.Outcome State Fault Refusal} (h : isNext o = true) : o = .next (after o) := by
  cases o <;> simp_all [isNext, after]

theorem exists_next {o : Host.Outcome State Fault Refusal} {p : State → Prop} [DecidablePred p]
    (h : (match o with
      | .next t => decide (p t)
      | _ => false) = true) : ∃ t, o = .next t ∧ p t := by
  cases o <;> simp_all

/-- Whether there is a next state with this `STATUS` word and these bytes from `OUT` address 0 on. -/
def ends (o : Host.Outcome State Fault Refusal) (status : Word) (out : List Byte) : Bool :=
  match o with
  | .next t => t.status.word == status && inBytes t.outMem 0 out.length == out
  | _ => false

/-- The state in the middle of `ENCODE` of `41 41 41 42` with every table filled as vector S1 says. -/
def midS1 (p : Phase) : State :=
  { running .encode p [0x41, 0x41, 0x41, 0x42] with
    n := 2
    root := 0
    ns := 1
    freq := setEntry (setEntry (Vector.replicate 256 0) 0x41 3) 0x42 1
    stem := setEntry (setEntry State.reset.stem 0 { f1 := true, c1 := 0x41, f2 := true, c2 := 0x42 }) 1
      { f1 := true, c1 := 0x100, f2 := false, c2 := 0 }
    rank := setEntry (Vector.replicate 256 0) 0 1
    table := setSlotByte (setSlotByte (setSlotByte (setSlotByte State.reset.table 0 1) 1 0xC0) 2 0x41) 3 0x42
    code := setEntry (setEntry State.reset.code 0x41 [false]) 0x42 [true]
    opos := 8 }

/-- The merge tree of vectors M1 and M2, with the ranks of L1. -/
def midM1 (p : Phase) : State :=
  { running .encode p [0x41, 0x41, 0x42, 0x43] with
    n := 3
    root := 1
    stem := setEntry (setEntry (setEntry State.reset.stem 0 { f1 := true, c1 := 0x42, f2 := true, c2 := 0x43 }) 1
      { f1 := false, c1 := 0, f2 := true, c2 := 0x41 }) 2 { f1 := true, c1 := 0x100, f2 := false, c2 := 1 }
    rank := setEntry (setEntry (Vector.replicate 256 0) 0 2) 1 1 }

/-- Result S1. -/
def bufferS1 : List Byte := [0x28, 0x04, 0x00, 0x00, 0x01, 0xC0, 0x41, 0x42, 0x00, 0x00, 0x00, 0x10]

/-- `DECODE` of a buffer with count byte `cnt`, standing at the start of `DWALK`. -/
def atWalk (cnt boot : Byte) (explen : BitVec 24) (bytes : List Byte) : State :=
  { running .decode .dwalk bytes with
    cnt := cnt
    boot := boot
    explen := explen
    expLen := explen.setWidth 32
    pay := BitVec.ofNat 33 (6 + 2 * cnt.toNat)
    ng := BitVec.ofNat 30 ((bytes.length - 6 - 2 * cnt.toNat) / 4) }

/-! ## Well-formedness and decoding -/

/-- R92: a header with another tag is no well-formed instruction, and its bytes are refused by the decoder (R103). -/
theorem test_wellFormed_refuses_tag : (Instr.hdr 0x29 0).wellFormed = false ∧
    decode .hdr (encode (.hdr 0x29 0)) = .error (.badTag 0x29) := by decide

/-- R91: `CMD`; vectors X3 and X4 with the ignored bits set. -/
theorem test_decode_cmd : decode .cmd [0x00, 0x00, 0x00, 0x00] = .ok .encodeCmd ∧
    decode .cmd [0x01, 0x00, 0x00, 0x00] = .ok .decodeCmd ∧ decode .cmd [0xFE, 0xFF, 0xFF, 0xFF] = .ok .encodeCmd ∧
    decode .cmd [0x03, 0x00, 0x00, 0x00] = .ok .decodeCmd := by decide

/-- R25: the phase codes 1 to 9. -/
theorem test_decode_phase : decode .phase [1] = .ok .freq ∧ decode .phase [2] = .ok .merge ∧
    decode .phase [3] = .ok .place ∧ decode .phase [4] = .ok .serialize ∧ decode .phase [5] = .ok .codebuild ∧
    decode .phase [6] = .ok .hdrwrite ∧ decode .phase [7] = .ok .pack ∧ decode .phase [8] = .ok .dvalidate ∧
    decode .phase [9] = .ok .dwalk ∧ decode .phase [0] = .error (.noSuchPhase 0) ∧
    decode .phase [10] = .error (.noSuchPhase 10) := by decide

/-- R92 with vector H4's bytes: tag in byte 0, `len` = 14,930,351 low byte first. -/
theorem test_decode_hdr : decode .hdr [0x28, 0xAF, 0xD1, 0xE3] = .ok (.hdr 0x28 14930351) := by decide

/-- R93, R95, R96 (`0x40`: child-2 is a leaf; `0x81`: child-1 is a leaf, distance 2), R100 with R266's word. -/
theorem test_decode_bytes : decode .count [0x04] = .ok (.count 4) ∧ decode .leaf [0xC1] = .ok (.leaf 0xC1) ∧
    decode .ref [0x40] = .ok (.ref false true 0) ∧ decode .ref [0x81] = .ok (.ref true false 1) ∧
    decode .ref [0x3F] = .ok (.ref false false 63) ∧
    decode .group [0x00, 0x06, 0x57, 0x83] = .ok (.group 0x83570600) := by decide

/-- A format takes its own number of bytes (R90). -/
theorem test_decode_wrong_size : decode .hdr [0x28, 0x04, 0x00] = .error .wrongSize ∧
    decode .phase [] = .error .wrongSize ∧ decode .leaf [1, 2] = .error .wrongSize := by decide

/-! ## Reset and registers -/

/-- X1. -/
theorem test_reset_registers : (List.range 6).map (fun r => readReg r State.reset) = [0, 0, 0, 0, 0, 0] := by decide

/-- X5's word, and 2.9's words of the faults that no input reaches (R24). -/
theorem test_status_words :
    (Status.mk .busy .pack .none false false .encode).word = 0x001D ∧
    (Status.mk .fault .serialize .skipOverflow false false .encode).word = 0x0193 ∧
    (Status.mk .fault .place .placementUnsatisfiable false false .encode).word = 0x01CF ∧
    (Status.mk .fault .codebuild .codeTooLong false false .encode).word = 0x0217 ∧
    (Status.mk .done .none .none true true .decode).word = 0x1C02 := by decide

/-- X8. -/
theorem test_register_six :
    Sys2Proof.core.run 2 (sized .command [.writeReg 6 7, .readReg 6] State.reset) =
      .next { State.reset with reads := [0] } := by rfl

/-! ## Micro-operations of ENCODE -/

/-- Q6: only `IN[3]` and `IN[4]` are counted. -/
theorem test_freq : (match exec .freq { running .encode .freq [9, 9, 9, 0x41, 0x42, 9] with off := 3, len := 2 } with
    | .next t => entry t.freq 0x41 == 1 && entry t.freq 0x42 == 1 && entry t.freq 9 == 0 && t.status.phase == .merge
    | _ => false) = true := by decide +kernel

/-- F2: 2^24 bytes are too many, whatever `IN` holds. -/
theorem test_freq_too_large :
    ends (exec .freq { running .encode .freq [] with len := 0x01000000 }) 0x0047 [] = true := by decide +kernel

/-- M1: equal weights are ordered by sequence. -/
theorem test_merge : (match exec .merge { midS1 .merge with
      freq := setEntry (setEntry (setEntry (Vector.replicate 256 0) 0x41 2) 0x42 1) 0x43 1 } with
    | .next t => entry t.stem 0 == ⟨true, 0x42, true, 0x43⟩ && entry t.stem 1 == ⟨false, 0, true, 0x41⟩ &&
        entry t.stem 2 == ⟨true, 0x100, false, 1⟩ && t.root == 1 && t.n == 3
    | _ => false) = true := by decide +kernel

/-- M4: the synthetic leaf of the single symbol 0xFF is 0x00. -/
theorem test_merge_single : (match exec .merge { midS1 .merge with freq := setEntry (Vector.replicate 256 0) 0xFF 2 } with
    | .next t => entry t.stem 0 == ⟨true, 0xFF, true, 0x00⟩ && t.n == 2
    | _ => false) = true := by decide +kernel

/-- L1. -/
theorem test_place : (match exec .place { midM1 .place with rank := State.reset.rank } with
    | .next t => entry t.rank 0 == 2 && entry t.rank 1 == 1 && entry t.rank 2 == 0 && t.status.phase == .serialize
    | _ => false) = true := by decide +kernel

/-- 2.3: with `T` = 10 and `FR = [(a, 9)]` the test raises the fault; at `due` 10 it is tight. -/
theorem test_place_due : frontierTight 10 0 [⟨7, 9⟩] = none ∧ frontierTight 10 0 [⟨7, 10⟩] = some true ∧
    frontierTight 10 0 [⟨7, 64⟩, ⟨8, 11⟩] = some true ∧ frontierTight 10 0 [⟨7, 64⟩] = some false := by decide

/-- T2. -/
theorem test_serialize : (match exec .serialize (midM1 .serialize) with
    | .next t => (List.range 6).map (fun i => slotByte t.table (BitVec.ofNat 9 i)) == [0x02, 0x40, 0xC0, 0x41, 0x42, 0x43]
    | _ => false) = true := by decide +kernel

/-- R202: a child 65 ranks on overflows, one 64 ranks on has skip 63. -/
theorem test_serialize_skip :
    tableEntry (midM1 .serialize).stem (setEntry State.reset.rank 0 65) 0 false 0 = none ∧
    tableEntry (midM1 .serialize).stem (setEntry State.reset.rank 0 64) 0 false 0 = some 0xFF := by decide +kernel

/-- K2. -/
theorem test_codebuild : (match exec .codebuild (midM1 .codebuild) with
    | .next t => entry t.code 0x41 == [true] && entry t.code 0x42 == [false, false] &&
        entry t.code 0x43 == [false, true] && entry t.code 0x44 == []
    | _ => false) = true := by decide +kernel

/-- H1. -/
theorem test_hdrwrite : (match exec .hdrwrite { midS1 .hdrwrite with opos := 0 } with
    | .next t => t.tbits == 4 && t.opos == 8 &&
        inBytes t.outMem 0 9 == [0x28, 0x04, 0x00, 0x00, 0x01, 0xC0, 0x41, 0x42, 0x00]
    | _ => false) = true := by decide +kernel

/-- F3: the whole result of 12 bytes does not fit 11. -/
theorem test_hdrwrite_overflow : ends (exec .hdrwrite
      { midS1 .hdrwrite with cfg := { State.reset.cfg with outSize := some 11 } }) 0x029B [0, 0] = true := by
  decide +kernel

/-- S1's payload. -/
theorem test_pack : ends (exec .pack (midS1 .pack)) 0x0002 [0, 0, 0, 0, 0, 0, 0, 0, 0x00, 0x00, 0x00, 0x10] = true := by
  decide +kernel

/-- B1: 32 bits are one group, flushed at the end only. -/
theorem test_pack_full_group : (match exec .pack { running .encode .pack (List.replicate 31 0x41 ++ [0x42]) with
      code := (midS1 .pack).code } with
    | .next t => t.outLen == 4 && inBytes t.outMem 0 5 == [0x01, 0x00, 0x00, 0x00, 0x00]
    | _ => false) = true := by decide +kernel

/-! ## Micro-operations and items of DECODE -/

/-- S1's buffer (R265). -/
theorem test_dvalidate : (match exec .dvalidate (running .decode .dvalidate bufferS1) with
    | .next t => t.cnt == 1 && t.explen == 4 && t.boot == 0xC0 && t.pay == 8 && t.ng == 1 && t.expLen == 4 &&
        t.status.phase == .dwalk
    | _ => false) = true := by decide +kernel

/-- D8: the length is tested before the tag. -/
theorem test_dvalidate_order :
    ends (exec .dvalidate (running .decode .dvalidate [0x29, 0x04, 0x00, 0x00, 0x01, 0xC0, 0x41])) 0x10E3 [] = true := by
  decide +kernel

/-- D1. -/
theorem test_dwalk : ends (exec .dwalk (atWalk 3 0x41 4
      [0x28, 0x04, 0x00, 0x00, 0x03, 0x41, 0xEE, 0xEE, 0xC0, 0x5A, 0x58, 0x59, 0x00, 0x00, 0x00, 0x8C]))
    0x1002 [0x5A, 0x58, 0x59, 0x5A] = true := by decide +kernel

/-- D2b: the byte written before the fault stays. -/
theorem test_dwalk_out_of_tree : ends (exec .dwalk (atWalk 2 0x41 4
      [0x28, 0x04, 0x00, 0x00, 0x02, 0x41, 0xEE, 0xEE, 0xC0, 0x5A, 0x00, 0x00, 0x00, 0x80])) 0x1167 [0x5A] = true := by
  decide +kernel

/-- R251 with D12 and D7a: 6 bytes are enough for `CNT` 0, 7 bytes not for `CNT` 1. -/
theorem test_count_item :
    exec (.count 0) (running .decode .dvalidate [0x28, 0, 0, 0, 0, 0]) =
      .next { running .decode .dvalidate [0x28, 0, 0, 0, 0, 0] with cnt := 0, point := .header } ∧
    ends (exec (.count 1) (running .decode .dvalidate [0x28, 4, 0, 0, 1, 0xC0, 0x41])) 0x10E3 [] = true :=
  ⟨rfl, by decide +kernel⟩

/-- R251 with F4 and F4a: 40 bytes do not fit 39 and fit 40. -/
theorem test_hdr_item :
    ends (exec (.hdr 0x28 40) { running .decode .dvalidate [] with cfg := { State.reset.cfg with outSize := some 39 } })
      0x12A3 [] = true ∧
    ends (exec (.hdr 0x28 40) { running .decode .dvalidate [] with cfg := { State.reset.cfg with outSize := some 40 } })
      0x1021 [] = true := by decide +kernel

/-- R257: a reference read in the walk is the entry held; R251: read in `DVALIDATE` it starts the walk. -/
theorem test_ref_item : (after (exec (.ref true true 0) (atWalk 1 0x40 4 bufferS1))).cur = 0xC0 ∧
    (after (exec (.ref true true 0) { running .decode .dvalidate bufferS1 with cnt := 1 })).pay = 8 := by decide +kernel

/-- R257, R259: a literal is emitted and the walk is at `(BOOT, 0)`. -/
theorem test_leaf_item :
    exec (.leaf 0x5A) { atWalk 3 0x41 4 [] with outcnt := 2, pos := 3, cur := 0xC0 } =
      .next { atWalk 3 0x41 4 [] with outcnt := 3, pos := 0, cur := 0x41, outMem := [(2, 0x5A)] } := by rfl

/-- R256: a group is 32 bits to walk, bit 31 first. -/
theorem test_group_item : (after (exec (.group 0x80000000) (atWalk 1 0xC0 4 []))).k = 32 ∧
    nextBit (after (exec (.group 0x80000000) (atWalk 1 0xC0 4 []))) = true ∧
    nextBit (after (exec (.group 0x7FFFFFFF) (atWalk 1 0xC0 4 []))) = false := by decide +kernel

/-! ## Commands -/

/-- E1: the empty input. -/
theorem test_encode_empty : ends (exec .encodeCmd (withInput [])) 0x0002
    [0x28, 0x00, 0x00, 0x00, 0x01, 0xC0, 0xFF, 0x00, 0x00, 0x00, 0x00, 0x00] = true := by decide +kernel

/-- F1b: the range is checked on 33 bits. -/
theorem test_encode_range :
    ends (exec .encodeCmd { State.reset with srcOff := 0xFFFFFFFF, srcLen := 2 }) 0x0243 [] = true := by decide +kernel

/-- D4b: bytes after the last whole group. -/
theorem test_decode_trailing : ends (exec .decodeCmd (withInput (bufferS1 ++ [0xAA, 0xBB]))) 0x1402
    [0x41, 0x41, 0x41, 0x42] = true := by decide +kernel

/-- D9: the walk ends in the middle of a symbol. -/
theorem test_decode_short : ends (exec .decodeCmd (withInput
      [0x28, 0x28, 0x00, 0x00, 0x02, 0x80, 0x41, 0xC0, 0x42, 0x43, 0xFF, 0xFF, 0xFF, 0x7F])) 0x1802
    (0x41 :: List.replicate 15 0x43) = true := by decide +kernel

/-- P3, steps 3 to 6: micro-operation by micro-operation, the host writes `SRC_OFF`, `SRC_LEN` and `CMD` while `BUSY`;
the running command keeps its operands and its `STATUS`. -/
theorem test_busy_protocol : (match Sys2Proof.core.run 6 (sized .phase
      [.writeReg 0 0, .writeReg 1 16, .writeReg 2 5, .writeReg 0 1, .pass, .readReg 3]
      (withInput [0x41, 0x41, 0x41, 0x42])) with
    | .next t => t.off == 0 && t.len == 4 && t.srcOff == 16 && t.srcLen == 5 && t.reads == [0x0005] && t.op == .encode
    | _ => false) = true := by decide +kernel

/-- The probe of the opcode table: a bare word of each format is placed and run. -/
theorem test_placed_words : decodeTableWord 32 1 = some .decodeCmd ∧ decodeTableWord 8 4 = some .serialize ∧
    decodeTableWord 32 0x428 = some (.hdr 0x28 4) ∧ decodeTableWord 8 0x81 = some (.ref true false 1) ∧
    decodeTableWord 8 0x41 = some (.leaf 0x41) ∧ decodeTableWord 32 0x80000000 = some (.group 0x80000000) ∧
    (after (step (State.reset.withFetchWord 8 0x41))).outMem = [(0, 0x41)] := by decide +kernel

/-! ## Witnesses: each shows a state and operands that meet the hypotheses of the obligation it is named for -/

theorem witness_DecodeOfEncodeIsTheInstruction : (Instr.hdr 0x28 4).wellFormed = true := by decide

theorem witness_EncodeOfDecodedIsTheBytes : decode .ref [0xC1] = .ok (.ref true true 1) := by decide

theorem witness_ReservedEncodingsAreRejected :
    ((0 : Byte) = 0 ∨ 10 ≤ (0 : Byte).toNat) ∧ ((10 : Byte) = 0 ∨ 10 ≤ (10 : Byte).toNat) ∧ (0x29 : Byte) ≠ 0x28 := by decide

theorem witness_RegisterReadsFollowTheTable :
    (sized .command [.readReg 3] State.reset).script = .readReg 3 :: [] ∧
    (sized .command [.readReg 6] State.reset).script = .readReg 6 :: [] := ⟨rfl, rfl⟩

theorem witness_ReadOnlyRegistersIgnoreWrites :
    (sized .command [.writeReg 3 7] State.reset).script = .writeReg 3 7 :: [] ∧ 3 ≤ 3 := ⟨rfl, le_rfl⟩

theorem witness_SourceRegistersAreWritableAnyTime :
    (sized .phase [.writeReg 1 16] (running .encode .pack [])).script = .writeReg 1 16 :: [] ∧
    (sized .phase [.writeReg 2 5] (running .encode .pack [])).script = .writeReg 2 5 :: [] ∧
    (let s := sized .phase [.writeReg 0 0] State.reset;
      s.script = .writeReg 0 0 :: [] ∧ s.status.state ≠ .busy ∧ s.cfg.grain ≠ .command) := by decide +kernel

theorem witness_ResetAtAnyTime :
    (let s := sized .command [.reset] State.reset; s.script = .reset :: [] ∧ s.status.state ≠ .busy) ∧
    (let s := sized .phase [.reset] (midS1 .pack); s.script = .reset :: [] ∧ s.status.state = .busy) := by
  refine ⟨⟨rfl, by decide⟩, rfl, rfl⟩

theorem witness_BlockWaitsWithoutACommand : State.reset.script = [] ∧ State.reset.status.state ≠ .busy := by decide

theorem witness_StepRunsTheCommandOrPhase :
    (let s := sized .command [.writeReg 0 3] State.reset;
      s.script = .writeReg 0 3 :: [] ∧ s.status.state ≠ .busy ∧ s.cfg.grain = .command ∧
        decode .cmd (bytesOfWord 3) = .ok .decodeCmd) ∧
    (let s := sized .item [] (midS1 .pack);
      s.status.state = .busy ∧ (s.cfg.grain = .item → s.status.phase ≠ .dvalidate ∧ s.status.phase ≠ .dwalk) ∧
        decode .phase [BitVec.ofNat 8 s.status.phase.code] = .ok .pack ∧ s.script = [] ∧
        (sized .item [.pass] s).script = .pass :: [] ∧ (sized .item [.wait] s).script = .wait :: []) := by decide +kernel

theorem witness_StepRunsTheBufferItem :
    (let s := fun p => { sized .item [] (running .decode .dvalidate bufferS1) with point := p };
      (s .count).script = [] ∧ (s .count).status.state = .busy ∧ (s .count).cfg.grain = .item ∧
      (s .count).status.phase = .dvalidate ∧
      readIn (s .count) ((s .count).off.toNat + 4) = .ok 1 ∧ decode .count [1] = .ok (.count 1) ∧
      readInRange (s .header) (s .header).off.toNat 4 = .ok [0x28, 4, 0, 0] ∧
      decode .hdr [0x28, 4, 0, 0] = .ok (.hdr 0x28 4) ∧
      readIn (s .boot) ((s .boot).off.toNat + 5) = .ok 0xC0 ∧ decode .ref [0xC0] = .ok (.ref true true 0)) := by
  decide +kernel

theorem witness_StepRunsTheBufferItem_walk :
    (let s := { sized .item [] (atWalk 1 0xC0 4 bufferS1) with point := .walk };
      s.script = [] ∧ s.status.state = .busy ∧ s.cfg.grain = .item ∧ s.status.phase = .dwalk ∧
      s.outcnt.toNat < s.explen.toNat ∧ s.k = 0 ∧ s.g.toNat < s.ng.toNat ∧
      readInRange s (s.pay.toNat + 4 * s.g.toNat) 4 = .ok [0, 0, 0, 0x10] ∧
      decode .group [0, 0, 0, 0x10] = .ok (.group 0x10000000)) ∧
    (let s := { sized .item [] (atWalk 1 0xC0 4 bufferS1) with point := .walk, cur := 0xC0, w := 0x10000000, k := 32 };
      s.k ≠ 0 ∧ nextPosition s ≤ s.cnt.toNat ∧
      readIn s (s.off.toNat + 4 + 2 * nextPosition s + (nextBit s).toNat) = .ok 0x41 ∧
      decode (if leafFlag s.cur (nextBit s) then .leaf else .ref) [0x41] = .ok (.leaf 0x41)) := by decide +kernel

theorem witness_CommandStartSetsTheRegisters :
    (let s := sized .phase [.writeReg 0 0] (withInput [1]);
      s.script = [.writeReg 0 0] ∧ s.status.state ≠ .busy ∧ s.cfg.grain ≠ .command ∧
        s.srcOff.toNat + s.srcLen.toNat ≤ s.cfg.inSize) ∧
    (let s := sized .item [.writeReg 0 1] { withInput [1] with srcOff := 0xFFFFFFFF, srcLen := 2 };
      s.script = [.writeReg 0 1] ∧ s.status.state ≠ .busy ∧ s.cfg.grain ≠ .command ∧
        s.cfg.inSize < s.srcOff.toNat + s.srcLen.toNat) := by decide +kernel

theorem witness_BusyCommandWriteIsIgnored :
    (let s := sized .phase [.writeReg 0 1] (midS1 .pack); s.status.state = .busy ∧ s.script = .writeReg 0 1 :: []) :=
  ⟨rfl, rfl⟩

/-- F1b on one side, F1c (`OFF` = `INSIZE`, `LEN` = 0) on the other. -/
theorem witness_BadRangeExactlyWhenOutOfRange :
    (let s := { State.reset with srcOff := 0xFFFFFFFF, srcLen := 2 };
      s.status.state ≠ .busy ∧ s.cfg.inSize < s.srcOff.toNat + s.srcLen.toNat) ∧
    (let s := { State.reset with srcOff := 16, cfg := { State.reset.cfg with inSize := 16 } };
      s.status.state ≠ .busy ∧ s.srcOff.toNat + s.srcLen.toNat ≤ s.cfg.inSize ∧
        exec .encodeCmd s = .next (after (exec .encodeCmd s))) := by
  refine ⟨by decide +kernel, by decide +kernel, by decide +kernel, eq_next (by decide +kernel)⟩

/-- The largest length that is counted and the smallest that is too large. -/
theorem witness_FreqTalliesTheInput :
    (let s := { running .encode .freq [] with len := 0x1000000 };
      16777216 ≤ s.len.toNat ∧ s.off.toNat + s.len.toNat ≤ s.cfg.inSize) ∧
    (let s := { running .encode .freq [] with len := 0xFFFFFF };
      s.len.toNat < 16777216 ∧ s.off.toNat + s.len.toNat ≤ s.cfg.inSize) := by decide +kernel

theorem witness_FreqRejectsLongInput : 16777216 ≤ ({ running .encode .freq [] with len := 0x1000000 } : State).len.toNat := by
  decide +kernel

theorem witness_MergeTakesTheTwoSmallest :
    (let r : MergeRegs := { ws := initialItems (midS1 .merge).freq, seq := 2, ns := 0, stem := State.reset.stem };
      2 ≤ r.ws.length ∧ (r.ws.map (·.seq)).Nodup ∧ [(⟨1, .leaf, 0x41, 0⟩ : Item)].length ≤ 1) := by decide +kernel

theorem witness_MergeAppendsTheSentinel : exec .merge (midS1 .merge) = .next (after (exec .merge (midS1 .merge))) :=
  eq_next (by decide +kernel)

/-- M0 and M4. -/
theorem witness_MergeOfFewSymbols :
    (∀ b : Byte, entry State.reset.freq b = 0) ∧
    (let f : Vector (BitVec 24) 256 := setEntry (Vector.replicate 256 0) 0xFF 2;
      entry f 0xFF ≠ 0 ∧ ∀ b : Byte, b ≠ 0xFF → entry f b = 0) := by decide +kernel

/-- S1's tree and M1's. -/
theorem witness_PlaceMeetsTheContract : TreeShape (midS1 .place).stem (midS1 .place).n.toNat ∧
    TreeShape (midM1 .place).stem (midM1 .place).n.toNat := by decide +kernel

theorem witness_PlaceOfASmallTreeCompletes : TreeShape (midM1 .place).stem (midM1 .place).n.toNat ∧
    (midM1 .place).n.toNat ≤ 65 := by decide +kernel

/-- 2.3: `T` = 10, `FR = [(a, 9)]`. -/
theorem witness_PlacementFaultExactlyAtTheTest :
    (let r : PlaceRegs := { rank := State.reset.rank, hasRank := State.reset.hasRank, fr := [⟨7, 9⟩], t := 9 };
      10 + 1 ≤ 256 ∧ 0 < 1 ∧ (∃ k, ∃ h : k < r.fr.length, (r.fr[k]).due.toNat < 10 + k) ∧
      placeLoop State.reset.stem State.reset.sz 10 1 r = .raise .placementUnsatisfiable { r with t := 10 }) :=
  ⟨by decide, by decide, ⟨0, by decide, by decide⟩, rfl⟩

/-- `PLACE` starts from M1's tree; a turn at `T` = 10 is tight at `due` 10 and not at 11. -/
theorem witness_PlacementFaultExactlyAtTheTest_turn :
    TreeShape (midM1 .place).stem (midM1 .place).n.toNat ∧
    (let fr : List FrontierEntry := [⟨7, 10⟩];
      fr ≠ [] ∧ (∀ k, ∀ h : k < fr.length, 10 + k ≤ (fr[k]).due.toNat) ∧
        ∃ k, ∃ hk : k < fr.length, (fr[k]).due.toNat = 10 + k) ∧
    (let fr : List FrontierEntry := [⟨7, 11⟩];
      fr ≠ [] ∧ (∀ k, ∀ h : k < fr.length, 10 + k ≤ (fr[k]).due.toNat) ∧
        ∀ k, ∀ hk : k < fr.length, (fr[k]).due.toNat ≠ 10 + k) :=
  ⟨by decide +kernel, by decide +kernel, by decide +kernel⟩

theorem witness_SerializeWritesTheNodeTable :
    (let s := midM1 .serialize;
      2 ≤ s.n.toNat ∧ s.n.toNat ≤ 256 ∧ PlacementContract s.stem s.rank s.n.toNat) := by decide +kernel

/-- All ranks 0: the sentinel's child is not past it. -/
theorem witness_SerializeRejectsABadSkip :
    (let s := { midS1 .serialize with rank := State.reset.rank };
      s.n.toNat ≤ 256 ∧ ∃ i < s.n.toNat, ∃ c ∈ stemChildren (at256 s.stem i),
        ¬ ((at256 s.rank i).toNat < (entry s.rank c).toNat ∧
          (entry s.rank c).toNat ≤ (at256 s.rank i).toNat + 64)) := by decide +kernel

/-- `OUTSIZE` 12 and 11 for the result of 12 bytes (F3a, F3). -/
theorem witness_HdrwriteWritesHeaderAndTable :
    (let s := fun size => { midS1 .hdrwrite with cfg := { State.reset.cfg with outSize := some size } };
      (∀ size ∈ [11, 12], (s size).n.toNat ≤ 256 ∧ Memory.wf (s size).outMem) ∧
      fitsOut (s 12).cfg (4 + 2 * (s 12).n.toNat + 4 * groupCount (bitTotal (s 12))) ∧
      ¬ fitsOut (s 11).cfg (4 + 2 * (s 11).n.toNat + 4 * groupCount (bitTotal (s 11)))) := by
  decide +kernel

theorem witness_CodebuildAssignsThePaths :
    (let s := midM1 .codebuild;
      TreeShape s.stem s.n.toNat ∧ s.root.toNat + 2 = s.n.toNat ∧ s.cfg.maxCodeLen = 255) := by decide +kernel

theorem witness_CodesArePrefixFree :
    (let s := midM1 .codebuild;
      TreeShape s.stem s.n.toNat ∧ s.root.toNat + 2 = s.n.toNat ∧ s.cfg.maxCodeLen = 255 ∧
        exec .codebuild s = .next (after (exec .codebuild s)) ∧ (0x41 : Byte) ≠ 0x42 ∧
        entry (after (exec .codebuild s)).code 0x41 ≠ []) := by
  refine ⟨by decide +kernel, by decide +kernel, by decide +kernel, eq_next (by decide +kernel), by decide +kernel,
    by decide +kernel⟩

/-- A leaf at depth 2 with `MAXCODELEN` 1, and `MAXCODELEN` 255. -/
theorem witness_CodeTooLongForADeepLeaf :
    (let s := { midM1 .codebuild with cfg := { State.reset.cfg with maxCodeLen := 1 } };
      TreeShape s.stem s.n.toNat ∧ s.root.toNat + 2 = s.n.toNat ∧
        leafAt s.stem s.root [false, true] = some 0x43 ∧ s.cfg.maxCodeLen < [false, true].length) ∧
    (midM1 .codebuild).cfg.maxCodeLen = 255 ∧
      exec .codebuild (midM1 .codebuild) = .next (after (exec .codebuild (midM1 .codebuild))) := by
  refine ⟨by decide +kernel, by decide +kernel, eq_next (by decide +kernel)⟩

theorem witness_PackWritesTheBitstream :
    (let s := { midS1 .pack with cfg := { State.reset.cfg with outSize := some 12 } };
      Memory.wf s.outMem ∧ s.off.toNat + s.len.toNat ≤ s.cfg.inSize ∧
        s.opos.toNat + 4 * groupCount (codedBits s).length < 4294967296 ∧
        fitsOut s.cfg (s.opos.toNat + 4 * groupCount (codedBits s).length)) := by decide +kernel

/-- One buffer for each branch: lengths 3, 4 and 5, a table cut by a byte, a wrong tag, `OUTSIZE` a byte short, and
success at the exact size. -/
theorem witness_DvalidateTestsInOrder :
    (let s := fun b => running .decode .dvalidate b;
      let t := fun b size => after (exec .dvalidate { s b with cfg := { State.reset.cfg with outSize := size } });
      (∀ b ∈ [bufferS1.take 3, bufferS1], (s b).off.toNat + (s b).len.toNat ≤ (s b).cfg.inSize) ∧
      (t (bufferS1.take 3) none).status.err = .truncatedHeader ∧ (t (bufferS1.take 4) none).status.err = .truncatedTable ∧
      (t (bufferS1.take 5) none).status.err = .truncatedTable ∧ (t (bufferS1.take 7) none).status.err = .truncatedTable ∧
      (t (0x29 :: bufferS1.tail) none).status.err = .badFormatTag ∧ (t bufferS1 (some 3)).status.err = .outOverflow ∧
      (t (bufferS1.take 8) (some 4)).status.phase = .dwalk) := by decide +kernel

/-- S1's walk, the walk of a table with `CNT` 0 (D12), and D2b's, which emits a byte before the bound. -/
theorem witness_DwalkFollowsTheTable :
    (let s := { atWalk 1 0xC0 4 bufferS1 with cfg := { State.reset.cfg with inSize := 12, outSize := some 4 } };
      Memory.wf s.outMem ∧ s.pay.toNat + 4 * s.ng.toNat ≤ s.cfg.inSize ∧
        s.off.toNat + 6 + 2 * s.cnt.toNat ≤ s.cfg.inSize ∧ fitsOut s.cfg s.explen.toNat ∧
        payloadWalk s = some ([0x41, 0x41, 0x41, 0x42], 4)) ∧
    (let s := atWalk 0 0x00 1 [0x28, 1, 0, 0, 0, 0, 0, 0, 0, 0];
      Memory.wf s.outMem ∧ s.pay.toNat + 4 * s.ng.toNat ≤ s.cfg.inSize ∧
        s.off.toNat + 6 + 2 * s.cnt.toNat ≤ s.cfg.inSize ∧ fitsOut s.cfg s.explen.toNat ∧ payloadWalk s = none) ∧
    (let s := atWalk 2 0x41 4 [0x28, 0x04, 0x00, 0x00, 0x02, 0x41, 0xEE, 0xEE, 0xC0, 0x5A, 0x00, 0x00, 0x00, 0x80];
      payloadWalk s = none ∧ payloadEmitted s = [0x5A]) := by
  decide +kernel

/-- D12's 6 bytes for `CNT` 0, D7a's 7 bytes for `CNT` 1. -/
theorem witness_CountByteSetsCnt :
    6 + 2 * (0 : Byte).toNat ≤ (running .decode .dvalidate (bufferS1.take 6)).len.toNat ∧
    (running .decode .dvalidate (bufferS1.take 7)).len.toNat < 6 + 2 * (1 : Byte).toNat := by decide +kernel

/-- F4 and F4a. -/
theorem witness_HeaderSetsTheExpectedLength :
    (0x29 : Byte) ≠ 0x28 ∧ ¬ fitsOut { State.reset.cfg with outSize := some 39 } (40 : BitVec 24).toNat ∧
    fitsOut { State.reset.cfg with outSize := some 40 } (40 : BitVec 24).toNat := by decide +kernel

theorem witness_ReferenceBecomesTheEntry :
    (running .decode .dvalidate bufferS1).status.phase = .dvalidate ∧ (atWalk 1 0xC0 4 bufferS1).status.phase ≠ .dvalidate := by
  decide +kernel

theorem witness_LiteralIsEmitted :
    (let s := { atWalk 1 0xC0 4 bufferS1 with outcnt := 3, cfg := { State.reset.cfg with outSize := some 4 } };
      Memory.wf s.outMem ∧ fitsOut s.cfg (s.outcnt.toNat + 1)) := by decide +kernel

/-- 65 distinct byte values, the bound. -/
theorem witness_EncodeOfFewSymbolsCompletes :
    (let s := withInput ((List.range 65).map (BitVec.ofNat 8));
      s.status.state ≠ .busy ∧ s.srcOff.toNat + s.srcLen.toNat ≤ s.cfg.inSize ∧ s.srcLen.toNat < 16777216 ∧
        s.cfg.outSize = none ∧ s.cfg.maxCodeLen = 255 ∧ (operandOf s).dedup.length ≤ 65) := by decide +kernel

theorem witness_EncodeEndsInDoneOrFault :
    (let s := withInput [0x41]; s.cfg.wf ∧ s.cfg.maxCodeLen = 255 ∧ s.status.state ≠ .busy) := by decide +kernel

theorem witness_DecodeEndsInDoneOrFault : (let s := withInput bufferS1; s.cfg.wf ∧ s.status.state ≠ .busy) := by
  decide +kernel

theorem witness_DecodeOfAValidBufferCompletes :
    (let s := { withInput bufferS1 with cfg := { State.reset.cfg with inSize := 12, outSize := some 4 } };
      let byte := fun i => Memory.read s.inMem (s.srcOff.toNat + i);
      let size := 6 + 2 * (byte 4).toNat;
      let want : BitVec 24 := byte 3 ++ byte 2 ++ byte 1;
      s.status.state ≠ .busy ∧ Memory.wf s.outMem ∧ s.cfg.wf ∧ s.srcOff.toNat + s.srcLen.toNat ≤ s.cfg.inSize ∧
      size ≤ s.srcLen.toNat ∧ byte 0 = 0x28 ∧ fitsOut s.cfg want.toNat ∧
      walkStream (fun i => byte (4 + i)) (byte 4).toNat (byte 5)
        (streamBits s.inMem (s.srcOff.toNat + size) ((s.srcLen.toNat - size) / 4)) 0 (byte 5) want.toNat =
          some ([0x41, 0x41, 0x41, 0x42], 4)) := by decide +kernel

/-- D6. -/
theorem witness_FaultBeforeTheWalkLeavesOutAlone :
    (let s := withInput (bufferS1.take 3);
      s.status.state ≠ .busy ∧ exec .decodeCmd s = .next (after (exec .decodeCmd s)) ∧
        (after (exec .decodeCmd s)).status.state = .fault ∧
        (after (exec .decodeCmd s)).status.err ≠ .positionOutOfTree) := by
  refine ⟨by decide +kernel, eq_next (by decide +kernel), by decide +kernel, by decide +kernel⟩

/-- S1's buffer, with an older byte at `OUT[4]`. -/
theorem witness_OutBeyondTheResultIsKept :
    (let s := { withInput bufferS1 with outMem := [(4, 0x77)] };
      Memory.wf s.outMem ∧ s.status.state ≠ .busy ∧ exec .decodeCmd s = .next (after (exec .decodeCmd s)) ∧
        (after (exec .decodeCmd s)).status.state = .done ∧ (after (exec .decodeCmd s)).outLen.toNat ≤ 4) := by
  refine ⟨by decide +kernel, by decide +kernel, eq_next (by decide +kernel), by decide +kernel, by decide +kernel⟩

/-- S1's buffer at 0 and at 100, the second after a fault and with other bytes around it. -/
theorem witness_ResultDependsOnTheInputAlone :
    (let s1 := withInput bufferS1;
      let s2 := { midS1 .none with
        srcOff := 100, srcLen := 12, inMem := (99, 0x77) :: image 100 (bufferS1 ++ [0x77])
        status := { state := .fault, phase := .pack, err := .badRange, trailing := false, short := false,
                    lastop := .encode } };
      s1.status.state ≠ .busy ∧ s2.status.state ≠ .busy ∧ s1.cfg.wf ∧ s2.cfg.wf ∧ s1.cfg.outSize = s2.cfg.outSize ∧
        s1.cfg.maxCodeLen = s2.cfg.maxCodeLen ∧ Memory.wf s1.outMem ∧ Memory.wf s2.outMem ∧
        s1.srcOff.toNat + s1.srcLen.toNat ≤ s1.cfg.inSize ∧ s2.srcOff.toNat + s2.srcLen.toNat ≤ s2.cfg.inSize ∧
        operandOf s1 = operandOf s2 ∧ exec .decodeCmd s1 = .next (after (exec .decodeCmd s1)) ∧
        exec .decodeCmd s2 = .next (after (exec .decodeCmd s2))) := by
  refine ⟨?_, ?_, ?_, ?_, ?_, ?_, ?_, ?_, ?_, ?_, ?_, eq_next ?_, eq_next ?_⟩ <;> decide +kernel

/-- S1 and its result. -/
theorem witness_DecodeOfEncodedIsTheInput :
    (let s := withInput [0x41, 0x41, 0x41, 0x42];
      let u := withInput bufferS1;
      s.cfg.wf ∧ u.cfg.wf ∧ s.cfg.maxCodeLen = 255 ∧ Memory.wf s.outMem ∧ Memory.wf u.outMem ∧ s.status.state ≠ .busy ∧
        s.srcOff.toNat + s.srcLen.toNat ≤ s.cfg.inSize ∧ s.srcLen.toNat < 16777216 ∧
        u.status.state ≠ .busy ∧ u.srcOff.toNat + u.srcLen.toNat ≤ u.cfg.inSize ∧ fitsOut u.cfg s.srcLen.toNat ∧
        ∃ t, exec .encodeCmd s = .next t ∧ t.status.state = .done ∧ u.srcLen = t.outLen ∧
          operandOf u = inBytes t.outMem 0 t.outLen.toNat) := by
  refine ⟨?_, ?_, ?_, ?_, ?_, ?_, ?_, ?_, ?_, ?_, ?_, exists_next ?_⟩ <;> decide +kernel

theorem witness_PhaseStepsMakeTheCommand :
    (let s := sized .phase [.writeReg 0 0] (withInput [0x41]);
      s.script = [.writeReg 0 0] ∧ s.status.state ≠ .busy ∧ s.cfg.grain = .phase) := by decide +kernel

theorem witness_ItemStepsMakeTheDecode :
    (let s := sized .item [.writeReg 0 1] (withInput bufferS1);
      s.script = [.writeReg 0 1] ∧ (1 : Word).getLsbD 0 = true ∧ s.status.state ≠ .busy ∧ s.cfg.grain = .item) := by
  decide +kernel

theorem witness_EveryCommandTerminates :
    (let s := sized .item [] (running .decode .dvalidate bufferS1); s.script = [] ∧ s.status.state = .busy) ∧
    (let s := sized .phase [] (midS1 .pack); s.script = [] ∧ s.status.state = .busy ∧ s.cfg.grain ≠ .item ∧
      Sys2Proof.core.run 8 s = .next (after (Sys2Proof.core.run 8 s))) := by
  refine ⟨by decide +kernel, by decide +kernel, by decide +kernel, by decide +kernel, eq_next (by decide +kernel)⟩

/-- A running `ENCODE`, before its last micro-operation. -/
theorem witness_EveryStepKeepsTheInvariant :
    (let s := sized .phase [] (midS1 .pack); Invariant s ∧ step s = .next (after (step s))) :=
  ⟨by decide +kernel, eq_next (by decide +kernel)⟩

theorem witness_NoStepChangesTheParameters : step State.reset = .next State.reset := rfl

theorem witness_InstructionsKeepInputAndHostState :
    exec .pack (midS1 .pack) = .next (after (exec .pack (midS1 .pack))) := eq_next (by decide +kernel)

theorem witness_MicroOperationFrames :
    exec .serialize (midS1 .serialize) = .next (after (exec .serialize (midS1 .serialize))) ∧
      exec .dwalk (atWalk 1 0xC0 4 bufferS1) = .next (after (exec .dwalk (atWalk 1 0xC0 4 bufferS1))) ∧
      exec (.count 1) (running .decode .dvalidate bufferS1) =
        .next (after (exec (.count 1) (running .decode .dvalidate bufferS1))) :=
  ⟨eq_next (by decide +kernel), eq_next (by decide +kernel), eq_next (by decide +kernel)⟩

/-- D12 in its walk. -/
theorem witness_FaultsChangeTheStatusAsStated :
    (let s := atWalk 0 0x00 1 [0x28, 1, 0, 0, 0, 0, 0, 0, 0, 0];
      Instr.dwalk ≠ .encodeCmd ∧ Instr.dwalk ≠ .decodeCmd ∧ s.status.state ≠ .fault ∧
        exec .dwalk s = .next (after (exec .dwalk s)) ∧ (after (exec .dwalk s)).status.state = .fault) :=
  ⟨by decide, by decide, by decide, eq_next (by decide +kernel), by decide +kernel⟩

/-- The last address of `IN`, and of an `OUT` of 16 bytes. -/
theorem witness_HostReadsBackWhatItWrote :
    (let s := fun script => { sized .command script State.reset with cfg := { State.reset.cfg with outSize := some 16 } };
      (s []).status.state ≠ .busy ∧ Memory.wf (s []).inMem ∧ Memory.wf (s []).outMem ∧
      (s [.writeIn 0xFFFFFFFF 7, .readIn 0xFFFFFFFF]).script = [.writeIn 0xFFFFFFFF 7, .readIn 0xFFFFFFFF] ∧
      (0xFFFFFFFF : Word).toNat < (s []).cfg.inSize ∧
      (s [.writeOut 15 7, .readOut 15]).script = [.writeOut 15 7, .readOut 15] ∧
      fitsOut (s []).cfg ((15 : Word).toNat + 1)) := by decide +kernel

theorem witness_HostAccessWhileBusyIsRefused :
    (let s := fun script => sized .phase script (midS1 .pack);
      (s []).status.state = .busy ∧ (s [.writeIn 0 1]).script = .writeIn 0 1 :: [] ∧
      (s [.readIn 0]).script = .readIn 0 :: [] ∧ (s [.writeOut 0 1]).script = .writeOut 0 1 :: [] ∧
      (s [.readOut 0]).script = .readOut 0 :: []) := by decide +kernel

end Sys2Proof.Tests
end

