-- ==== Sys2Proof/Proofs/ResetValues.lean ====
section
/-! The registers the spec gives a value at reset (10_state.md R47), one lemma per register, and what O10 says of them
together. -/

namespace Sys2Proof.Machine

@[simp] theorem State.reset_status : State.reset.status =
    { state := .idle, phase := .none, err := .none, trailing := false, short := false, lastop := .encode } := rfl
@[simp] theorem State.reset_outLen : State.reset.outLen = 0 := rfl
@[simp] theorem State.reset_expLen : State.reset.expLen = 0 := rfl
@[simp] theorem State.reset_srcOff : State.reset.srcOff = 0 := rfl
@[simp] theorem State.reset_srcLen : State.reset.srcLen = 0 := rfl

/-- `CMD` is write-only: R47's "no stored value" holds in every state, not only after reset (R21). -/
@[simp] theorem readReg_cmd (s : State) : readReg 0 s = 0 := rfl

/-- Each field of the reset `STATUS` has code 0 (R24 to R26), so the word they make up is 0. -/
theorem State.reset_status_word : State.reset.status.word = 0 := by
  simp [Status.word, RunState.code, Phase.code, Err.code, Op.code]

/-- Settles O10, register by register. -/
theorem resetLeavesTheStatedValues : Obligations.ResetLeavesTheStatedValues :=
  ⟨State.reset_status, State.reset_status_word, State.reset_outLen, State.reset_expLen, State.reset_srcOff,
    State.reset_srcLen, readReg_cmd State.reset⟩

end Sys2Proof.Machine
end


-- ==== Sys2Proof/Proofs/CommandWord.lean ====
section
/-! The four bytes of a word hold the word (20_memory.md R64), so decoding a stored command word reads that word, and
what O4 says of its bits (30_encoding.md R91). -/

namespace Sys2Proof

/-- Adjacent byte ranges join two by two, up to the range of all 32 bits. -/
@[simp] theorem wordOfBytes_byteOfWord (w : Word) :
    wordOfBytes (byteOfWord w 0) (byteOfWord w 1) (byteOfWord w 2) (byteOfWord w 3) = w := by
  have upper : byteOfWord w 3 ++ byteOfWord w 2 = w.extractLsb' 16 16 :=
    BitVec.extractLsb'_append_extractLsb'_eq_extractLsb' rfl
  have upper3 : w.extractLsb' 16 16 ++ byteOfWord w 1 = w.extractLsb' 8 24 :=
    BitVec.extractLsb'_append_extractLsb'_eq_extractLsb' rfl
  have all : w.extractLsb' 8 24 ++ byteOfWord w 0 = w.extractLsb' 0 32 :=
    BitVec.extractLsb'_append_extractLsb'_eq_extractLsb' rfl
  calc
    _ = w.extractLsb' 0 32 := by rw [wordOfBytes, upper, upper3, all]
    _ = w := BitVec.extractLsb'_eq_self

/-- Every command word has a decoding, none is an error (R91). -/
theorem decode_cmd_bytesOfWord (w : Word) : decode .cmd (bytesOfWord w) = .ok (decodeCommand w) := by
  simp [decode, bytesOfWord]

/-- Settles O4: the word read back is the whole word, and `decodeCommand` looks at its bit 0 alone. -/
theorem commandWordBitZeroSelects : Obligations.CommandWordBitZeroSelects := by
  intro w
  rw [decode_cmd_bytesOfWord, decodeCommand]

end Sys2Proof
end

section
/-! `MERGE` builds a tree (42_huffman_merger.md R160 to R167): the leaf items, the invariant of the merge loop, and the shape of
the stem list it leaves. -/

namespace Sys2Proof.Machine

open Sys2Proof.Safety

/-! ### Registers as numbers -/

theorem toNat_sub_one {w : Nat} {x : BitVec w} (h : 1 ≤ x.toNat) : (x - 1).toNat = x.toNat - 1 := by
  have hone : (1 : BitVec w).toNat = 1 := Nat.mod_eq_of_lt (h.trans_lt x.isLt)
  rw [BitVec.toNat_sub_of_le (by rw [BitVec.le_def, hone]; exact h), hone]

theorem toNat_add_one {w : Nat} {x : BitVec w} (h : x.toNat + 1 < 2 ^ w) : (x + 1).toNat = x.toNat + 1 := by
  have hone : (1 : BitVec w).toNat = 1 := Nat.mod_eq_of_lt ((Nat.le_add_left 1 _).trans_lt h)
  rw [BitVec.toNat_add, hone, Nat.mod_eq_of_lt h]

/-! ### Table entries by number -/

theorem ofNat8_inj {i j : Nat} (hi : i < 256) (hj : j < 256) (h : BitVec.ofNat 8 i = BitVec.ofNat 8 j) : i = j := by
  have := congrArg BitVec.toNat h
  simpa [Nat.mod_eq_of_lt hi, Nat.mod_eq_of_lt hj] using this

theorem ofNat8_toNat (b : Byte) : BitVec.ofNat 8 b.toNat = b := by simp

/-- Writing entry `j` of a table, seen by number. -/
theorem at256_setEntry {α : Type} (t : Vector α 256) {i j : Nat} (v : α) (hi : i < 256) (hj : j < 256) :
    at256 (setEntry t (BitVec.ofNat 8 j) v) i = if i = j then v else at256 t i := by
  rw [at256, entry_setEntry]
  by_cases h : i = j
  · simp [h]
  · rw [if_neg (fun e => h (ofNat8_inj hi hj e)), if_neg h, at256]

theorem setWidth8_eq_ofNat {w : Nat} (x : BitVec w) : x.setWidth 8 = BitVec.ofNat 8 x.toNat := by
  apply BitVec.eq_of_toNat_eq; simp

@[simp] theorem childId_setWidth (b : Byte) : childId (b.setWidth 9) = b := by
  apply BitVec.eq_of_toNat_eq
  simp only [childId, BitVec.toNat_setWidth]
  omega

/-! ### The leaf items (R161, R162) -/

/-- The leaf enumeration lists the symbols present below `b`, highest first (R161). -/
theorem leafItems_ids (freq : Vector (BitVec 24) 256) (b seq : Nat) :
    (leafItems freq b seq).map Item.id =
      ((List.range b).reverse.map (BitVec.ofNat 8)).filter fun v => entry freq v ≠ 0 := by
  induction b generalizing seq with
  | zero => rfl
  | succ b ih =>
    simp only [leafItems, List.range_succ, List.reverse_append, List.reverse_cons, List.reverse_nil, List.nil_append,
      List.cons_append, List.map_cons, List.filter_cons]
    by_cases hf : entry freq (BitVec.ofNat 8 b) = 0
    · simpa [hf] using ih seq
    · rw [if_neg hf, List.map_cons, ih, if_pos (by simpa using hf)]

theorem leafItems_kind {freq : Vector (BitVec 24) 256} {b seq : Nat} {x : Item} (h : x ∈ leafItems freq b seq) :
    x.kind = .leaf := by
  induction b generalizing seq with
  | zero => cases h
  | succ b ih =>
    simp only [leafItems] at h
    split at h
    · exact ih h
    · rcases List.mem_cons.1 h with rfl | h
      · rfl
      · exact ih h

theorem symbolsPresent_eq (freq : Vector (BitVec 24) 256) :
    (leafItems freq 256 0).map Item.id = symbolsPresent freq := leafItems_ids freq 256 0

theorem mem_symbolsPresent {freq : Vector (BitVec 24) 256} {b : Byte} : b ∈ symbolsPresent freq ↔ entry freq b ≠ 0 := by
  simp only [symbolsPresent, List.mem_filter, List.mem_map, List.mem_reverse, List.mem_range, decide_eq_true_eq,
    and_iff_right_iff_imp]
  exact fun _ => ⟨b.toNat, b.isLt, ofNat8_toNat b⟩

/-- The byte values from 255 down are all different. -/
theorem bytes_nodup (n : Nat) (hn : n ≤ 256) : ((List.range n).map (BitVec.ofNat 8)).Nodup := by
  refine List.Nodup.map_on (fun x hx y hy e => ?_) List.nodup_range
  rw [List.mem_range] at hx hy
  exact ofNat8_inj (by omega) (by omega) e

theorem symbolsPresent_nodup (freq : Vector (BitVec 24) 256) : (symbolsPresent freq).Nodup := by
  refine List.Nodup.filter _ ?_
  rw [List.map_reverse]
  exact List.nodup_reverse.2 (bytes_nodup 256 le_rfl)

theorem symbolsPresent_length_le (freq : Vector (BitVec 24) 256) : (symbolsPresent freq).length ≤ 256 := by
  refine (List.length_filter_le _ _).trans ?_
  simp

/-- The working set the merge loop starts from: leaves of different byte values, the symbols present among them, at
least two (R161, R162). -/
theorem initialItems_spec (freq : Vector (BitVec 24) 256) :
    (∀ x ∈ initialItems freq, x.kind = .leaf) ∧ ((initialItems freq).map Item.id).Nodup ∧
      symbolsPresent freq ⊆ (initialItems freq).map Item.id ∧
      (initialItems freq).length = max 2 (symbolsPresent freq).length := by
  have hid := symbolsPresent_eq freq
  have hkind := fun x => leafItems_kind (freq := freq) (b := 256) (seq := 0) (x := x)
  have hnodup := symbolsPresent_nodup freq
  rw [← hid] at hnodup ⊢
  rw [List.length_map]
  unfold initialItems
  generalize leafItems freq 256 0 = ws at *
  match ws with
  | [] => simp [withSynthetic]
  | [x] =>
    have hne : x.id ≠ x.id ^^^ 255#8 := by
      intro e
      have h0 : (x.id ^^^ x.id) ^^^ 255#8 = 0#8 := by rw [BitVec.xor_assoc, ← e, BitVec.xor_self]
      simp at h0
    refine ⟨?_, ?_, ?_, rfl⟩
    · simpa [withSynthetic] using hkind x
    · simpa [withSynthetic] using hne
    · simp [withSynthetic]
  | x :: y :: zs =>
    refine ⟨hkind, hnodup, fun _ h => h, ?_⟩
    simp [withSynthetic]

/-! ### The merge loop (R164) -/

/-- What an item of the working set or a child of a stem refers to. -/
abbrev Ref := Kind × Byte

/-- The node an item of the working set stands for (R34). -/
def Item.ref (x : Item) : Ref := (x.kind, x.id)

/-- The two nodes a stem refers to, child-1 first (R35). -/
def childRefs (m : Stem) : List Ref :=
  [(if m.f1 then .leaf else .stem, childId m.c1), (if m.f2 then .leaf else .stem, childId m.c2)]

/-- The byte of a reference of one kind. -/
def Ref.byteOf (k : Kind) (r : Ref) : Option Byte := if r.1 = k then some r.2 else none

theorem stemChildren_eq (m : Stem) : stemChildren m = (childRefs m).filterMap (Ref.byteOf .stem) := by
  cases h1 : m.f1 <;> cases h2 : m.f2 <;> simp [stemChildren, childRefs, Ref.byteOf, h1, h2]

theorem leafChildren_eq (m : Stem) : leafChildren m = (childRefs m).filterMap (Ref.byteOf .leaf) := by
  cases h1 : m.f1 <;> cases h2 : m.f2 <;> simp [leafChildren, childRefs, Ref.byteOf, h1, h2]

theorem mem_stemChildren {m : Stem} {c : Byte} : c ∈ stemChildren m ↔ (Kind.stem, c) ∈ childRefs m := by
  cases h1 : m.f1 <;> cases h2 : m.f2 <;> simp [stemChildren, childRefs, h1, h2]

/-- A new stem refers to the two merged items, the heavier first (R164). -/
@[simp] theorem childRefs_mergedStem (lo hi : Item) : childRefs (mergedStem lo hi) = [hi.ref, lo.ref] := by
  cases hl : lo.kind <;> cases hh : hi.kind <;> simp [childRefs, mergedStem, Item.ref, hl, hh]

/-- The nodes referred to by the first `ns` stems. -/
def refsMade (stem : Vector Stem 256) (ns : Nat) : List Ref := (List.range ns).flatMap fun i => childRefs (at256 stem i)

/-- The first `ns` stems as nodes. -/
def stemNodes (ns : Nat) : List Ref := (List.range ns).map fun i => (Kind.stem, BitVec.ofNat 8 i)

theorem refsMade_succ (stem : Vector Stem 256) (ns : Nat) :
    refsMade stem (ns + 1) = refsMade stem ns ++ childRefs (at256 stem ns) := by
  simp [refsMade, List.range_succ]

theorem stemNodes_succ (ns : Nat) : stemNodes (ns + 1) = stemNodes ns ++ [(Kind.stem, BitVec.ofNat 8 ns)] := by
  simp [stemNodes, List.range_succ]

/-- A later stem does not change what the earlier ones refer to. -/
theorem refsMade_setEntry (stem : Vector Stem 256) (m : Stem) {ns j : Nat} (hj : j < 256) (h : ns ≤ j) :
    refsMade (setEntry stem (BitVec.ofNat 8 j) m) ns = refsMade stem ns := by
  refine List.flatMap_congr fun i hi => ?_
  rw [List.mem_range] at hi
  rw [at256_setEntry _ _ (by omega) hj, if_neg (by omega)]

/-- The invariant of the merge loop over leaves with byte values `ids`: every leaf and every stem made so far is either
in the working set or the child of exactly one stem, and children are older than their stem (R164, R167). -/
structure MergeInv (ids : List Byte) (r : MergeRegs) : Prop where
  count : r.ns.toNat + r.ws.length = ids.length
  nonempty : r.ws ≠ []
  refs : (r.ws.map Item.ref ++ refsMade r.stem r.ns.toNat).Perm
    (ids.map (fun b => (Kind.leaf, b)) ++ stemNodes r.ns.toNat)
  older : ∀ i < r.ns.toNat, ∀ c ∈ stemChildren (at256 r.stem i), c.toNat < i

theorem mem_stemNodes {ns : Nat} {c : Byte} (h : (Kind.stem, c) ∈ stemNodes ns) : c.toNat < ns := by
  obtain ⟨i, hi, e⟩ := List.mem_map.1 h
  rw [List.mem_range] at hi
  have : c = BitVec.ofNat 8 i := (Prod.mk.inj e).2.symm
  rw [this, BitVec.toNat_ofNat]
  exact lt_of_le_of_lt (Nat.mod_le _ _) hi

/-- A stem in the working set is one of those made so far. -/
theorem MergeInv.stem_lt {ids : List Byte} {r : MergeRegs} (h : MergeInv ids r) {c : Byte}
    (hc : (Kind.stem, c) ∈ r.ws.map Item.ref) : c.toNat < r.ns.toNat := by
  have := h.refs.mem_iff.1 (List.mem_append_left _ hc)
  rcases List.mem_append.1 this with hl | hs
  · simp at hl
  · exact mem_stemNodes hs

/-- One merge keeps the invariant, whichever two items it takes (R164). -/
theorem MergeInv.mergePair {ids : List Byte} {r : MergeRegs} (h : MergeInv ids r) (hids : ids.length ≤ 256) {lo hi : Item}
    {rest : List Item} (hp : r.ws.Perm (lo :: hi :: rest)) : MergeInv ids (mergePair lo hi rest r) := by
  have hlen : r.ws.length = rest.length + 2 := by simpa using hp.length_eq
  have hcount := h.count
  have h256 : r.ns.toNat < 256 := by omega
  have hstem : (Machine.mergePair lo hi rest r).stem = setEntry r.stem (BitVec.ofNat 8 r.ns.toNat) (mergedStem lo hi) := by
    simp only [Machine.mergePair, setWidth8_eq_ofNat]
  have hnew : (Machine.mergePair lo hi rest r).ns.toNat = r.ns.toNat + 1 := toNat_add_one (by omega)
  constructor
  · rw [hnew]
    simp only [Machine.mergePair, List.length_append, List.length_cons, List.length_nil]
    omega
  · simp [Machine.mergePair]
  · have hrefs := h.refs
    rw [hnew, hstem, refsMade_succ, stemNodes_succ, refsMade_setEntry _ _ h256 le_rfl,
      at256_setEntry _ _ h256 h256, if_pos rfl, childRefs_mergedStem]
    have hws := hp.map Item.ref
    simp only [Machine.mergePair, setWidth8_eq_ofNat, List.map_append, List.map_cons, List.map_nil, Item.ref] at hws ⊢
    rw [List.perm_iff_count] at hrefs hws ⊢
    intro a
    have h1 := hrefs a
    have h2 := hws a
    simp only [List.count_append, List.count_cons, List.count_nil] at h1 h2 ⊢
    omega
  · intro i hi c hc
    rw [hnew] at hi
    rw [hstem, at256_setEntry _ _ (by omega) h256] at hc
    split at hc
    · rename_i hi'
      subst hi'
      rw [mem_stemChildren, childRefs_mergedStem] at hc
      refine h.stem_lt ((hp.map Item.ref).mem_iff.2 ?_)
      simp only [List.mem_cons, List.not_mem_nil, or_false, List.map_cons] at hc ⊢
      tauto
    · exact h.older i (by omega) c hc

/-- The loop runs to one item and keeps the invariant (R164). -/
theorem mergeLoop_spec {ids : List Byte} (hids : ids.length ≤ 256) (fuel : Nat) {r : MergeRegs} (h : MergeInv ids r)
    (hf : r.ws.length ≤ fuel + 1) : MergeInv ids (mergeLoop fuel r) ∧ (mergeLoop fuel r).ws.length = 1 := by
  induction fuel generalizing r with
  | zero =>
    have := List.length_pos_iff.2 h.nonempty
    exact ⟨h, by simp only [mergeLoop]; omega⟩
  | succ fuel ih =>
    simp only [mergeLoop]
    split
    · rename_i x y zs hws
      have hlo : smallestItem x (y :: zs) ∈ x :: y :: zs := smallestItem_mem x (y :: zs)
      have hp1 := List.perm_cons_erase hlo
      split
      · rename_i u us hu
        rw [hu] at hp1
        have hp2 := List.perm_cons_erase (smallestItem_mem u us)
        have hp : r.ws.Perm (smallestItem x (y :: zs) :: smallestItem u us :: (u :: us).erase (smallestItem u us)) := by
          rw [hws]
          exact hp1.trans (hp2.cons _)
        have hlen := hp.length_eq
        refine ih (h.mergePair hids hp) ?_
        simp only [mergePair, List.length_append, List.length_cons, List.length_nil] at hlen ⊢
        omega
      · rename_i hu
        rw [hu] at hp1
        simpa using hp1.length_eq
    · rename_i hne
      refine ⟨h, ?_⟩
      match hw : r.ws with
      | [] => exact absurd hw h.nonempty
      | [x] => rfl
      | x :: y :: zs => exact absurd hw (hne x y zs)

/-- The invariant holds where the loop starts (R161, R162). -/
theorem mergeInv_start (s : State) :
    MergeInv ((initialItems s.freq).map Item.id)
      { ws := initialItems s.freq, seq := BitVec.ofNat 10 (initialItems s.freq).length, ns := 0, stem := s.stem } := by
  obtain ⟨hkind, -, -, hlen⟩ := initialItems_spec s.freq
  constructor
  · simp
  · intro e
    have e : initialItems s.freq = [] := e
    rw [e] at hlen
    simp at hlen
    omega
  · have : (initialItems s.freq).map Item.ref = ((initialItems s.freq).map Item.id).map fun b => (Kind.leaf, b) := by
      rw [List.map_map]
      exact List.map_congr_left fun x hx => by simp [Item.ref, hkind x hx]
    simp [this, refsMade, stemNodes]
  · simp

/-! ### The merge tree (R166, R167) -/

/-- The references of one kind made by the stems, from a list of their children. -/
theorem refsMade_filterMap (stem : Vector Stem 256) (ns : Nat) (k : Kind) :
    (refsMade stem ns).filterMap (Ref.byteOf k) =
      ((List.range ns).map (at256 stem)).flatMap fun m => (childRefs m).filterMap (Ref.byteOf k) := by
  rw [refsMade, List.filterMap_flatMap, List.flatMap_map]

/-- The last item stands for the last stem: it is no stem's child (R165, R167). -/
theorem MergeInv.root_ref {ids : List Byte} {r : MergeRegs} (h : MergeInv ids r) (h1 : r.ws.length = 1)
    (hns : 1 ≤ r.ns.toNat) (h256 : r.ns.toNat ≤ 256) :
    r.ws.map Item.ref = [(Kind.stem, BitVec.ofNat 8 (r.ns.toNat - 1))] := by
  obtain ⟨x, hx⟩ := List.length_eq_one_iff.1 h1
  have hmem : (Kind.stem, BitVec.ofNat 8 (r.ns.toNat - 1)) ∈ r.ws.map Item.ref ++ refsMade r.stem r.ns.toNat := by
    refine h.refs.mem_iff.2 (List.mem_append_right _ (List.mem_map.2 ⟨r.ns.toNat - 1, ?_, rfl⟩))
    rw [List.mem_range]
    omega
  rcases List.mem_append.1 hmem with hm | hm
  · rw [hx] at hm ⊢
    simpa [eq_comm] using hm
  · obtain ⟨i, hi, hc⟩ := List.mem_flatMap.1 hm
    rw [List.mem_range] at hi
    have := h.older i hi _ (mem_stemChildren.2 hc)
    rw [BitVec.toNat_ofNat, Nat.mod_eq_of_lt (by omega)] at this
    omega

/-- The stems of a finished merge, without the root, each have one parent. -/
theorem MergeInv.stemRefs_perm {ids : List Byte} {r : MergeRegs} (h : MergeInv ids r) (h1 : r.ws.length = 1)
    (hns : 1 ≤ r.ns.toNat) (h256 : r.ns.toNat ≤ 256) :
    (BitVec.ofNat 8 (r.ns.toNat - 1) :: stemRefs r.stem (r.ns.toNat + 1)).Perm
      ((List.range r.ns.toNat).map (BitVec.ofNat 8)) := by
  have hp := h.refs.filterMap (Ref.byteOf .stem)
  rw [h.root_ref h1 hns h256, List.filterMap_append, List.filterMap_append, refsMade_filterMap] at hp
  simpa [Ref.byteOf, stemNodes, stemRefs, realStems, funext stemChildren_eq, List.filterMap_map,
    Function.comp_def] using hp

/-- The leaves of a finished merge are the leaves it started from. -/
theorem MergeInv.treeLeaves_perm {ids : List Byte} {r : MergeRegs} (h : MergeInv ids r) (h1 : r.ws.length = 1)
    (hns : 1 ≤ r.ns.toNat) (h256 : r.ns.toNat ≤ 256) : (treeLeaves r.stem (r.ns.toNat + 1)).Perm ids := by
  have hp := h.refs.filterMap (Ref.byteOf .leaf)
  rw [h.root_ref h1 hns h256, List.filterMap_append, List.filterMap_append, refsMade_filterMap] at hp
  simpa [Ref.byteOf, stemNodes, treeLeaves, realStems, funext leafChildren_eq, List.filterMap_map,
    Function.comp_def] using hp

/-- The real stems are not changed by the sentinel after them (R166). -/
theorem realStems_setEntry (stem : Vector Stem 256) (m : Stem) {ns : Nat} (h : ns < 256) :
    realStems (setEntry stem (BitVec.ofNat 8 ns) m) (ns + 1) = realStems stem (ns + 1) := by
  refine List.map_congr_left fun i hi => ?_
  rw [List.mem_range] at hi
  rw [at256_setEntry _ _ (by omega) h, if_neg (by omega)]

/-- A finished merge with the sentinel after its stems is a merge tree (R166, R167). -/
theorem MergeInv.treeShape {ids : List Byte} {r : MergeRegs} (h : MergeInv ids r) (hids : ids.Nodup)
    (h1 : r.ws.length = 1) (hns : 1 ≤ r.ns.toNat) (h256 : r.ns.toNat < 256) :
    TreeShape (setEntry r.stem (BitVec.ofNat 8 r.ns.toNat) (sentinel (BitVec.ofNat 8 (r.ns.toNat - 1))))
      (r.ns.toNat + 1) := by
  have hstems := h.stemRefs_perm h1 hns h256.le
  have hleaves := h.treeLeaves_perm h1 hns h256.le
  have holder := h.older
  generalize r.ns.toNat = ns at *
  refine ⟨⟨by omega, by omega⟩, ?_, fun i hi => ?_, fun i hi => ?_, ?_⟩
  · rw [Nat.add_sub_cancel, at256_setEntry _ _ h256 h256, if_pos rfl, sentinel]
    congr 1
    apply BitVec.eq_of_toNat_eq
    simp only [BitVec.toNat_setWidth, BitVec.toNat_ofNat]
    omega
  · rw [at256_setEntry _ _ (by omega) h256, if_neg (by omega)]
    exact holder i (by omega)
  · rw [stemRefs, realStems_setEntry _ _ h256, ← stemRefs]
    have hcount := hstems.count_eq (BitVec.ofNat 8 i)
    rw [List.count_eq_one_of_mem (bytes_nodup ns h256.le) (List.mem_map_of_mem (List.mem_range.2 (by omega))),
      List.count_cons_of_ne fun e => by have := ofNat8_inj (by omega) (by omega) e; omega] at hcount
    exact hcount
  · rw [treeLeaves, realStems_setEntry _ _ h256, ← treeLeaves]
    exact hleaves.nodup_iff.2 hids

/-- The merge loop of `MERGE` ends with one stem less than there were leaves (R164, R167). -/
theorem mergedRegs_spec (s : State) : MergeInv ((initialItems s.freq).map Item.id) (mergedRegs s) ∧
    (mergedRegs s).ws.length = 1 ∧ (mergedRegs s).ns.toNat + 1 = max 2 (symbolsPresent s.freq).length := by
  obtain ⟨-, -, -, hlen⟩ := initialItems_spec s.freq
  have hle := symbolsPresent_length_le s.freq
  obtain ⟨hinv, hone⟩ := mergeLoop_spec (ids := (initialItems s.freq).map Item.id) (by rw [List.length_map]; omega)
    (initialItems s.freq).length (mergeInv_start s) (Nat.le_succ _)
  have hcount := hinv.count
  rw [hone] at hcount
  exact ⟨hinv, hone, hcount.trans ((List.length_map _).trans hlen)⟩

/-- `MERGE` goes through and leaves a merge tree over the symbols present, with its root (R160 to R167). -/
theorem mergeOp_ok (s : State) : ∃ ws seq ns stem root n,
    mergeOp s = .ok (enterPhase .place { s with ws := ws, seq := seq, ns := ns, stem := stem, root := root, n := n }) ∧
      TreeShape stem n.toNat ∧ root.toNat + 2 = n.toNat ∧ n.toNat = max 2 (symbolsPresent s.freq).length ∧
      ∀ b, entry s.freq b ≠ 0 → b ∈ treeLeaves stem n.toNat := by
  obtain ⟨-, hnodup, hsub, -⟩ := initialItems_spec s.freq
  have hle := symbolsPresent_length_le s.freq
  obtain ⟨hinv, hone, hcount⟩ := mergedRegs_spec s
  have hns1 : 1 ≤ (mergedRegs s).ns.toNat := by omega
  have hns2 : (mergedRegs s).ns.toNat < 256 := by omega
  have hroot : ((mergedRegs s).ns - 1).setWidth 8 = BitVec.ofNat 8 ((mergedRegs s).ns.toNat - 1) := by
    rw [setWidth8_eq_ofNat, toNat_sub_one hns1]
  have hn : ((mergedRegs s).ns + 1).toNat = (mergedRegs s).ns.toNat + 1 := toNat_add_one (by omega)
  refine ⟨_, _, _, _, _, _, rfl, ?_, ?_, hn.trans hcount, fun b hb => ?_⟩
  · rw [hn, hroot, setWidth8_eq_ofNat]
    exact hinv.treeShape hnodup hone hns1 hns2
  · rw [hn, hroot, BitVec.toNat_ofNat]
    omega
  · rw [hn, setWidth8_eq_ofNat, treeLeaves, realStems_setEntry _ _ hns2, ← treeLeaves]
    exact (hinv.treeLeaves_perm hone hns1 hns2.le).mem_iff.2 (hsub (mem_symbolsPresent.2 hb))

end Sys2Proof.Machine
end

section
/-! `PLACE` meets its contract or faults (43_node_placer.md R181, R186 to R189): the invariant of the placement loop, and why
the frontier is never empty while a stem is unranked. -/

namespace Sys2Proof.Machine

open Sys2Proof.Safety

/-! ### What the shape of a merge tree says (R167) -/

theorem at256_toNat {α : Type} (t : Vector α 256) (b : Byte) : at256 t b.toNat = entry t b := by
  rw [at256, ofNat8_toNat]

/-- The stem children of a stem given by its byte. -/
def kids (stem : Vector Stem 256) (c : Byte) : List Byte := stemChildren (entry stem c)

/-- The real stems of a list of `n`, as bytes. -/
def realIds (n : Nat) : List Byte := (List.range (n - 1)).map (BitVec.ofNat 8)

theorem mem_realIds {n : Nat} {c : Byte} : c ∈ realIds n ↔ c.toNat < n - 1 := by
  simp only [realIds, List.mem_map, List.mem_range]
  constructor
  · rintro ⟨i, hi, rfl⟩
    rw [BitVec.toNat_ofNat]
    omega
  · exact fun h => ⟨c.toNat, h, ofNat8_toNat c⟩

theorem realIds_nodup {n : Nat} (hn : n ≤ 256) : (realIds n).Nodup := bytes_nodup (n - 1) (by omega)

theorem stemRefs_eq (stem : Vector Stem 256) (n : Nat) : stemRefs stem n = (realIds n).flatMap (kids stem) := by
  simp only [stemRefs, realStems, realIds, List.flatMap_map]
  rfl

/-- A stem child of a real stem is older than it (R167). -/
theorem kids_lt {stem : Vector Stem 256} {n : Nat} (h : TreeShape stem n) {p c : Byte} (hp : p.toNat < n - 1)
    (hc : c ∈ kids stem p) : c.toNat < p.toNat := by
  obtain ⟨-, -, hdesc, -, -⟩ := h
  refine hdesc p.toNat hp c ?_
  rwa [at256_toNat]

/-- The sentinel has the root as its one stem child (R166). -/
theorem sentinel_stem {stem : Vector Stem 256} {n : Nat} (h : TreeShape stem n) :
    entry stem (BitVec.ofNat 8 (n - 1)) = { f1 := true, c1 := 0x100, f2 := false, c2 := BitVec.ofNat 9 (n - 2) } := by
  obtain ⟨-, hsent, -⟩ := h
  exact hsent

theorem childId_ofNat (i : Nat) : childId (BitVec.ofNat 9 i) = BitVec.ofNat 8 i := by
  apply BitVec.eq_of_toNat_eq
  simp only [childId, BitVec.toNat_setWidth, BitVec.toNat_ofNat]
  omega

theorem sentinel_kids {stem : Vector Stem 256} {n : Nat} (h : TreeShape stem n) :
    kids stem (BitVec.ofNat 8 (n - 1)) = [BitVec.ofNat 8 (n - 2)] := by
  simp [kids, sentinel_stem h, stemChildren, childId_ofNat]

/-- Root and children together name no stem twice. -/
theorem rootAndKids_nodup {stem : Vector Stem 256} {n : Nat} (h : TreeShape stem n) :
    (BitVec.ofNat 8 (n - 2) :: (realIds n).flatMap (kids stem)).Nodup := by
  have hlt := fun p c => kids_lt h (p := p) (c := c)
  obtain ⟨⟨hn2, hn256⟩, -, -, hcount, -⟩ := h
  have hmem : ∀ c ∈ (realIds n).flatMap (kids stem), c.toNat < n - 2 := by
    intro c hc
    obtain ⟨p, hp, hc⟩ := List.mem_flatMap.1 hc
    have hp := mem_realIds.1 hp
    have := hlt p c hp hc
    omega
  refine List.nodup_cons.2 ⟨fun hr => ?_, List.nodup_iff_count_le_one.2 fun c => ?_⟩
  · have := hmem _ hr
    rw [BitVec.toNat_ofNat] at this
    omega
  · by_cases hc : c ∈ (realIds n).flatMap (kids stem)
    · have := hcount c.toNat (hmem c hc)
      rw [ofNat8_toNat, stemRefs_eq] at this
      exact this.le
    · rw [List.count_eq_zero_of_not_mem hc]
      omega

/-- Every real stem but the root is the child of a younger one (R167). -/
theorem exists_parent {stem : Vector Stem 256} {n : Nat} (h : TreeShape stem n) {c : Byte} (hc : c.toNat < n - 2) :
    ∃ p : Byte, p.toNat < n - 1 ∧ c.toNat < p.toNat ∧ c ∈ kids stem p := by
  have hlt := fun p c => kids_lt h (p := p) (c := c)
  obtain ⟨⟨hn2, hn256⟩, -, -, hcount, -⟩ := h
  have hone := hcount c.toNat hc
  rw [ofNat8_toNat, stemRefs_eq] at hone
  obtain ⟨p, hp, hk⟩ := List.mem_flatMap.1 (List.count_pos_iff.1 (by rw [hone]; exact Nat.one_pos))
  have hp := mem_realIds.1 hp
  exact ⟨p, hp, hlt p c hp hk, hk⟩

/-! ### The placement loop (R187) -/

@[simp] theorem frontierChild_map_node (f : Bool) (c : BitVec 9) (t : Nat) :
    (frontierChild f c t).map FrontierEntry.node = if f then [] else [childId c] := by
  cases f <;> rfl

theorem pushChildren_map_node (m : Stem) (t : Nat) (fr : List FrontierEntry) :
    (pushChildren m t fr).map FrontierEntry.node = fr.map FrontierEntry.node ++ stemChildren m := by
  simp [pushChildren, stemChildren]

/-- A pushed child waits with `due` 64 past its parent's rank (R186). -/
theorem mem_pushChildren {m : Stem} {c : Byte} (t : Nat) (fr : List FrontierEntry) (hc : c ∈ stemChildren m) :
    { node := c, due := BitVec.ofNat 9 (t + 64) } ∈ pushChildren m t fr := by
  obtain ⟨f1, c1, f2, c2⟩ := m
  cases f1 <;> cases f2 <;>
    simp_all [stemChildren, pushChildren, frontierChild, Config.maxGap]

/-- The invariant of the placement loop before rank `t` is given: the real stems `placed` and the sentinel have their ranks,
all below `t`; the frontier holds exactly the other stem children of the ranked ones, each with its parent's due (R187). -/
structure PlaceInv (stem : Vector Stem 256) (n t : Nat) (placed : List Byte) (r : PlaceRegs) : Prop where
  count : placed.length + 1 = t
  real : ∀ c ∈ placed, c.toNat < n - 1
  nodup : placed.Nodup
  nodes : (placed ++ r.fr.map FrontierEntry.node).Perm (BitVec.ofNat 8 (n - 2) :: placed.flatMap (kids stem))
  sentinel : entry r.rank (BitVec.ofNat 8 (n - 1)) = 0
  ranks : ∀ c ∈ placed, 0 < (entry r.rank c).toNat ∧ (entry r.rank c).toNat < t
  inj : ∀ c ∈ placed, ∀ d ∈ placed, entry r.rank c = entry r.rank d → c = d
  due : ∀ p ∈ BitVec.ofNat 8 (n - 1) :: placed, ∀ c ∈ kids stem p,
    (c ∈ placed ∧ (entry r.rank p).toNat < (entry r.rank c).toNat ∧
        (entry r.rank c).toNat ≤ (entry r.rank p).toNat + 64) ∨
      { node := c, due := BitVec.ofNat 9 ((entry r.rank p).toNat + 64) } ∈ r.fr

section PlaceInv

variable {stem : Vector Stem 256} {n t : Nat} {placed : List Byte} {r : PlaceRegs}

/-- No stem is twice among the ranked ones and the frontier. -/
theorem PlaceInv.nodes_nodup (h : PlaceInv stem n t placed r) (hs : TreeShape stem n) :
    (placed ++ r.fr.map FrontierEntry.node).Nodup := by
  refine h.nodes.nodup_iff.2 ?_
  obtain ⟨l, hl, hsub⟩ := List.subperm_of_subset h.nodup fun c hc => mem_realIds.2 (h.real c hc)
  have hsub' := (hsub.flatMap (kids stem)).cons_cons (BitVec.ofNat 8 (n - 2))
  exact ((hl.flatMap_right (kids stem)).cons _).nodup_iff.1 ((rootAndKids_nodup hs).sublist hsub')

/-- The frontier holds real stems. -/
theorem PlaceInv.frontier_real (h : PlaceInv stem n t placed r) (hs : TreeShape stem n) {e : FrontierEntry}
    (he : e ∈ r.fr) : e.node.toNat < n - 1 := by
  have hm : e.node ∈ BitVec.ofNat 8 (n - 2) :: placed.flatMap (kids stem) :=
    h.nodes.mem_iff.1 (List.mem_append_right _ (List.mem_map_of_mem he))
  rcases List.mem_cons.1 hm with hr | hk
  · rw [hr, BitVec.toNat_ofNat]
    omega
  · obtain ⟨p, hp, hc⟩ := List.mem_flatMap.1 hk
    have hp := h.real p hp
    have := kids_lt hs hp hc
    omega

/-- While a real stem is unranked the frontier is not empty: the youngest unranked stem has a ranked parent (R188). -/
theorem PlaceInv.frontier_ne_nil (h : PlaceInv stem n t placed r) (hs : TreeShape stem n) (ht : t < n) : r.fr ≠ [] := by
  intro hfr
  have hn := hs.1
  have hnodes := h.nodes
  rw [hfr, List.map_nil, List.append_nil] at hnodes
  have hall : ∀ k (c : Byte), n - 2 - c.toNat = k → c.toNat < n - 1 → c ∈ placed := by
    intro k
    induction k using Nat.strong_induction_on with
    | _ k ih =>
      intro c hk hc
      refine hnodes.mem_iff.2 ?_
      by_cases hroot : c.toNat = n - 2
      · rw [← hroot, ofNat8_toNat]
        exact List.mem_cons_self
      · obtain ⟨p, hp, hlt, hkid⟩ := exists_parent hs (c := c) (by omega)
        have := ih (n - 2 - p.toNat) (by omega) p rfl hp
        exact List.mem_cons_of_mem _ (List.mem_flatMap.2 ⟨p, this, hkid⟩)
  have hle := (List.subperm_of_subset (realIds_nodup hn.2) fun c hc =>
    hall _ c rfl (mem_realIds.1 hc)).length_le
  have := h.count
  simp only [realIds, List.length_map, List.length_range] at hle
  omega

/-- A frontier entry is not ranked yet. -/
theorem PlaceInv.frontier_not_placed (h : PlaceInv stem n t placed r) (hs : TreeShape stem n) {e : FrontierEntry}
    (he : e ∈ r.fr) : e.node ∉ placed := fun hp =>
  (List.nodup_append.1 (h.nodes_nodup hs)).2.2 _ hp _ (List.mem_map_of_mem he) rfl

/-- A frontier entry is not the sentinel. -/
theorem PlaceInv.frontier_ne_sentinel (h : PlaceInv stem n t placed r) (hs : TreeShape stem n) {e : FrontierEntry}
    (he : e ∈ r.fr) : BitVec.ofNat 8 (n - 1) ≠ e.node := by
  intro hsent
  have := h.frontier_real hs he
  rw [← hsent, BitVec.toNat_ofNat] at this
  omega

/-- The stems ranked so far have ranks below `t`. -/
theorem PlaceInv.rank_lt (h : PlaceInv stem n t placed r) {p : Byte} (hp : p ∈ BitVec.ofNat 8 (n - 1) :: placed) :
    (entry r.rank p).toNat < t := by
  have hcount := h.count
  rcases List.mem_cons.1 hp with rfl | hp
  · rw [h.sentinel]
    exact (by omega : 0 < t)
  · exact (h.ranks p hp).2

/-- What the ranks are after one more (R187). -/
theorem entry_placeEntry_rank (i : Nat) (e : FrontierEntry) (c : Byte) : entry (placeEntry stem t i e r).rank c =
    if c = e.node then BitVec.ofNat 8 t else entry r.rank c := entry_setEntry _ _ _ _

/-- The children of the ranked stems after one more stem is ranked: the entry taken was in time, its own children are
pushed with their due, and the others are where they were (R187). -/
theorem PlaceInv.placeEntry_due (h : PlaceInv stem n t placed r) (hs : TreeShape stem n) (ht : t < 256) {i : Nat}
    (hi : i < r.fr.length) (hdue : t ≤ (r.fr[i]).due.toNat) {p c : Byte}
    (hp : p ∈ BitVec.ofNat 8 (n - 1) :: (r.fr[i]).node :: placed) (hc : c ∈ kids stem p) :
    let r' := placeEntry stem t i (r.fr[i]) r
    (c ∈ (r.fr[i]).node :: placed ∧ (entry r'.rank p).toNat < (entry r'.rank c).toNat ∧
        (entry r'.rank c).toNat ≤ (entry r'.rank p).toNat + 64) ∨
      { node := c, due := BitVec.ofNat 9 ((entry r'.rank p).toNat + 64) } ∈ r'.fr := by
  intro r'
  have hmem : r.fr[i] ∈ r.fr := List.getElem_mem hi
  have hnew := h.frontier_not_placed hs hmem
  have hperm := List.getElem_cons_eraseIdx_perm hi
  have hrank : ∀ c, entry r'.rank c = _ := entry_placeEntry_rank i (r.fr[i])
  have ht' : (BitVec.ofNat 8 t).toNat = t := by
    rw [BitVec.toNat_ofNat]
    omega
  by_cases hpe : p = (r.fr[i]).node
  · right
    rw [hrank, if_pos hpe, ht']
    rw [hpe] at hc
    exact mem_pushChildren t _ hc
  have hp : p ∈ BitVec.ofNat 8 (n - 1) :: placed := by
    simp only [List.mem_cons] at hp ⊢
    tauto
  have hpt := h.rank_lt hp
  rw [hrank, hrank, if_neg hpe]
  rcases h.due p hp c hc with ⟨hcp, hlt⟩ | hfr
  · left
    rw [if_neg (ne_of_mem_of_not_mem hcp hnew)]
    exact ⟨List.mem_cons_of_mem _ hcp, hlt⟩
  · rcases List.mem_cons.1 (hperm.mem_iff.2 hfr) with heq | herase
    · left
      have hec : c = (r.fr[i]).node := by rw [← heq]
      have hdue' : (r.fr[i]).due.toNat = (entry r.rank p).toNat + 64 := by
        rw [← heq, BitVec.toNat_ofNat]
        omega
      rw [if_pos hec, hec, ht']
      exact ⟨List.mem_cons_self, hpt, by omega⟩
    · right
      simp only [r', placeEntry, pushChildren, List.mem_append]
      exact .inl (.inl herase)

/-- Ranking a frontier entry that is not overdue keeps the invariant (R187). -/
theorem PlaceInv.placeEntry (h : PlaceInv stem n t placed r) (hs : TreeShape stem n) (ht : t < n) {i : Nat}
    (hi : i < r.fr.length) (hdue : t ≤ (r.fr[i]).due.toNat) :
    PlaceInv stem n (t + 1) ((r.fr[i]).node :: placed) (placeEntry stem t i (r.fr[i]) r) := by
  have hcount := h.count
  have hmem : r.fr[i] ∈ r.fr := List.getElem_mem hi
  have hnew := h.frontier_not_placed hs hmem
  have hself : (entry (Machine.placeEntry stem t i (r.fr[i]) r).rank (r.fr[i]).node).toNat = t := by
    rw [entry_placeEntry_rank, if_pos rfl, BitVec.toNat_ofNat]
    omega
  have hold : ∀ c ∈ placed, entry (Machine.placeEntry stem t i (r.fr[i]) r).rank c = entry r.rank c := fun c hc => by
    rw [entry_placeEntry_rank, if_neg (ne_of_mem_of_not_mem hc hnew)]
  have hfresh : ∀ c ∈ placed, entry (Machine.placeEntry stem t i (r.fr[i]) r).rank c ≠
      entry (Machine.placeEntry stem t i (r.fr[i]) r).rank (r.fr[i]).node := fun c hc heq => by
    have := (h.ranks c hc).2
    rw [← hold c hc, heq, hself] at this
    omega
  refine ⟨by rw [List.length_cons, hcount], ?_, List.nodup_cons.2 ⟨hnew, h.nodup⟩, ?_, ?_, ?_, ?_, ?_⟩
  · intro c hc
    rcases List.mem_cons.1 hc with rfl | hc
    · exact h.frontier_real hs hmem
    · exact h.real c hc
  · have hnodes := h.nodes
    have hfr := (List.getElem_cons_eraseIdx_perm hi).map FrontierEntry.node
    simp only [Machine.placeEntry, pushChildren_map_node, List.flatMap_cons, kids] at hnodes hfr ⊢
    rw [List.perm_iff_count] at hnodes hfr ⊢
    intro a
    have h1 := hnodes a
    have h2 := hfr a
    simp only [List.map_cons, List.cons_append, List.count_append, List.count_cons] at h1 h2 ⊢
    omega
  · rw [entry_placeEntry_rank, if_neg (h.frontier_ne_sentinel hs hmem), h.sentinel]
  · intro c hc
    rcases List.mem_cons.1 hc with rfl | hc
    · rw [hself]
      omega
    · rw [hold c hc]
      have := h.ranks c hc
      omega
  · intro c hc d hd hcd
    rcases List.mem_cons.1 hc with rfl | hc <;> rcases List.mem_cons.1 hd with rfl | hd
    · rfl
    · exact absurd hcd.symm (hfresh d hd)
    · exact absurd hcd (hfresh c hc)
    · rw [hold c hc, hold d hd] at hcd
      exact h.inj c hc d hd hcd
  · exact fun p hp c hc => h.placeEntry_due hs (by omega) hi hdue hp hc

end PlaceInv

/-- The loop ranks every real stem, or raises `PlacementUnsatisfiable`; it never stops (R187, R188). -/
theorem placeLoop_spec {stem : Vector Stem 256} {n : Nat} (hs : TreeShape stem n) (sz : Vector (BitVec 9) 256)
    (count : Nat) {t : Nat} {placed : List Byte} {r : PlaceRegs} (h : PlaceInv stem n t placed r) (ht : t + count = n) :
    (∃ r', placeLoop stem sz t count r = .raise .placementUnsatisfiable r') ∨
      ∃ r' placed', placeLoop stem sz t count r = .ok r' ∧ PlaceInv stem n n placed' r' := by
  induction count generalizing t placed r with
  | zero =>
    obtain rfl : t = n := ht
    exact .inr ⟨r, placed, rfl, h⟩
  | succ count ih =>
    rcases placeLoop_succ_cases stem sz t count r with ⟨-, hloop⟩ | ⟨hfr, -⟩ | ⟨tight, hi, htight, hloop⟩
    · exact .inl ⟨_, hloop⟩
    · exact absurd hfr (h.frontier_ne_nil hs (by omega))
    · rw [hloop]
      refine ih (h.placeEntry hs (by omega) hi ?_) (by omega)
      by_contra hlate
      have : frontierTight t 0 r.fr = none := frontierTight_eq_none.2 ⟨_, hi, by omega⟩
      rw [this] at htight
      cases htight

/-- When every real stem is ranked, the ranks meet the contract P1 to P3 (R181, R188). -/
theorem PlaceInv.contract {stem : Vector Stem 256} {n : Nat} {placed : List Byte} {r : PlaceRegs}
    (h : PlaceInv stem n n placed r) (hs : TreeShape stem n) : PlacementContract stem r.rank n := by
  have hcount := h.count
  have hperm : placed.Perm (realIds n) := by
    refine (List.subperm_of_subset h.nodup fun c hc => mem_realIds.2 (h.real c hc)).perm_of_length_le ?_
    simp only [realIds, List.length_map, List.length_range]
    omega
  have hall : ∀ c : Byte, c.toNat < n - 1 → c ∈ placed := fun c hc => hperm.mem_iff.2 (mem_realIds.2 hc)
  have hidx : ∀ i < n, BitVec.ofNat 8 i ∈ BitVec.ofNat 8 (n - 1) :: placed := by
    intro i hi
    by_cases hl : i = n - 1
    · rw [hl]
      exact List.mem_cons_self
    · refine List.mem_cons_of_mem _ (hall _ ?_)
      rw [BitVec.toNat_ofNat]
      omega
  refine ⟨fun i hi => ?_, fun i hi j hj hij => ?_, fun i hi c hc => ?_⟩
  · rw [at256]
    rcases List.mem_cons.1 (hidx i hi) with hp | hp
    · rw [hp, h.sentinel]
      exact (by omega : 0 < n)
    · exact (h.ranks _ hp).2
  · refine ofNat8_inj (by omega) (by omega) ?_
    rw [at256, at256] at hij
    rcases List.mem_cons.1 (hidx i hi) with hp | hp <;> rcases List.mem_cons.1 (hidx j hj) with hq | hq
    · rw [hp, hq]
    · have := (h.ranks _ hq).1
      rw [← hij, hp, h.sentinel] at this
      exact absurd this (by decide)
    · have := (h.ranks _ hp).1
      rw [hij, hq, h.sentinel] at this
      exact absurd this (by decide)
    · exact h.inj _ hp _ hq hij
  · rcases h.due _ (hidx i hi) c hc with ⟨-, hlt⟩ | hfr
    · exact hlt
    · exact absurd rfl ((List.nodup_append.1 (h.nodes_nodup hs)).2.2 _ (hall c (h.frontier_real hs hfr)) _
        (List.mem_map_of_mem (f := FrontierEntry.node) hfr))

/-- The invariant holds where the loop starts: the sentinel at rank 0, the root in the frontier (R186). -/
theorem placeInv_start {s : State} (hs : TreeShape s.stem s.n.toNat) : PlaceInv s.stem s.n.toNat 1 [] (placeStart s) := by
  have hidx : sentinelIndex s = BitVec.ofNat 8 (s.n.toNat - 1) := by
    rw [sentinelIndex, setWidth8_eq_ofNat, toNat_sub_one (by omega)]
  have hfr : (placeStart s).fr = pushChildren (entry s.stem (BitVec.ofNat 8 (s.n.toNat - 1))) 0 [] := by
    rw [← hidx]
    rfl
  have hrank : entry (placeStart s).rank (BitVec.ofNat 8 (s.n.toNat - 1)) = 0 := by
    rw [← hidx]
    exact entry_setEntry_same _ _ _
  constructor
  · rfl
  · simp
  · simp
  · rw [hfr, pushChildren_map_node, ← kids, sentinel_kids hs]
    simp
  · exact hrank
  · simp
  · simp
  · intro p hp c hc
    rw [List.mem_singleton] at hp
    subst hp
    right
    rw [hrank, hfr]
    exact mem_pushChildren 0 [] hc

/-- On a merge tree `PLACE` raises `PlacementUnsatisfiable`, or goes through with ranks that meet the contract, the
sentinel at rank 0 (R186, R188, R189). -/
theorem placeOp_cases {s : State} (hs : TreeShape s.stem s.n.toNat) :
    (∃ s', placeOp s = .raise .placementUnsatisfiable s') ∨
      ∃ sz rank hasRank fr t, placeOp s =
          .ok (enterPhase .serialize { s with sz := sz, rank := rank, hasRank := hasRank, fr := fr, t := t }) ∧
        PlacementContract s.stem rank s.n.toNat ∧ entry rank (BitVec.ofNat 8 (s.n.toNat - 1)) = 0 := by
  rcases placeLoop_spec hs (sizes s.stem 0 s.n.toNat s.sz) (s.n.toNat - 1) (placeInv_start hs) (by omega) with
    ⟨r, hr⟩ | ⟨r, placed, hr, hinv⟩
  · exact .inl ⟨_, by
      simp only [placeOp, hr, Flow.map_raise, Flow.andThen_raise]
      rfl⟩
  · exact .inr ⟨_, _, _, _, _, by
      simp only [placeOp, hr, Flow.map_ok, Flow.andThen_ok]
      rfl, hinv.contract hs, hinv.sentinel⟩

end Sys2Proof.Machine
end

section
/-! `SERIALIZE` and `CODEBUILD` on a placed merge tree (44_tree_serializer.md R201 to R204, 45_code_builder_bit_packer.md R221,
R222): what the slots hold, and that a code is the path to its byte. -/

namespace Sys2Proof.Machine

open Sys2Proof.Safety

/-! ### The two branches of a stem -/

/-- Whether the child on branch `b` is a leaf (R35; bit 0 is child-1, R222). -/
def branchLeaf (m : Stem) (b : Bool) : Bool := if b then m.f2 else m.f1

/-- The byte of the child on branch `b`. -/
def branchByte (m : Stem) (b : Bool) : Byte := childId (if b then m.c2 else m.c1)

theorem mem_stemChildren_iff {m : Stem} {c : Byte} :
    c ∈ stemChildren m ↔ ∃ b, branchLeaf m b = false ∧ branchByte m b = c := by
  cases h1 : m.f1 <;> cases h2 : m.f2 <;> simp [stemChildren, branchLeaf, branchByte, h1, h2, eq_comm (a := c)]

theorem mem_leafChildren_iff {m : Stem} {c : Byte} :
    c ∈ leafChildren m ↔ ∃ b, branchLeaf m b = true ∧ branchByte m b = c := by
  cases h1 : m.f1 <;> cases h2 : m.f2 <;> simp [leafChildren, branchLeaf, branchByte, h1, h2, eq_comm (a := c)]

@[simp] theorem leafAt_nil (stem : Vector Stem 256) (s : Byte) : leafAt stem s [] = none := rfl

/-- A path goes through a stem child, or ends at a leaf child (R222). -/
theorem leafAt_cons (stem : Vector Stem 256) (s : Byte) (b : Bool) (q : List Bool) :
    leafAt stem s (b :: q) =
      if branchLeaf (entry stem s) b then (if q = [] then some (branchByte (entry stem s) b) else none)
      else leafAt stem (branchByte (entry stem s) b) q := by
  cases q <;> simp [leafAt, branchLeaf, branchByte]

/-! ### SERIALIZE (R201 to R204) -/

/-- The table byte of branch `b` of stem `i` (R202). -/
def slotValue (stem : Vector Stem 256) (rank : Vector Byte 256) (i : Byte) (b : Bool) : Byte :=
  let c := branchByte (entry stem i) b
  if branchLeaf (entry stem i) b then c
  else refByte (entry stem c).f1 (entry stem c).f2 (BitVec.ofNat 6 ((entry rank c).toNat - (entry rank i).toNat - 1))

/-- Where the table byte of branch `b` of stem `i` stands: `2j + b` for rank `j` (R201). -/
def slotIndex (rank : Vector Byte 256) (i : Byte) (b : Bool) : BitVec 9 :=
  BitVec.ofNat 9 (2 * (entry rank i).toNat + b.toNat)

theorem slotIndex_toNat (rank : Vector Byte 256) (i : Byte) (b : Bool) :
    (slotIndex rank i b).toNat = 2 * (entry rank i).toNat + b.toNat := by
  have := Bool.toNat_lt b
  rw [slotIndex, BitVec.toNat_ofNat]
  omega

theorem bool_eq_of_toNat_eq : ∀ b d : Bool, b.toNat = d.toNat → b = d := by decide

theorem slotIndex_inj {rank : Vector Byte 256} {i k : Byte} {b d : Bool} (h : slotIndex rank i b = slotIndex rank k d) :
    entry rank i = entry rank k ∧ b = d := by
  have h := congrArg BitVec.toNat h
  rw [slotIndex_toNat, slotIndex_toNat] at h
  have := Bool.toNat_lt b
  have := Bool.toNat_lt d
  exact ⟨BitVec.eq_of_toNat_eq (by omega), bool_eq_of_toNat_eq b d (by omega)⟩

/-- The ranks of the stem children of stem `i` are 1 to 64 past its own (P3, R181). -/
abbrev KidsInReach (stem : Vector Stem 256) (rank : Vector Byte 256) (i : Byte) : Prop :=
  ∀ c ∈ kids stem i, (entry rank i).toNat < (entry rank c).toNat ∧ (entry rank c).toNat ≤ (entry rank i).toNat + 64

/-- With its children in reach, a stem's entries do not overflow (R202). -/
theorem tableEntry_ok {stem : Vector Stem 256} {rank : Vector Byte 256} {i : Byte} (h : KidsInReach stem rank i) (b : Bool) :
    tableEntry stem rank (entry rank i) (branchLeaf (entry stem i) b) (if b then (entry stem i).c2 else (entry stem i).c1) =
      some (slotValue stem rank i b) := by
  cases he : tableEntry stem rank (entry rank i) (branchLeaf (entry stem i) b)
      (if b then (entry stem i).c2 else (entry stem i).c1) with
  | none =>
    obtain ⟨hf, hfar⟩ := tableEntry_eq_none.1 he
    exact absurd (h _ (mem_stemChildren_iff.2 ⟨b, hf, rfl⟩)) hfar
  | some e =>
    rcases tableEntry_eq_some he with ⟨hf, rfl⟩ | ⟨hf, -, -, rfl⟩
    · simp [slotValue, hf, branchByte]
    · simp [slotValue, hf, branchByte]

/-- One stem's two slots (R201). -/
theorem serializeStem_ok {stem : Vector Stem 256} {rank : Vector Byte 256} {i : Byte} (h : KidsInReach stem rank i)
    (table : Vector Byte 512) :
    serializeStem stem rank i table =
      .ok (setSlotByte (setSlotByte table (slotIndex rank i false) (slotValue stem rank i false))
        (slotIndex rank i true) (slotValue stem rank i true)) := by
  have h1 := tableEntry_ok h false
  have h2 := tableEntry_ok h true
  simp only [branchLeaf, if_true, Bool.false_eq_true, if_false] at h1 h2
  simp only [serializeStem, h1, h2]
  rfl

/-- The loop fills the slots of the stems it runs over, and no other (R201). -/
theorem serializeLoop_ok {stem : Vector Stem 256} {rank : Vector Byte 256} (count : Nat) {s : Nat} (hle : s + count ≤ 256)
    (hreach : ∀ i, s ≤ i → i < s + count → KidsInReach stem rank (BitVec.ofNat 8 i))
    (hinj : ∀ i, s ≤ i → i < s + count → ∀ k, s ≤ k → k < s + count → at256 rank i = at256 rank k → i = k)
    (table : Vector Byte 512) :
    ∃ table', serializeLoop stem rank s count table = .ok table' ∧
      (∀ i, s ≤ i → i < s + count → ∀ b, slotByte table' (slotIndex rank (BitVec.ofNat 8 i) b) =
        slotValue stem rank (BitVec.ofNat 8 i) b) ∧
      ∀ x, (∀ i, s ≤ i → i < s + count → ∀ b, x ≠ slotIndex rank (BitVec.ofNat 8 i) b) →
        slotByte table' x = slotByte table x := by
  induction count generalizing s table with
  | zero => exact ⟨table, rfl, fun i h1 h2 => by omega, fun x _ => rfl⟩
  | succ count ih =>
    obtain ⟨table', hloop, hslots, hkeep⟩ := ih (s := s + 1) (by omega) (fun i h1 h2 => hreach i (by omega) (by omega))
      (fun i h1 h2 k h3 h4 => hinj i (by omega) (by omega) k (by omega) (by omega))
      (setSlotByte (setSlotByte table (slotIndex rank (BitVec.ofNat 8 s) false)
        (slotValue stem rank (BitVec.ofNat 8 s) false)) (slotIndex rank (BitVec.ofNat 8 s) true)
        (slotValue stem rank (BitVec.ofNat 8 s) true))
    refine ⟨table', ?_, ?_, ?_⟩
    · rw [serializeLoop, serializeStem_ok (hreach s le_rfl (by omega)), Flow.andThen_ok, hloop]
    · intro i h1 h2 b
      by_cases hi : i = s
      · subst hi
        rw [hkeep]
        · cases b
          · rw [slotByte_setSlotByte, if_neg fun e => Bool.noConfusion (slotIndex_inj e).2, slotByte_setSlotByte, if_pos rfl]
          · rw [slotByte_setSlotByte, if_pos rfl]
        · intro k h3 h4 d e
          have := hinj i h1 h2 k (by omega) (by omega) (slotIndex_inj e).1
          omega
      · exact hslots i (by omega) (by omega) b
    · intro x hx
      rw [hkeep x fun i h1 h2 b => hx i (by omega) (by omega) b, slotByte_setSlotByte,
        if_neg (hx s le_rfl (by omega) true), slotByte_setSlotByte, if_neg (hx s le_rfl (by omega) false)]

/-- With ranks that meet the contract `SERIALIZE` goes through: the slots hold the entries, byte 0 the count (R201, R204). -/
theorem serializeOp_ok {s : State} (h2 : 2 ≤ s.n.toNat) (h256 : s.n.toNat ≤ 256)
    (hc : PlacementContract s.stem s.rank s.n.toNat) :
    ∃ table, serializeOp s = .ok (enterPhase .codebuild { s with table := table }) ∧
      (slotByte table 0).toNat = s.n.toNat - 1 ∧
      ∀ i < s.n.toNat, ∀ b, slotIndex s.rank (BitVec.ofNat 8 i) b ≠ 0 →
        slotByte table (slotIndex s.rank (BitVec.ofNat 8 i) b) = slotValue s.stem s.rank (BitVec.ofNat 8 i) b := by
  obtain ⟨-, hinj, hreach⟩ := hc
  obtain ⟨table, hloop, hslots, -⟩ := serializeLoop_ok s.n.toNat (s := 0) (by omega)
    (fun i _ hi c hk => hreach i (by omega) c hk) (fun i _ hi k _ hk => hinj i (by omega) k (by omega)) s.table
  refine ⟨setSlotByte table 0 ((s.n - 1).setWidth 8), ?_, ?_, ?_⟩
  · simp only [serializeOp, hloop, Flow.map_ok, Flow.andThen_ok]
  · rw [slotByte_setSlotByte, if_pos rfl, BitVec.toNat_setWidth, toNat_sub_one (by omega)]
    omega
  · intro i hi b hne
    rw [slotByte_setSlotByte, if_neg hne]
    exact hslots i (by omega) (by omega) b

/-! ### CODEBUILD (R221, R222) -/

/-- What `VISIT` does on branch `b` (R222). -/
def visitBranch (stem : Vector Stem 256) (room : Nat) (s : Byte) (p : Code) (b : Bool) (code : Vector Code 256) :
    Flow (Vector Code 256) :=
  if branchLeaf (entry stem s) b then .ok (setEntry code (branchByte (entry stem s) b) (p ++ [b]))
  else visit stem room (branchByte (entry stem s) b) (p ++ [b]) code

/-- `VISIT` takes branch 0, then branch 1 (R222). -/
theorem visit_branches (stem : Vector Stem 256) (room : Nat) (s : Byte) (p : Code) (code : Vector Code 256) :
    visit stem (room + 1) s p code =
      (visitBranch stem room s p false code).andThen (visitBranch stem room s p true) := visit_succ stem room s p code

/-- `code'` differs from `code` only in codes `p ++ q` for paths `q` of a set, and gives every leaf of that set such a
code. -/
def AddsCodes (leaf : List Bool → Option Byte) (p : Code) (code code' : Vector Code 256) : Prop :=
  (∀ v, entry code' v = entry code v ∨ ∃ q, leaf q = some v ∧ entry code' v = p ++ q) ∧
    ∀ q v, leaf q = some v → ∃ q', leaf q' = some v ∧ entry code' v = p ++ q'

/-- The codes of the subtree on branch `b` from those of its child. -/
theorem visitBranch_ok {stem : Vector Stem 256} {room : Nat} {s : Byte} {b : Bool} (p : Code) (code : Vector Code 256)
    (ih : branchLeaf (entry stem s) b = false → ∃ code', visit stem room (branchByte (entry stem s) b) (p ++ [b]) code =
      .ok code' ∧ AddsCodes (leafAt stem (branchByte (entry stem s) b)) (p ++ [b]) code code') :
    ∃ code', visitBranch stem room s p b code = .ok code' ∧
      AddsCodes (fun q => leafAt stem s (b :: q)) (p ++ [b]) code code' := by
  cases hf : branchLeaf (entry stem s) b with
  | true =>
    refine ⟨_, by rw [visitBranch, if_pos hf], fun v => ?_, fun q v hq => ?_⟩
    · rw [entry_setEntry]
      by_cases hv : v = branchByte (entry stem s) b
      · exact .inr ⟨[], by simp [leafAt_cons, hf, hv], by simp [hv]⟩
      · exact .inl (if_neg hv)
    · refine ⟨q, hq, ?_⟩
      simp only [leafAt_cons, hf, if_true, Option.ite_none_right_eq_some, Option.some.injEq] at hq
      obtain ⟨rfl, rfl⟩ := hq
      simp
  | false =>
    obtain ⟨code', hv, hadds⟩ := ih hf
    refine ⟨code', by simpa [visitBranch, hf] using hv, ?_⟩
    simpa [leafAt_cons, hf] using hadds

/-- `VISIT` from a real stem with room enough for its age goes through and gives every leaf below it a path (R222). -/
theorem visit_ok {stem : Vector Stem 256} {n : Nat} (hs : TreeShape stem n) (room : Nat) {s : Byte} (hreal : s.toNat < n - 1)
    (hroom : s.toNat < room) (p : Code) (code : Vector Code 256) :
    ∃ code', visit stem room s p code = .ok code' ∧ AddsCodes (leafAt stem s) p code code' := by
  induction room generalizing s p code with
  | zero => omega
  | succ room ih =>
    have hbranch : ∀ b code, ∃ code', visitBranch stem room s p b code = .ok code' ∧
        AddsCodes (fun q => leafAt stem s (b :: q)) (p ++ [b]) code code' := by
      intro b code
      refine visitBranch_ok p code fun hf => ?_
      have := kids_lt hs hreal (mem_stemChildren_iff.2 ⟨b, hf, rfl⟩)
      exact ih (by omega) (by omega) _ _
    obtain ⟨code1, hv1, hold1, hall1⟩ := hbranch false code
    obtain ⟨code2, hv2, hold2, hall2⟩ := hbranch true code1
    refine ⟨code2, by rw [visit_branches, hv1, Flow.andThen_ok, hv2], fun v => ?_, fun q v hq => ?_⟩
    · rcases hold2 v with h2 | ⟨q, hq, h2⟩
      · rcases hold1 v with h1 | ⟨q, hq, h1⟩
        · exact .inl (h2.trans h1)
        · exact .inr ⟨_, hq, by rw [h2, h1, List.append_assoc, List.singleton_append]⟩
      · exact .inr ⟨_, hq, by rw [h2, List.append_assoc, List.singleton_append]⟩
    · match q, hq with
      | false :: q, hq =>
        rcases hold2 v with h2 | ⟨q', hq', h2⟩
        · obtain ⟨q', hq', h1⟩ := hall1 q v hq
          exact ⟨_, hq', by rw [h2, h1, List.append_assoc, List.singleton_append]⟩
        · exact ⟨_, hq', by rw [h2, List.append_assoc, List.singleton_append]⟩
      | true :: q, hq =>
        obtain ⟨q', hq', h2⟩ := hall2 q v hq
        exact ⟨_, hq', by rw [h2, List.append_assoc, List.singleton_append]⟩

/-- Every real stem stands on a path from the root (R167). -/
theorem exists_path {stem : Vector Stem 256} {n : Nat} (hs : TreeShape stem n) {root : Byte} (hroot : root.toNat + 2 = n)
    {c : Byte} (hc : c.toNat < n - 1) : ∃ p, ∀ q, leafAt stem root (p ++ q) = leafAt stem c q := by
  induction hk : n - c.toNat using Nat.strong_induction_on generalizing c with
  | _ k ih =>
    by_cases hr : c = root
    · exact ⟨[], fun q => by rw [hr, List.nil_append]⟩
    · have hne : c.toNat ≠ root.toNat := fun e => hr (BitVec.eq_of_toNat_eq e)
      obtain ⟨d, hd, hlt, hkid⟩ := exists_parent hs (c := c) (by omega)
      obtain ⟨p, hp⟩ := ih (n - d.toNat) (by omega) hd rfl
      obtain ⟨b, hf, hb⟩ := mem_stemChildren_iff.1 hkid
      refine ⟨p ++ [b], fun q => ?_⟩
      rw [List.append_assoc, hp, List.singleton_append, leafAt_cons, hf, hb]
      rfl

/-- Every leaf of the tree has a path from the root. -/
theorem exists_leafAt {stem : Vector Stem 256} {n : Nat} (hs : TreeShape stem n) {root : Byte} (hroot : root.toNat + 2 = n)
    {v : Byte} (hv : v ∈ treeLeaves stem n) : ∃ q, leafAt stem root q = some v := by
  obtain ⟨m, hm, hleaf⟩ := List.mem_flatMap.1 hv
  obtain ⟨i, hi, rfl⟩ := List.mem_map.1 hm
  rw [List.mem_range] at hi
  obtain ⟨p, hp⟩ := exists_path hs hroot (c := BitVec.ofNat 8 i) (by rw [BitVec.toNat_ofNat]; omega)
  obtain ⟨b, hf, hb⟩ := mem_leafChildren_iff.1 hleaf
  rw [at256] at hf hb
  exact ⟨p ++ [b], by rw [hp, leafAt_cons, hf, hb]; rfl⟩

/-- A path is no longer than its stem's age allows. -/
theorem leafAt_length {stem : Vector Stem 256} {n : Nat} (hs : TreeShape stem n) {q : List Bool} {s v : Byte}
    (hreal : s.toNat < n - 1) (hq : leafAt stem s q = some v) : q.length ≤ s.toNat + 1 := by
  induction q generalizing s with
  | nil => simp
  | cons b q ih =>
    rw [leafAt_cons] at hq
    split at hq
    · rw [Option.ite_none_right_eq_some] at hq
      simp [hq.1]
    · rename_i hf
      have := kids_lt hs hreal (mem_stemChildren_iff.2 ⟨b, by simpa using hf, rfl⟩)
      have := ih (by omega) hq
      rw [List.length_cons]
      omega

/-- On a merge tree, at `MAXCODELEN` 255, `CODEBUILD` goes through: a code is a path to its byte, and every leaf has one
(R221, R222). -/
theorem codebuildOp_ok {s : State} (hs : TreeShape s.stem s.n.toNat) (hroot : s.root.toNat + 2 = s.n.toNat)
    (hmax : s.cfg.maxCodeLen = 255) :
    ∃ code, codebuildOp s = .ok (enterPhase .hdrwrite { s with code := code }) ∧
      (∀ v, entry code v = [] ∨ leafAt s.stem s.root (entry code v) = some v) ∧
      ∀ v ∈ treeLeaves s.stem s.n.toNat, leafAt s.stem s.root (entry code v) = some v := by
  obtain ⟨code, hv, hold, hall⟩ := visit_ok hs 255 (s := s.root) (by omega) (by omega) [] (Vector.replicate 256 [])
  refine ⟨code, ?_, fun v => ?_, fun v hleaf => ?_⟩
  · simp only [codebuildOp, hmax, hv, Flow.map_ok, Flow.andThen_ok]
  · rcases hold v with h | ⟨q, hq, h⟩
    · exact .inl (by rw [h, entry_replicate])
    · exact .inr (by rw [h, List.nil_append, hq])
  · obtain ⟨q, hq⟩ := exists_leafAt hs hroot hleaf
    obtain ⟨q', hq', h⟩ := hall q v hq
    rw [h, List.nil_append, hq']

end Sys2Proof.Machine
end

section
/-! `FREQ`, `HDRWRITE` and `PACK` (R151, R206, R207, R226 to R230): the counts, the size of the result, its header and table,
and the invariant of the bit-packer. -/

namespace Sys2Proof.Machine

open Sys2Proof.Safety

/-! ### FREQ (R151) -/

/-- The tally adds to each byte value how often it occurs (R151). -/
theorem entry_tally (freq : Vector (BitVec 24) 256) (bytes : List Byte) (b : Byte) :
    entry (tally freq bytes) b = entry freq b + BitVec.ofNat 24 (bytes.count b) := by
  induction bytes generalizing freq with
  | nil => simp [tally]
  | cons v vs ih =>
    rw [tally, ih, entry_setEntry]
    by_cases h : b = v
    · subst h
      rw [if_pos rfl, List.count_cons_self, BitVec.add_assoc, Nat.add_comm (List.count b vs), BitVec.ofNat_add]
      rfl
    · rw [if_neg h, List.count_cons_of_ne (Ne.symm h)]

theorem inBytes_length (m : Memory) (a count : Nat) : (inBytes m a count).length = count := by simp [inBytes]

theorem getElem_inBytes (m : Memory) (a count i : Nat) (h : i < count) :
    (inBytes m a count)[i]'(by rw [inBytes_length]; exact h) = Memory.read m (a + i) := by simp [inBytes]

/-- On a short input in range `FREQ` counts every byte value (R151). -/
theorem freqOp_ok {s : State} (h : s.off.toNat + s.len.toNat ≤ s.cfg.inSize) (hlen : s.len.toNat < 16777216) :
    ∃ freq, freqOp s = .ok (enterPhase .merge { s with freq := freq }) ∧
      ∀ b, (entry freq b).toNat = (inputOf s).count b := by
  refine ⟨tally (Vector.replicate 256 0) (inputOf s), ?_, fun b => ?_⟩
  · rw [freqOp, if_neg (not_le.2 hlen), sourceBytes_ok h, Flow.access_ok, inputOf]
  · have := (List.count_le_length (a := b) (l := inputOf s)).trans_eq (inBytes_length _ _ _)
    have hzero : (0 : BitVec 24).toNat = 0 := rfl
    rw [entry_tally, entry_replicate, BitVec.toNat_add, BitVec.toNat_ofNat]
    omega

/-! ### The size of the result (R206) -/

theorem totalBits_eq (freq : Vector (BitVec 24) 256) (code : Vector Code 256) (n : Nat) :
    totalBits freq code n = ∑ i ∈ Finset.range n,
      (entry freq (BitVec.ofNat 8 i)).toNat * (entry code (BitVec.ofNat 8 i)).length := by
  induction n with
  | zero => rfl
  | succ n ih => rw [totalBits, Finset.sum_range_succ, ih]

/-- A sum over the bytes of a list is a sum over the byte values by how often they occur. -/
theorem sum_count_mul (f : Byte → Nat) (bytes : List Byte) :
    ∑ i ∈ Finset.range 256, bytes.count (BitVec.ofNat 8 i) * f (BitVec.ofNat 8 i) = (bytes.map f).sum := by
  induction bytes with
  | nil => simp
  | cons v vs ih =>
    have hone : ∑ i ∈ Finset.range 256, (if v = BitVec.ofNat 8 i then f (BitVec.ofNat 8 i) else 0) = f v := by
      rw [Finset.sum_eq_single v.toNat]
      · simp
      · intro i hi hne
        rw [if_neg]
        rintro rfl
        rw [Finset.mem_range] at hi
        rw [BitVec.toNat_ofNat, Nat.mod_eq_of_lt hi] at hne
        exact hne rfl
      · exact fun h => absurd (Finset.mem_range.2 v.isLt) h
    simp only [List.count_cons, beq_iff_eq, Nat.add_mul, ite_mul, one_mul, zero_mul, Finset.sum_add_distrib, ih, hone,
      List.map_cons, List.sum_cons, Nat.add_comm]

/-- When `FREQ` counts the input, `TBITS` is the length of the coded input (R206, R227). -/
theorem totalBits_eq_length {s : State} (h : ∀ b, (entry s.freq b).toNat = (inputOf s).count b) :
    totalBits s.freq s.code 256 = (codedBits s).length := by
  simp only [totalBits_eq, h, codedBits, List.length_flatMap]
  exact sum_count_mul (fun b => (entry s.code b).length) (inputOf s)

/-! ### OUT (R61) -/

theorem exceedsOut_eq_false {cfg : Config.Params} {length : Nat} : exceedsOut cfg length = false ↔ fitsOut cfg length := by
  unfold exceedsOut fitsOut
  cases cfg.outSize <;> simp

/-- Every byte of a result that fits exists. -/
theorem outHas_of_fitsOut {cfg : Config.Params} {length a : Nat} (h : fitsOut cfg length) (ha : a < length) :
    outHas cfg a = true := by
  unfold outHas
  cases hs : cfg.outSize with
  | none => rfl
  | some size =>
    have := h size hs
    simp only [decide_eq_true_eq]
    omega

/-! ### HDRWRITE (R206, R207) -/

theorem getLsbD_headerWord (tag : Byte) (len : BitVec 24) (i : Nat) :
    (headerWord tag len).getLsbD i = if i < 8 then tag.getLsbD i else len.getLsbD (i - 8) := BitVec.getLsbD_append

/-- The bytes of a header word: the tag, then the length, lowest byte first (R92, R64). -/
theorem encode_hdr (tag : Byte) (len : BitVec 24) :
    encode (.hdr tag len) = [tag, len.extractLsb' 0 8, len.extractLsb' 8 8, len.extractLsb' 16 8] := by
  have h0 : byteOfWord (headerWord tag len) 0 = tag := by
    refine BitVec.eq_of_getLsbD_eq fun i hi => ?_
    simp [byteOfWord, getLsbD_headerWord, hi]
  have hlen : ∀ k < 3, byteOfWord (headerWord tag len) (k + 1) = len.extractLsb' (8 * k) 8 := by
    intro k hk
    refine BitVec.eq_of_getLsbD_eq fun i hi => ?_
    have h8 : ¬ 8 * (k + 1) + i < 8 := by omega
    have hsub : 8 * (k + 1) + i - 8 = 8 * k + i := by omega
    simp [byteOfWord, getLsbD_headerWord, h8, hsub]
  simp only [encode, bytesOfWord, h0, hlen 0 (by omega), hlen 1 (by omega), hlen 2 (by omega)]

/-- The three length bytes of a header hold the length. -/
theorem headerLength_append (len : BitVec 24) :
    len.extractLsb' 16 8 ++ len.extractLsb' 8 8 ++ len.extractLsb' 0 8 = len := by
  have upper : len.extractLsb' 16 8 ++ len.extractLsb' 8 8 = len.extractLsb' 8 16 :=
    BitVec.extractLsb'_append_extractLsb'_eq_extractLsb' rfl
  have all : len.extractLsb' 8 16 ++ len.extractLsb' 0 8 = len.extractLsb' 0 24 :=
    BitVec.extractLsb'_append_extractLsb'_eq_extractLsb' rfl
  rw [upper, all, BitVec.extractLsb'_eq_self]

theorem tableBytesFrom_length (table : Vector Byte 512) (i count : Nat) : (tableBytesFrom table i count).length = count := by
  induction count generalizing i with
  | zero => rfl
  | succ count ih => simp [tableBytesFrom, ih]

theorem tableBytesFrom_getD (table : Vector Byte 512) {i count j : Nat} (h : j < count) :
    (tableBytesFrom table i count).getD j 0 = slotByte table (BitVec.ofNat 9 (i + j)) := by
  induction count generalizing i j with
  | zero => omega
  | succ count ih =>
    cases j with
    | zero => simp [tableBytesFrom]
    | succ j =>
      rw [tableBytesFrom, List.getD_cons_succ, ih (by omega)]
      congr 2
      omega

/-- `w` is what `HDRWRITE` leaves of `s` when the result fits: header and table at `OUT` 0, `OPOS` behind them (R207). -/
structure HeaderWritten (s w : State) : Prop where
  cfg : w.cfg = s.cfg
  op : w.op = s.op
  off : w.off = s.off
  len : w.len = s.len
  inMem : w.inMem = s.inMem
  code : w.code = s.code
  status : w.status = { s.status with phase := .pack }
  opos : w.opos = BitVec.ofNat 32 (4 + 2 * s.n.toNat)
  wf : Memory.wf w.outMem
  tag : Memory.read w.outMem 0 = 0x28
  length : Memory.read w.outMem 3 ++ Memory.read w.outMem 2 ++ Memory.read w.outMem 1 = s.len.setWidth 24
  table : ∀ i < 2 * s.n.toNat, Memory.read w.outMem (4 + i) = slotByte s.table (BitVec.ofNat 9 i)

/-- `HDRWRITE` raises `OutOverflow`, or the result fits and header and table are written (R206, R207). -/
theorem hdrwriteOp_cases {s : State} (hwf : Memory.wf s.outMem) :
    (∃ s', hdrwriteOp s = .raise .outOverflow s') ∨
      (fitsOut s.cfg (resultLength s (totalBits s.freq s.code 256)) ∧ ∃ w, hdrwriteOp s = .ok w ∧ HeaderWritten s w) := by
  cases he : exceedsOut s.cfg (resultLength s (totalBits s.freq s.code 256)) with
  | true => exact .inl ⟨_, by simp only [hdrwriteOp, he, if_true]; rfl⟩
  | false =>
    have hfits := exceedsOut_eq_false.1 he
    have hbytes : headerAndTable s = [Config.tag, (s.len.setWidth 24).extractLsb' 0 8, (s.len.setWidth 24).extractLsb' 8 8,
        (s.len.setWidth 24).extractLsb' 16 8] ++ tableBytesFrom s.table 0 (2 * s.n.toNat) := by
      rw [headerAndTable, encode_hdr]
    have hlen : (headerAndTable s).length = 4 + 2 * s.n.toNat := by
      rw [hbytes, List.length_append, tableBytesFrom_length]
      rfl
    obtain ⟨m, hm⟩ := writeOutBytes_ok (cfg := s.cfg) (m := s.outMem) (a := 0) (vs := headerAndTable s) fun i hi => by
      refine outHas_of_fitsOut hfits ?_
      simp only [resultLength]
      omega
    obtain ⟨hwf', hread⟩ := (writeOutBytes_spec hm).2 hwf
    have hbyte : ∀ a < 4 + 2 * s.n.toNat, Memory.read m a = (headerAndTable s).getD a 0 := fun a ha => by
      rw [hread, if_pos (by omega), Nat.sub_zero]
    have hok : hdrwriteOp s = .ok (enterPhase .pack { s with
        tbits := BitVec.ofNat 33 (totalBits s.freq s.code 256)
        outMem := m
        opos := BitVec.ofNat 32 (4 + 2 * s.n.toNat) }) := by
      simp only [hdrwriteOp, he, hm, Bool.false_eq_true, if_false, Flow.access_ok]
    refine .inr ⟨hfits, _, hok, rfl, rfl, rfl, rfl, rfl, rfl, rfl, rfl, hwf', ?_, ?_,
      fun i hi => ?_⟩
    · exact (hbyte 0 (by omega)).trans (by rw [hbytes]; rfl)
    · rw [enterPhase_outMem, hbyte 3 (by omega), hbyte 2 (by omega), hbyte 1 (by omega), hbytes]
      exact headerLength_append _
    · rw [enterPhase_outMem, hbyte _ (by omega), hbytes, List.getD_append_right _ _ _ _ (by simp)]
      simp only [List.length_cons, List.length_nil]
      rw [Nat.add_sub_cancel_left, tableBytesFrom_getD _ hi, Nat.zero_add]

/-! ### PACK (R226, R227) -/

/-- Bit `i` of a bitstream whose group at `i div 32` holds the bytes of a word (R64, R65). -/
theorem streamBit_of_word {m : Memory} {a i : Nat} {w : Word}
    (h : ∀ j < 4, Memory.read m (a + 4 * (i / 32) + j) = byteOfWord w j) :
    streamBit m a i = w.getLsbD (31 - i % 32) := by
  rw [streamBit, h _ (by omega), byteOfWord, BitVec.getLsbD_extractLsb']
  have : 8 * ((31 - i % 32) / 8) + (31 - i % 32) % 8 = 31 - i % 32 := Nat.div_add_mod _ _
  rw [this, decide_eq_true (by omega), Bool.true_and]

/-- The packer after `bits`, the stream at `a0` of a memory that was `m0`: `flushed` groups are written, the accumulator
holds the bits since, from bit 31 down (R226, R227). -/
structure PackInv (m0 : Memory) (a0 : Nat) (bits : List Bool) (flushed : Nat) (r : PackRegs) : Prop where
  lower : 32 * flushed ≤ bits.length
  rem : r.rem.toNat + bits.length = 32 * flushed + 32
  opos : r.opos.toNat = a0 + 4 * flushed
  wf : Memory.wf r.out
  stream : ∀ i < 32 * flushed, streamBit r.out a0 i = bits.getD i false
  acc : ∀ j < 32, r.acc.getLsbD (31 - j) = bits.getD (32 * flushed + j) false
  kept : ∀ a < a0, Memory.read r.out a = Memory.read m0 a

theorem getD_append_replicate_false (bits : List Bool) (n i : Nat) :
    (bits ++ List.replicate n false).getD i false = bits.getD i false := by
  simp only [List.getD_eq_getElem?_getD, List.getElem?_append, List.getElem?_replicate]
  by_cases h : i < bits.length
  · rw [if_pos h]
  · rw [if_neg h, List.getElem?_eq_none (by omega)]
    split <;> rfl

theorem getD_append_singleton (bits : List Bool) (b : Bool) (i : Nat) :
    (bits ++ [b]).getD i false = if i = bits.length then b else bits.getD i false := by
  simp only [List.getD_eq_getElem?_getD, List.getElem?_append, List.getElem?_singleton]
  by_cases h : i < bits.length
  · rw [if_pos h, if_neg (by omega)]
  · rw [if_neg h]
    by_cases h2 : i = bits.length
    · simp [h2]
    · rw [if_neg h2, if_neg (by omega), List.getElem?_eq_none (by omega)]

/-- `FLUSH` writes the accumulator as the next group: the bits are padded with 0 to its end (R227, R230, R65). -/
theorem PackInv.flush {cfg : Config.Params} {m0 : Memory} {a0 flushed limit : Nat} {bits : List Bool} {r : PackRegs}
    (h : PackInv m0 a0 bits flushed r) (hfits : fitsOut cfg limit) (hlimit : limit < 4294967296)
    (hroom : a0 + 4 * (flushed + 1) ≤ limit) :
    ∃ r', flush cfg r = .ok r' ∧ PackInv m0 a0 (bits ++ List.replicate r.rem.toNat false) (flushed + 1) r' := by
  have hopos := h.opos
  have hrem := h.rem
  obtain ⟨m, hm⟩ := writeOutBytes_ok (cfg := cfg) (m := r.out) (a := r.opos.toNat) (vs := bytesOfWord r.acc) fun i hi =>
    outHas_of_fitsOut hfits (by simp only [bytesOfWord, List.length_cons, List.length_nil] at hi; omega)
  obtain ⟨hwf, hread⟩ := (writeOutBytes_spec hm).2 h.wf
  simp only [bytesOfWord, List.length_cons, List.length_nil, hopos] at hread
  have hlen : (bits ++ List.replicate r.rem.toNat false).length = 32 * (flushed + 1) := by
    rw [List.length_append, List.length_replicate]
    omega
  refine ⟨{ acc := 0, rem := 32, opos := r.opos + 4, out := m }, ?_, hlen.ge, ?_, ?_, hwf, fun i hi => ?_, fun j hj => ?_,
    fun a ha => ?_⟩
  · simp only [Machine.flush, encode, hm, Flow.access_ok]
  · rw [hlen, Nat.add_comm]
    rfl
  · have h4 : (4 : Word).toNat = 4 := rfl
    rw [BitVec.toNat_add, hopos, h4]
    omega
  · rw [getD_append_replicate_false]
    by_cases hold : i < 32 * flushed
    · rw [← h.stream i hold, streamBit, streamBit, hread, if_neg (by omega)]
    · rw [streamBit_of_word (w := r.acc)]
      · have hi' : i = 32 * flushed + i % 32 := by omega
        rw [h.acc (i % 32) (by omega), ← hi']
      · intro j hj
        rw [hread, if_pos (by omega)]
        have : a0 + 4 * (i / 32) + j - (a0 + 4 * flushed) = j := by omega
        rw [this]
        match j, hj with
        | 0, _ | 1, _ | 2, _ | 3, _ => rfl
  · rw [List.getD_eq_default _ _ (by omega)]
    simp
  · rw [hread, if_neg (by omega)]
    exact h.kept a ha

/-- One bit shifted to position `k` of a word. -/
theorem getLsbD_bitAt (b : Bool) (k : Nat) {i : Nat} (hi : i < 32) :
    ((BitVec.ofBool b).setWidth 32 <<< k).getLsbD i = (decide (i = k) && b) := by
  rw [BitVec.getLsbD_shiftLeft, BitVec.getLsbD_setWidth, BitVec.getLsbD_ofBool]
  by_cases h1 : i = k
  · subst h1
    simp [hi]
  · have : i - k = 0 → i < k := by omega
    simp only [h1, decide_false, Bool.false_and]
    simp
    omega

/-- Putting a bit into an accumulator with room (R227). -/
theorem PackInv.putBit {m0 : Memory} {a0 flushed : Nat} {bits : List Bool} {r : PackRegs}
    (h : PackInv m0 a0 bits flushed r) (hrem : r.rem ≠ 0) (b : Bool) :
    PackInv m0 a0 (bits ++ [b]) flushed (putBit b r) := by
  have hpos : 0 < r.rem.toNat := Nat.pos_of_ne_zero fun e => hrem (BitVec.eq_of_toNat_eq e)
  have hr := h.rem
  have hlow := h.lower
  have hrem' : (r.rem - 1).toNat = r.rem.toNat - 1 := toNat_sub_one hpos
  have hlen : (bits ++ [b]).length = bits.length + 1 := List.length_append
  refine ⟨by omega, ?_, h.opos, h.wf, fun i hi => ?_, fun j hj => ?_, h.kept⟩
  · simp only [Machine.putBit, hlen, hrem']
    omega
  · rw [getD_append_singleton, if_neg (by omega)]
    exact h.stream i hi
  · simp only [Machine.putBit, BitVec.getLsbD_or, h.acc j hj, getLsbD_bitAt b _ (show 31 - j < 32 by omega), hrem',
      getD_append_singleton]
    by_cases hlast : 32 * flushed + j = bits.length
    · have : 31 - j = r.rem.toNat - 1 := by omega
      rw [if_pos hlast, hlast]
      simp [this]
    · have : ¬ 31 - j = r.rem.toNat - 1 := by omega
      rw [if_neg hlast]
      simp [this]

/-- Packing one bit, after a flush when the accumulator is full; then the accumulator is not empty (R227). -/
theorem packBit_ok {cfg : Config.Params} {m0 : Memory} {a0 flushed limit : Nat} {bits : List Bool} {r : PackRegs}
    (h : PackInv m0 a0 bits flushed r) (hfits : fitsOut cfg limit) (hlimit : limit < 4294967296) (b : Bool)
    (hroom : a0 + 4 * groupCount (bits.length + 1) ≤ limit) :
    ∃ flushed' r', packBit cfg b r = .ok r' ∧ PackInv m0 a0 (bits ++ [b]) flushed' r' ∧
      32 * flushed' < (bits ++ [b]).length := by
  have hr := h.rem
  have hlow := h.lower
  have hlen : (bits ++ [b]).length = bits.length + 1 := List.length_append
  by_cases hrem : r.rem = 0
  · have hr0 : r.rem.toNat = 0 := by rw [hrem]; rfl
    simp only [groupCount] at hroom
    obtain ⟨r', hf, h'⟩ := h.flush hfits hlimit (by omega)
    rw [hr0, List.replicate_zero, List.append_nil] at h'
    have hrem' : r'.rem ≠ 0 := fun e => by
      have h0 : r'.rem.toNat = 0 := by rw [e]; rfl
      have := h'.rem
      omega
    exact ⟨flushed + 1, _, by rw [packBit, if_pos hrem, hf, Flow.andThen_ok], h'.putBit hrem' b, by omega⟩
  · exact ⟨flushed, _, by rw [packBit, if_neg hrem, Flow.andThen_ok], h.putBit hrem b, by omega⟩

/-- Packing a run of bits (R227). -/
theorem packBits_ok {cfg : Config.Params} {m0 : Memory} {a0 limit : Nat} (hfits : fitsOut cfg limit)
    (hlimit : limit < 4294967296) (more : List Bool) {flushed : Nat} {bits : List Bool} {r : PackRegs}
    (h : PackInv m0 a0 bits flushed r) (hstart : flushed = 0 ∨ 32 * flushed < bits.length)
    (hroom : a0 + 4 * groupCount (bits.length + more.length) ≤ limit) :
    ∃ flushed' r', packBits cfg more r = .ok r' ∧ PackInv m0 a0 (bits ++ more) flushed' r' ∧
      (flushed' = 0 ∨ 32 * flushed' < (bits ++ more).length) := by
  induction more generalizing flushed bits r with
  | nil => exact ⟨flushed, r, rfl, by rwa [List.append_nil], by rwa [List.append_nil]⟩
  | cons b more ih =>
    simp only [List.length_cons, groupCount] at hroom
    obtain ⟨f1, r1, hb, h1, hs1⟩ := packBit_ok h hfits hlimit b (by simp only [groupCount]; omega)
    obtain ⟨f2, r2, hbs, h2, hs2⟩ := ih h1 (.inr hs1)
      (by simp only [List.length_append, List.length_singleton, groupCount]; omega)
    rw [List.append_assoc, List.singleton_append] at h2 hs2
    exact ⟨f2, r2, by rw [packBits, hb, Flow.andThen_ok, hbs], h2, hs2⟩

/-- `PACK` goes through when the result fits: the coded input stands at `OPOS` as a stream padded with 0, and the bytes
below are kept (R227, R229, R230). -/
theorem packOp_ok {s : State} {limit : Nat} (hwf : Memory.wf s.outMem) (hrange : s.off.toNat + s.len.toNat ≤ s.cfg.inSize)
    (hfits : fitsOut s.cfg limit) (hlimit : limit < 4294967296)
    (hroom : s.opos.toNat + 4 * groupCount (codedBits s).length ≤ limit) :
    ∃ acc rem opos m, packOp s = .ok (endCommand { s with acc := acc, rem := rem, opos := opos, outMem := m }) ∧
      opos.toNat = s.opos.toNat + 4 * groupCount (codedBits s).length ∧
      (∀ i < 32 * groupCount (codedBits s).length, streamBit m s.opos.toNat i = (codedBits s).getD i false) ∧
      ∀ a < s.opos.toNat, Memory.read m a = Memory.read s.outMem a := by
  have hstart : PackInv s.outMem s.opos.toNat [] 0 { acc := 0, rem := 32, opos := s.opos, out := s.outMem } := by
    refine ⟨le_rfl, rfl, rfl, hwf, fun i hi => by omega, fun j _ => by simp, fun _ _ => rfl⟩
  obtain ⟨flushed, r, hbits, hinv, hs⟩ := packBits_ok hfits hlimit (codedBits s) hstart (.inl rfl) (by simpa using hroom)
  rw [List.nil_append] at hinv hs
  have hgroups : groupCount (codedBits s).length = flushed + 1 := by
    have h1 := hinv.rem
    simp only [groupCount]
    omega
  rw [hgroups] at hroom ⊢
  obtain ⟨r', hf, h'⟩ := hinv.flush hfits hlimit hroom
  refine ⟨r'.acc, r'.rem, r'.opos, r'.out, ?_, h'.opos, fun i hi => ?_, h'.kept⟩
  · rw [codedBits, inputOf] at hbits
    simp only [packOp, sourceBytes_ok hrange, Flow.access_ok, packBytes_eq, hbits, Flow.andThen_ok, hf, Flow.map_ok]
  · rw [h'.stream i hi, getD_append_replicate_false]

end Sys2Proof.Machine
end

section
/-! `ENCODE` as a whole (40_commands.md R133): what an encoded buffer is, and that `ENCODE` faults or leaves one in `OUT`. -/

namespace Sys2Proof.Machine

open Sys2Proof.Safety

/-! ### An encoded buffer -/

/-- At address `a` of a memory stands the result of encoding `input`: the header, the table of a placed merge tree with
`n` stems, and the stream of the input bytes' paths (20_memory.md R72; R207, R201, R227). -/
structure EncodedAt (m : Memory) (a size : Nat) (input : List Byte) (n : Nat) (stem : Vector Stem 256)
    (rank : Vector Byte 256) (code : Vector Code 256) : Prop where
  shape : TreeShape stem n
  contract : PlacementContract stem rank n
  sentinel : entry rank (BitVec.ofNat 8 (n - 1)) = 0
  paths : ∀ v ∈ input, leafAt stem (BitVec.ofNat 8 (n - 2)) (entry code v) = some v
  size_eq : size = 4 + 2 * n + 4 * groupCount (input.flatMap (entry code)).length
  tag : Memory.read m a = 0x28
  length : (Memory.read m (a + 3) ++ Memory.read m (a + 2) ++ Memory.read m (a + 1) : BitVec 24).toNat = input.length
  count : (Memory.read m (a + 4)).toNat = n - 1
  slots : ∀ i < n, ∀ b, slotIndex rank (BitVec.ofNat 8 i) b ≠ 0 →
    Memory.read m (a + 4 + (slotIndex rank (BitVec.ofNat 8 i) b).toNat) = slotValue stem rank (BitVec.ofNat 8 i) b
  stream : ∀ i < 32 * groupCount (input.flatMap (entry code)).length,
    streamBit m (a + 4 + 2 * n) i = (input.flatMap (entry code)).getD i false

/-- Where a slot of a ranked stem stands: inside the table (R201). -/
theorem slotIndex_lt {stem : Vector Stem 256} {rank : Vector Byte 256} {n i : Nat} (h : PlacementContract stem rank n)
    (hi : i < n) (b : Bool) : (slotIndex rank (BitVec.ofNat 8 i) b).toNat < 2 * n := by
  have hr : (entry rank (BitVec.ofNat 8 i)).toNat < n := h.1 i hi
  have := Bool.toNat_lt b
  rw [slotIndex_toNat]
  omega

/-- The same bytes at another place hold the same encoding. -/
theorem EncodedAt.copy {m m' : Memory} {a a' size n : Nat} {input : List Byte} {stem : Vector Stem 256}
    {rank : Vector Byte 256} {code : Vector Code 256} (h : EncodedAt m a size input n stem rank code)
    (hcopy : ∀ i < size, Memory.read m' (a' + i) = Memory.read m (a + i)) :
    EncodedAt m' a' size input n stem rank code := by
  have hsize := h.size_eq
  have hgroup : 1 ≤ groupCount (input.flatMap (entry code)).length := le_max_left _ _
  refine ⟨h.shape, h.contract, h.sentinel, h.paths, hsize, ?_, ?_, ?_, fun i hi b hne => ?_, fun i hi => ?_⟩
  · exact (hcopy 0 (by omega)).trans h.tag
  · rw [hcopy 3 (by omega), hcopy 2 (by omega), hcopy 1 (by omega), h.length]
  · rw [hcopy 4 (by omega), h.count]
  · have := slotIndex_lt h.contract hi b
    rw [← h.slots i hi b hne, Nat.add_assoc, Nat.add_assoc, hcopy _ (by omega)]
  · rw [← h.stream i hi]
    have hread : ∀ k < 4 * groupCount (input.flatMap (entry code)).length,
        Memory.read m' (a' + 4 + 2 * n + k) = Memory.read m (a + 4 + 2 * n + k) := fun k hk => by
      have := hcopy (4 + 2 * n + k) (by omega)
      simpa only [Nat.add_assoc] using this
    rw [streamBit, streamBit, Nat.add_assoc, hread _ (by omega), Nat.add_assoc _ (4 * (i / 32))]

/-! ### The tables of ENCODE (R133) -/

/-- What no micro-operation of `ENCODE` before `HDRWRITE` changes: the parameters, the operands, both memories, and the
status but for `PHASE` (R63). -/
structure EncodeKeeps (s t : State) : Prop where
  cfg : t.cfg = s.cfg
  op : t.op = s.op
  off : t.off = s.off
  len : t.len = s.len
  inMem : t.inMem = s.inMem
  outMem : t.outMem = s.outMem
  status : t.status = { s.status with phase := t.status.phase }

theorem EncodeKeeps.trans {s t u : State} (h : EncodeKeeps s t) (h' : EncodeKeeps t u) : EncodeKeeps s u where
  cfg := h'.cfg.trans h.cfg
  op := h'.op.trans h.op
  off := h'.off.trans h.off
  len := h'.len.trans h.len
  inMem := h'.inMem.trans h.inMem
  outMem := h'.outMem.trans h.outMem
  status := by rw [h'.status, h.status]

theorem EncodeKeeps.inputOf {s t : State} (h : EncodeKeeps s t) : inputOf t = inputOf s := by
  rw [Safety.inputOf, Safety.inputOf, h.inMem, h.off, h.len]

/-- After `FREQ`: the counts of the input (R151). -/
structure Counted (t : State) : Prop where
  freq : ∀ b, (entry t.freq b).toNat = (inputOf t).count b

/-- After `MERGE`: a merge tree with its root, every input byte a leaf (R167). -/
structure Merged (t : State) : Prop extends Counted t where
  shape : TreeShape t.stem t.n.toNat
  root : t.root = BitVec.ofNat 8 (t.n.toNat - 2)
  leaves : ∀ v ∈ inputOf t, v ∈ treeLeaves t.stem t.n.toNat

/-- After `PLACE`: ranks that meet the contract (R181). -/
structure Placed (t : State) : Prop extends Merged t where
  contract : PlacementContract t.stem t.rank t.n.toNat
  sentinel : entry t.rank (BitVec.ofNat 8 (t.n.toNat - 1)) = 0

/-- After `SERIALIZE`: the node table (R201, R204). -/
structure Serialized (t : State) : Prop extends Placed t where
  count : (slotByte t.table 0).toNat = t.n.toNat - 1
  slots : ∀ i < t.n.toNat, ∀ b, slotIndex t.rank (BitVec.ofNat 8 i) b ≠ 0 →
    slotByte t.table (slotIndex t.rank (BitVec.ofNat 8 i) b) = slotValue t.stem t.rank (BitVec.ofNat 8 i) b

/-- After `CODEBUILD`: every input byte has its path as its code (R222). -/
structure TablesBuilt (t : State) : Prop extends Serialized t where
  paths : ∀ v ∈ inputOf t, leafAt t.stem (BitVec.ofNat 8 (t.n.toNat - 2)) (entry t.code v) = some v

theorem freqOp_counted {s : State} (h : s.off.toNat + s.len.toNat ≤ s.cfg.inSize) (hlen : s.len.toNat < 16777216) :
    ∃ t, freqOp s = .ok t ∧ EncodeKeeps s t ∧ Counted t := by
  obtain ⟨freq, hfreq, hcounts⟩ := freqOp_ok h hlen
  exact ⟨_, hfreq, ⟨rfl, rfl, rfl, rfl, rfl, rfl, rfl⟩, ⟨hcounts⟩⟩

theorem mergeOp_merged {s : State} (h : Counted s) : ∃ t, mergeOp s = .ok t ∧ EncodeKeeps s t ∧ Merged t := by
  obtain ⟨ws, seq, ns, stem, root, n, hmerge, hshape, hroot, -, hleaves⟩ := mergeOp_ok s
  have hroot' : root = BitVec.ofNat 8 (n.toNat - 2) := by rw [← hroot, Nat.add_sub_cancel, ofNat8_toNat]
  have hall : ∀ v ∈ inputOf s, v ∈ treeLeaves stem n.toNat := fun v hv => hleaves v fun h0 => by
    have hcount := h.freq v
    rw [h0] at hcount
    exact List.count_eq_zero.1 hcount.symm hv
  exact ⟨_, hmerge, ⟨rfl, rfl, rfl, rfl, rfl, rfl, rfl⟩, ⟨⟨h.freq⟩, hshape, hroot', hall⟩⟩

theorem placeOp_placed {s : State} (h : Merged s) :
    (∃ s', placeOp s = .raise .placementUnsatisfiable s') ∨ ∃ t, placeOp s = .ok t ∧ EncodeKeeps s t ∧ Placed t := by
  rcases placeOp_cases h.shape with hraise | ⟨sz, rank, hasRank, fr, t, hplace, hcontract, hsent⟩
  · exact .inl hraise
  · exact .inr ⟨_, hplace, ⟨rfl, rfl, rfl, rfl, rfl, rfl, rfl⟩, ⟨⟨⟨h.freq⟩, h.shape, h.root, h.leaves⟩, hcontract, hsent⟩⟩

theorem serializeOp_serialized {s : State} (h : Placed s) :
    ∃ t, serializeOp s = .ok t ∧ EncodeKeeps s t ∧ Serialized t := by
  obtain ⟨table, hser, hcount, hslots⟩ := serializeOp_ok h.shape.1.1 h.shape.1.2 h.contract
  exact ⟨_, hser, ⟨rfl, rfl, rfl, rfl, rfl, rfl, rfl⟩,
    ⟨⟨⟨⟨h.freq⟩, h.shape, h.root, h.leaves⟩, h.contract, h.sentinel⟩, hcount, hslots⟩⟩

theorem codebuildOp_built {s : State} (h : Serialized s) (hmax : s.cfg.maxCodeLen = 255) :
    ∃ t, codebuildOp s = .ok t ∧ EncodeKeeps s t ∧ TablesBuilt t := by
  have hn := h.shape.1
  have hroot : s.root.toNat + 2 = s.n.toNat := by
    rw [h.root, BitVec.toNat_ofNat]
    omega
  obtain ⟨code, hcode, -, hpath⟩ := codebuildOp_ok h.shape hroot hmax
  rw [h.root] at hpath
  exact ⟨_, hcode, ⟨rfl, rfl, rfl, rfl, rfl, rfl, rfl⟩, ⟨⟨⟨⟨⟨h.freq⟩, h.shape, h.root, h.leaves⟩, h.contract, h.sentinel⟩,
    h.count, h.slots⟩, fun v hv => hpath v (h.leaves v hv)⟩⟩

/-- The range check and the micro-operations of `ENCODE` that fill its tables (R133). -/
def buildTables (s : State) : Flow State :=
  (((((enterSequence s).andThen freqOp).andThen mergeOp).andThen placeOp).andThen serializeOp).andThen codebuildOp

/-- `ENCODE` fills the tables and then writes the result (R133). -/
theorem encodeFlow_eq (s : State) : encodeFlow s = ((buildTables s).andThen hdrwriteOp).andThen packOp := rfl

/-- On a short input in range, at `MAXCODELEN` 255, the tables are filled unless `PLACE` faults (R133, R191). -/
theorem buildTables_cases {s : State} (hop : s.op = .encode) (hrange : s.off.toNat + s.len.toNat ≤ s.cfg.inSize)
    (hlen : s.len.toNat < 16777216) (hmax : s.cfg.maxCodeLen = 255) :
    (∃ s', buildTables s = .raise .placementUnsatisfiable s') ∨
      ∃ t, buildTables s = .ok t ∧ EncodeKeeps s t ∧ TablesBuilt t := by
  have henter : enterSequence s = .ok (enterPhase .freq s) := by
    rw [enterSequence, if_neg (not_lt.2 hrange), hop]
    rfl
  obtain ⟨s2, h2, hk2, hcounted⟩ := freqOp_counted (s := enterPhase .freq s) hrange hlen
  obtain ⟨s3, h3, hk3, hmerged⟩ := mergeOp_merged hcounted
  have hfront : buildTables s = ((placeOp s3).andThen serializeOp).andThen codebuildOp := by
    rw [buildTables, henter, Flow.andThen_ok, h2, Flow.andThen_ok, h3, Flow.andThen_ok]
  have hk0 : EncodeKeeps s (enterPhase .freq s) := ⟨rfl, rfl, rfl, rfl, rfl, rfl, rfl⟩
  have hkeep3 := (hk0.trans hk2).trans hk3
  rcases placeOp_placed hmerged with ⟨s', hraise⟩ | ⟨s4, h4, hk4, hplaced⟩
  · exact .inl ⟨s', by rw [hfront, hraise, Flow.andThen_raise, Flow.andThen_raise]⟩
  · obtain ⟨s5, h5, hk5, hser⟩ := serializeOp_serialized hplaced
    have hkeep5 := (hkeep3.trans hk4).trans hk5
    obtain ⟨s6, h6, hk6, hbuilt⟩ := codebuildOp_built hser (by rw [hkeep5.cfg, hmax])
    exact .inr ⟨s6, by rw [hfront, h4, Flow.andThen_ok, h5, Flow.andThen_ok, h6], hkeep5.trans hk6, hbuilt⟩

/-! ### ENCODE as a whole -/

/-- Paths from the root have at most 255 bits, so the coded input has at most 255 bits a byte. -/
theorem codedBits_length_le {t : State} (h : TablesBuilt t) : (codedBits t).length ≤ t.len.toNat * 255 := by
  have hn := h.shape.1
  have hroot : (BitVec.ofNat 8 (t.n.toNat - 2)).toNat = t.n.toNat - 2 := by
    rw [BitVec.toNat_ofNat]
    omega
  have hcode : ∀ x ∈ (inputOf t).map (fun v => (entry t.code v).length), x ≤ 255 := by
    intro x hx
    obtain ⟨v, hv, rfl⟩ := List.mem_map.1 hx
    have := leafAt_length h.shape (by omega) (h.paths v hv)
    omega
  have hsum := List.sum_le_card_nsmul _ _ hcode
  rw [List.length_map, inputOf, inBytes_length, smul_eq_mul] at hsum
  rw [codedBits, List.length_flatMap]
  exact hsum

/-- With the tables filled, `ENCODE` overflows `OUT` or leaves the encoded input there and ends in `DONE` (R133, R140). -/
theorem writeResult_cases {t : State} (h : TablesBuilt t) (hop : t.op = .encode) (hwf : Memory.wf t.outMem)
    (hrange : t.off.toNat + t.len.toNat ≤ t.cfg.inSize) (hlen : t.len.toNat < 16777216) :
    (∃ s', (hdrwriteOp t).andThen packOp = .raise .outOverflow s') ∨
      ∃ u, (hdrwriteOp t).andThen packOp = .ok u ∧
        u.status = { t.status with phase := .none, state := .done } ∧
        EncodedAt u.outMem 0 u.outLen.toNat (inputOf t) t.n.toNat t.stem t.rank t.code := by
  have hn := h.shape.1
  rcases hdrwriteOp_cases hwf with ⟨s', hraise⟩ | ⟨hfits, w, hhdr, hw⟩
  · exact .inl ⟨s', by rw [hraise, Flow.andThen_raise]⟩
  have hbits := codedBits_length_le h
  rw [totalBits_eq_length h.freq] at hfits
  change fitsOut t.cfg (4 + 2 * t.n.toNat + 4 * groupCount (codedBits t).length) at hfits
  have hlimit : 4 + 2 * t.n.toNat + 4 * groupCount (codedBits t).length < 4294967296 := by
    simp only [groupCount]
    omega
  have hopos : w.opos.toNat = 4 + 2 * t.n.toNat := by
    rw [hw.opos, BitVec.toNat_ofNat]
    omega
  have hcoded : codedBits w = codedBits t := by
    rw [codedBits, codedBits, inputOf, inputOf, hw.inMem, hw.off, hw.len, hw.code]
  rw [← hw.cfg] at hfits
  obtain ⟨acc, rem, opos, m, hpack, hend, hstream, hkept⟩ := packOp_ok hw.wf (by rwa [hw.off, hw.len, hw.cfg]) hfits hlimit
    (by rw [hopos, hcoded])
  rw [hopos, hcoded] at hend hstream
  rw [hopos] at hkept
  have hbyte : ∀ a < 4 + 2 * t.n.toNat, Memory.read m (0 + a) = Memory.read w.outMem a := fun a ha => by
    rw [Nat.zero_add, hkept a ha]
  refine .inr ⟨endCommand { w with acc := acc, rem := rem, opos := opos, outMem := m },
    by rw [hhdr, Flow.andThen_ok, hpack], by rw [endCommand_status, hw.status], ?_⟩
  rw [endCommand_outLen, endCommand_outMem, hw.op, hop]
  refine ⟨h.shape, h.contract, h.sentinel, h.paths, hend, ?_, ?_, ?_, fun i hi b hne => ?_, ?_⟩
  · exact (hkept 0 (by omega)).trans hw.tag
  · rw [hbyte 3 (by omega), hbyte 2 (by omega), hbyte 1 (by omega), hw.length, BitVec.toNat_setWidth, inputOf,
      inBytes_length]
    omega
  · rw [hbyte 4 (by omega)]
    exact (congrArg BitVec.toNat (hw.table 0 (by omega))).trans h.count
  · have hlt := slotIndex_lt h.contract hi b
    rw [Nat.add_assoc, hbyte _ (by omega), hw.table _ hlt, BitVec.ofNat_toNat, BitVec.setWidth_eq, h.slots i hi b hne]
  · simp only [Nat.zero_add]
    exact hstream

/-- `ENCODE` of a short input in range, at `MAXCODELEN` 255: a placement fault, an overflow of `OUT`, or the encoded
input in `OUT` and `DONE` (R133, R140, R142). -/
theorem encodeFlow_cases {s : State} (hop : s.op = .encode) (hrange : s.off.toNat + s.len.toNat ≤ s.cfg.inSize)
    (hlen : s.len.toNat < 16777216) (hmax : s.cfg.maxCodeLen = 255) (hwf : Memory.wf s.outMem) :
    (∃ e s', encodeFlow s = .raise e s' ∧ (e = .placementUnsatisfiable ∨ e = .outOverflow)) ∨
      ∃ u n stem rank code, encodeFlow s = .ok u ∧ u.status = { s.status with phase := .none, state := .done } ∧
        EncodedAt u.outMem 0 u.outLen.toNat (inputOf s) n stem rank code := by
  rcases buildTables_cases hop hrange hlen hmax with ⟨s', hraise⟩ | ⟨t, hbuild, hkeep, hbuilt⟩
  · exact .inl ⟨_, s', by rw [encodeFlow_eq, hraise, Flow.andThen_raise, Flow.andThen_raise], .inl rfl⟩
  · have hflow : encodeFlow s = (hdrwriteOp t).andThen packOp := by rw [encodeFlow_eq, hbuild, Flow.andThen_ok]
    rcases writeResult_cases hbuilt (hkeep.op.trans hop) (by rwa [hkeep.outMem]) (by rwa [hkeep.off, hkeep.len, hkeep.cfg])
      (by rwa [hkeep.len]) with ⟨s', hraise⟩ | ⟨u, hu, hstatus, henc⟩
    · exact .inl ⟨_, s', hflow.trans hraise, .inr rfl⟩
    · rw [hkeep.inputOf] at henc
      exact .inr ⟨u, _, _, _, _, hflow.trans hu, by rw [hstatus, hkeep.status], henc⟩

end Sys2Proof.Machine
end

section
/-! The walk of the decoder (46_bit_walker.md R255 to R261): the walk over an encoded buffer gives the input back, and the
loops of `DWALK` follow the walk. -/

namespace Sys2Proof.Machine

open Sys2Proof.Safety

/-! ### The walk over an encoded buffer (R255 to R261) -/

theorem getLsbD_refByte (f1 f2 : Bool) (skip : BitVec 6) (i : Nat) : (refByte f1 f2 skip).getLsbD i =
    if i < 6 then skip.getLsbD i else (BitVec.ofBool f1 ++ BitVec.ofBool f2).getLsbD (i - 6) := BitVec.getLsbD_append

/-- The skip of a reference, as the walk reads it (R96, R97). -/
theorem refByte_skip (f1 f2 : Bool) (skip : BitVec 6) : (refByte f1 f2 skip).toNat % 64 = skip.toNat := by
  have h : (refByte f1 f2 skip).setWidth 6 = skip := by
    refine BitVec.eq_of_getLsbD_eq fun i hi => ?_
    simp [getLsbD_refByte, hi]
  simpa using congrArg BitVec.toNat h

/-- The flags of a reference, as the walk reads them (R96, R98). -/
theorem refByte_flag (f1 f2 : Bool) (skip : BitVec 6) (b : Bool) :
    (refByte f1 f2 skip).getLsbD (if b then 6 else 7) = if b then f2 else f1 := by
  have h2 (i : Nat) : (BitVec.ofBool f1 ++ BitVec.ofBool f2).getLsbD i =
      if i < 1 then (BitVec.ofBool f2).getLsbD i else (BitVec.ofBool f1).getLsbD (i - 1) := BitVec.getLsbD_append
  rw [getLsbD_refByte, h2]
  cases b <;> simp

/-- One step of the walk, past the bound or not, to a literal or a reference (R257). -/
theorem walkStream_cons {table : Nat → Byte} {cnt : Nat} {boot cur : Byte} {b : Bool} {bits : List Bool} {pos p want : Nat}
    (hp : pos + cur.toNat % 64 + 1 = p) (hle : p ≤ cnt) :
    walkStream table cnt boot (b :: bits) pos cur (want + 1) =
      if cur.getLsbD (if b then 6 else 7) then
        (walkStream table cnt boot bits 0 boot want).map fun r => (table (2 * p + b.toNat) :: r.1, r.2 + 1)
      else (walkStream table cnt boot bits p (table (2 * p + b.toNat)) (want + 1)).map fun r => (r.1, r.2 + 1) := by
  subst hp
  simp only [walkStream, if_neg (not_lt.2 hle)]

section Walk

variable {stem : Vector Stem 256} {rank : Vector Byte 256} {n : Nat} {table : Nat → Byte}

/-- The entry that refers to stem `c` from rank `j`: its flags over the distance minus 1 (R202). -/
def refTo (stem : Vector Stem 256) (rank : Vector Byte 256) (j : Nat) (c : Byte) : Byte :=
  refByte (entry stem c).f1 (entry stem c).f2 (BitVec.ofNat 6 ((entry rank c).toNat - j - 1))

theorem slotValue_eq (i : Byte) (b : Bool) : slotValue stem rank i b =
    if branchLeaf (entry stem i) b then branchByte (entry stem i) b
    else refTo stem rank (entry rank i).toNat (branchByte (entry stem i) b) := rfl

/-- Holding the reference to stem `c` at `j`, the walk takes the path `q` from `c` to its leaf, emits it and stands at the
bootstrap entry again (R257, R259). -/
theorem walkStream_path (hc : PlacementContract stem rank n) (hs : TreeShape stem n)
    (htable : ∀ i < n, ∀ b, slotIndex rank (BitVec.ofNat 8 i) b ≠ 0 →
      table (slotIndex rank (BitVec.ofNat 8 i) b).toNat = slotValue stem rank (BitVec.ofNat 8 i) b)
    (boot : Byte) (rest : List Bool) (want : Nat) {q : List Bool} {c v : Byte} {j : Nat} (hreal : c.toNat < n - 1)
    (hj : j < (entry rank c).toNat ∧ (entry rank c).toNat ≤ j + 64) (hq : leafAt stem c q = some v) :
    walkStream table (n - 1) boot (q ++ rest) j (refTo stem rank j c) (want + 1) =
      (walkStream table (n - 1) boot rest 0 boot want).map fun r => (v :: r.1, r.2 + q.length) := by
  induction q generalizing c j with
  | nil => cases hq
  | cons b q ih =>
    obtain ⟨hlt, -, hreach⟩ := hc
    have hrank : (entry rank c).toNat < n := by simpa only [at256_toNat] using hlt c.toNat (by omega)
    have hp : j + (refTo stem rank j c).toNat % 64 + 1 = (entry rank c).toNat := by
      rw [refTo, refByte_skip, BitVec.toNat_ofNat]
      omega
    have hindex := slotIndex_toNat rank c b
    have hslot : table (2 * (entry rank c).toNat + b.toNat) = slotValue stem rank c b := by
      have := htable c.toNat (by omega) b
      rw [ofNat8_toNat, hindex] at this
      refine this fun h0 => ?_
      have hzero : (0 : BitVec 9).toNat = 0 := rfl
      rw [h0, hzero] at hindex
      omega
    have hflag : (refTo stem rank j c).getLsbD (if b then 6 else 7) = branchLeaf (entry stem c) b := refByte_flag _ _ _ b
    rw [List.cons_append, walkStream_cons hp (by omega), hflag, hslot, slotValue_eq]
    rw [leafAt_cons] at hq
    by_cases hf : branchLeaf (entry stem c) b = true
    · rw [if_pos hf, Option.ite_none_right_eq_some, Option.some.injEq] at hq
      obtain ⟨rfl, rfl⟩ := hq
      rw [if_pos hf, if_pos hf]
      rfl
    · rw [if_neg hf] at hq
      have hkid : branchByte (entry stem c) b ∈ kids stem c := mem_stemChildren_iff.2 ⟨b, by simpa using hf, rfl⟩
      have hdist := hreach c.toNat (by omega) _ (by rw [at256_toNat]; exact hkid)
      rw [at256_toNat] at hdist
      have := kids_lt hs hreal hkid
      rw [if_neg hf, if_neg hf, ih (by omega) hdist hq, Option.map_map]
      rfl

/-- From the bootstrap entry the walk emits the input whose paths the stream holds, and uses no bit more (R142). -/
theorem walkStream_input (hc : PlacementContract stem rank n) (hs : TreeShape stem n)
    (hsent : entry rank (BitVec.ofNat 8 (n - 1)) = 0)
    (htable : ∀ i < n, ∀ b, slotIndex rank (BitVec.ofNat 8 i) b ≠ 0 →
      table (slotIndex rank (BitVec.ofNat 8 i) b).toNat = slotValue stem rank (BitVec.ofNat 8 i) b)
    {code : Vector Code 256} {input : List Byte}
    (hpaths : ∀ v ∈ input, leafAt stem (BitVec.ofNat 8 (n - 2)) (entry code v) = some v) (pad : List Bool) :
    walkStream table (n - 1) (table 1) (input.flatMap (entry code) ++ pad) 0 (table 1) input.length =
      some (input, (input.flatMap (entry code)).length) := by
  have hn := hs.1
  have hroot : (BitVec.ofNat 8 (n - 2)).toNat = n - 2 := by
    rw [BitVec.toNat_ofNat]
    omega
  have hindex := slotIndex_toNat rank (BitVec.ofNat 8 (n - 1)) true
  have hsent0 : (entry rank (BitVec.ofNat 8 (n - 1))).toNat = 0 := by rw [hsent]; rfl
  rw [hsent0] at hindex
  have hboot : table 1 = refTo stem rank 0 (BitVec.ofNat 8 (n - 2)) := by
    have := htable (n - 1) (by omega) true fun h0 => by rw [h0] at hindex; cases hindex
    rw [hindex, slotValue_eq, hsent0] at this
    simpa [branchLeaf, branchByte, sentinel_stem hs, childId_ofNat] using this
  have hdist := hc.2.2 (n - 1) (by omega) (BitVec.ofNat 8 (n - 2)) (by
    have := sentinel_kids hs
    rw [kids] at this
    rw [at256, this]
    exact List.mem_singleton_self _)
  rw [at256, hsent0] at hdist
  induction input with
  | nil => simp
  | cons v input ih =>
    have hv := hpaths v List.mem_cons_self
    have hrest := ih fun w hw => hpaths w (List.mem_cons_of_mem _ hw)
    have hpath := walkStream_path (table := table) hc hs htable (table 1) (input.flatMap (entry code) ++ pad)
      input.length (by omega) hdist hv
    rw [← hboot, hrest] at hpath
    rw [List.flatMap_cons, List.append_assoc, List.length_cons, hpath]
    simp [Nat.add_comm]

end Walk

/-! ### The loops of DWALK follow the walk (R255 to R257) -/

/-- The low `count` bits of a word, the highest first: the order in which a group is walked (R256, R65). -/
def wordBits (w : Word) : Nat → List Bool
  | 0 => []
  | count + 1 => w.getLsbD count :: wordBits w count

/-- The table the walk of a state reads (R257). -/
def tableOf (s : State) (i : Nat) : Byte := Memory.read s.inMem (s.off.toNat + 4 + i)

/-- `t` is `s` after the walk has emitted `out`: the bytes stand in `OUT` from `OUTCNT` on, and nothing but the walk's own
registers and those bytes has changed (R257, R259). -/
structure Emitted (s : State) (out : List Byte) (t : State) : Prop where
  keeps : WalkKeeps s t
  outcnt : t.outcnt.toNat = s.outcnt.toNat + out.length
  wf : Memory.wf t.outMem
  bytes : ∀ i < out.length, Memory.read t.outMem (s.outcnt.toNat + i) = out.getD i 0
  below : ∀ a < s.outcnt.toNat, Memory.read t.outMem a = Memory.read s.outMem a

theorem Emitted.refl {s : State} (h : Memory.wf s.outMem) : Emitted s [] s :=
  ⟨WalkKeeps.refl s, rfl, h, fun i hi => by simp at hi, fun _ _ => rfl⟩

theorem Emitted.trans {s t u : State} {out out' : List Byte} (h : Emitted s out t) (h' : Emitted t out' u) :
    Emitted s (out ++ out') u := by
  have hcnt := h.outcnt
  refine ⟨h.keeps.trans h'.keeps, by rw [h'.outcnt, hcnt, List.length_append, Nat.add_assoc], h'.wf, fun i hi => ?_,
    fun a ha => by rw [h'.below a (by omega), h.below a ha]⟩
  rw [List.length_append] at hi
  by_cases hlt : i < out.length
  · rw [h'.below _ (by omega), h.bytes i hlt, List.getD_append _ _ _ _ hlt]
  · have := h'.bytes (i - out.length) (by omega)
    rw [List.getD_append_right _ _ _ _ (by omega), ← this, hcnt]
    congr 1
    omega

/-- The walk can run: the table and the groups lie in `IN`, the result fits `OUT` (R251, R254). -/
structure WalkReady (s : State) : Prop where
  table : s.off.toNat + 6 + 2 * s.cnt.toNat ≤ s.cfg.inSize
  payload : s.pay.toNat + 4 * s.ng.toNat ≤ s.cfg.inSize
  fits : fitsOut s.cfg s.explen.toNat
  count : s.outcnt.toNat ≤ s.explen.toNat
  wf : Memory.wf s.outMem

/-- The walk of a bitstream from where a state stands emits `out` and uses `used` bits (R256). -/
def Walks (s : State) (bits : List Bool) (out : List Byte) (used : Nat) : Prop :=
  walkStream (tableOf s) s.cnt.toNat s.boot bits s.pos.toNat s.cur (s.explen.toNat - s.outcnt.toNat) = some (out, used)

/-- A walk that wants no more byte is over. -/
theorem Walks.of_done {s : State} {bits : List Bool} {out : List Byte} {used : Nat} (h : Walks s bits out used)
    (hdone : s.explen.toNat ≤ s.outcnt.toNat) : out = [] ∧ used = 0 := by
  rw [Walks, Nat.sub_eq_zero_of_le hdone, walkStream_zero] at h
  simpa [eq_comm] using h

section Keeps

variable {s t : State} {out : List Byte}

theorem WalkKeeps.cfg (h : WalkKeeps s t) : t.cfg = s.cfg := by rw [h]
theorem WalkKeeps.off (h : WalkKeeps s t) : t.off = s.off := by rw [h]
theorem WalkKeeps.len (h : WalkKeeps s t) : t.len = s.len := by rw [h]
theorem WalkKeeps.op (h : WalkKeeps s t) : t.op = s.op := by rw [h]
theorem WalkKeeps.cnt (h : WalkKeeps s t) : t.cnt = s.cnt := by rw [h]
theorem WalkKeeps.boot (h : WalkKeeps s t) : t.boot = s.boot := by rw [h]
theorem WalkKeeps.explen (h : WalkKeeps s t) : t.explen = s.explen := by rw [h]
theorem WalkKeeps.pay (h : WalkKeeps s t) : t.pay = s.pay := by rw [h]
theorem WalkKeeps.ng (h : WalkKeeps s t) : t.ng = s.ng := by rw [h]
theorem WalkKeeps.inMem (h : WalkKeeps s t) : t.inMem = s.inMem := by rw [h]
theorem WalkKeeps.status (h : WalkKeeps s t) : t.status = s.status := by rw [h]
theorem WalkKeeps.expLen (h : WalkKeeps s t) : t.expLen = s.expLen := by rw [h]

theorem WalkKeeps.tableOf (h : WalkKeeps s t) : tableOf t = tableOf s := by
  funext i
  rw [Machine.tableOf, Machine.tableOf, h.inMem, h.off]

theorem WalkReady.of_emitted (h : WalkReady s) (he : Emitted s out t) (hout : s.outcnt.toNat + out.length ≤ s.explen.toNat) :
    WalkReady t := by
  have hk := he.keeps
  refine ⟨?_, ?_, ?_, ?_, he.wf⟩
  · rw [hk.off, hk.cnt, hk.cfg]
    exact h.table
  · rw [hk.pay, hk.ng, hk.cfg]
    exact h.payload
  · rw [hk.cfg, hk.explen]
    exact h.fits
  · rw [he.outcnt, hk.explen]
    exact hout

end Keeps

/-- The move of a step inside the bound (R257). -/
theorem advance_ok {s : State} (h : nextPosition s ≤ s.cnt.toNat) :
    advance s = .ok { s with k := s.k - 1, pos := BitVec.ofNat 9 (nextPosition s) } := by
  rcases advance_cases s with ⟨hlt, -⟩ | ⟨-, hok⟩
  · omega
  · exact hok

/-- The state a step moves to before it reads the table (R257). -/
def moved (s : State) : State := { s with k := s.k - 1, pos := BitVec.ofNat 9 (nextPosition s) }

/-- The table byte a step reads (R257). -/
def stepByte (s : State) : Byte := tableOf s (2 * nextPosition s + (nextBit s).toNat)

/-- A step inside the bound takes its table byte as a literal or as a reference, by the flag held (R98, R257). -/
theorem stepBit_eq {s : State} (hr : WalkReady s) (hp : nextPosition s ≤ s.cnt.toNat) : stepBit s =
    if leafFlag s.cur (nextBit s) then leafItem (stepByte s) (moved s) else .ok (refItem (stepByte s) (moved s)) := by
  have htable := hr.table
  have hbit := Bool.toNat_lt (nextBit s)
  have hpos : (moved s).pos.toNat = nextPosition s := by
    rw [moved, BitVec.toNat_ofNat]
    omega
  have haddr : tableAddress (moved s) (nextBit s) = s.off.toNat + 4 + (2 * nextPosition s + (nextBit s).toNat) := by
    rw [tableAddress, hpos, Nat.add_assoc]
    rfl
  have hread : readIn (moved s) (tableAddress (moved s) (nextBit s)) = .ok (stepByte s) := by
    rw [haddr]
    exact readIn_ok (s := moved s) (by change _ < s.cfg.inSize; omega)
  rw [stepBit, advance_ok hp, Flow.andThen_ok]
  change interpret (nextBit s) (moved s) = _
  rw [interpret, hread, Flow.access_ok]
  rfl

theorem emitted_moved {s : State} (h : Memory.wf s.outMem) : Emitted s [] (moved s) :=
  ⟨rfl, rfl, h, fun i hi => by simp at hi, fun _ _ => rfl⟩

theorem emitted_refItem {s : State} (h : Memory.wf s.outMem) (e : Byte) : Emitted s [] (refItem e s) :=
  ⟨rfl, rfl, h, fun i hi => by simp at hi, fun _ _ => rfl⟩

/-- A literal that is still wanted is emitted (R257, R259). -/
theorem leafItem_emitted {s : State} (hr : WalkReady s) (hlt : s.outcnt.toNat < s.explen.toNat) (e : Byte) :
    ∃ t, leafItem e s = .ok t ∧ Emitted s [e] t ∧ t.cur = s.boot ∧ t.pos = 0 ∧ t.k = s.k ∧ t.w = s.w ∧ t.g = s.g := by
  have hinc : (s.outcnt + 1).toNat = s.outcnt.toNat + 1 := toNat_add_one (by have := s.explen.isLt; omega)
  have hleaf : leafItem e s = .ok { s with
      outMem := Memory.write s.outMem s.outcnt.toNat e, outcnt := s.outcnt + 1, cur := s.boot, pos := 0 } := by
    rw [leafItem, writeOut_ok (outHas_of_fitsOut hr.fits hlt), Flow.access_ok]
  refine ⟨_, hleaf, ⟨rfl, hinc, Memory.write_wf hr.wf _ _, fun i hi => ?_, fun a ha => ?_⟩, rfl, rfl, rfl, rfl, rfl⟩
  · obtain rfl : i = 0 := by simpa using hi
    exact (Memory.read_write hr.wf _ _ _).trans (if_pos rfl)
  · exact (Memory.read_write hr.wf _ _ _).trans (if_neg (by omega))

/-- A step of the machine is a step of the walk (R257). -/
theorem stepBit_walks {s : State} (hr : WalkReady s) (hlt : s.outcnt.toNat < s.explen.toNat) {rest : List Bool}
    {out : List Byte} {used : Nat} (h : Walks s (nextBit s :: rest) out used) :
    ∃ t out1 out2 used', stepBit s = .ok t ∧ t.k = s.k - 1 ∧ t.w = s.w ∧ t.g = s.g ∧ Emitted s out1 t ∧ WalkReady t ∧
      Walks t rest out2 used' ∧ out = out1 ++ out2 ∧ used = used' + 1 := by
  obtain ⟨want, hwant⟩ : ∃ want, s.explen.toNat - s.outcnt.toNat = want + 1 :=
    ⟨s.explen.toNat - s.outcnt.toNat - 1, by omega⟩
  have hskip : (refSkip s.cur).toNat = s.cur.toNat % 64 := by simp [refSkip]
  have hp : s.pos.toNat + s.cur.toNat % 64 + 1 = nextPosition s := by rw [nextPosition, hskip]
  rw [Walks, hwant] at h
  have hle : nextPosition s ≤ s.cnt.toNat := by
    by_contra hgt
    simp [walkStream, hp, not_le.1 hgt] at h
  have hflag : s.cur.getLsbD (if nextBit s then 6 else 7) = leafFlag s.cur (nextBit s) := by
    cases nextBit s <;> rfl
  rw [walkStream_cons hp hle, hflag] at h
  have hstep := stepBit_eq hr hle
  have hmoved := emitted_moved hr.wf
  by_cases hf : leafFlag s.cur (nextBit s) = true
  · rw [if_pos hf] at h hstep
    obtain ⟨⟨out2, used'⟩, hwalk, heq⟩ := Option.map_eq_some_iff.1 h
    obtain ⟨rfl, rfl⟩ := Prod.mk.inj heq
    obtain ⟨t, hleaf, hemit', hcur, hpos, hk, hw, hg⟩ := leafItem_emitted (hr.of_emitted hmoved hlt.le) hlt (stepByte s)
    have hemit := hmoved.trans hemit'
    have hkeep := hemit.keeps
    refine ⟨t, _, out2, used', hstep.trans hleaf, hk, hw, hg, hemit, hr.of_emitted hemit (by simpa using hlt), ?_, rfl, rfl⟩
    have hboot : t.cur = s.boot := hcur
    rw [Walks, hkeep.tableOf, hkeep.cnt, hkeep.boot, hkeep.explen, hboot, hpos, hemit.outcnt, List.nil_append,
      List.length_singleton, ← Nat.sub_sub, hwant]
    exact hwalk
  · rw [if_neg hf] at h hstep
    obtain ⟨⟨out2, used'⟩, hwalk, heq⟩ := Option.map_eq_some_iff.1 h
    obtain ⟨rfl, rfl⟩ := Prod.mk.inj heq
    have hemit := hmoved.trans (emitted_refItem (s := moved s) hr.wf (stepByte s))
    refine ⟨_, _, out2, used', hstep, rfl, rfl, rfl, hemit, hr.of_emitted hemit hlt.le, ?_, rfl, rfl⟩
    have hpos : (BitVec.ofNat 9 (nextPosition s)).toNat = nextPosition s := by
      rw [BitVec.toNat_ofNat]
      omega
    change walkStream (tableOf s) s.cnt.toNat s.boot rest (BitVec.ofNat 9 (nextPosition s)).toNat (stepByte s)
      (s.explen.toNat - s.outcnt.toNat) = _
    rw [hpos, hwant]
    exact hwalk

/-- The inner loop walks the bits left of a group, or stops with `left` of them when the length is reached (R256). -/
theorem walkBits_walks (count : Nat) {s : State} (hr : WalkReady s) (hk : s.k.toNat = count) {rest : List Bool}
    {out : List Byte} {used : Nat} (h : Walks s (wordBits s.w count ++ rest) out used) :
    ∃ t out1 out2 used' left, walkBits count s = .ok t ∧ t.g = s.g ∧ Emitted s out1 t ∧ WalkReady t ∧
      Walks t (wordBits s.w left ++ rest) out2 used' ∧ out = out1 ++ out2 ∧ used + left = used' + count ∧ left ≤ count ∧
      (left = 0 ∨ t.outcnt = t.explen) := by
  induction count generalizing s out used with
  | zero => exact ⟨s, [], out, used, 0, rfl, rfl, Emitted.refl hr.wf, hr, h, rfl, rfl, le_rfl, .inl rfl⟩
  | succ count ih =>
    by_cases hdone : s.outcnt = s.explen
    · exact ⟨s, [], out, used, count + 1, by rw [walkBits, if_pos hdone], rfl, Emitted.refl hr.wf, hr, h, rfl, rfl, le_rfl,
        .inr hdone⟩
    · have hlt : s.outcnt.toNat < s.explen.toNat :=
        lt_of_le_of_ne hr.count fun e => hdone (BitVec.eq_of_toNat_eq e)
      have hbit : nextBit s = s.w.getLsbD count := by rw [nextBit, hk, Nat.add_sub_cancel]
      rw [wordBits, List.cons_append, ← hbit] at h
      obtain ⟨t, out1, out2, used1, hstep, hk', hw, hg, hemit, hready, hwalk, rfl, rfl⟩ := stepBit_walks hr hlt h
      have hcount : t.k.toNat = count := by
        rw [hk', toNat_sub_one (by omega), hk, Nat.add_sub_cancel]
      rw [← hw] at hwalk
      obtain ⟨u, out3, out4, used2, left, hloop, hg', hemit', hready', hwalk', rfl, hused, hleft, hend⟩ :=
        ih hready hcount hwalk
      rw [hw] at hwalk'
      refine ⟨u, out1 ++ out3, out4, used2, left, by rw [walkBits, if_neg hdone, hstep, Flow.andThen_ok, hloop],
        hg'.trans hg, hemit.trans hemit', hready', hwalk', by rw [List.append_assoc], by omega, by omega, hend⟩

theorem wordBits_eq (w : Word) (count : Nat) :
    wordBits w count = (List.range count).map fun i => w.getLsbD (count - 1 - i) := by
  induction count with
  | zero => rfl
  | succ count ih =>
    rw [wordBits, ih, List.range_succ_eq_map, List.map_cons, List.map_map]
    refine List.cons_eq_cons.2 ⟨rfl, List.map_congr_left fun i _ => ?_⟩
    simp only [Function.comp_apply, Nat.succ_eq_add_one]
    congr 1
    omega

theorem getLsbD_wordOfBytes (b0 b1 b2 b3 : Byte) (i : Nat) : (wordOfBytes b0 b1 b2 b3).getLsbD i =
    if i < 8 then b0.getLsbD i else (b3 ++ b2 ++ b1).getLsbD (i - 8) := BitVec.getLsbD_append

/-- The bytes of a word read from four bytes are those bytes (R64). -/
theorem byteOfWord_wordOfBytes (b : Nat → Byte) {j : Nat} (hj : j < 4) :
    byteOfWord (wordOfBytes (b 0) (b 1) (b 2) (b 3)) j = b j := by
  refine BitVec.eq_of_getLsbD_eq fun i hi => ?_
  rw [byteOfWord, BitVec.getLsbD_extractLsb', getLsbD_wordOfBytes, decide_eq_true hi, Bool.true_and]
  simp only [BitVec.getLsbD_append]
  match j, hj with
  | 0, _ => simp [hi]
  | 1, _ => simp [hi]
  | 2, _ => simp [show ¬ 16 + i < 8 by omega, show ¬ 16 + i - 8 < 8 by omega, show 16 + i - 8 - 8 = i by omega, hi]
  | 3, _ => simp [show ¬ 24 + i < 8 by omega, show ¬ 24 + i - 8 < 8 by omega, show ¬ 24 + i - 8 - 8 < 8 by omega,
      show 24 + i - 8 - 8 - 8 = i by omega]

/-- The word of the group at an address (R64). -/
def wordAt (m : Memory) (a : Nat) : Word :=
  wordOfBytes (Memory.read m (a + 0)) (Memory.read m (a + 1)) (Memory.read m (a + 2)) (Memory.read m (a + 3))

/-- A bitstream is its first group's word, bit 31 first, and the groups after it (R65). -/
theorem streamBits_succ (m : Memory) (a groups : Nat) :
    streamBits m a (groups + 1) = wordBits (wordAt m a) 32 ++ streamBits m (a + 4) groups := by
  rw [streamBits, Nat.mul_succ, Nat.add_comm, List.range_add, List.map_append, List.map_map, wordBits_eq, streamBits]
  congr 1
  · refine List.map_congr_left fun i hi => ?_
    rw [List.mem_range] at hi
    rw [streamBit_of_word (w := wordAt m a), Nat.mod_eq_of_lt hi]
    intro j hj
    rw [Nat.div_eq_of_lt hi, wordAt, byteOfWord_wordOfBytes (fun j => Memory.read m (a + j)) hj]
    simp
  · refine List.map_congr_left fun i _ => ?_
    have hmod : (32 + i) % 32 = i % 32 := by omega
    have hdiv : 4 * ((32 + i) / 32) = 4 + 4 * (i / 32) := by omega
    simp only [Function.comp_apply, streamBit, hmod, hdiv, Nat.add_assoc]

/-- A group that lies in `IN` is read (R256). -/
theorem readGroup_ok {s : State} (h : groupAddress s + 4 ≤ s.cfg.inSize) :
    readGroup s = .ok (groupItem (wordAt s.inMem (groupAddress s)) s) := by
  rw [readGroup, readInRange_ok h]
  simp [inBytes, List.range_succ, wordAt]

/-- Walking a bit uses a bit. -/
theorem walkStream_used_pos {table : Nat → Byte} {cnt : Nat} {boot cur : Byte} {b : Bool} {bits : List Bool}
    {pos want used : Nat} {out : List Byte}
    (h : walkStream table cnt boot (b :: bits) pos cur (want + 1) = some (out, used)) : 0 < used := by
  by_cases hle : pos + cur.toNat % 64 + 1 ≤ cnt
  · rw [walkStream_cons rfl hle] at h
    by_cases hf : cur.getLsbD (if b then 6 else 7) = true
    · rw [if_pos hf] at h
      obtain ⟨r, -, heq⟩ := Option.map_eq_some_iff.1 h
      rw [← (Prod.mk.inj heq).2]
      exact Nat.succ_pos _
    · rw [if_neg hf] at h
      obtain ⟨r, -, heq⟩ := Option.map_eq_some_iff.1 h
      rw [← (Prod.mk.inj heq).2]
      exact Nat.succ_pos _
  · simp [walkStream, not_le.1 hle] at h

/-- The group loop walks the groups left: it emits what the walk emits, and fetches as many groups as hold the bits used
(R256, R261). -/
theorem walkGroups_walks (count : Nat) {s : State} (hr : WalkReady s) (hg : s.g.toNat + count = s.ng.toNat)
    {out : List Byte} {used : Nat} (h : Walks s (streamBits s.inMem (groupAddress s) count) out used) :
    ∃ t, walkGroups count s = .ok t ∧ Emitted s out t ∧ t.g.toNat = s.g.toNat + (used + 31) / 32 := by
  induction count generalizing s out used with
  | zero =>
    rw [streamBits, Nat.mul_zero, List.range_zero, List.map_nil, Walks, walkStream_nil] at h
    obtain ⟨rfl, rfl⟩ := Prod.mk.inj (Option.some.inj h)
    exact ⟨s, rfl, Emitted.refl hr.wf, by simp⟩
  | succ count ih =>
    by_cases hshort : shortOf s = true
    · have hlt : s.outcnt.toNat < s.explen.toNat := by simpa [shortOf] using hshort
      have hpay := hr.payload
      have hread := readGroup_ok (s := s) (by rw [groupAddress]; omega)
      rw [streamBits_succ] at h
      generalize wordAt s.inMem (groupAddress s) = w at h hread
      have hused : 0 < used := by
        obtain ⟨want, hwant⟩ : ∃ want, s.explen.toNat - s.outcnt.toNat = want + 1 :=
          ⟨s.explen.toNat - s.outcnt.toNat - 1, by omega⟩
        rw [Walks, hwant] at h
        exact walkStream_used_pos h
      have hg1 : (groupItem w s).g.toNat = s.g.toNat + 1 := toNat_add_one (by have := s.ng.isLt; omega)
      have hemit0 : Emitted s [] (groupItem w s) := ⟨rfl, rfl, hr.wf, fun i hi => by simp at hi, fun _ _ => rfl⟩
      have hready0 := hr.of_emitted hemit0 hr.count
      obtain ⟨t, out1, out2, used', left, hbits, hgt, hemit, hready, hwalk, rfl, hsum, hle, hend⟩ :=
        walkBits_walks 32 (s := groupItem w s) hready0 rfl h
      have hkeep := hemit.keeps
      have hngt : t.g.toNat + count = t.ng.toNat := by
        rw [hgt, hg1, hkeep.ng, groupItem_ng]
        omega
      rcases hend with rfl | hdone
      · have haddr : s.pay.toNat + 4 * s.g.toNat + 4 = groupAddress t := by
          rw [groupAddress, hgt, hg1, hkeep.pay, groupItem_pay]
          omega
        rw [wordBits, List.nil_append, groupAddress, haddr, ← hkeep.inMem.trans (groupItem_inMem w s)] at hwalk
        obtain ⟨u, hloop, hemit', hgu⟩ := ih hready hngt hwalk
        refine ⟨u, ?_, (hemit0.trans hemit).trans hemit', ?_⟩
        · rw [walkGroups, if_pos hshort, hread, Flow.andThen_ok, hbits, Flow.andThen_ok, hloop]
        · rw [hgu, hgt, hg1]
          omega
      · obtain ⟨rfl, rfl⟩ := hwalk.of_done (by rw [hdone])
        have hstop : walkGroups count t = .ok t := by
          cases count with
          | zero => rfl
          | succ count => rw [walkGroups, if_neg (by simp [shortOf, hdone])]
        refine ⟨t, ?_, ?_, ?_⟩
        · rw [walkGroups, if_pos hshort, hread, Flow.andThen_ok, hbits, Flow.andThen_ok, hstop]
        · rw [List.append_nil]
          exact hemit0.trans hemit
        · rw [hgt, hg1]
          omega
    · have hle : s.explen.toNat ≤ s.outcnt.toNat := by simpa [shortOf] using hshort
      obtain ⟨rfl, rfl⟩ := h.of_done hle
      exact ⟨s, by rw [walkGroups, if_neg hshort], Emitted.refl hr.wf, by simp⟩

end Sys2Proof.Machine
end

section
/-! `DECODE` of an encoded buffer, and the round trip O49 (40_commands.md R137, R142). -/

namespace Sys2Proof.Machine

open Sys2Proof.Safety

/-! ### DVALIDATE and DWALK on a valid buffer (R251 to R262) -/

/-- `t` is what `DVALIDATE` leaves of `s` on a valid buffer (R251). -/
structure Validated (s t : State) : Prop where
  cfg : t.cfg = s.cfg
  op : t.op = s.op
  off : t.off = s.off
  len : t.len = s.len
  inMem : t.inMem = s.inMem
  outMem : t.outMem = s.outMem
  status : t.status = { s.status with phase := .dwalk }
  cnt : t.cnt = Memory.read s.inMem (s.off.toNat + 4)
  explen : t.explen = Memory.read s.inMem (s.off.toNat + 3) ++ Memory.read s.inMem (s.off.toNat + 2) ++
    Memory.read s.inMem (s.off.toNat + 1)
  boot : t.boot = tableOf s 1
  pay : t.pay.toNat = s.off.toNat + (6 + 2 * t.cnt.toNat)
  ng : t.ng.toNat = (s.len.toNat - (6 + 2 * t.cnt.toNat)) / 4
  expLen : t.expLen = t.explen.setWidth 32

theorem countItem_ok {b : Byte} {s : State} (h : 6 + 2 * b.toNat ≤ s.len.toNat) :
    countItem b s = .ok { s with cnt := b, point := .header } := by
  rcases countItem_cases b s with ⟨hlt, -⟩ | ⟨-, hok⟩
  · omega
  · exact hok

theorem headerItem_ok {tag : Byte} {len : BitVec 24} {s : State} (htag : tag = Config.tag)
    (hfits : fitsOut s.cfg len.toNat) :
    headerItem tag len s = .ok { s with explen := len, point := .boot } := by
  rcases headerItem_cases tag len s with ⟨hne, -⟩ | ⟨-, hexceeds, -⟩ | ⟨-, -, hok⟩
  · exact absurd htag hne
  · rw [exceedsOut_eq_false.2 hfits] at hexceeds
    cases hexceeds
  · exact hok

/-- On a buffer whose header and table are there, with the right tag and a length that fits, `DVALIDATE` goes through
(R251). -/
theorem dvalidateOp_ok {s : State} (hrange : s.off.toNat + s.len.toNat ≤ s.cfg.inSize)
    (htable : 6 + 2 * (Memory.read s.inMem (s.off.toNat + 4)).toNat ≤ s.len.toNat)
    (htag : Memory.read s.inMem s.off.toNat = 0x28)
    (hfits : fitsOut s.cfg (Memory.read s.inMem (s.off.toNat + 3) ++ Memory.read s.inMem (s.off.toNat + 2) ++
      Memory.read s.inMem (s.off.toNat + 1) : BitVec 24).toNat) :
    ∃ t, dvalidateOp s = .ok t ∧ Validated s t := by
  generalize hn : Memory.read s.inMem (s.off.toNat + 4) = n at htable
  generalize hlen : (Memory.read s.inMem (s.off.toNat + 3) ++ Memory.read s.inMem (s.off.toNat + 2) ++
    Memory.read s.inMem (s.off.toNat + 1) : BitVec 24) = len at hfits
  have h1 : lengthTests s = .ok { s with point := .count } := by
    rw [lengthTests, if_neg (by omega), if_neg (by omega)]
  have h2 : readCount { s with point := .count } = .ok { s with cnt := n, point := .header } := by
    have hread : readIn { s with point := .count } (countAddress { s with point := .count }) = .ok n := by
      rw [← hn]
      exact readIn_ok (by change s.off.toNat + 4 < s.cfg.inSize; omega)
    rw [readCount, hread, Flow.access_ok]
    exact countItem_ok (s := { s with point := .count }) htable
  have h3 : readHeader { s with cnt := n, point := .header } = .ok { s with cnt := n, explen := len, point := .boot } := by
    rw [readHeader_ok (by change s.off.toNat + 4 ≤ s.cfg.inSize; omega)]
    change headerItem (Memory.read s.inMem s.off.toNat) (Memory.read s.inMem (s.off.toNat + 3) ++
      Memory.read s.inMem (s.off.toNat + 2) ++ Memory.read s.inMem (s.off.toNat + 1)) _ = _
    rw [hlen]
    exact headerItem_ok htag hfits
  have h4 : readBoot { s with cnt := n, explen := len, point := .boot } =
      .ok (bootItem (tableOf s 1) { s with cnt := n, explen := len, point := .boot }) := by
    have hread : readIn { s with cnt := n, explen := len, point := .boot }
        (bootAddress { s with cnt := n, explen := len, point := .boot }) = .ok (tableOf s 1) :=
      readIn_ok (by change s.off.toNat + 5 < s.cfg.inSize; omega)
    rw [readBoot, hread, Flow.access_ok]
  have hok : dvalidateOp s = .ok (bootItem (tableOf s 1) { s with cnt := n, explen := len, point := .boot }) := by
    rw [dvalidateOp, h1, Flow.andThen_ok, h2, Flow.andThen_ok, h3, Flow.andThen_ok, h4]
  refine ⟨_, hok, rfl, rfl, rfl, rfl, rfl, rfl, rfl, hn.symm, hlen.symm, rfl, ?_, ?_, rfl⟩
  · have := s.off.isLt
    change (BitVec.ofNat 33 (s.off.toNat + (6 + 2 * n.toNat))).toNat = _
    rw [BitVec.toNat_ofNat]
    exact Nat.mod_eq_of_lt (by omega)
  · have := s.len.isLt
    change (BitVec.ofNat 30 ((s.len.toNat - (6 + 2 * n.toNat)) / 4)).toNat = _
    rw [BitVec.toNat_ofNat]
    exact Nat.mod_eq_of_lt (by omega)

/-- When the walk of the payload stays inside the bound, `DWALK` emits its bytes and ends the command (R255 to R262). -/
theorem dwalkOp_ok {s : State} (hr : WalkReady (walkStart s)) {out : List Byte} {used : Nat}
    (h : payloadWalk s = some (out, used)) :
    ∃ t, dwalkOp s = .ok (finishWalk t) ∧ Emitted (walkStart s) out t ∧ t.g.toNat = (used + 31) / 32 := by
  have hwalk : Walks (walkStart s) (streamBits (walkStart s).inMem (groupAddress (walkStart s)) s.ng.toNat) out used := h
  obtain ⟨t, hloop, hemit, hg⟩ := walkGroups_walks s.ng.toNat hr (Nat.zero_add _) hwalk
  exact ⟨t, by rw [dwalkOp, hloop, Flow.andThen_ok], hemit, hg.trans (Nat.zero_add _)⟩

/-! ### DECODE of an encoded buffer (R142) -/

/-- The stream of an encoded buffer is the coded input, padded with 0 to the group (R229, R230). -/
theorem EncodedAt.streamBits_eq {m : Memory} {a size n : Nat} {input : List Byte} {stem : Vector Stem 256}
    {rank : Vector Byte 256} {code : Vector Code 256} (h : EncodedAt m a size input n stem rank code) :
    streamBits m (a + 4 + 2 * n) (groupCount (input.flatMap (entry code)).length) = input.flatMap (entry code) ++
      List.replicate (32 * groupCount (input.flatMap (entry code)).length - (input.flatMap (entry code)).length) false := by
  have hstream := h.stream
  generalize input.flatMap (entry code) = bits at *
  have hle : bits.length ≤ 32 * groupCount bits.length := by
    simp only [groupCount]
    omega
  refine List.ext_getElem ?_ fun i h1 h2 => ?_
  · simp only [streamBits, List.length_map, List.length_range, List.length_append, List.length_replicate]
    omega
  · have hi : i < 32 * groupCount bits.length := by simpa [streamBits] using h1
    rw [← List.getD_eq_getElem _ false h2, getD_append_replicate_false, ← hstream i hi]
    simp [streamBits]

section Decode

variable {s t w : State} {n : Nat} {input : List Byte} {stem : Vector Stem 256} {rank : Vector Byte 256}
  {code : Vector Code 256}

/-- What `DVALIDATE` reads off an encoded buffer (R251): the table and the groups as they were written. -/
theorem EncodedAt.validated (h : EncodedAt s.inMem s.off.toNat s.len.toNat input n stem rank code) (ht : Validated s t) :
    t.cnt.toNat = n - 1 ∧ t.explen.toNat = input.length ∧ t.pay.toNat = s.off.toNat + 4 + 2 * n ∧
      t.ng.toNat = groupCount (input.flatMap (entry code)).length := by
  have hn := h.shape.1
  have hcnt : t.cnt.toNat = n - 1 := by rw [ht.cnt, h.count]
  refine ⟨hcnt, by rw [ht.explen, h.length], ?_, ?_⟩
  · rw [ht.pay, hcnt]
    omega
  · rw [ht.ng, hcnt, h.size_eq]
    omega

/-- The walk of an encoded buffer can run (R251). -/
theorem EncodedAt.walkReady (h : EncodedAt s.inMem s.off.toNat s.len.toNat input n stem rank code) (ht : Validated s t)
    (hrange : s.off.toNat + s.len.toNat ≤ s.cfg.inSize) (hwf : Memory.wf s.outMem) (hfits : fitsOut s.cfg input.length) :
    WalkReady (walkStart t) := by
  obtain ⟨hcnt, hexp, hpay, hng⟩ := h.validated ht
  have hn := h.shape.1
  have hsize := h.size_eq
  refine ⟨?_, ?_, ?_, Nat.zero_le _, ?_⟩
  · rw [walkStart_off, walkStart_cnt, walkStart_cfg, hcnt, ht.off, ht.cfg]
    omega
  · rw [walkStart_pay, walkStart_ng, walkStart_cfg, hpay, hng, ht.cfg]
    omega
  · rw [walkStart_cfg, walkStart_explen, hexp, ht.cfg]
    exact hfits
  · rw [walkStart_outMem, ht.outMem]
    exact hwf

/-- The walk of an encoded buffer emits the input and uses the coded bits, no more (R142). -/
theorem EncodedAt.payloadWalk_eq (h : EncodedAt s.inMem s.off.toNat s.len.toNat input n stem rank code)
    (ht : Validated s t) : payloadWalk t = some (input, (input.flatMap (entry code)).length) := by
  obtain ⟨hcnt, hexp, hpay, hng⟩ := h.validated ht
  rw [payloadWalk, ht.inMem, ht.off, hcnt, hng, hpay, hexp, ht.boot, h.streamBits_eq]
  exact walkStream_input (table := tableOf s) h.contract h.shape h.sentinel h.slots h.paths _

/-- No byte has the empty code, so only the empty input has no coded bits. -/
theorem EncodedAt.coded_length_eq_zero {m : Memory} {a size : Nat} (h : EncodedAt m a size input n stem rank code) :
    (input.flatMap (entry code)).length = 0 ↔ input = [] := by
  cases input with
  | nil => simp
  | cons v vs =>
    have hv := h.paths v List.mem_cons_self
    cases hc : entry code v with
    | nil => simp [hc] at hv
    | cons b q => simp [hc]

/-- The flags after the walk of an encoded buffer: the whole input is out, and every group was fetched but the one of the
empty input (R262). -/
theorem EncodedAt.flags (h : EncodedAt s.inMem s.off.toNat s.len.toNat input n stem rank code) (ht : Validated s t)
    (hw : Emitted (walkStart t) input w) (hg : w.g.toNat = ((input.flatMap (entry code)).length + 31) / 32) :
    shortOf w = false ∧ trailingOf w = decide (input = []) := by
  obtain ⟨-, hexp, hpay, -⟩ := h.validated ht
  have hsize := h.size_eq
  have hgroups : groupCount (input.flatMap (entry code)).length =
      max 1 (((input.flatMap (entry code)).length + 31) / 32) := rfl
  have hkeep := hw.keeps
  constructor
  · rw [shortOf, hw.outcnt, hkeep.explen, walkStart_explen, hexp, walkStart_outcnt]
    simp
  · rw [trailingOf, hkeep.pay, hkeep.off, hkeep.len, walkStart_pay, walkStart_off, walkStart_len, ht.off, ht.len, hpay, hg,
      decide_eq_decide, ← h.coded_length_eq_zero]
    omega

/-- `DECODE` of an encoded buffer gives the input back: every group is walked, and only for the empty input the one group
is left over (R142, R262). -/
theorem decodeFlow_of_encodedAt (hop : s.op = .decode) (hrange : s.off.toNat + s.len.toNat ≤ s.cfg.inSize)
    (hwf : Memory.wf s.outMem) (hfits : fitsOut s.cfg input.length)
    (h : EncodedAt s.inMem s.off.toNat s.len.toNat input n stem rank code) :
    ∃ v, decodeFlow s = .ok v ∧ v.status =
        { s.status with phase := .none, state := .done, short := false, trailing := decide (input = []) } ∧
      v.outLen.toNat = input.length ∧ v.expLen.toNat = input.length ∧ inBytes v.outMem 0 input.length = input := by
  have hn := h.shape.1
  have hsize := h.size_eq
  have henter : enterSequence s = .ok (enterPhase .dvalidate s) := by
    rw [enterSequence, if_neg (not_lt.2 hrange), hop]
    rfl
  have h' : EncodedAt (enterPhase .dvalidate s).inMem (enterPhase .dvalidate s).off.toNat
    (enterPhase .dvalidate s).len.toNat input n stem rank code := h
  obtain ⟨t, hval, ht⟩ := dvalidateOp_ok (s := enterPhase .dvalidate s) hrange (by rw [h'.count, enterPhase_len]; omega)
    h'.tag (by rw [h'.length]; exact hfits)
  obtain ⟨w, hdwalk, hemit, hg⟩ := dwalkOp_ok (h'.walkReady ht hrange hwf hfits) (h'.payloadWalk_eq ht)
  obtain ⟨hshort, htrail⟩ := h'.flags ht hemit hg
  have hkeep := hemit.keeps
  have houtcnt : w.outcnt.toNat = input.length := hemit.outcnt.trans (Nat.zero_add _)
  have hexp : t.explen.toNat = input.length := (h'.validated ht).2.1
  refine ⟨finishWalk w, by rw [decodeFlow, henter, Flow.andThen_ok, hval, Flow.andThen_ok, hdwalk], ?_, ?_, ?_, ?_⟩
  · rw [finishWalk, endCommand_status, hshort, htrail, hkeep.status, walkStart_status, ht.status, enterPhase_status]
  · have hwop : w.op = .decode := (hkeep.op.trans ht.op).trans hop
    rw [finishWalk, endCommand_outLen]
    simp only [hwop, BitVec.toNat_setWidth, houtcnt]
    omega
  · have hw : (finishWalk w).expLen = t.expLen := hkeep.expLen
    rw [hw, ht.expLen, BitVec.toNat_setWidth, hexp]
    omega
  · refine List.ext_getElem (inBytes_length _ _ _) fun i h1 h2 => ?_
    have hbyte := hemit.bytes i h2
    rw [List.getD_eq_getElem _ _ h2] at hbyte
    exact (getElem_inBytes _ _ _ i h2).trans hbyte

end Decode

/-! ### The round trip (R142) -/

theorem execEncode_of_idle {s : State} (h : s.status.state ≠ .busy) :
    exec .encodeCmd s = (encodeFlow (startCommand .encode s)).finish := if_neg h

theorem execDecode_of_idle {s : State} (h : s.status.state ≠ .busy) :
    exec .decodeCmd s = (decodeFlow (startCommand .decode s)).finish := if_neg h

/-- Equal byte sequences are equal byte by byte. -/
theorem read_eq_of_inBytes_eq {m m' : Memory} {a a' count : Nat} (h : inBytes m a count = inBytes m' a' count) {i : Nat}
    (hi : i < count) : Memory.read m (a + i) = Memory.read m' (a' + i) := by
  rw [← getElem_inBytes m a count i hi, ← getElem_inBytes m' a' count i hi]
  simp only [h]

/-- Settles O49: `ENCODE` leaves an encoded buffer, and `DECODE` of the same bytes anywhere walks it back to the input. -/
theorem decodeOfEncodedIsTheInput : Obligations.DecodeOfEncodedIsTheInput := by
  intro s hcfg hmax hwf hidle hrange hlen
  rw [execEncode_of_idle hidle]
  rcases encodeFlow_cases (s := startCommand .encode s) rfl hrange hlen hmax hwf with
    ⟨e, s', hraise, herr⟩ | ⟨t, n, stem, rank, code, hok, hstatus, henc⟩
  · refine ⟨takeFault e s', by rw [hraise, Flow.finish_raise], fun _ => herr, fun hdone => ?_⟩
    cases hdone
  · refine ⟨t, by rw [hok, Flow.finish_ok], fun hne => absurd (by rw [hstatus]) hne, fun _ => ?_⟩
    intro u _ huwf huidle hulen hurange hbytes hfits
    have hinput : (operandOf s).length = s.srcLen.toNat := inBytes_length _ _ _
    have hcopy : EncodedAt u.inMem u.srcOff.toNat u.srcLen.toNat (operandOf s) n stem rank code := by
      rw [hulen]
      refine henc.copy fun i hi => ?_
      rw [operandOf, hulen] at hbytes
      exact read_eq_of_inBytes_eq hbytes hi
    obtain ⟨v, hdec, hvstatus, hvlen, hvexp, hvbytes⟩ := decodeFlow_of_encodedAt (s := startCommand .decode u) rfl hurange
      huwf (by rw [hinput]; exact hfits) hcopy
    rw [hinput] at hvlen hvexp hvbytes
    have hempty : operandOf s = [] ↔ s.srcLen = 0 := by
      rw [← List.length_eq_zero_iff, hinput]
      exact ⟨fun h => BitVec.eq_of_toNat_eq h, fun h => by rw [h]; rfl⟩
    refine ⟨v, by rw [execDecode_of_idle huidle, hdec, Flow.finish_ok], ?_, BitVec.eq_of_toNat_eq hvlen,
      BitVec.eq_of_toNat_eq hvexp, by rw [hvlen]; exact hvbytes⟩
    rw [hvstatus, startCommand_status, doneStatus]
    simp only [hempty]

end Sys2Proof.Machine
end

section
/-! FE's worked example, O18 (40_commands.md R136). -/

namespace Sys2Proof.Machine

open Sys2Proof.Safety

/-- A run gives a next state that passes a check. -/
def nextPasses (check : State → Bool) : Host.Outcome State Fault Refusal → Bool
  | .next t => check t
  | _ => false

theorem exists_of_nextPasses {check : State → Bool} {o : Host.Outcome State Fault Refusal}
    (h : nextPasses check o = true) : ∃ t, o = .next t ∧ check t = true := by
  cases o with
  | next t => exact ⟨t, rfl, h⟩
  | fault => cases h
  | refused => cases h

/-- FE's worked example, before the `CMD` write: the 4 bytes `41 41 41 42` at `IN` 0 (R136). -/
def workedExample : State :=
  { State.reset with inMem := [(0, 0x41), (1, 0x41), (2, 0x41), (3, 0x42)], srcLen := 4 }

/-- `OUT_LEN` and the result of the worked example (R136). -/
def isWorkedResult (t : State) : Bool :=
  decide (t.outLen = 12 ∧
    inBytes t.outMem 0 12 = [0x28, 0x04, 0x00, 0x00, 0x01, 0xC0, 0x41, 0x42, 0x00, 0x00, 0x00, 0x10])

/-- The model run on the worked example. -/
theorem encode_workedExample : nextPasses isWorkedResult (exec .encodeCmd workedExample) = true := by
  decide +kernel

/-- Settles O18: the model, run on the example, gives the bytes FE prints. -/
theorem encodeOfTheWorkedExample : Obligations.EncodeOfTheWorkedExample := by
  obtain ⟨t, ht, hcheck⟩ := exists_of_nextPasses encode_workedExample
  exact ⟨t, ht, of_decide_eq_true hcheck⟩

end Sys2Proof.Machine
end

section
/-! `FREQ` as an instruction, O19 (41_frequency_counter.md R151). -/

namespace Sys2Proof.Machine

open Sys2Proof.Safety

/-- What taking a fault leaves is what the host is to see of it (R283). -/
theorem faultTaken_takeFault (e : Err) (s : State) : FaultTaken e s (takeFault e s) :=
  ⟨takeFault_status e s, takeFault_outLen e s, takeFault_expLen e s, takeFault_srcOff e s, takeFault_srcLen e s⟩

theorem exec_freq_eq_finish (s : State) : exec .freq s = (freqOp s).finish := rfl

/-- The length test comes before every read of `IN`, so the range of the input does not matter here (R151). -/
theorem freqOp_of_lenLimit_le {s : State} (h : Config.lenLimit ≤ s.len.toNat) :
    freqOp s = .raise .inputTooLarge s := by
  obtain ⟨_, hraise⟩ | ⟨hlt, _⟩ := freqOp_cases s
  · exact hraise
  · exact absurd hlt (not_lt.2 h)

theorem exec_freq_of_lenLimit_le {s : State} (h : Config.lenLimit ≤ s.len.toNat) :
    exec .freq s = .next (takeFault .inputTooLarge s) := by
  rw [exec_freq_eq_finish, freqOp_of_lenLimit_le h, Flow.finish_raise]

/-- Settles O19: the two sides of the length test; below it no count overflows its 24 bits (`freqOp_ok`). -/
theorem freqTalliesTheInput : Obligations.FreqTalliesTheInput := by
  intro s hrange
  refine ⟨fun hlong => ?_, fun hshort => ?_⟩
  · exact ⟨_, exec_freq_of_lenLimit_le hlong, faultTaken_takeFault .inputTooLarge s⟩
  · obtain ⟨freq, hfreq, hcounts⟩ := freqOp_ok hrange hshort
    exact ⟨freq, by rw [exec_freq_eq_finish, hfreq, Flow.finish_ok, enterPhase], hcounts⟩

end Sys2Proof.Machine
end

section
/-! `MERGE` as an instruction, O22 and O23 (42_huffman_merger.md R161 to R166): its result by the merge loop, the working set
the loop starts from, and the two items a turn of the loop takes. -/

namespace Sys2Proof.Machine

open Sys2Proof.Safety

/-! ### The result of MERGE (R164, R166) -/

/-- `MERGE` keeps what the merge loop leaves, with the sentinel after the stems (R166). -/
theorem exec_merge_eq_next (s : State) : exec .merge s = .next (enterPhase .place
    { s with
      ws := (mergedRegs s).ws
      seq := (mergedRegs s).seq
      ns := (mergedRegs s).ns
      stem := setEntry (mergedRegs s).stem ((mergedRegs s).ns.setWidth 8) (sentinel (((mergedRegs s).ns - 1).setWidth 8))
      root := ((mergedRegs s).ns - 1).setWidth 8
      n := (mergedRegs s).ns + 1 }) := rfl

/-- Settles O23: the sentinel is written at the index after the last stem, so that entry reads back as it. -/
theorem mergeAppendsTheSentinel : Obligations.MergeAppendsTheSentinel := by
  intro s t ht
  obtain rfl := Host.Outcome.next.inj ((exec_merge_eq_next s).symm.trans ht)
  exact ⟨rfl, rfl, entry_setEntry_same _ _ _⟩

/-! ### The working set at the start (R161, R162) -/

/-- The leaf enumeration numbers its items from `seq` on, in the order of their byte values (R161). -/
theorem leafItems_eq_map_zipIdx (freq : Vector (BitVec 24) 256) (b seq : Nat) :
    leafItems freq b seq = (((leafItems freq b seq).map Item.id).zipIdx seq).map fun p =>
      { w := entry freq p.1, kind := .leaf, id := p.1, seq := BitVec.ofNat 10 p.2 } := by
  induction b generalizing seq with
  | zero => rfl
  | succ b ih =>
    simp only [leafItems]
    split
    · exact ih seq
    · rw [List.map_cons, List.zipIdx_cons, List.map_cons, ← ih]

theorem leafItems_eq_leavesInOrder (freq : Vector (BitVec 24) 256) : leafItems freq 256 0 = leavesInOrder freq := by
  rw [leafItems_eq_map_zipIdx, symbolsPresent_eq, leavesInOrder]

/-- The loop starts from the leaves in order, a second one added where there are fewer than two (R161, R162). -/
theorem initialItems_eq_startingItems (freq : Vector (BitVec 24) 256) : initialItems freq = startingItems freq := by
  rw [initialItems, leafItems_eq_leavesInOrder, startingItems]
  match leavesInOrder freq with
  | [] => rfl
  | [_] => rfl
  | _ :: _ :: _ => rfl

/-! ### The order of the working set (R163) -/

/-- An item's place in the order of R163 as one number: the weight, then the 10-bit sequence number. -/
def Item.key (x : Item) : Nat := x.w.toNat * 1024 + x.seq.toNat

theorem Item.key_lt_iff {x y : Item} : x.key < y.key ↔ x.w < y.w ∨ (x.w = y.w ∧ x.seq < y.seq) := by
  have hx := x.seq.isLt
  have hy := y.seq.isLt
  rw [BitVec.lt_def, BitVec.lt_def, BitVec.toNat_eq, Item.key, Item.key]
  omega

theorem Item.smaller_iff {x y : Item} : x.smaller y = true ↔ x.key < y.key := by
  rw [Item.key_lt_iff, Item.smaller]
  simp

/-- The key holds the sequence number in its low 10 bits, so items of different sequence numbers are strictly ordered. -/
theorem Item.key_lt_of_le {x y : Item} (hseq : x.seq ≠ y.seq) (h : x.key ≤ y.key) : x.key < y.key := by
  refine lt_of_le_of_ne h fun e => hseq (BitVec.eq_of_toNat_eq ?_)
  have hx := x.seq.isLt
  have hy := y.seq.isLt
  rw [Item.key, Item.key] at e
  omega

/-- No item of the set comes before the smallest one (R163). -/
theorem smallestItem_key_le (best : Item) (xs : List Item) : ∀ x ∈ best :: xs, (smallestItem best xs).key ≤ x.key := by
  induction xs generalizing best with
  | nil => simp [smallestItem]
  | cons y ys ih =>
    have hih := ih (if y.smaller best then y else best)
    rw [List.forall_mem_cons] at hih
    obtain ⟨hbest, hys⟩ := hih
    have hmin : (if y.smaller best then y else best).key ≤ best.key ∧
        (if y.smaller best then y else best).key ≤ y.key := by
      split
      · next h => exact ⟨(Item.smaller_iff.1 h).le, le_rfl⟩
      · next h => exact ⟨le_rfl, not_lt.1 fun hlt => h (Item.smaller_iff.2 hlt)⟩
    simp only [List.forall_mem_cons]
    exact ⟨hbest.trans hmin.1, hbest.trans hmin.2, hys⟩

/-! ### The turns of the merge loop (R164) -/

/-- The loop is over at one item (R164). -/
theorem mergeLoop_of_length_le_one {r : MergeRegs} (fuel : Nat) (h : r.ws.length ≤ 1) : mergeLoop fuel r = r := by
  cases fuel with
  | zero => rfl
  | succ fuel =>
    rw [mergeLoop]
    split
    · next hws => simp [hws] at h
    · rfl

/-- A turn of the loop merges an item that no other comes before with one that no item left comes before (R164). -/
theorem mergeLoop_succ {r : MergeRegs} (fuel : Nat) (h : 2 ≤ r.ws.length) : ∃ lo hi rest,
    r.ws.Perm (lo :: hi :: rest) ∧ (∀ x ∈ hi :: rest, lo.key ≤ x.key) ∧ (∀ x ∈ rest, hi.key ≤ x.key) ∧
      mergeLoop (fuel + 1) r = mergeLoop fuel (mergePair lo hi rest r) := by
  match hws : r.ws with
  | [] => simp [hws] at h
  | [_] => simp [hws] at h
  | x :: y :: zs =>
    have hlo := List.perm_cons_erase (smallestItem_mem x (y :: zs))
    match herase : (x :: y :: zs).erase (smallestItem x (y :: zs)) with
    | [] =>
      rw [herase] at hlo
      simpa using hlo.length_eq
    | u :: us =>
      rw [herase] at hlo
      have hhi := List.perm_cons_erase (smallestItem_mem u us)
      refine ⟨smallestItem x (y :: zs), smallestItem u us, (u :: us).erase (smallestItem u us),
        hlo.trans (hhi.cons _), fun z hz => ?_, fun z hz => ?_, ?_⟩
      · exact smallestItem_key_le x _ z (hlo.mem_iff.2 (List.mem_cons_of_mem _ (hhi.mem_iff.2 hz)))
      · exact smallestItem_key_le u _ z (List.mem_of_mem_erase hz)
      · simp only [mergeLoop, hws, herase]

/-- With sequence numbers all different, the two items of a turn are strictly the smallest (R163, R164). -/
theorem mergeLoop_succ_of_nodup {r : MergeRegs} (fuel : Nat) (h : 2 ≤ r.ws.length) (hseq : (r.ws.map Item.seq).Nodup) :
    ∃ lo hi rest, r.ws.Perm (lo :: hi :: rest) ∧ (∀ x ∈ hi :: rest, lo.key < x.key) ∧ (∀ x ∈ rest, hi.key < x.key) ∧
      mergeLoop (fuel + 1) r = mergeLoop fuel (mergePair lo hi rest r) := by
  obtain ⟨lo, hi, rest, hperm, hlo, hhi, hloop⟩ := mergeLoop_succ fuel h
  have hnodup := (hperm.map Item.seq).nodup_iff.1 hseq
  rw [List.map_cons, List.nodup_cons, List.map_cons, List.nodup_cons, ← List.map_cons] at hnodup
  obtain ⟨hloseq, hhiseq, -⟩ := hnodup
  exact ⟨lo, hi, rest, hperm,
    fun x hx => Item.key_lt_of_le (fun e => hloseq (e ▸ List.mem_map_of_mem hx)) (hlo x hx),
    fun x hx => Item.key_lt_of_le (fun e => hhiseq (e ▸ List.mem_map_of_mem hx)) (hhi x hx), hloop⟩

/-- The merge loop of `MERGE`, from the leaves in order (R161, R162, R164). -/
theorem mergedRegs_eq (s : State) : mergedRegs s = mergeLoop (startingItems s.freq).length
    { ws := startingItems s.freq, seq := BitVec.ofNat 10 (startingItems s.freq).length, ns := 0, stem := s.stem } := by
  rw [mergedRegs, initialItems_eq_startingItems]

/-- Settles O22: the result of the loop, its end at one item, and one turn in the order of R163. -/
theorem mergeTakesTheTwoSmallest : Obligations.MergeTakesTheTwoSmallest := by
  refine ⟨fun s => ?_, fun fuel r => mergeLoop_of_length_le_one fuel, fun fuel r h hseq => ?_⟩
  · dsimp only
    rw [← mergedRegs_eq]
    obtain ⟨-, hone, -⟩ := mergedRegs_spec s
    exact ⟨hone, _, exec_merge_eq_next s, rfl, rfl, rfl, fun b hb => by rw [enterPhase, entry_setEntry, if_neg hb]⟩
  · obtain ⟨lo, hi, rest, hperm, hlo, hhi, hloop⟩ := mergeLoop_succ_of_nodup fuel h hseq
    exact ⟨lo, hi, rest, hperm, fun x hx => Item.key_lt_iff.1 (hlo x hx), fun x hx => Item.key_lt_iff.1 (hhi x hx), hloop⟩

end Sys2Proof.Machine
end

section
/-! `PLACE` as an instruction, O25 (43_node_placer.md R181, R188, R189): its result by the placement loop, and the marks of the
ranked stems. -/

namespace Sys2Proof.Machine

open Sys2Proof.Safety

/-! ### The result of PLACE by its loop (R187, R189) -/

/-- The run of the placement loop that `PLACE` makes (R187). -/
def placeRun (s : State) : Flow PlaceRegs :=
  placeLoop s.stem (sizes s.stem 0 s.n.toNat s.sz) 1 (s.n.toNat - 1) (placeStart s)

/-- The state with the results of `PLACE` in it, before the phase or the status changes. -/
def withPlacement (s : State) (r : PlaceRegs) : State :=
  { s with sz := sizes s.stem 0 s.n.toNat s.sz, rank := r.rank, hasRank := r.hasRank, fr := r.fr, t := r.t }

theorem exec_place_eq_finish (s : State) : exec .place s =
    (((placeRun s).map (withPlacement s)).andThen fun s' => .ok (enterPhase .serialize s')).finish := rfl

/-- On a merge tree `PLACE` goes on to `SERIALIZE` with what the loop leaves, or takes the fault the loop raises: the
frontier is never empty, so it does not stop (R188, R189). -/
theorem exec_place_cases {s : State} (hs : TreeShape s.stem s.n.toNat) :
    (∃ r, placeRun s = .ok r ∧ exec .place s = .next (enterPhase .serialize (withPlacement s r))) ∨
      ∃ r, placeRun s = .raise .placementUnsatisfiable r ∧
        exec .place s = .next (takeFault .placementUnsatisfiable (withPlacement s r)) := by
  obtain ⟨r, hr⟩ | ⟨r, -, hr, -⟩ := placeLoop_spec hs (sizes s.stem 0 s.n.toNat s.sz) (s.n.toNat - 1)
    (placeInv_start hs) (by omega)
  · have hrun : placeRun s = _ := hr
    exact .inr ⟨r, hrun, by rw [exec_place_eq_finish, hrun, Flow.map_raise, Flow.andThen_raise, Flow.finish_raise]⟩
  · have hrun : placeRun s = _ := hr
    exact .inl ⟨r, hrun, by rw [exec_place_eq_finish, hrun, Flow.map_ok, Flow.andThen_ok, Flow.finish_ok]⟩

/-! ### The marks of the ranked stems (R187) -/

/-- An entry of a frontier that passes the test can still be ranked in time (R187). -/
theorem le_due_of_frontierTight {t i : Nat} {fr : List FrontierEntry} {tight : Bool} (h : frontierTight t 0 fr = some tight)
    (hi : i < fr.length) : t + i ≤ (fr[i]).due.toNat := by
  by_contra hlate
  have hnone : frontierTight t 0 fr = none := frontierTight_eq_none.2 ⟨i, hi, by omega⟩
  rw [hnone] at h
  cases h

/-- Ranking an entry marks its stem and unmarks none (R187). -/
theorem entry_placeEntry_hasRank (stem : Vector Stem 256) (t i : Nat) (e : FrontierEntry) (r : PlaceRegs) (c : Byte) :
    entry (placeEntry stem t i e r).hasRank c = if c = e.node then true else entry r.hasRank c := entry_setEntry _ _ _ _

/-- Where the loop goes through, the sentinel and the stems it ranked are marked (R187). -/
theorem placeLoop_ok_marks {stem : Vector Stem 256} {n : Nat} (hs : TreeShape stem n) (sz : Vector (BitVec 9) 256)
    (count : Nat) {t : Nat} {placed : List Byte} {r r' : PlaceRegs} (h : PlaceInv stem n t placed r)
    (hmark : ∀ c ∈ BitVec.ofNat 8 (n - 1) :: placed, entry r.hasRank c = true) (ht : t + count = n)
    (hr : placeLoop stem sz t count r = .ok r') : ∃ placed', PlaceInv stem n n placed' r' ∧
      ∀ c ∈ BitVec.ofNat 8 (n - 1) :: placed', entry r'.hasRank c = true := by
  induction count generalizing t placed r with
  | zero =>
    obtain rfl : t = n := ht
    obtain rfl := Flow.ok.inj hr
    exact ⟨placed, h, hmark⟩
  | succ count ih =>
    obtain ⟨-, hloop⟩ | ⟨-, hloop⟩ | ⟨tight, hi, htight, hloop⟩ := placeLoop_succ_cases stem sz t count r
    · rw [hloop] at hr
      cases hr
    · rw [hloop] at hr
      cases hr
    · have hdue := le_due_of_frontierTight htight hi
      refine ih (h.placeEntry hs (by omega) hi (by omega)) (fun c hc => ?_) (by omega) (hloop ▸ hr)
      rw [entry_placeEntry_hasRank]
      split
      · rfl
      · next hne =>
        simp only [List.mem_cons, hne, false_or] at hc hmark
        exact hmark c hc

/-- When every rank is given, every real stem is among the ranked ones (R188). -/
theorem PlaceInv.mem_placed {stem : Vector Stem 256} {n : Nat} {placed : List Byte} {r : PlaceRegs}
    (h : PlaceInv stem n n placed r) {c : Byte} (hc : c.toNat < n - 1) : c ∈ placed := by
  have hcount := h.count
  have hperm : placed.Perm (realIds n) := by
    refine (List.subperm_of_subset h.nodup fun c hc => mem_realIds.2 (h.real c hc)).perm_of_length_le ?_
    rw [realIds, List.length_map, List.length_range]
    omega
  exact hperm.mem_iff.2 (mem_realIds.2 hc)

theorem sentinelIndex_eq {s : State} (hs : TreeShape s.stem s.n.toNat) :
    sentinelIndex s = BitVec.ofNat 8 (s.n.toNat - 1) := by
  rw [sentinelIndex, setWidth8_eq_ofNat, toNat_sub_one (by omega)]

/-- At the start the sentinel is marked (R186). -/
theorem placeStart_hasRank_sentinel {s : State} (hs : TreeShape s.stem s.n.toNat) :
    entry (placeStart s).hasRank (BitVec.ofNat 8 (s.n.toNat - 1)) = true := by
  rw [← sentinelIndex_eq hs, placeStart, entry_setEntry_same]

/-- Where the run of `PLACE` goes through, its ranks meet the contract and every stem is marked (R181, R188). -/
theorem placeRun_ok {s : State} (hs : TreeShape s.stem s.n.toNat) {r : PlaceRegs} (hr : placeRun s = .ok r) :
    PlacementContract s.stem r.rank s.n.toNat ∧ ∀ i < s.n.toNat, at256 r.hasRank i = true := by
  obtain ⟨placed, hinv, hmarks⟩ := placeLoop_ok_marks hs _ _ (placeInv_start hs)
    (by simpa using placeStart_hasRank_sentinel hs) (by omega) hr
  refine ⟨hinv.contract hs, fun i hi => hmarks _ ?_⟩
  by_cases hlast : i = s.n.toNat - 1
  · exact hlast ▸ List.mem_cons_self
  · refine List.mem_cons_of_mem _ (hinv.mem_placed ?_)
    rw [BitVec.toNat_ofNat]
    omega

/-- Settles O25: both outcomes of `exec_place_cases` change the placer's own results and the status alone; the one without a
fault has its contract from `placeRun_ok`. -/
theorem placeMeetsTheContract : Obligations.PlaceMeetsTheContract := by
  intro s hs
  obtain ⟨r, hr, hexec⟩ | ⟨r, -, hexec⟩ := exec_place_cases hs
  · exact ⟨_, hexec, rfl, .inl ⟨rfl, rfl, placeRun_ok hs hr⟩⟩
  · exact ⟨_, hexec, rfl, .inr (faultTaken_takeFault .placementUnsatisfiable (withPlacement s r))⟩

end Sys2Proof.Machine
end

section
/-! The placement loop of `PLACE`, O27 (43_node_placer.md R186, R187, R189): where it starts, the entry a turn ranks, and when
it faults. -/

namespace Sys2Proof.Machine

open Sys2Proof.Safety

/-! ### The subtree sizes (R186) -/

/-- What `SZ[i]` is to be by the entries of the children: the stem itself and the subtrees of its stem children (R186). -/
def subtreeSize (stem : Vector Stem 256) (sz : Vector (BitVec 9) 256) (i : Nat) : BitVec 9 :=
  1 + childSizeOf sz (at256 stem i).f1 (at256 stem i).c1 + childSizeOf sz (at256 stem i).f2 (at256 stem i).c2

theorem sizes_succ (stem : Vector Stem 256) (j count : Nat) (sz : Vector (BitVec 9) 256) :
    sizes stem j (count + 1) sz = sizes stem (j + 1) count (setEntry sz (BitVec.ofNat 8 j) (subtreeSize stem sz j)) := rfl

/-- The size of a child depends on no entry but that child's, and of a leaf on none. -/
theorem childSizeOf_congr {sz sz' : Vector (BitVec 9) 256} {f : Bool} {c : BitVec 9}
    (h : f = false → entry sz' (childId c) = entry sz (childId c)) : childSizeOf sz' f c = childSizeOf sz f c := by
  cases f with
  | true => rfl
  | false => exact h rfl

/-- Writing its own entry or a later one does not change what a stem's size is to be: its children are older. -/
theorem subtreeSize_setEntry {stem : Vector Stem 256} {i j : Nat} (hij : i ≤ j) (hj : j < 256)
    (hdesc : ∀ c ∈ stemChildren (at256 stem i), c.toNat < i) (sz : Vector (BitVec 9) 256) (v : BitVec 9) :
    subtreeSize stem (setEntry sz (BitVec.ofNat 8 j) v) i = subtreeSize stem sz i := by
  have hkeep : ∀ c ∈ stemChildren (at256 stem i), entry (setEntry sz (BitVec.ofNat 8 j) v) c = entry sz c := by
    intro c hc
    have hlt := hdesc c hc
    rw [entry_setEntry, if_neg]
    rintro rfl
    rw [BitVec.toNat_ofNat] at hlt
    omega
  rw [subtreeSize, subtreeSize,
    childSizeOf_congr (f := (at256 stem i).f1) (c := (at256 stem i).c1) fun hf =>
      hkeep _ (mem_stemChildren_iff.2 ⟨false, hf, rfl⟩),
    childSizeOf_congr (f := (at256 stem i).f2) (c := (at256 stem i).c2) fun hf =>
      hkeep _ (mem_stemChildren_iff.2 ⟨true, hf, rfl⟩)]

/-- Sizing the stems in ascending order sizes each after its children (R186). -/
theorem at256_sizes {stem : Vector Stem 256} (count : Nat) {j n : Nat} {sz : Vector (BitVec 9) 256} (hn : n ≤ 256)
    (hj : j + count = n) (hdesc : ∀ i < n, ∀ c ∈ stemChildren (at256 stem i), c.toNat < i)
    (h : ∀ i < j, at256 sz i = subtreeSize stem sz i) :
    ∀ i < n, at256 (sizes stem j count sz) i = subtreeSize stem (sizes stem j count sz) i := by
  induction count generalizing j sz with
  | zero =>
    obtain rfl : j = n := hj
    exact h
  | succ count ih =>
    rw [sizes_succ]
    refine ih (by omega) fun i hi => ?_
    rw [subtreeSize_setEntry (by omega) (by omega) (hdesc i (by omega)), at256_setEntry _ _ (by omega) (by omega)]
    split
    · next heq => rw [heq]
    · exact h i (by omega)

/-- The stem children of every stem of a merge tree are older than it, the sentinel's too (R166, R167). -/
theorem stemChildren_lt {stem : Vector Stem 256} {n : Nat} (hs : TreeShape stem n) {i : Nat} (hi : i < n) :
    ∀ c ∈ stemChildren (at256 stem i), c.toNat < i := by
  obtain ⟨hn, -, hdesc, -⟩ := id hs
  intro c hc
  by_cases hlast : i = n - 1
  · have hroot : c ∈ kids stem (BitVec.ofNat 8 (n - 1)) := hlast ▸ hc
    rw [sentinel_kids hs, List.mem_singleton] at hroot
    rw [hroot, BitVec.toNat_ofNat]
    omega
  · exact hdesc i (by omega) c hc

/-! ### The marks and the frontier at the start (R186) -/

theorem at256_clearRanked (j count : Nat) (marks : Vector Bool 256) (hle : j + count ≤ 256) {i : Nat} (hi : i < 256) :
    at256 (clearRanked j count marks) i = if j ≤ i ∧ i < j + count then false else at256 marks i := by
  induction count generalizing j marks with
  | zero => rw [clearRanked, if_neg (by omega)]
  | succ count ih =>
    rw [clearRanked, ih (j + 1) _ (by omega), at256_setEntry _ _ hi (by omega)]
    by_cases hij : i = j
    · rw [if_neg (by omega), if_pos hij, if_pos (by omega)]
    · rw [if_neg hij]
      exact if_congr (by omega) rfl rfl

/-- At the start the sentinel alone is marked (R186). -/
theorem placeStart_hasRank {s : State} (hs : TreeShape s.stem s.n.toNat) {i : Nat} (hi : i < s.n.toNat) :
    at256 (placeStart s).hasRank i = decide (i = s.n.toNat - 1) := by
  obtain ⟨hn, -⟩ := hs.1
  have hclear : at256 (clearRanked 0 s.n.toNat s.hasRank) i = false := by
    rw [at256_clearRanked _ _ _ (by omega) (by omega), if_pos (by omega)]
  rw [placeStart, sentinelIndex_eq hs, at256_setEntry _ _ (by omega) (by omega), hclear]
  simp

/-- The run of `PLACE` starts with the sentinel at rank 0 and the root in the frontier with `due` 64 (R186). -/
theorem placeRun_eq {s : State} (hs : TreeShape s.stem s.n.toNat) : placeRun s =
    placeLoop s.stem (sizes s.stem 0 s.n.toNat s.sz) 1 (s.n.toNat - 1)
      { rank := setEntry s.rank (BitVec.ofNat 8 (s.n.toNat - 1)) 0
        hasRank := (placeStart s).hasRank
        fr := [{ node := BitVec.ofNat 8 (s.n.toNat - 2), due := 64 }]
        t := s.t } := by
  have hfr : pushChildren (entry s.stem (sentinelIndex s)) 0 [] =
      [{ node := BitVec.ofNat 8 (s.n.toNat - 2), due := 64 }] := by
    rw [sentinelIndex_eq hs, sentinel_stem hs, ← childId_ofNat]
    rfl
  rw [← sentinelIndex_eq hs, ← hfr]
  rfl

/-! ### The entry a turn ranks (R187) -/

/-- The size of the subtree below a frontier entry (R187). -/
def nodeSize (sz : Vector (BitVec 9) 256) (e : FrontierEntry) : BitVec 9 := entry sz e.node

/-- The scan answers the best index so far when no entry is smaller, else the first entry of smallest subtree (R187). -/
theorem smallestSubtree_cases (sz : Vector (BitVec 9) 256) (best size k : Nat) (fr : List FrontierEntry) :
    (smallestSubtree sz best size k fr = best ∧ ∀ e ∈ fr, size ≤ (nodeSize sz e).toNat) ∨
      ∃ m, ∃ hm : m < fr.length, smallestSubtree sz best size k fr = k + m ∧ (nodeSize sz fr[m]).toNat < size ∧
        (∀ e ∈ fr, nodeSize sz fr[m] ≤ nodeSize sz e) ∧
        ∀ j, ∀ hj : j < m, nodeSize sz fr[m] < nodeSize sz fr[j] := by
  induction fr generalizing best size k with
  | nil => exact .inl ⟨rfl, by simp⟩
  | cons e es ih =>
    rw [smallestSubtree]
    split
    · next hlt =>
      right
      obtain ⟨heq, hall⟩ | ⟨m, hm, heq, hless, hall, hfirst⟩ := ih k (nodeSize sz e).toNat (k + 1)
      · refine ⟨0, by simp, heq, hlt, ?_, by simp⟩
        simpa [BitVec.le_def] using hall
      · refine ⟨m + 1, by simpa using hm, heq.trans (by omega), hless.trans hlt, ?_, ?_⟩
        · exact List.forall_mem_cons.2 ⟨BitVec.le_of_lt hless, hall⟩
        · rintro (_ | j) hj
          · exact hless
          · exact hfirst j (by omega)
    · next hge =>
      obtain ⟨heq, hall⟩ | ⟨m, hm, heq, hless, hall, hfirst⟩ := ih best size (k + 1)
      · exact .inl ⟨heq, List.forall_mem_cons.2 ⟨not_lt.1 hge, hall⟩⟩
      · have hhead : nodeSize sz es[m] < nodeSize sz e := hless.trans_le (not_lt.1 hge)
        refine .inr ⟨m + 1, by simpa using hm, heq.trans (by omega), hless, ?_, ?_⟩
        · exact List.forall_mem_cons.2 ⟨BitVec.le_of_lt hhead, hall⟩
        · rintro (_ | j) hj
          · exact hhead
          · exact hfirst j (by omega)

/-- When nothing is pressing the first entry of smallest subtree is picked (R187). -/
theorem frontierPick_false (sz : Vector (BitVec 9) 256) {fr : List FrontierEntry} (h : frontierPick sz false fr < fr.length) :
    (∀ e ∈ fr, nodeSize sz fr[frontierPick sz false fr] ≤ nodeSize sz e) ∧
      ∀ j, ∀ hj : j < frontierPick sz false fr, nodeSize sz fr[frontierPick sz false fr] < nodeSize sz fr[j] := by
  cases fr with
  | nil => simp at h
  | cons e es =>
    have hpick : frontierPick sz false (e :: es) = smallestSubtree sz 0 (nodeSize sz e).toNat 1 es := rfl
    obtain ⟨heq, hall⟩ | ⟨m, hm, heq, hless, hall, hfirst⟩ := smallestSubtree_cases sz 0 (nodeSize sz e).toNat 1 es
    · simp only [hpick, heq]
      exact ⟨List.forall_mem_cons.2 ⟨BitVec.le_refl _, hall⟩, by simp⟩
    · simp only [hpick, heq, Nat.add_comm 1 m]
      refine ⟨List.forall_mem_cons.2 ⟨BitVec.le_of_lt hless, hall⟩, ?_⟩
      rintro (_ | j) hj
      · exact hless
      · exact hfirst j (by omega)

/-! ### The turns of the loop and their fault (R187, R189) -/

/-- A turn that finds an entry overdue raises the fault and changes no rank and no entry (R187, R189). -/
theorem placeLoop_succ_of_overdue {t : Nat} {r : PlaceRegs} (stem : Vector Stem 256) (sz : Vector (BitVec 9) 256) (count : Nat)
    (h : ∃ k, ∃ hk : k < r.fr.length, (r.fr[k]).due.toNat < t + k) :
    placeLoop stem sz t (count + 1) r = .raise .placementUnsatisfiable { r with t := BitVec.ofNat 9 t } := by
  have htest : frontierTight t 0 r.fr = none := frontierTight_eq_none.2 (by simpa using h)
  rw [placeLoop, htest]

/-- A fault of the loop is `PlacementUnsatisfiable`, raised at a rank for which some entry is overdue (R189). -/
theorem placeLoop_eq_raise {stem : Vector Stem 256} {sz : Vector (BitVec 9) 256} (count : Nat) {t : Nat} {e : Err}
    {r r' : PlaceRegs} (ht : t + count ≤ 256) (h : placeLoop stem sz t count r = .raise e r') :
    e = .placementUnsatisfiable ∧ ∃ k, ∃ hk : k < r'.fr.length, (r'.fr[k]).due.toNat < r'.t.toNat + k := by
  induction count generalizing t r with
  | zero => cases h
  | succ count ih =>
    obtain ⟨hnone, hloop⟩ | ⟨-, hloop⟩ | ⟨tight, hi, -, hloop⟩ := placeLoop_succ_cases stem sz t count r
    · rw [hloop] at h
      cases h
      refine ⟨rfl, ?_⟩
      have ht' : (BitVec.ofNat 9 t).toNat = t := by
        rw [BitVec.toNat_ofNat]
        omega
      simpa only [ht', Nat.zero_add] using frontierTight_eq_none.1 hnone
    · rw [hloop] at h
      cases h
    · exact ih (by omega) (hloop ▸ h)

/-- A turn that finds no entry overdue ranks the entry picked by whether one is pressing (R187). -/
theorem placeLoop_succ_of_due {t : Nat} {r : PlaceRegs} (stem : Vector Stem 256) (sz : Vector (BitVec 9) 256) (count : Nat)
    (hne : r.fr ≠ []) (hdue : ∀ k, ∀ hk : k < r.fr.length, t + k ≤ (r.fr[k]).due.toNat) :
    ∃ tight, ∃ hi : frontierPick sz tight r.fr < r.fr.length,
      (tight = true ↔ ∃ k, ∃ hk : k < r.fr.length, (r.fr[k]).due.toNat = t + k) ∧
      placeLoop stem sz t (count + 1) r = placeLoop stem sz (t + 1) count
        (placeEntry stem t (frontierPick sz tight r.fr) (r.fr[frontierPick sz tight r.fr]) r) := by
  obtain ⟨hnone, -⟩ | ⟨hnil, -⟩ | ⟨tight, hi, htight, hloop⟩ := placeLoop_succ_cases stem sz t count r
  · obtain ⟨k, hk, hlate⟩ := frontierTight_eq_none.1 hnone
    have := hdue k hk
    omega
  · exact absurd hnil hne
  · exact ⟨tight, hi, by simpa using frontierTight_eq_some htight, hloop⟩

/-- Settles O27: the start and the outcome of the loop (`placeRun_eq`, `exec_place_cases`), the entry a turn ranks
(`frontierPick_false`), and the fault in both directions. -/
theorem placementFaultExactlyAtTheTest : Obligations.PlacementFaultExactlyAtTheTest := by
  refine ⟨fun s hs => ?_, fun _ _ _ _ => rfl, fun stem sz count t r hne hdue => ?_,
    fun stem sz count t r ht => ⟨fun _ _ => placeLoop_eq_raise count ht, fun hcount hlate => ?_⟩⟩
  · have hsize := at256_sizes s.n.toNat (sz := s.sz) hs.1.2 (Nat.zero_add _) (fun _ => stemChildren_lt hs) (by simp)
    obtain ⟨r, hr, hexec⟩ | ⟨r, hr, hexec⟩ := exec_place_cases hs
    · refine ⟨_, _, _, hsize, fun _ => placeStart_hasRank hs, hexec, rfl, ?_⟩
      rw [← placeRun_eq hs, hr]
      exact ⟨rfl, rfl, rfl, rfl, rfl⟩
    · refine ⟨_, _, _, hsize, fun _ => placeStart_hasRank hs, hexec, rfl, ?_⟩
      rw [← placeRun_eq hs, hr]
      exact ⟨rfl, faultTaken_takeFault .placementUnsatisfiable (withPlacement s r), rfl, rfl, rfl, rfl⟩
  · obtain ⟨tight, hi, htight, hloop⟩ := placeLoop_succ_of_due stem sz count hne hdue
    refine ⟨frontierPick sz tight r.fr, hi, fun hpress => ?_, fun hcalm => ?_, hloop⟩
    · obtain rfl := htight.2 hpress
      rfl
    · obtain rfl : tight = false := by simpa [hcalm] using htight
      obtain ⟨hall, hfirst⟩ := frontierPick_false sz hi
      exact ⟨fun k hk => hall _ (List.getElem_mem hk), hfirst⟩
  · obtain ⟨count, rfl⟩ := Nat.exists_eq_add_one.2 hcount
    exact ⟨_, placeLoop_succ_of_overdue stem sz count hlate, rfl, rfl⟩

end Sys2Proof.Machine
end

section
/-! `SERIALIZE` as an instruction, O28 (44_tree_serializer.md R201 to R204): the table bytes it leaves, slot by slot. -/

namespace Sys2Proof.Machine

open Sys2Proof.Safety

/-! ### A reference as a number (R202) -/

/-- A reference holds its two flags above its skip field (R96). -/
theorem refByte_eq_ofNat (f1 f2 : Bool) {d : Nat} (hd : d < 64) :
    refByte f1 f2 (BitVec.ofNat 6 d) = BitVec.ofNat 8 (f1.toNat * 128 + f2.toNat * 64 + d) := by
  have h1 := Bool.toNat_lt f1
  have h2 := Bool.toNat_lt f2
  refine BitVec.eq_of_toNat_eq ?_
  rw [refByte, BitVec.toNat_append, BitVec.toNat_append, BitVec.toNat_ofBool, BitVec.toNat_ofBool, BitVec.toNat_ofNat,
    Nat.mod_eq_of_lt hd, ← Nat.shiftLeft_add_eq_or_of_lt hd, ← Nat.shiftLeft_add_eq_or_of_lt h2, Nat.shiftLeft_eq,
    Nat.shiftLeft_eq, BitVec.toNat_ofNat]
  omega

/-- With the stem's children in reach, a slot holds the entry of R202 for its branch. -/
theorem slotValue_eq_entryFor {stem : Vector Stem 256} {rank : Vector Byte 256} {i : Byte} (h : KidsInReach stem rank i)
    (b : Bool) : slotValue stem rank i b = entryFor stem rank (entry rank i).toNat (branchLeaf (entry stem i) b)
      (if b then (entry stem i).c2 else (entry stem i).c1) := by
  cases hf : branchLeaf (entry stem i) b with
  | true => simp [slotValue, entryFor, branchByte, hf]
  | false =>
    have hreach := h (branchByte (entry stem i) b) (mem_stemChildren_iff.2 ⟨b, hf, rfl⟩)
    rw [slotValue, if_neg (by simp [hf]), refByte_eq_ofNat _ _ (by omega)]
    rfl

/-! ### The table bytes of SERIALIZE (R201, R204) -/

/-- `SERIALIZE` keeps every table byte that is neither the count byte nor a slot of a stem (R201, R204). -/
theorem serializeOp_keeps {s t : State} (h256 : s.n.toNat ≤ 256) (hc : PlacementContract s.stem s.rank s.n.toNat)
    (h : serializeOp s = .ok t) {x : BitVec 9} (h0 : x ≠ 0)
    (hx : ∀ i < s.n.toNat, ∀ b, x ≠ slotIndex s.rank (BitVec.ofNat 8 i) b) : slotByte t.table x = slotByte s.table x := by
  obtain ⟨-, hinj, hreach⟩ := hc
  obtain ⟨table, hloop, -, hkeep⟩ := serializeLoop_ok s.n.toNat (s := 0) (by omega)
    (fun i _ hi c hk => hreach i (by omega) c hk) (fun i _ hi k _ hk => hinj i (by omega) k (by omega)) s.table
  simp only [serializeOp, hloop, Flow.map_ok, Flow.andThen_ok, Flow.ok.injEq] at h
  subst h
  rw [enterPhase_table, slotByte_setSlotByte, if_neg h0]
  exact hkeep x fun i _ hi => hx i (by omega)

/-- The slots of ranked stems stand in the first `2N` table bytes, so `SERIALIZE` keeps those from there on (R201). -/
theorem serializeOp_keeps_beyond {s t : State} (h2 : 2 ≤ s.n.toNat) (h256 : s.n.toNat ≤ 256)
    (hc : PlacementContract s.stem s.rank s.n.toNat) (h : serializeOp s = .ok t) {x : BitVec 9}
    (hx : 2 * s.n.toNat ≤ x.toNat) : slotByte t.table x = slotByte s.table x := by
  refine serializeOp_keeps h256 hc h (fun hzero => ?_) fun i hi b hslot => ?_
  · have : x.toNat = 0 := congrArg BitVec.toNat hzero
    omega
  · have := slotIndex_lt hc hi b
    rw [← hslot] at this
    omega

/-- Table byte 0, where the count byte goes, is the slot of child-1 at rank 0 alone (R204). -/
theorem slotIndex_ne_zero {rank : Vector Byte 256} {i : Byte} {b : Bool} (h : (entry rank i).toNat ≠ 0 ∨ b = true) :
    slotIndex rank i b ≠ 0 := by
  intro hzero
  have hplace : 2 * (entry rank i).toNat + b.toNat = 0 :=
    (slotIndex_toNat rank i b).symm.trans (congrArg BitVec.toNat hzero)
  obtain hrank | rfl := h
  · omega
  · rw [Bool.toNat_true] at hplace
    omega

theorem exec_serialize_eq_finish (s : State) : exec .serialize s = (serializeOp s).finish := rfl

/-- Settles O28: the slots of `serializeOp_ok`, each the entry of R202 (`slotValue_eq_entryFor`), and the bytes beyond them. -/
theorem serializeWritesTheNodeTable : Obligations.SerializeWritesTheNodeTable := by
  intro s h2 h256 hc
  obtain ⟨table, hok, hcount, hslots⟩ := serializeOp_ok h2 h256 hc
  have ⟨_, _, hreach⟩ := hc
  refine ⟨table, by rw [exec_serialize_eq_finish, hok, Flow.finish_ok, enterPhase], hcount,
    fun i hi => ⟨fun hrank => ?_, ?_⟩, fun j hj => serializeOp_keeps_beyond h2 h256 hc hok hj⟩
  · exact (hslots i hi false (slotIndex_ne_zero (.inl hrank))).trans (slotValue_eq_entryFor (hreach i hi) false)
  · exact (hslots i hi true (slotIndex_ne_zero (.inr rfl))).trans (slotValue_eq_entryFor (hreach i hi) true)

end Sys2Proof.Machine
end

section
/-! `HDRWRITE` as an instruction, O30 (44_tree_serializer.md R206, R207): its size test, and every byte of `OUT`. -/

namespace Sys2Proof.Machine

open Sys2Proof.Safety

/-! ### The size of the result (R206) -/

theorem totalBits_eq_sum_map (freq : Vector (BitVec 24) 256) (code : Vector Code 256) (n : Nat) : totalBits freq code n =
    ((List.range n).map fun b => (entry freq (BitVec.ofNat 8 b)).toNat * (entry code (BitVec.ofNat 8 b)).length).sum := by
  induction n with
  | zero => rfl
  | succ n ih => simp only [totalBits, ih, List.range_succ, List.map_append, List.sum_append, List.map_cons, List.map_nil,
      List.sum_singleton]

theorem totalBits_eq_bitTotal (s : State) : totalBits s.freq s.code 256 = bitTotal s := totalBits_eq_sum_map _ _ _

theorem resultLength_bitTotal (s : State) :
    resultLength s (bitTotal s) = 4 + 2 * s.n.toNat + 4 * groupCount (bitTotal s) := rfl

/-! ### The two ends of HDRWRITE (R206, R207) -/

/-- When `HDRWRITE` goes through, `OUT` has taken header and table, and `OPOS` stands behind them (R207). -/
theorem hdrwriteOp_eq_ok {s w : State} (h : hdrwriteOp s = .ok w) :
    ∃ m, writeOutBytes s.cfg s.outMem 0 (headerAndTable s) = .ok m ∧ w = enterPhase .pack { s with
      tbits := BitVec.ofNat 33 (bitTotal s)
      outMem := m
      opos := BitVec.ofNat 32 (4 + 2 * s.n.toNat) } := by
  simp only [hdrwriteOp, totalBits_eq_bitTotal] at h
  split at h
  · cases h
  · obtain ⟨m, hm, hw⟩ := Flow.access_eq_ok.1 h
    exact ⟨m, hm, (Flow.ok.inj hw).symm⟩

/-- When `HDRWRITE` raises, the result does not fit and nothing but `TBITS` has been written (R206). -/
theorem hdrwriteOp_eq_raise {s t : State} {e : Err} (h : hdrwriteOp s = .raise e t) :
    ¬ fitsOut s.cfg (4 + 2 * s.n.toNat + 4 * groupCount (bitTotal s)) ∧ e = .outOverflow ∧
      t = { s with tbits := BitVec.ofNat 33 (bitTotal s) } := by
  simp only [hdrwriteOp, totalBits_eq_bitTotal] at h
  split at h
  · rename_i hexceeds
    rw [← resultLength_bitTotal, ← exceedsOut_eq_false, hexceeds]
    cases h
    exact ⟨Bool.noConfusion, rfl, rfl⟩
  · obtain ⟨m, -, hw⟩ := Flow.access_eq_raise.1 h
    cases hw

/-- When the result fits, `HDRWRITE` goes through with header and table written (R206, R207). -/
theorem hdrwriteOp_of_fits {s : State} (hwf : Memory.wf s.outMem)
    (hfits : fitsOut s.cfg (4 + 2 * s.n.toNat + 4 * groupCount (bitTotal s))) :
    ∃ w, hdrwriteOp s = .ok w ∧ HeaderWritten s w := by
  obtain ⟨t, hraise⟩ | ⟨-, hok⟩ := hdrwriteOp_cases hwf
  · exact absurd hfits (hdrwriteOp_eq_raise hraise).1
  · exact hok

/-- When the result does not fit, `HDRWRITE` raises `OutOverflow` (R206). -/
theorem hdrwriteOp_of_not_fits {s : State} (hwf : Memory.wf s.outMem)
    (hlong : ¬ fitsOut s.cfg (4 + 2 * s.n.toNat + 4 * groupCount (bitTotal s))) :
    hdrwriteOp s = .raise .outOverflow { s with tbits := BitVec.ofNat 33 (bitTotal s) } := by
  obtain ⟨t, hraise⟩ | ⟨hfits, -⟩ := hdrwriteOp_cases hwf
  · obtain ⟨-, -, rfl⟩ := hdrwriteOp_eq_raise hraise
    exact hraise
  · rw [totalBits_eq_bitTotal, resultLength_bitTotal] at hfits
    exact absurd hfits hlong

/-! ### The bytes of OUT (R207) -/

theorem headerAndTable_length (s : State) : (headerAndTable s).length = 4 + 2 * s.n.toNat := by
  rw [headerAndTable, encode_hdr, List.length_append, tableBytesFrom_length]
  rfl

/-- Writing header and table keeps every byte behind them. -/
theorem read_behind_headerAndTable {s : State} {m : Memory} (hwf : Memory.wf s.outMem)
    (h : writeOutBytes s.cfg s.outMem 0 (headerAndTable s) = .ok m) {a : Nat} (ha : 4 + 2 * s.n.toNat ≤ a) :
    Memory.read m a = Memory.read s.outMem a := by
  obtain ⟨-, hread⟩ := (writeOutBytes_spec h).2 hwf
  rw [hread, headerAndTable_length, if_neg (by omega)]

/-- Three bytes that make up the low 24 bits of a word are its bytes 0 to 2 (R64, R92). -/
theorem bytes_of_append_eq {b2 b1 b0 : Byte} {w : Word} (h : (b2 ++ b1 ++ b0 : BitVec 24) = w.setWidth 24) :
    b0 = w.extractLsb' 0 8 ∧ b1 = w.extractLsb' 8 8 ∧ b2 = w.extractLsb' 16 8 := by
  have low : (b2 ++ b1 ++ b0).extractLsb' 0 8 = b0 := BitVec.extractLsb'_append_eq_right
  have mid : (b2 ++ b1 ++ b0).extractLsb' 8 8 = b1 :=
    (BitVec.extractLsb'_append_eq_of_le le_rfl).trans BitVec.extractLsb'_append_eq_right
  have high : (b2 ++ b1 ++ b0).extractLsb' 16 8 = b2 :=
    (BitVec.extractLsb'_append_eq_of_le (by decide)).trans BitVec.extractLsb'_append_eq_left
  have keep : ∀ start, start + 8 ≤ 24 → (b2 ++ b1 ++ b0).extractLsb' start 8 = w.extractLsb' start 8 :=
    fun _ hle => h ▸ BitVec.extractLsb'_setWidth_of_le hle
  exact ⟨low.symm.trans (keep 0 (by decide)), mid.symm.trans (keep 8 (by decide)), high.symm.trans (keep 16 (by decide))⟩

theorem exec_hdrwrite_eq_finish (s : State) : exec .hdrwrite s = (hdrwriteOp s).finish := rfl

/-- Settles O30: on the two sides of the size test `HDRWRITE` leaves header and table (`hdrwriteOp_of_fits`), or raises with
`TBITS` alone written (`hdrwriteOp_of_not_fits`). -/
theorem hdrwriteWritesHeaderAndTable : Obligations.HdrwriteWritesHeaderAndTable := by
  intro s _ hwf
  refine ⟨fun hfits => ?_, fun hlong => ?_⟩
  · obtain ⟨w, hok, hwritten⟩ := hdrwriteOp_of_fits hwf hfits
    obtain ⟨m, hm, rfl⟩ := hdrwriteOp_eq_ok hok
    obtain ⟨hlow, hmid, hhigh⟩ := bytes_of_append_eq hwritten.length
    exact ⟨m, by rw [exec_hdrwrite_eq_finish, hok, Flow.finish_ok, enterPhase], hwritten.tag, hlow, hmid, hhigh,
      hwritten.table, fun a ha => read_behind_headerAndTable hwf hm ha⟩
  · refine ⟨takeFault .outOverflow { s with tbits := BitVec.ofNat 33 (bitTotal s) }, ?_, ?_, rfl⟩
    · rw [exec_hdrwrite_eq_finish, hdrwriteOp_of_not_fits hwf hlong, Flow.finish_raise]
    · exact faultTaken_takeFault .outOverflow { s with tbits := BitVec.ofNat 33 (bitTotal s) }

end Sys2Proof.Machine
end

section
/-! `PACK` as an instruction, O34 (45_code_builder_bit_packer.md R226 to R230): the bytes of `OUT` from a limit on are kept, and
the registers it leaves. -/

namespace Sys2Proof.Machine

open Sys2Proof.Safety

/-! ### The bytes behind the stream (R229) -/

/-- A group written below `limit` keeps every byte from there on. -/
theorem flush_keeps_from {cfg : Config.Params} {r r' : PackRegs} {limit a : Nat} (hwf : Memory.wf r.out)
    (h : flush cfg r = .ok r') (hroom : r.opos.toNat + 4 ≤ limit) (ha : limit ≤ a) :
    Memory.read r'.out a = Memory.read r.out a := by
  obtain ⟨-, -, -, hwrite⟩ := flush_eq_ok h
  obtain ⟨-, hread⟩ := (writeOutBytes_spec hwrite).2 hwf
  have hlen : (bytesOfWord r.acc).length = 4 := rfl
  rw [hread, if_neg (by omega)]

/-- A bit flushes a full accumulator only when a further group is due, so a limit behind that group is kept (R227, R229). -/
theorem packBit_keeps_from {cfg : Config.Params} {m0 : Memory} {a0 flushed limit a : Nat} {bits : List Bool} {b : Bool}
    {r r' : PackRegs} (h : PackInv m0 a0 bits flushed r) (hb : packBit cfg b r = .ok r')
    (hroom : a0 + 4 * groupCount (bits.length + 1) ≤ limit) (ha : limit ≤ a) :
    Memory.read r'.out a = Memory.read r.out a := by
  obtain ⟨r1, hflush, hput⟩ := Flow.andThen_eq_ok.1 hb
  obtain rfl := Flow.ok.inj hput
  by_cases hrem : r.rem = 0
  · rw [if_pos hrem] at hflush
    have hfull := h.rem
    have hopos := h.opos
    have hzero : r.rem.toNat = 0 := by rw [hrem]; rfl
    simp only [groupCount] at hroom
    exact flush_keeps_from (r' := r1) h.wf hflush (by omega) ha
  · rw [if_neg hrem] at hflush
    obtain rfl := Flow.ok.inj hflush
    rfl

/-- A run of bits keeps every byte behind the groups its stream takes (R227, R229). -/
theorem packBits_keeps_from {cfg : Config.Params} {m0 : Memory} {a0 limit a : Nat} (hfits : fitsOut cfg limit)
    (hlimit : limit < 4294967296) (ha : limit ≤ a) (more : List Bool) {flushed : Nat} {bits : List Bool} {r r' : PackRegs}
    (h : PackInv m0 a0 bits flushed r) (hrun : packBits cfg more r = .ok r')
    (hroom : a0 + 4 * groupCount (bits.length + more.length) ≤ limit) :
    Memory.read r'.out a = Memory.read r.out a := by
  induction more generalizing flushed bits r with
  | nil => rw [Flow.ok.inj hrun]
  | cons b more ih =>
    simp only [List.length_cons, groupCount] at hroom
    have hone : a0 + 4 * groupCount (bits.length + 1) ≤ limit := by
      simp only [groupCount]
      omega
    obtain ⟨flushed1, r1, hb, h1, -⟩ := packBit_ok h hfits hlimit b hone
    rw [packBits, hb, Flow.andThen_ok] at hrun
    have hrest := ih h1 hrun (by simp only [List.length_append, List.length_singleton, groupCount]; omega)
    exact hrest.trans (packBit_keeps_from h hb hone ha)

/-! ### What PACK leaves (R226, R227, R140) -/

/-- The packer's registers before the first bit (R226). -/
def packStart (s : State) : PackRegs := { acc := 0, rem := 32, opos := s.opos, out := s.outMem }

theorem packInv_packStart {s : State} (hwf : Memory.wf s.outMem) :
    PackInv s.outMem s.opos.toNat [] 0 (packStart s) := by
  refine ⟨le_rfl, rfl, rfl, hwf, fun i hi => ?_, fun j _ => ?_, fun _ _ => rfl⟩
  · omega
  · simp [packStart]

/-- A `PACK` that goes through has packed the coded input and flushed once more, and then ended the command (R227, R140). -/
theorem packOp_eq_ok {s t : State} (h : packOp s = .ok t) :
    ∃ r r', packBits s.cfg (codedBits s) (packStart s) = .ok r ∧ flush s.cfg r = .ok r' ∧
      t = endCommand { s with acc := r'.acc, rem := r'.rem, opos := r'.opos, outMem := r'.out } := by
  obtain ⟨bytes, hbytes, hrun⟩ := Flow.access_eq_ok.1 h
  obtain ⟨u, hmap, hend⟩ := Flow.andThen_eq_ok.1 hrun
  obtain ⟨r', hpacked, rfl⟩ := Flow.map_eq_ok.1 hmap
  obtain ⟨r, hbits, hflush⟩ := Flow.andThen_eq_ok.1 hpacked
  rw [packBytes_eq, sourceBytes_eq_ok hbytes] at hbits
  exact ⟨r, r', hbits, hflush, (Flow.ok.inj hend).symm⟩

/-- The whole run keeps every byte behind the stream: the last flush writes the last of its groups (R229). -/
theorem packRun_keeps_from {s : State} {r r' : PackRegs} {limit a : Nat} (hwf : Memory.wf s.outMem)
    (hfits : fitsOut s.cfg limit) (hlimit : limit < 4294967296)
    (hroom : s.opos.toNat + 4 * groupCount (codedBits s).length ≤ limit)
    (hbits : packBits s.cfg (codedBits s) (packStart s) = .ok r) (hflush : flush s.cfg r = .ok r') (ha : limit ≤ a) :
    Memory.read r'.out a = Memory.read s.outMem a := by
  obtain ⟨flushed, r1, hrun, hinv, hstart⟩ :=
    packBits_ok hfits hlimit (codedBits s) (packInv_packStart hwf) (.inl rfl) (by simpa using hroom)
  obtain rfl : r1 = r := Flow.ok.inj (hrun.symm.trans hbits)
  have hlast : r1.opos.toNat + 4 ≤ limit := by
    have hopos := hinv.opos
    simp only [List.nil_append] at hstart
    simp only [groupCount] at hroom
    omega
  calc Memory.read r'.out a
      = Memory.read r1.out a := flush_keeps_from hinv.wf hflush hlast ha
    _ = Memory.read s.outMem a := packBits_keeps_from hfits hlimit ha (codedBits s) (packInv_packStart hwf) hbits
        (by simpa using hroom)

theorem exec_pack_eq_finish (s : State) : exec .pack s = (packOp s).finish := rfl

/-- Settles O34: `packOp_ok` gives the stream, the final `OPOS` and the bytes below; the run it speaks of ends in a flush, which
leaves the registers fresh (`flush_eq_ok`), and keeps the bytes behind the stream. -/
theorem packWritesTheBitstream : Obligations.PackWritesTheBitstream := by
  intro s hwf hrange hlimit hfits
  obtain ⟨acc, rem, opos, m, hpack, hopos, hstream, hbelow⟩ := packOp_ok hwf hrange hfits hlimit le_rfl
  obtain ⟨r, r', hbits, hflush, hend⟩ := packOp_eq_ok hpack
  obtain ⟨hacc, hrem, -, -⟩ := flush_eq_ok hflush
  obtain rfl : acc = 0 := (congrArg State.acc hend).trans hacc
  obtain rfl : rem = 32 := (congrArg State.rem hend).trans hrem
  obtain rfl : m = r'.out := congrArg State.outMem hend
  refine ⟨_, by rw [exec_pack_eq_finish, hpack, Flow.finish_ok], rfl, hopos, hstream, fun a ha => ?_⟩
  rcases ha with hlow | hhigh
  · exact hbelow a hlow
  · exact packRun_keeps_from hwf hfits hlimit le_rfl hbits hflush hhigh

end Sys2Proof.Machine
end

section
/-! `DWALK` as an instruction, O36 (46_bit_walker.md R255 to R262, R264): the walk that passes the bound, what the loops leave
of `OUT` behind the bytes emitted, and the registers `DWALK` writes. -/

namespace Sys2Proof.Machine

open Sys2Proof.Safety

/-! ### The loops of DWALK when the walk passes the bound (R257, R264) -/

/-- One step of the walk inside the bound, as far as its bytes go (R257). -/
theorem walkEmitted_cons {table : Nat → Byte} {cnt : Nat} {boot cur : Byte} {b : Bool} {bits : List Bool} {pos p want : Nat}
    (hp : pos + cur.toNat % 64 + 1 = p) (hle : p ≤ cnt) :
    walkEmitted table cnt boot (b :: bits) pos cur (want + 1) =
      if cur.getLsbD (if b then 6 else 7) then
        table (2 * p + b.toNat) :: walkEmitted table cnt boot bits 0 boot want
      else walkEmitted table cnt boot bits p (table (2 * p + b.toNat)) (want + 1) := by
  subst hp
  simp only [walkEmitted, if_neg (not_lt.2 hle)]

/-- The walk of a bitstream over the table of a state, from a position and an entry on, passes the bound, and emits `out`
before (R257, R264). -/
def PastFrom (s : State) (bits : List Bool) (pos : Nat) (cur : Byte) (want : Nat) (out : List Byte) : Prop :=
  walkStream (tableOf s) s.cnt.toNat s.boot bits pos cur want = none ∧
    walkEmitted (tableOf s) s.cnt.toNat s.boot bits pos cur want = out

/-- That walk from where a state stands (R256). -/
def WalksPast (s : State) (bits : List Bool) (out : List Byte) : Prop :=
  PastFrom s bits s.pos.toNat s.cur (s.explen.toNat - s.outcnt.toNat) out

/-- A walk that passes the bound still wants a byte. -/
theorem WalksPast.outcnt_lt {s : State} {bits : List Bool} {out : List Byte} (h : WalksPast s bits out) :
    s.outcnt.toNat < s.explen.toNat := by
  by_contra hdone
  have hnone := h.1
  rw [Nat.sub_eq_zero_of_le (not_lt.1 hdone), walkStream_zero] at hnone
  cases hnone

/-- A walk of no bits passes no bound. -/
theorem not_walksPast_nil (s : State) (out : List Byte) : ¬ WalksPast s [] out := by
  rintro ⟨hnone, -⟩
  rw [walkStream_nil] at hnone
  cases hnone

/-- The first step of a walk that passes the bound passes it, or stays inside it at a literal or a reference, and the rest of
the walk passes it (R257, R98). -/
theorem WalksPast.cons_cases {s : State} {rest : List Bool} {out : List Byte} (h : WalksPast s (nextBit s :: rest) out) :
    (s.cnt.toNat < nextPosition s ∧ out = []) ∨
      (nextPosition s ≤ s.cnt.toNat ∧ leafFlag s.cur (nextBit s) = true ∧ ∃ out2, out = stepByte s :: out2 ∧
        PastFrom s rest 0 s.boot (s.explen.toNat - (s.outcnt.toNat + 1)) out2) ∨
      (nextPosition s ≤ s.cnt.toNat ∧ leafFlag s.cur (nextBit s) = false ∧
        PastFrom s rest (nextPosition s) (stepByte s) (s.explen.toNat - s.outcnt.toNat) out) := by
  obtain ⟨want, hwant⟩ : ∃ want, s.explen.toNat - s.outcnt.toNat = want + 1 :=
    ⟨s.explen.toNat - s.outcnt.toNat - 1, by have := h.outcnt_lt; omega⟩
  obtain ⟨hnone, hout⟩ := h
  have hskip : (refSkip s.cur).toNat = s.cur.toNat % 64 := by simp [refSkip]
  have hp : s.pos.toNat + s.cur.toNat % 64 + 1 = nextPosition s := by rw [nextPosition, hskip]
  have hflag : s.cur.getLsbD (if nextBit s then 6 else 7) = leafFlag s.cur (nextBit s) := by
    cases nextBit s <;> rfl
  rw [← Nat.sub_sub, hwant]
  rw [hwant] at hnone hout
  by_cases hpast : s.cnt.toNat < nextPosition s
  · exact .inl ⟨hpast, by simpa [walkEmitted, hp, hpast] using hout.symm⟩
  have hle := not_lt.1 hpast
  rw [walkStream_cons hp hle, hflag] at hnone
  rw [walkEmitted_cons hp hle, hflag] at hout
  by_cases hf : leafFlag s.cur (nextBit s) = true
  · rw [if_pos hf] at hnone hout
    exact .inr (.inl ⟨hle, hf, _, hout.symm, Option.map_eq_none_iff.1 hnone, rfl⟩)
  · rw [if_neg hf] at hnone hout
    exact .inr (.inr ⟨hle, Bool.not_eq_true _ ▸ hf, Option.map_eq_none_iff.1 hnone, hout⟩)

/-- The move of a step past the bound (R257). -/
theorem stepBit_past {s : State} (h : s.cnt.toNat < nextPosition s) :
    stepBit s = .raise .positionOutOfTree (moved s) := by
  rcases advance_cases s with ⟨-, hraise⟩ | ⟨hle, -⟩
  · rw [stepBit, hraise, Flow.andThen_raise, moved]
  · omega

/-- A step of a walk that passes the bound passes it, or is a step inside it to a state whose walk does (R257). -/
theorem stepBit_walksPast {s : State} (hr : WalkReady s) {rest : List Bool} {out : List Byte}
    (h : WalksPast s (nextBit s :: rest) out) :
    (stepBit s = .raise .positionOutOfTree (moved s) ∧ out = []) ∨
      ∃ t out1 out2, stepBit s = .ok t ∧ t.k = s.k - 1 ∧ t.w = s.w ∧ t.g = s.g ∧ Emitted s out1 t ∧ WalkReady t ∧
        WalksPast t rest out2 ∧ out = out1 ++ out2 := by
  have hlt := h.outcnt_lt
  have hmoved := emitted_moved hr.wf
  rcases h.cons_cases with ⟨hpast, rfl⟩ | ⟨hle, hf, out2, rfl, hrest⟩ | ⟨hle, hf, hrest⟩
  · exact .inl ⟨stepBit_past hpast, rfl⟩
  · obtain ⟨t, hleaf, hemit', hcur, hpos, hk, hw, hg⟩ := leafItem_emitted (hr.of_emitted hmoved hlt.le) hlt (stepByte s)
    have hemit := hmoved.trans hemit'
    have hkeep := hemit.keeps
    have hboot : t.cur = s.boot := hcur
    refine .inr ⟨t, [stepByte s], out2, by rw [stepBit_eq hr hle, if_pos hf, hleaf], hk, hw, hg, hemit,
      hr.of_emitted hemit (by simpa using hlt), ?_, rfl⟩
    rw [WalksPast, PastFrom, hkeep.tableOf, hkeep.cnt, hkeep.boot, hkeep.explen, hboot, hpos, hemit.outcnt]
    exact hrest
  · have hemit := hmoved.trans (emitted_refItem (s := moved s) hr.wf (stepByte s))
    have hpos : (refItem (stepByte s) (moved s)).pos.toNat = nextPosition s := by
      change (BitVec.ofNat 9 (nextPosition s)).toNat = _
      rw [BitVec.toNat_ofNat]
      omega
    refine .inr ⟨refItem (stepByte s) (moved s), [], out, by rw [stepBit_eq hr hle, if_neg (by rw [hf]; decide)], rfl, rfl,
      rfl, hemit, hr.of_emitted hemit hlt.le, ?_, rfl⟩
    rw [WalksPast, hpos]
    exact hrest

/-- The inner loop over the bits left of a group raises the fault, or walks them all and leaves a walk that passes the bound
(R256, R264). -/
theorem walkBits_walksPast (count : Nat) {s : State} (hr : WalkReady s) (hk : s.k.toNat = count) {rest : List Bool}
    {out : List Byte} (h : WalksPast s (wordBits s.w count ++ rest) out) :
    (∃ t, walkBits count s = .raise .positionOutOfTree t ∧ Emitted s out t) ∨
      ∃ t out1 out2, walkBits count s = .ok t ∧ t.g = s.g ∧ Emitted s out1 t ∧ WalkReady t ∧ WalksPast t rest out2 ∧
        out = out1 ++ out2 := by
  induction count generalizing s out with
  | zero => exact .inr ⟨s, [], out, rfl, rfl, Emitted.refl hr.wf, hr, h, rfl⟩
  | succ count ih =>
    have hnot : s.outcnt ≠ s.explen := fun e => absurd h.outcnt_lt (by rw [e]; exact lt_irrefl _)
    have hbit : nextBit s = s.w.getLsbD count := by rw [nextBit, hk, Nat.add_sub_cancel]
    rw [wordBits, List.cons_append, ← hbit] at h
    rw [walkBits, if_neg hnot]
    rcases stepBit_walksPast hr h with ⟨hstep, rfl⟩ | ⟨t, out1, out2, hstep, hk', hw, hg, hemit, hready, hwalk, rfl⟩
    · exact .inl ⟨_, by rw [hstep, Flow.andThen_raise], emitted_moved hr.wf⟩
    · have hcount : t.k.toNat = count := by
        rw [hk', toNat_sub_one (by omega), hk, Nat.add_sub_cancel]
      rw [← hw] at hwalk
      rw [hstep, Flow.andThen_ok]
      rcases ih hready hcount hwalk with ⟨u, hloop, hemit'⟩ | ⟨u, out3, out4, hloop, hg', hemit', hready', hwalk', rfl⟩
      · exact .inl ⟨u, hloop, hemit.trans hemit'⟩
      · exact .inr ⟨u, out1 ++ out3, out4, hloop, hg'.trans hg, hemit.trans hemit', hready', hwalk',
          by rw [List.append_assoc]⟩

/-- The group loop of a walk that passes the bound raises `PositionOutOfTree` behind the bytes emitted (R256, R264). -/
theorem walkGroups_walksPast (count : Nat) {s : State} (hr : WalkReady s) (hg : s.g.toNat + count = s.ng.toNat)
    {out : List Byte} (h : WalksPast s (streamBits s.inMem (groupAddress s) count) out) :
    ∃ t, walkGroups count s = .raise .positionOutOfTree t ∧ Emitted s out t := by
  induction count generalizing s out with
  | zero => exact absurd h (not_walksPast_nil s out)
  | succ count ih =>
    have hshort : shortOf s = true := by simpa [shortOf] using h.outcnt_lt
    have hpay := hr.payload
    have hread := readGroup_ok (s := s) (by rw [groupAddress]; omega)
    rw [streamBits_succ] at h
    generalize wordAt s.inMem (groupAddress s) = w at h hread
    have hg1 : (groupItem w s).g.toNat = s.g.toNat + 1 := toNat_add_one (by have := s.ng.isLt; omega)
    have hemit0 : Emitted s [] (groupItem w s) := ⟨rfl, rfl, hr.wf, fun i hi => by simp at hi, fun _ _ => rfl⟩
    rw [walkGroups, if_pos hshort, hread, Flow.andThen_ok]
    rcases walkBits_walksPast 32 (s := groupItem w s) (hr.of_emitted hemit0 hr.count) rfl h with
      ⟨t, hbits, hemit⟩ | ⟨t, out1, out2, hbits, hgt, hemit, hready, hwalk, rfl⟩
    · exact ⟨t, by rw [hbits, Flow.andThen_raise], hemit0.trans hemit⟩
    · have hkeep := hemit.keeps
      have hngt : t.g.toNat + count = t.ng.toNat := by
        rw [hgt, hg1, hkeep.ng, groupItem_ng]
        omega
      have haddr : groupAddress s + 4 = groupAddress t := by
        rw [groupAddress, groupAddress, hgt, hg1, hkeep.pay, groupItem_pay]
        omega
      rw [haddr, ← hkeep.inMem.trans (groupItem_inMem w s)] at hwalk
      obtain ⟨u, hloop, hemit'⟩ := ih hready hngt hwalk
      exact ⟨u, by rw [hbits, Flow.andThen_ok, hloop], (hemit0.trans hemit).trans hemit'⟩

/-- When the walk of the payload passes the bound, `DWALK` raises `PositionOutOfTree` behind the bytes emitted (R257, R264). -/
theorem dwalkOp_raise {s : State} (hr : WalkReady (walkStart s)) (h : payloadWalk s = none) :
    ∃ t, dwalkOp s = .raise .positionOutOfTree t ∧ Emitted (walkStart s) (payloadEmitted s) t := by
  have hwalk : WalksPast (walkStart s) (streamBits (walkStart s).inMem (groupAddress (walkStart s)) s.ng.toNat)
      (payloadEmitted s) := ⟨h, rfl⟩
  obtain ⟨t, hloop, hemit⟩ := walkGroups_walksPast s.ng.toNat hr (Nat.zero_add _) hwalk
  exact ⟨t, by rw [dwalkOp, hloop, Flow.andThen_raise], hemit⟩

/-! ### OUT behind the bytes emitted (R70, R257) -/

/-- `t` is `s` after a part of the walk, as far as the bytes not yet emitted go: `OUTCNT` has not passed `EXPLEN`, and `OUT` is
as before from `OUTCNT` on. -/
structure OutKept (s t : State) : Prop where
  count : s.outcnt.toNat ≤ t.outcnt.toNat
  within : t.outcnt.toNat ≤ t.explen.toNat
  wf : Memory.wf t.outMem
  beyond : ∀ a, t.outcnt.toNat ≤ a → Memory.read t.outMem a = Memory.read s.outMem a

/-- What writes neither `OUTCNT`, `EXPLEN` nor `OUT` keeps the bytes not yet emitted. -/
theorem OutKept.of_eq {s t : State} (hle : s.outcnt.toNat ≤ s.explen.toNat) (hwf : Memory.wf s.outMem)
    (hcount : t.outcnt = s.outcnt) (hexplen : t.explen = s.explen) (hout : t.outMem = s.outMem) : OutKept s t :=
  ⟨by rw [hcount], by rwa [hcount, hexplen], by rwa [hout], fun _ _ => by rw [hout]⟩

theorem OutKept.refl {s : State} (hle : s.outcnt.toNat ≤ s.explen.toNat) (hwf : Memory.wf s.outMem) : OutKept s s :=
  OutKept.of_eq hle hwf rfl rfl rfl

theorem OutKept.trans {s t u : State} (h : OutKept s t) (h' : OutKept t u) : OutKept s u := by
  have hcount := h'.count
  exact ⟨h.count.trans hcount, h'.within, h'.wf, fun a ha => (h'.beyond a ha).trans (h.beyond a (hcount.trans ha))⟩

/-- A literal that is still wanted is written at `OUTCNT`, which then moves past it (R257). -/
theorem leafItem_outKept (v : Byte) {s : State} (hlt : s.outcnt.toNat < s.explen.toNat) (hwf : Memory.wf s.outMem) :
    (leafItem v s).Keeps (OutKept s) := by
  refine Flow.Keeps.access fun m hm => ?_
  obtain ⟨-, rfl⟩ := writeOut_eq_ok hm
  have hinc : (s.outcnt + 1).toNat = s.outcnt.toNat + 1 := toNat_add_one (by have := s.explen.isLt; omega)
  rw [Flow.keeps_ok]
  refine ⟨?_, ?_, Memory.write_wf hwf _ _, fun a ha => ?_⟩
  · change s.outcnt.toNat ≤ (s.outcnt + 1).toNat
    omega
  · change (s.outcnt + 1).toNat ≤ s.explen.toNat
    omega
  · replace ha : (s.outcnt + 1).toNat ≤ a := ha
    exact (Memory.read_write hwf _ _ _).trans (if_neg (by omega))

theorem interpret_outKept (b : Bool) {s : State} (hlt : s.outcnt.toNat < s.explen.toNat) (hwf : Memory.wf s.outMem) :
    (interpret b s).Keeps (OutKept s) := by
  refine Flow.Keeps.access fun e _ => ?_
  split
  · exact leafItem_outKept e hlt hwf
  · exact OutKept.of_eq (t := refItem e s) hlt.le hwf rfl rfl rfl

theorem stepBit_outKept {s : State} (hlt : s.outcnt.toNat < s.explen.toNat) (hwf : Memory.wf s.outMem) :
    (stepBit s).Keeps (OutKept s) := by
  have hmoved : OutKept s (moved s) := OutKept.of_eq hlt.le hwf rfl rfl rfl
  rcases advance_cases s with ⟨-, h⟩ | ⟨-, h⟩
  · rw [stepBit, h, Flow.andThen_raise]
    exact hmoved
  · rw [stepBit, h, Flow.andThen_ok]
    exact (interpret_outKept (s := moved s) (nextBit s) hlt hwf).mono fun _ => hmoved.trans

theorem readGroup_outKept {s : State} (hle : s.outcnt.toNat ≤ s.explen.toNat) (hwf : Memory.wf s.outMem) :
    (readGroup s).Keeps (OutKept s) := by
  refine Flow.Keeps.access fun bytes _ => ?_
  split <;> exact OutKept.of_eq hle hwf rfl rfl rfl

/-- The inner loop steps only while a byte is wanted (R256). -/
theorem walkBits_outKept (count : Nat) {s : State} (hle : s.outcnt.toNat ≤ s.explen.toNat) (hwf : Memory.wf s.outMem) :
    (walkBits count s).Keeps (OutKept s) := by
  induction count generalizing s with
  | zero => exact OutKept.refl hle hwf
  | succ count ih =>
    by_cases hdone : s.outcnt = s.explen
    · rw [walkBits, if_pos hdone]
      exact OutKept.refl hle hwf
    · have hlt : s.outcnt.toNat < s.explen.toNat := lt_of_le_of_ne hle fun e => hdone (BitVec.eq_of_toNat_eq e)
      rw [walkBits, if_neg hdone]
      exact (stepBit_outKept hlt hwf).andThen (fun _ h => h) fun a ha => (ih ha.within ha.wf).mono fun _ => ha.trans

theorem walkGroups_outKept (count : Nat) {s : State} (hle : s.outcnt.toNat ≤ s.explen.toNat) (hwf : Memory.wf s.outMem) :
    (walkGroups count s).Keeps (OutKept s) := by
  induction count generalizing s with
  | zero => exact OutKept.refl hle hwf
  | succ count ih =>
    rw [walkGroups]
    split
    · refine Flow.Keeps.andThen (P := OutKept s) ?_ (fun _ h => h)
        fun a ha => (ih ha.within ha.wf).mono fun _ => ha.trans
      exact (readGroup_outKept hle hwf).andThen (fun _ h => h)
        fun a ha => (walkBits_outKept 32 ha.within ha.wf).mono fun _ => ha.trans
    · exact OutKept.refl hle hwf

/-! ### What DWALK leaves unchanged (R255 to R262, R283) -/

/-- `t` differs from `s` in the walk's own registers, the result's and `OUT` below `OUTCNT` alone. -/
structure DwalkKeeps (s t : State) : Prop where
  registers : t = { s with
    w := t.w
    g := t.g
    k := t.k
    pos := t.pos
    cur := t.cur
    outcnt := t.outcnt
    outMem := t.outMem
    outLen := t.outLen
    point := t.point
    status := t.status }
  beyond : ∀ a, t.outcnt.toNat ≤ a → Memory.read t.outMem a = Memory.read s.outMem a

theorem exec_dwalk_eq_finish (s : State) : exec .dwalk s = (dwalkOp s).finish := rfl

/-- Two properties a run keeps, it keeps together. -/
theorem Flow.Keeps.and {α : Type} {P Q : α → Prop} {x : Flow α} (hp : x.Keeps P) (hq : x.Keeps Q) :
    x.Keeps fun a => P a ∧ Q a := by
  cases x with
  | ok a => exact ⟨hp, hq⟩
  | raise e a => exact ⟨hp, hq⟩
  | stop f => trivial

/-- The states the loops reach from the initialisation differ from the first only as `DWALK` may (R255, R256). -/
theorem walkGroups_dwalkKeeps {s : State} (hwf : Memory.wf s.outMem) :
    (walkGroups s.ng.toNat (walkStart s)).Keeps (DwalkKeeps s) := by
  have hregisters := walkGroups_walkKeeps s.ng.toNat (walkStart s)
  have hout := walkGroups_outKept s.ng.toNat (s := walkStart s) (Nat.zero_le _) hwf
  refine (hregisters.and hout).mono fun t ⟨hkeeps, hkept⟩ => ⟨?_, hkept.beyond⟩
  rw [hkeeps]
  rfl

/-- However `DWALK` ends, it has written only what it may (R255 to R262, R283). -/
theorem exec_dwalk_keeps {s t : State} (hwf : Memory.wf s.outMem) (h : exec .dwalk s = .next t) : DwalkKeeps s t := by
  have hrun : (dwalkOp s).Keeps (DwalkKeeps s) := (walkGroups_dwalkKeeps hwf).andThen (fun _ h => h)
    fun a ha => ⟨by rw [ha.registers]; rfl, ha.beyond⟩
  exact hrun.finish (fun e a ha => ⟨by rw [ha.registers]; rfl, ha.beyond⟩) h

/-! ### DWALK as an instruction -/

/-- The bytes a walk from the initialisation has emitted stand at `OUT` 0 (R255, R257). -/
theorem Emitted.inBytes_eq {s t : State} {out : List Byte} (h : Emitted (walkStart s) out t) :
    t.outcnt.toNat = out.length ∧ inBytes t.outMem 0 out.length = out := by
  refine ⟨h.outcnt.trans (Nat.zero_add _), List.ext_getElem (inBytes_length _ _ _) fun i _ hi => ?_⟩
  have hbyte := h.bytes i hi
  rw [List.getD_eq_getElem _ _ hi] at hbyte
  exact (getElem_inBytes _ _ _ i hi).trans hbyte

/-- What the host sees of a fault taken in the loops is what it sees of one taken before them (R283). -/
theorem WalkKeeps.faultTaken {s t : State} (h : WalkKeeps (walkStart s) t) (e : Err) : FaultTaken e s (takeFault e t) := by
  rw [h]
  exact faultTaken_takeFault e _

/-- The status at the end of a walk: `SHORT` by the bytes emitted, `TRAILING` by the groups fetched (R262, R140). -/
theorem finishWalk_status_of_emitted {s t : State} {out : List Byte} {used : Nat} (h : Emitted (walkStart s) out t)
    (hg : t.g.toNat = (used + 31) / 32) :
    (finishWalk t).status = { s.status with
      phase := .none
      state := .done
      short := decide (out.length < s.explen.toNat)
      trailing := decide (s.pay.toNat + 4 * ((used + 31) / 32) < s.off.toNat + s.len.toNat) } := by
  have hkeep := h.keeps
  have hshort : shortOf t = decide (out.length < s.explen.toNat) := by
    rw [shortOf, h.inBytes_eq.1, hkeep.explen, walkStart_explen]
  have htrailing : trailingOf t = decide (s.pay.toNat + 4 * ((used + 31) / 32) < s.off.toNat + s.len.toNat) := by
    rw [trailingOf, hg, hkeep.pay, hkeep.off, hkeep.len, walkStart_pay, walkStart_off, walkStart_len]
  rw [finishWalk_status, hshort, htrailing, hkeep.status, walkStart_status]

/-- Settles O36: the loops of `DWALK` follow the walk to its end (`dwalkOp_ok`) or to the step past the bound
(`dwalkOp_raise`), and either way they write only what `exec_dwalk_keeps` allows. -/
theorem dwalkFollowsTheTable : Obligations.DwalkFollowsTheTable := by
  intro s hwf hpay htable hfits
  have hready : WalkReady (walkStart s) := ⟨htable, hpay, hfits, Nat.zero_le _, hwf⟩
  refine ⟨fun out used hwalk => ?_, fun hpast => ?_⟩
  · obtain ⟨t, hrun, hemit, hg⟩ := dwalkOp_ok hready hwalk
    have hexec : exec .dwalk s = .next (finishWalk t) := by rw [exec_dwalk_eq_finish, hrun, Flow.finish_ok]
    have hkeeps := exec_dwalk_keeps hwf hexec
    obtain ⟨hcount, hbytes⟩ := hemit.inBytes_eq
    refine ⟨_, hexec, hkeeps.registers, finishWalk_status_of_emitted hemit hg, hcount, fun hop => ?_, hbytes, hkeeps.beyond⟩
    have htop : t.op = .decode := hemit.keeps.op.trans hop
    have := t.outcnt.isLt
    simp only [finishWalk_outLen, htop, BitVec.toNat_setWidth]
    omega
  · obtain ⟨t, hrun, hemit⟩ := dwalkOp_raise hready hpast
    have hexec : exec .dwalk s = .next (takeFault .positionOutOfTree t) := by
      rw [exec_dwalk_eq_finish, hrun, Flow.finish_raise]
    have hkeeps := exec_dwalk_keeps hwf hexec
    obtain ⟨hcount, hbytes⟩ := hemit.inBytes_eq
    refine ⟨_, hexec, hkeeps.registers, hemit.keeps.faultTaken _, hcount, ?_, hkeeps.beyond⟩
    rw [takeFault_outcnt, takeFault_outMem, hcount]
    exact hbytes

end Sys2Proof.Machine
end

section
/-! `DVALIDATE` as an instruction, O35 (46_bit_walker.md R251, R252): what it runs on a buffer that has passed the tests so far,
the fault of each test, and the registers it writes. -/

namespace Sys2Proof.Machine

open Sys2Proof.Safety

/-! ### DVALIDATE test by test (R251, R252) -/

/-- The length field of the header, little-endian (R92, R251). -/
def headerLength (s : State) : BitVec 24 :=
  Memory.read s.inMem (s.off.toNat + 3) ++ Memory.read s.inMem (s.off.toNat + 2) ++ Memory.read s.inMem (s.off.toNat + 1)

/-- The count byte of the buffer (R93, R251). -/
def countByte (s : State) : Byte := Memory.read s.inMem (s.off.toNat + 4)

/-- With six bytes there, `DVALIDATE` goes on with the count byte (R251). -/
theorem dvalidateOp_of_count {s : State} (hrange : s.off.toNat + s.len.toNat ≤ s.cfg.inSize) (h6 : 6 ≤ s.len.toNat) :
    dvalidateOp s = ((countItem (countByte s) { s with point := .count }).andThen readHeader).andThen readBoot := by
  have htests : lengthTests s = .ok { s with point := .count } := by
    rw [lengthTests, if_neg (by omega), if_neg (by omega)]
  have hread : readIn { s with point := .count } (countAddress { s with point := .count }) = .ok (countByte s) :=
    readIn_ok (by change s.off.toNat + 4 < s.cfg.inSize; omega)
  rw [dvalidateOp, htests, Flow.andThen_ok, readCount, hread, Flow.access_ok]

/-- With the whole table there, `DVALIDATE` goes on with the header (R251). -/
theorem dvalidateOp_of_table {s : State} (hrange : s.off.toNat + s.len.toNat ≤ s.cfg.inSize)
    (htable : 6 + 2 * (countByte s).toNat ≤ s.len.toNat) :
    dvalidateOp s = (headerItem (Memory.read s.inMem s.off.toNat) (headerLength s)
      { s with cnt := countByte s, point := .header }).andThen readBoot := by
  rw [dvalidateOp_of_count hrange (by omega), countItem_ok (s := { s with point := .count }) htable, Flow.andThen_ok,
    readHeader_ok (by change s.off.toNat + 4 ≤ s.cfg.inSize; omega)]
  rfl

/-- With the right tag and a length that fits `OUT`, `DVALIDATE` goes through (R251). -/
theorem dvalidateOp_of_header {s : State} (hrange : s.off.toNat + s.len.toNat ≤ s.cfg.inSize)
    (htable : 6 + 2 * (countByte s).toNat ≤ s.len.toNat) (htag : Memory.read s.inMem s.off.toNat = Config.tag)
    (hfits : fitsOut s.cfg (headerLength s).toNat) :
    dvalidateOp s =
      .ok (bootItem (tableOf s 1) { s with cnt := countByte s, explen := headerLength s, point := .boot }) := by
  have hread : readIn { s with cnt := countByte s, explen := headerLength s, point := .boot }
      (bootAddress { s with cnt := countByte s, explen := headerLength s, point := .boot }) = .ok (tableOf s 1) :=
    readIn_ok (by change s.off.toNat + 5 < s.cfg.inSize; omega)
  rw [dvalidateOp_of_table hrange htable,
    headerItem_ok (s := { s with cnt := countByte s, point := .header }) htag hfits, Flow.andThen_ok, readBoot, hread,
    Flow.access_ok]

/-! ### What DVALIDATE leaves unchanged (R251, R283) -/

/-- `t` differs from `s` in the registers `DVALIDATE` sets, the result's length, the place and the status alone. -/
def DvalidateKeeps (s t : State) : Prop :=
  t = { s with
    cnt := t.cnt
    explen := t.explen
    boot := t.boot
    pay := t.pay
    ng := t.ng
    expLen := t.expLen
    outLen := t.outLen
    point := t.point
    status := t.status }

theorem exec_dvalidate_eq_finish (s : State) : exec .dvalidate s = (dvalidateOp s).finish := rfl

/-- A test that fails raises its fault before any register but `CNT` and `EXPLEN` is set, and the fault is taken
(R251, R282, R283). -/
theorem exec_dvalidate_of_raise {s : State} {e : Err} {cnt : Byte} {explen : BitVec 24} {point : Point}
    (h : dvalidateOp s = .raise e { s with cnt := cnt, explen := explen, point := point }) :
    ∃ t, exec .dvalidate s = .next t ∧ DvalidateKeeps s t ∧ FaultTaken e s t :=
  ⟨_, (exec_dvalidate_eq_finish s).trans (congrArg Flow.finish h), rfl,
    faultTaken_takeFault e { s with cnt := cnt, explen := explen, point := point }⟩

/-! ### The outcome of each test (R251, R252) -/

section Tests

variable {s : State}

theorem exec_dvalidate_of_len_lt_4 (h4 : s.len.toNat < 4) :
    ∃ t, exec .dvalidate s = .next t ∧ DvalidateKeeps s t ∧ FaultTaken .truncatedHeader s t :=
  exec_dvalidate_of_raise (cnt := s.cnt) (explen := s.explen) (point := s.point)
    (by rw [dvalidateOp, lengthTests, if_pos h4]; rfl)

theorem exec_dvalidate_of_len_lt_6 (h4 : ¬ s.len.toNat < 4) (h6 : s.len.toNat < 6) :
    ∃ t, exec .dvalidate s = .next t ∧ DvalidateKeeps s t ∧ FaultTaken .truncatedTable s t :=
  exec_dvalidate_of_raise (cnt := s.cnt) (explen := s.explen) (point := s.point)
    (by rw [dvalidateOp, lengthTests, if_neg h4, if_pos h6]; rfl)

variable (hrange : s.off.toNat + s.len.toNat ≤ s.cfg.inSize)

include hrange

theorem exec_dvalidate_of_len_lt_table (h6 : ¬ s.len.toNat < 6) (htable : s.len.toNat < 6 + 2 * (countByte s).toNat) :
    ∃ t, exec .dvalidate s = .next t ∧ DvalidateKeeps s t ∧ FaultTaken .truncatedTable s t := by
  refine exec_dvalidate_of_raise (cnt := countByte s) (explen := s.explen) (point := .count) ?_
  rw [dvalidateOp_of_count hrange (not_lt.1 h6)]
  rcases countItem_cases (countByte s) { s with point := .count } with ⟨-, hraise⟩ | ⟨hle, -⟩
  · rw [hraise, Flow.andThen_raise, Flow.andThen_raise]
  · exact absurd htable (not_lt.2 hle)

theorem exec_dvalidate_of_tag_ne (htable : 6 + 2 * (countByte s).toNat ≤ s.len.toNat)
    (htag : Memory.read s.inMem s.off.toNat ≠ Config.tag) :
    ∃ t, exec .dvalidate s = .next t ∧ DvalidateKeeps s t ∧ FaultTaken .badFormatTag s t := by
  refine exec_dvalidate_of_raise (cnt := countByte s) (explen := s.explen) (point := .header) ?_
  rw [dvalidateOp_of_table hrange htable, headerItem, if_pos htag, Flow.andThen_raise]

theorem exec_dvalidate_of_exceedsOut (htable : 6 + 2 * (countByte s).toNat ≤ s.len.toNat)
    (htag : Memory.read s.inMem s.off.toNat = Config.tag) (hexceeds : exceedsOut s.cfg (headerLength s).toNat = true) :
    ∃ t, exec .dvalidate s = .next t ∧ DvalidateKeeps s t ∧ FaultTaken .outOverflow s t := by
  refine exec_dvalidate_of_raise (cnt := countByte s) (explen := headerLength s) (point := .header) ?_
  rw [dvalidateOp_of_table hrange htable]
  rcases headerItem_cases (Memory.read s.inMem s.off.toNat) (headerLength s)
    { s with cnt := countByte s, point := .header } with ⟨hne, -⟩ | ⟨-, -, hraise⟩ | ⟨-, hfits, -⟩
  · exact absurd htag hne
  · rw [hraise, Flow.andThen_raise]
  · exact absurd (hexceeds.symm.trans hfits) (by decide)

/-- On success the registers are those of `dvalidateOp_ok`. -/
theorem exec_dvalidate_of_fits (htable : 6 + 2 * (countByte s).toNat ≤ s.len.toNat)
    (htag : Memory.read s.inMem s.off.toNat = Config.tag) (hfits : fitsOut s.cfg (headerLength s).toNat) :
    ∃ t, exec .dvalidate s = .next t ∧ DvalidateKeeps s t ∧ Validated s t ∧ t.outLen = s.outLen := by
  obtain ⟨t, hrun, hvalid⟩ := dvalidateOp_ok hrange htable htag hfits
  obtain rfl := Flow.ok.inj ((dvalidateOp_of_header hrange htable htag hfits).symm.trans hrun)
  exact ⟨_, (exec_dvalidate_eq_finish s).trans (congrArg Flow.finish hrun), rfl, hvalid, rfl⟩

end Tests

/-- Settles O35: each test in its order, by the outcome of the first that fails, or of a buffer that passes them all. -/
theorem dvalidateTestsInOrder : Obligations.DvalidateTestsInOrder := by
  intro s hrange byte size want
  by_cases h4 : s.len.toNat < 4
  · simp only [if_pos h4]
    exact exec_dvalidate_of_len_lt_4 h4
  by_cases h6 : s.len.toNat < 6
  · simp only [if_neg h4, if_pos h6]
    exact exec_dvalidate_of_len_lt_6 h4 h6
  by_cases hsize : s.len.toNat < size
  · simp only [if_neg h4, if_neg h6, if_pos hsize]
    exact exec_dvalidate_of_len_lt_table hrange h6 hsize
  have htable := not_lt.1 hsize
  by_cases htag : byte 0 ≠ 0x28
  · simp only [if_neg h4, if_neg h6, if_neg hsize, if_pos htag]
    exact exec_dvalidate_of_tag_ne hrange htable htag
  by_cases hexceeds : exceedsOut s.cfg want.toNat = true
  · simp only [if_neg h4, if_neg h6, if_neg hsize, if_neg htag, if_pos hexceeds]
    exact exec_dvalidate_of_exceedsOut hrange htable (not_not.1 htag) hexceeds
  · simp only [if_neg h4, if_neg h6, if_neg hsize, if_neg htag, if_neg hexceeds]
    obtain ⟨t, hexec, hkeeps, hvalid, houtLen⟩ := exec_dvalidate_of_fits hrange htable (not_not.1 htag)
      (exceedsOut_eq_false.1 (Bool.not_eq_true _ ▸ hexceeds))
    have hcnt : t.cnt = byte 4 := hvalid.cnt
    refine ⟨t, hexec, hkeeps, hvalid.status, houtLen, hcnt, hvalid.explen, hvalid.boot, ?_, ?_, ?_⟩
    · rw [hvalid.pay, hcnt]
    · rw [hvalid.ng, hcnt]
    · rw [hvalid.expLen, hvalid.explen]

end Sys2Proof.Machine
end

section
/-! `FREQ` rejects a long input, O20 (41_frequency_counter.md R151, R153; 60_exceptions.md R285). -/

namespace Sys2Proof.Machine

open Sys2Proof.Safety

/-- Settles O20: the length test raises on the state as it stands, and taking the fault changes `OUT_LEN` and `STATUS` alone. -/
theorem freqRejectsLongInput : Obligations.FreqRejectsLongInput := fun s hlong =>
  ⟨_, exec_freq_of_lenLimit_le hlong, faultTaken_takeFault .inputTooLarge s, rfl⟩

end Sys2Proof.Machine
end

section
/-! `CODEBUILD` and a leaf too deep, O33 (45_code_builder_bit_packer.md R222; 60_exceptions.md R292). -/

namespace Sys2Proof.Machine

open Sys2Proof.Safety

/-- What is true of `VISIT` on every stem child, room for one bit less, is true of its branches (R222). -/
theorem visitBranch_cases {stem : Vector Stem 256} {room : Nat}
    (hvisit : ∀ s p code, (∃ code', visit stem room s p code = .ok code') ∨
      ∃ code', visit stem room s p code = .raise .codeTooLong code')
    (s : Byte) (p : Code) (b : Bool) (code : Vector Code 256) :
    (∃ code', visitBranch stem room s p b code = .ok code') ∨
      ∃ code', visitBranch stem room s p b code = .raise .codeTooLong code' := by
  unfold visitBranch
  split
  · exact .inl ⟨_, rfl⟩
  · exact hvisit _ _ _

/-- `VISIT` goes through or raises `CodeTooLong`, on whatever stems (R222, R292). -/
theorem visit_cases (stem : Vector Stem 256) (room : Nat) (s : Byte) (p : Code) (code : Vector Code 256) :
    (∃ code', visit stem room s p code = .ok code') ∨ ∃ code', visit stem room s p code = .raise .codeTooLong code' := by
  induction room generalizing s p code with
  | zero => exact .inr ⟨code, rfl⟩
  | succ room ih =>
    rw [visit_branches]
    obtain ⟨code1, hfirst⟩ | ⟨code1, hfirst⟩ := visitBranch_cases ih s p false code
    · rw [hfirst, Flow.andThen_ok]
      exact visitBranch_cases ih s p true code1
    · rw [hfirst, Flow.andThen_raise]
      exact .inr ⟨code1, rfl⟩

/-- `VISIT` raises `CodeTooLong` when some leaf below its stem lies deeper than the room left (R222, R292). -/
theorem visit_raise_of_deep {stem : Vector Stem 256} {room : Nat} {s v : Byte} {q : List Bool}
    (hleaf : leafAt stem s q = some v) (hdeep : room < q.length) (p : Code) (code : Vector Code 256) :
    ∃ code', visit stem room s p code = .raise .codeTooLong code' := by
  induction room generalizing s q p code with
  | zero => exact ⟨code, rfl⟩
  | succ room ih =>
    obtain _ | ⟨b, q⟩ := q
    · cases hleaf
    have hbranch : ∀ code, ∃ code', visitBranch stem room s p b code = .raise .codeTooLong code' := by
      intro code
      rw [List.length_cons] at hdeep
      rw [leafAt_cons] at hleaf
      cases hf : branchLeaf (entry stem s) b with
      | true =>
        rw [hf, if_pos rfl, Option.ite_none_right_eq_some] at hleaf
        obtain ⟨rfl, -⟩ := hleaf
        exact absurd hdeep (by simp)
      | false =>
        rw [hf, if_neg Bool.false_ne_true] at hleaf
        rw [visitBranch, hf, if_neg Bool.false_ne_true]
        exact ih hleaf (by omega) _ _
    rw [visit_branches]
    cases b with
    | false =>
      obtain ⟨code1, hfirst⟩ := hbranch code
      exact ⟨code1, by rw [hfirst, Flow.andThen_raise]⟩
    | true =>
      obtain ⟨code1, hfirst⟩ | ⟨code1, hfirst⟩ := visitBranch_cases (visit_cases stem room) s p false code
      · rw [hfirst, Flow.andThen_ok]
        exact hbranch code1
      · exact ⟨code1, by rw [hfirst, Flow.andThen_raise]⟩

theorem exec_codebuild_eq_finish (s : State) : exec .codebuild s = (codebuildOp s).finish := rfl

/-- A leaf deeper than `MAXCODELEN` below the root stops `CODEBUILD` with nothing but `CODE` written (R292). -/
theorem codebuildOp_raise_of_deep {s : State} {q : List Bool} {v : Byte} (hleaf : leafAt s.stem s.root q = some v)
    (hdeep : s.cfg.maxCodeLen < q.length) : ∃ code, codebuildOp s = .raise .codeTooLong { s with code := code } := by
  obtain ⟨code, hvisit⟩ := visit_raise_of_deep hleaf hdeep [] (Vector.replicate 256 [])
  exact ⟨code, by rw [codebuildOp, hvisit, Flow.map_raise, Flow.andThen_raise]⟩

/-- Settles O33: the deep leaf makes `VISIT` raise (`visit_raise_of_deep`); at 255 `CODEBUILD` goes through
(`codebuildOp_ok`). -/
theorem codeTooLongForADeepLeaf : Obligations.CodeTooLongForADeepLeaf := by
  intro s htree hroot
  refine ⟨fun ⟨q, v, hleaf, hdeep⟩ => ?_, fun hmax t hexec => ?_⟩
  · obtain ⟨code, hraise⟩ := codebuildOp_raise_of_deep hleaf hdeep
    refine ⟨takeFault .codeTooLong { s with code := code }, ?_, faultTaken_takeFault .codeTooLong { s with code := code },
      rfl, rfl⟩
    rw [exec_codebuild_eq_finish, hraise, Flow.finish_raise]
  · obtain ⟨code, hok, -⟩ := codebuildOp_ok htree hroot hmax
    rw [exec_codebuild_eq_finish, hok, Flow.finish_ok] at hexec
    cases hexec
    rfl

end Sys2Proof.Machine
end

section
/-! How a micro-operation or an item ends (60_exceptions.md R282, R283): it goes through, not in `FAULT` and with `ERR` as it was,
or it raises a fault of its own phase from a state that reads to the host as before. O58 and O17 rest on it. -/

namespace Sys2Proof.Machine

open Sys2Proof.Safety

/-! ### The end of a run -/

/-- A run that goes through ends in a state with `P`, one that raises does so with a fault and a state related by `Q`. -/
def Flow.Ends {α : Type} (P : α → Prop) (Q : Err → α → Prop) : Flow α → Prop
  | .ok a => P a
  | .raise e a => Q e a
  | .stop _ => True

section Ends

variable {α β : Type} {P P' : α → Prop} {Q : Err → α → Prop}

@[simp] theorem Flow.ends_ok {a : α} : Flow.Ends P Q (.ok a) ↔ P a := Iff.rfl
@[simp] theorem Flow.ends_raise {e : Err} {a : α} : Flow.Ends P Q (.raise e a) ↔ Q e a := Iff.rfl
@[simp] theorem Flow.ends_stop {f : Fault} : Flow.Ends P Q (.stop f : Flow α) := trivial

theorem Flow.ends_iff {x : Flow α} : x.Ends P Q ↔ (∀ a, x = .ok a → P a) ∧ ∀ e a, x = .raise e a → Q e a := by
  cases x <;> simp

theorem Flow.Ends.of_ok {x : Flow α} {a : α} (hx : x = .ok a) (h : P a) : x.Ends P Q := hx ▸ h

theorem Flow.Ends.of_raise {x : Flow α} {e : Err} {a : α} (hx : x = .raise e a) (h : Q e a) : x.Ends P Q := hx ▸ h

theorem Flow.Ends.of_stop {x : Flow α} {f : Fault} (hx : x = .stop f) : x.Ends P Q := hx ▸ trivial

theorem Flow.Ends.andThen {x : Flow α} {k : α → Flow α} (hx : x.Ends P Q) (hk : ∀ a, P a → (k a).Ends P' Q) :
    (x.andThen k).Ends P' Q := by
  cases x with
  | ok a => exact hk a hx
  | raise e a => exact hx
  | stop f => trivial

theorem Flow.Ends.map {R : β → Prop} {S : Err → β → Prop} {x : Flow α} {g : α → β} (hx : x.Ends P Q)
    (hok : ∀ a, P a → R (g a)) (hraise : ∀ e a, Q e a → S e (g a)) : (x.map g).Ends R S := by
  cases x with
  | ok a => exact hok a hx
  | raise e a => exact hraise e a hx
  | stop f => trivial

theorem Flow.Ends.access {r : Except Fault β} {k : β → Flow α} (hk : ∀ b, (k b).Ends P Q) : (Flow.access r k).Ends P Q := by
  cases r with
  | ok b => exact hk b
  | error f => trivial

end Ends

/-! ### What the host sees of a run -/

/-- The faults of the phases: every one but `BadRange`, which belongs to the command start (R293). -/
abbrev Err.OfPhase (e : Err) : Prop := e ≠ .none ∧ e ≠ .badRange

/-- A run over registers of its own raises faults of the phases alone. -/
abbrev Flow.RaisesOfPhase {α : Type} (x : Flow α) : Prop := x.Ends (fun _ => True) fun e _ => e.OfPhase

/-- The registers that taking a fault keeps, and `STATUS`, of which it keeps `PHASE` and `LASTOP` (R283). -/
def hostView (s : State) : Status × Word × Word × Word := (s.status, s.expLen, s.srcOff, s.srcLen)

/-- A fault taken where the host's view is still that of `s` is, to the host, a fault taken in `s`. -/
theorem faultTaken_of_hostView_eq {s u : State} (h : hostView u = hostView s) (e : Err) : FaultTaken e s (takeFault e u) := by
  simp only [hostView, Prod.mk.injEq] at h
  obtain ⟨hstatus, hexpLen, hsrcOff, hsrcLen⟩ := h
  exact ⟨by rw [takeFault_status, hstatus], rfl, hexpLen, hsrcOff, hsrcLen⟩

/-- A raise of a fault of the phases where the host's view is that of `s`. -/
def RaisedIn (s : State) (e : Err) (t : State) : Prop := e.OfPhase ∧ hostView t = hostView s

/-- A state that a phase leaves when it goes through: no `ERR` is set, and `STATE` is as before or `DONE`. -/
def GoesOn (s t : State) : Prop :=
  t.status.err = s.status.err ∧ (t.status.state = s.status.state ∨ t.status.state = .done)

/-- A run inside a phase: whether it goes through or raises, the host's view is that of `s`. -/
abbrev Flow.Inside (s : State) (x : Flow State) : Prop := x.Ends (fun t => hostView t = hostView s) (RaisedIn s)

/-- A micro-operation or an item run in `s`. -/
abbrev Flow.Micro (s : State) (x : Flow State) : Prop := x.Ends (GoesOn s) (RaisedIn s)

section Micro

variable {s u : State}

theorem goesOn_of_hostView_eq (h : hostView u = hostView s) : GoesOn s u := by
  have hstatus : u.status = s.status := congrArg Prod.fst h
  exact ⟨by rw [hstatus], .inl (by rw [hstatus])⟩

theorem goesOn_enterPhase (h : hostView u = hostView s) (p : Phase) : GoesOn s (enterPhase p u) :=
  goesOn_of_hostView_eq (u := u) h

theorem goesOn_bootItem (h : hostView u = hostView s) (e : Byte) : GoesOn s (bootItem e u) :=
  goesOn_of_hostView_eq (u := u) h

theorem goesOn_endCommand (h : hostView u = hostView s) : GoesOn s (endCommand u) :=
  ⟨(goesOn_of_hostView_eq h).1, .inr rfl⟩

theorem goesOn_finishWalk (h : hostView u = hostView s) : GoesOn s (finishWalk u) :=
  ⟨(goesOn_of_hostView_eq h).1, .inr rfl⟩

theorem Flow.Inside.micro {x : Flow State} (h : x.Inside s) : x.Micro s :=
  Flow.ends_iff.2 ⟨fun t ht => goesOn_of_hostView_eq ((Flow.ends_iff.1 h).1 t ht), (Flow.ends_iff.1 h).2⟩

end Micro

end Sys2Proof.Machine
end

section
/-! Every micro-operation and every item goes through outside `FAULT` or raises a fault of its phase (`Flow.Micro`); so the
statements O58 and O17 (60_exceptions.md R283, R293). -/

namespace Sys2Proof.Machine

open Sys2Proof.Safety

/-! ### The loops of ENCODE and their faults (R189, R202, R222, R232) -/

theorem placeLoop_raisesOfPhase (stem : Vector Stem 256) (sz : Vector (BitVec 9) 256) (t count : Nat) (r : PlaceRegs) :
    (placeLoop stem sz t count r).RaisesOfPhase := by
  induction count generalizing t r with
  | zero => trivial
  | succ count ih =>
    obtain ⟨-, hloop⟩ | ⟨-, hloop⟩ | ⟨tight, hi, -, hloop⟩ := placeLoop_succ_cases stem sz t count r
    · exact .of_raise hloop (by decide)
    · exact .of_stop hloop
    · rw [hloop]
      exact ih _ _

theorem serializeStem_raisesOfPhase (stem : Vector Stem 256) (rank : Vector Byte 256) (i : Byte) (table : Vector Byte 512) :
    (serializeStem stem rank i table).RaisesOfPhase := by
  simp only [serializeStem]
  split
  · exact .of_raise rfl (by decide)
  · split
    · exact .of_raise rfl (by decide)
    · trivial

theorem serializeLoop_raisesOfPhase (stem : Vector Stem 256) (rank : Vector Byte 256) (i count : Nat) (table : Vector Byte 512) :
    (serializeLoop stem rank i count table).RaisesOfPhase := by
  induction count generalizing i table with
  | zero => trivial
  | succ count ih => exact (serializeStem_raisesOfPhase _ _ _ _).andThen fun table' _ => ih _ table'

theorem visit_raisesOfPhase (stem : Vector Stem 256) (room : Nat) (s : Byte) (p : Code) (code : Vector Code 256) :
    (visit stem room s p code).RaisesOfPhase := by
  obtain ⟨code', hvisit⟩ | ⟨code', hvisit⟩ := visit_cases stem room s p code
  · exact .of_ok hvisit trivial
  · exact .of_raise hvisit (by decide)

/-- The packer raises nothing (R232). -/
theorem packBytes_flush_raisesOfPhase (cfg : Config.Params) (code : Vector Code 256) (bytes : List Byte) (r : PackRegs) :
    ((packBytes cfg code bytes r).andThen (flush cfg)).RaisesOfPhase := by
  refine Flow.ends_iff.2 ⟨fun _ _ => trivial, fun e r' h => ?_⟩
  obtain h | ⟨r1, -, h⟩ := Flow.andThen_eq_raise.1 h
  · exact absurd h (packBytes_ne_raise cfg code bytes r r' e)
  · exact absurd h (flush_ne_raise cfg r1 r' e)

/-! ### The micro-operations of ENCODE -/

/-- The shape of `PLACE`, `SERIALIZE`, `CODEBUILD` and `PACK`: a loop over working registers, put back into the state, and then
the end of the phase. -/
theorem Flow.Micro.of_loop {α : Type} {s : State} {x : Flow α} {g : α → State} {f : State → State} (hx : x.RaisesOfPhase)
    (hg : ∀ a, hostView (g a) = hostView s) (hf : ∀ u, hostView u = hostView s → GoesOn s (f u)) :
    ((x.map g).andThen fun u => .ok (f u)).Micro s :=
  (hx.map (fun a _ => hg a) (fun _ a he => ⟨he, hg a⟩) : Flow.Inside s _).andThen hf

theorem freqOp_micro (s : State) : (freqOp s).Micro s := by
  obtain ⟨-, hrun⟩ | ⟨-, ⟨f, hrun⟩ | ⟨bytes, -, hrun⟩⟩ := freqOp_cases s
  · exact .of_raise hrun ⟨by decide, rfl⟩
  · exact .of_stop hrun
  · exact .of_ok hrun (goesOn_enterPhase rfl _)

theorem mergeOp_micro (s : State) : (mergeOp s).Micro s := by
  obtain ⟨ws, seq, ns, stem, root, n, hrun, -⟩ := mergeOp_ok s
  exact .of_ok hrun (goesOn_enterPhase rfl _)

theorem placeOp_micro (s : State) : (placeOp s).Micro s :=
  .of_loop (placeLoop_raisesOfPhase _ _ _ _ _) (fun _ => rfl) fun _ hu => goesOn_enterPhase hu _

theorem serializeOp_micro (s : State) : (serializeOp s).Micro s :=
  .of_loop (serializeLoop_raisesOfPhase _ _ _ _ _) (fun _ => rfl) fun _ hu => goesOn_enterPhase hu _

theorem codebuildOp_micro (s : State) : (codebuildOp s).Micro s :=
  .of_loop (visit_raisesOfPhase _ _ _ _ _) (fun _ => rfl) fun _ hu => goesOn_enterPhase hu _

theorem hdrwriteOp_micro (s : State) : (hdrwriteOp s).Micro s := by
  refine Flow.ends_iff.2 ⟨fun t hok => ?_, fun e t hraise => ?_⟩
  · obtain ⟨m, -, rfl⟩ := hdrwriteOp_eq_ok hok
    exact goesOn_enterPhase rfl _
  · obtain ⟨-, rfl, rfl⟩ := hdrwriteOp_eq_raise hraise
    exact ⟨by decide, by simp only [hostView]⟩

theorem packOp_micro (s : State) : (packOp s).Micro s :=
  Flow.Ends.access fun _ => Flow.Micro.of_loop (packBytes_flush_raisesOfPhase _ _ _ _) (fun _ => rfl)
    fun _ hu => goesOn_endCommand hu

/-! ### DVALIDATE and its items (R251) -/

section Dvalidate

variable {s u : State}

theorem lengthTests_inside (s : State) : (lengthTests s).Inside s := by
  unfold lengthTests
  split
  · exact ⟨by decide, rfl⟩
  · split
    · exact ⟨by decide, rfl⟩
    · exact rfl

theorem countItem_inside (h : hostView u = hostView s) (b : Byte) : (countItem b u).Inside s := by
  obtain ⟨-, hrun⟩ | ⟨-, hrun⟩ := countItem_cases b u
  · exact .of_raise hrun ⟨by decide, h⟩
  · exact .of_ok hrun h

theorem headerItem_inside (h : hostView u = hostView s) (tag : Byte) (len : BitVec 24) : (headerItem tag len u).Inside s := by
  obtain ⟨-, hrun⟩ | ⟨-, -, hrun⟩ | ⟨-, -, hrun⟩ := headerItem_cases tag len u
  · exact .of_raise hrun ⟨by decide, h⟩
  · exact .of_raise hrun ⟨by decide, h⟩
  · exact .of_ok hrun h

theorem readHeader_inside (h : hostView u = hostView s) : (readHeader u).Inside s := by
  refine Flow.Ends.access fun bytes => ?_
  split
  · exact headerItem_inside h _ _
  · exact h

theorem dvalidateOp_micro (s : State) : (dvalidateOp s).Micro s :=
  (((lengthTests_inside s).andThen fun _ ha => Flow.Ends.access (countItem_inside ha)).andThen
    fun _ => readHeader_inside).andThen fun _ ha => Flow.Ends.access (goesOn_bootItem ha)

end Dvalidate

/-! ### DWALK and its items (R256, R257) -/

theorem advance_raisesOfPhase (s : State) : (advance s).RaisesOfPhase := by
  obtain ⟨-, hrun⟩ | ⟨-, hrun⟩ := advance_cases s
  · exact .of_raise hrun (by decide)
  · exact .of_ok hrun trivial

theorem leafItem_raisesOfPhase (v : Byte) (s : State) : (leafItem v s).RaisesOfPhase := Flow.Ends.access fun _ => trivial

theorem stepBit_raisesOfPhase (s : State) : (stepBit s).RaisesOfPhase := by
  refine (advance_raisesOfPhase s).andThen fun a _ => Flow.Ends.access fun e => ?_
  split
  · exact leafItem_raisesOfPhase e a
  · trivial

theorem readGroup_raisesOfPhase (s : State) : (readGroup s).RaisesOfPhase := by
  refine Flow.Ends.access fun bytes => ?_
  split <;> trivial

theorem walkBits_raisesOfPhase (count : Nat) (s : State) : (walkBits count s).RaisesOfPhase := by
  induction count generalizing s with
  | zero => trivial
  | succ count ih =>
    rw [walkBits]
    split
    · trivial
    · exact (stepBit_raisesOfPhase s).andThen fun a _ => ih a

theorem walkGroups_raisesOfPhase (count : Nat) (s : State) : (walkGroups count s).RaisesOfPhase := by
  induction count generalizing s with
  | zero => trivial
  | succ count ih =>
    rw [walkGroups]
    split
    · exact ((readGroup_raisesOfPhase s).andThen fun a _ => walkBits_raisesOfPhase 32 a).andThen fun a _ => ih a
    · trivial

theorem hostView_of_walkKeeps {s t : State} (h : WalkKeeps s t) : hostView t = hostView s := by
  rw [h]
  rfl

/-- A walk that keeps all but its own registers runs inside the phase. -/
theorem Flow.inside_of_walkKeeps {s : State} {x : Flow State} (hkeeps : x.Keeps (WalkKeeps s)) (hraises : x.RaisesOfPhase) :
    x.Inside s := by
  cases x with
  | ok a => exact hostView_of_walkKeeps hkeeps
  | raise e a => exact ⟨hraises, hostView_of_walkKeeps hkeeps⟩
  | stop f => trivial

theorem dwalkOp_micro (s : State) : (dwalkOp s).Micro s :=
  (Flow.inside_of_walkKeeps (walkGroups_walkKeeps s.ng.toNat (walkStart s)) (walkGroups_raisesOfPhase _ _)).andThen
    fun _ ha => goesOn_finishWalk ha

theorem leafItem_micro (v : Byte) (s : State) : (leafItem v s).Micro s :=
  (Flow.inside_of_walkKeeps (leafItem_walkKeeps v s) (leafItem_raisesOfPhase v s)).micro

/-! ### Taking a fault (R283) -/

theorem exec_ref_cases (f1 f2 : Bool) (skip : BitVec 6) (s : State) :
    exec (.ref f1 f2 skip) s = .next (bootItem (refByte f1 f2 skip) s) ∨
      exec (.ref f1 f2 skip) s = .next (refItem (refByte f1 f2 skip) s) := by
  change execRef f1 f2 skip s = _ ∨ execRef f1 f2 skip s = _
  unfold execRef
  split
  · exact .inl rfl
  · exact .inr rfl

/-- Every instruction but the two commands is one micro-operation or one item. -/
theorem exec_eq_finish_micro {i : Instr} (hencode : i ≠ .encodeCmd) (hdecode : i ≠ .decodeCmd) (s : State) :
    ∃ x : Flow State, x.Micro s ∧ exec i s = x.finish := by
  cases i with
  | encodeCmd => exact absurd rfl hencode
  | decodeCmd => exact absurd rfl hdecode
  | freq => exact ⟨_, freqOp_micro s, rfl⟩
  | merge => exact ⟨_, mergeOp_micro s, rfl⟩
  | place => exact ⟨_, placeOp_micro s, rfl⟩
  | serialize => exact ⟨_, serializeOp_micro s, rfl⟩
  | codebuild => exact ⟨_, codebuildOp_micro s, rfl⟩
  | hdrwrite => exact ⟨_, hdrwriteOp_micro s, rfl⟩
  | pack => exact ⟨_, packOp_micro s, rfl⟩
  | dvalidate => exact ⟨_, dvalidateOp_micro s, rfl⟩
  | dwalk => exact ⟨_, dwalkOp_micro s, rfl⟩
  | hdr tag len => exact ⟨_, (headerItem_inside rfl tag len).micro, rfl⟩
  | count nminus1 => exact ⟨_, (countItem_inside rfl nminus1).micro, rfl⟩
  | ref f1 f2 skip =>
    obtain hexec | hexec := exec_ref_cases f1 f2 skip s
    · exact ⟨.ok _, goesOn_bootItem rfl _, hexec⟩
    · exact ⟨.ok _, goesOn_of_hostView_eq (u := refItem (refByte f1 f2 skip) s) rfl, hexec⟩
  | leaf value => exact ⟨_, leafItem_micro value s, rfl⟩
  | group bits => exact ⟨.ok _, goesOn_of_hostView_eq (u := groupItem bits s) rfl, rfl⟩

/-- Settles O58: `takeFault` is the change stated, and a micro-operation or item that ends in `FAULT` has raised in a state that
reads to the host as before (`exec_eq_finish_micro`). -/
theorem faultsChangeTheStatusAsStated : Obligations.FaultsChangeTheStatusAsStated := by
  refine ⟨fun _ _ => rfl, fun i s t hencode hdecode hrunning hexec hfault => ?_⟩
  obtain ⟨x, hmicro, hx⟩ := exec_eq_finish_micro hencode hdecode s
  obtain ⟨hok, hraise⟩ := Flow.ends_iff.1 hmicro
  obtain hrun | ⟨e, u, hrun, rfl⟩ := Flow.finish_eq_next.1 (hx.symm.trans hexec)
  · obtain ⟨-, hsame | hdone⟩ := hok t hrun
    · exact absurd (hsame.symm.trans hfault) hrunning
    · exact absurd (hdone.symm.trans hfault) (by decide)
  · obtain ⟨⟨hcause, -⟩, hview⟩ := hraise e u hrun
    exact ⟨e, hcause, faultTaken_of_hostView_eq hview e⟩

/-! ### The range check (R132, R293) -/

/-- A run of a command that has passed the range check: `BadRange` neither stands in `ERR` nor is raised. -/
abbrev Flow.PastRangeCheck (x : Flow State) : Prop :=
  x.Ends (fun t => t.status.err ≠ .badRange) fun e _ => e ≠ .badRange

theorem Flow.PastRangeCheck.finish {x : Flow State} {t : State} (hx : x.PastRangeCheck) (h : x.finish = .next t) :
    t.status.err ≠ .badRange := by
  obtain ⟨hok, hraise⟩ := Flow.ends_iff.1 hx
  obtain hrun | ⟨e, u, hrun, rfl⟩ := Flow.finish_eq_next.1 h
  · exact hok t hrun
  · exact hraise e u hrun

/-- No micro-operation raises `BadRange`. -/
theorem Flow.Micro.pastRangeCheck {s : State} {x : Flow State} (hx : x.Micro s) (herr : s.status.err ≠ .badRange) :
    x.PastRangeCheck :=
  have ⟨hok, hraise⟩ := Flow.ends_iff.1 hx
  Flow.ends_iff.2 ⟨fun t ht => (hok t ht).1 ▸ herr, fun e t ht => (hraise e t ht).1.2⟩

/-- The statements of a command, seen from its range check: out of range they raise `BadRange` at once, in range they never
do. -/
structure ChecksRange (run : State → Flow State) : Prop where
  out_of_range : ∀ s, s.cfg.inSize < s.off.toNat + s.len.toNat → run s = .raise .badRange s
  in_range : ∀ s, s.off.toNat + s.len.toNat ≤ s.cfg.inSize → s.status.err ≠ .badRange → (run s).PastRangeCheck

theorem enterSequence_checksRange : ChecksRange enterSequence where
  out_of_range _ hout := if_pos hout
  in_range _ hin herr := .of_ok (if_neg (not_lt.2 hin)) herr

theorem ChecksRange.andThen_micro {run op : State → Flow State} (h : ChecksRange run) (hop : ∀ s, (op s).Micro s) :
    ChecksRange fun s => (run s).andThen op where
  out_of_range s hout := by rw [h.out_of_range s hout, Flow.andThen_raise]
  in_range s hin herr := (h.in_range s hin herr).andThen fun a ha => (hop a).pastRangeCheck ha

theorem encodeFlow_checksRange : ChecksRange encodeFlow :=
  ((((((enterSequence_checksRange.andThen_micro freqOp_micro).andThen_micro mergeOp_micro).andThen_micro
    placeOp_micro).andThen_micro serializeOp_micro).andThen_micro codebuildOp_micro).andThen_micro
    hdrwriteOp_micro).andThen_micro packOp_micro

theorem decodeFlow_checksRange : ChecksRange decodeFlow :=
  (enterSequence_checksRange.andThen_micro dvalidateOp_micro).andThen_micro dwalkOp_micro

/-- A command started with its operands out of range ends at once in `BadRange`, with `PHASE` 0 (R131, R132, R283). -/
theorem ChecksRange.finish_of_out_of_range {run : State → Flow State} (h : ChecksRange run) (op : Op) {s : State}
    (hout : s.cfg.inSize < s.srcOff.toNat + s.srcLen.toNat) :
    (run (startCommand op s)).finish = .next (takeFault .badRange (startCommand op s)) := by
  rw [h.out_of_range (startCommand op s) hout, Flow.finish_raise]

/-- A command started with its operands in range never ends in `BadRange` (R132). -/
theorem ChecksRange.err_ne_badRange {run : State → Flow State} (h : ChecksRange run) {op : Op} {s t : State}
    (hin : s.srcOff.toNat + s.srcLen.toNat ≤ s.cfg.inSize) (hrun : (run (startCommand op s)).finish = .next t) :
    t.status.err ≠ .badRange :=
  (h.in_range (startCommand op s) hin Err.noConfusion).finish hrun

/-- Settles O17: both commands check their range first (`encodeFlow_checksRange`, `decodeFlow_checksRange`), and nothing after
the check raises `BadRange`. -/
theorem badRangeExactlyWhenOutOfRange : Obligations.BadRangeExactlyWhenOutOfRange := by
  rintro s i (rfl | rfl) hidle
  · rw [execEncode_of_idle hidle]
    exact ⟨fun hout => ⟨_, encodeFlow_checksRange.finish_of_out_of_range .encode hout, rfl, rfl, rfl, rfl, rfl, rfl, rfl⟩,
      fun hin _ => encodeFlow_checksRange.err_ne_badRange hin⟩
  · rw [execDecode_of_idle hidle]
    exact ⟨fun hout => ⟨_, decodeFlow_checksRange.finish_of_out_of_range .decode hout, rfl, rfl, rfl, rfl, rfl, rfl, rfl⟩,
      fun hin _ => decodeFlow_checksRange.err_ne_badRange hin⟩

end Sys2Proof.Machine
end

section
/-! A host write of a register as one step (10_state.md R21, R22): what it leaves of the state, for `SRC_OFF` and `SRC_LEN`,
for `CMD` while `BUSY` and for `CMD` otherwise; so O9 and O16 (70_reset_and_hazards.md R326, R327). -/

namespace Sys2Proof.Machine

/-! ### The step of a host action -/

theorem fetch_of_script {s : State} {a : HostAction} {rest : List HostAction} (h : s.script = a :: rest) :
    fetch s = fetchHost a { s with script := rest } := by
  rw [fetch, h]

theorem step_of_fetch_ok {s t : State} (h : fetch s = .settled (.ok t)) : step s = .next t := by
  simp only [step, h, Flow.finish_ok]

/-- A host action that a state settles is the whole step: the action leaves the script and nothing else runs. -/
theorem step_of_fetchHost_ok {s t : State} {a : HostAction} {rest : List HostAction} (hscript : s.script = a :: rest)
    (h : fetchHost a { s with script := rest } = .settled (.ok t)) : step s = .next t :=
  step_of_fetch_ok ((fetch_of_script hscript).trans h)

/-! ### Register writes (R21) -/

@[simp] theorem writeReg_srcOff_eq (v : Word) (s : State) : writeReg 1 v s = { s with srcOff := v } := rfl
@[simp] theorem writeReg_srcLen_eq (v : Word) (s : State) : writeReg 2 v s = { s with srcLen := v } := rfl

@[simp] theorem fetchHost_writeReg_cmd (v : Word) (s : State) : fetchHost (.writeReg 0 v) s = fetchCommand v s := rfl

theorem fetchHost_writeReg_of_ne_cmd {number : Nat} (h : number ≠ 0) (v : Word) (s : State) :
    fetchHost (.writeReg number v) s = .settled (.ok (writeReg number v s)) := if_neg h

/-- A write of a register other than `CMD` asks nothing of the state, `BUSY` or not (R326). -/
theorem step_writeReg_of_ne_cmd {s : State} {number : Nat} {v : Word} {rest : List HostAction} (h : number ≠ 0)
    (hscript : s.script = .writeReg number v :: rest) : step s = .next (writeReg number v { s with script := rest }) :=
  step_of_fetchHost_ok hscript (fetchHost_writeReg_of_ne_cmd h v _)

/-! ### Writes of CMD (R22, R131, R327) -/

theorem fetchCommand_of_busy {s : State} (h : s.status.state = .busy) (v : Word) :
    fetchCommand v s = .settled (.ok s) := if_pos (decide_eq_true h)

/-- Where a step is smaller than a command, a `CMD` write the block takes is the command start alone (R131). -/
theorem fetchCommand_of_idle {s : State} (h : s.status.state ≠ .busy) (hgrain : s.cfg.grain ≠ .command) (v : Word) :
    fetchCommand v s = .settled (.ok (startCommand (commandOp v) s)) := by
  have hidle : ¬ s.busy = true := mt of_decide_eq_true h
  rw [fetchCommand, if_neg hidle]
  split
  · next hcommand => exact absurd hcommand hgrain
  · rfl

theorem step_writeCmd_of_busy {s : State} {v : Word} {rest : List HostAction} (h : s.status.state = .busy)
    (hscript : s.script = .writeReg 0 v :: rest) : step s = .next { s with script := rest } :=
  step_of_fetchHost_ok hscript <|
    (fetchHost_writeReg_cmd v _).trans (fetchCommand_of_busy (s := { s with script := rest }) h v)

theorem step_writeCmd_of_idle {s : State} {v : Word} {rest : List HostAction} (h : s.status.state ≠ .busy)
    (hgrain : s.cfg.grain ≠ .command) (hscript : s.script = .writeReg 0 v :: rest) :
    step s = .next (startCommand (commandOp v) { s with script := rest }) :=
  step_of_fetchHost_ok hscript <|
    (fetchHost_writeReg_cmd v _).trans (fetchCommand_of_idle (s := { s with script := rest }) h hgrain v)

theorem execEncode_of_busy {s : State} (h : s.status.state = .busy) : exec .encodeCmd s = .next s := if_pos h

theorem execDecode_of_busy {s : State} (h : s.status.state = .busy) : exec .decodeCmd s = .next s := if_pos h

/-! ### The statements -/

/-- Settles O9: a write of `SRC_OFF` or `SRC_LEN` sets that register alone (`step_writeReg_of_ne_cmd`), and a later command start
copies both (`startCommand_off`, `startCommand_len`). -/
theorem sourceRegistersAreWritableAnyTime : Obligations.SourceRegistersAreWritableAnyTime := by
  refine fun s v rest => ⟨fun hscript => ?srcOff, fun hscript => ?srcLen, fun hscript hidle hgrain => ?start⟩
  case srcOff => rw [step_writeReg_of_ne_cmd one_ne_zero hscript, writeReg_srcOff_eq]
  case srcLen => rw [step_writeReg_of_ne_cmd two_ne_zero hscript, writeReg_srcLen_eq]
  case start => exact ⟨_, step_writeCmd_of_idle hidle hgrain hscript, startCommand_off _ _, startCommand_len _ _⟩

/-- Settles O16: as a host action the write leaves the script and nothing else changes, and as instructions both commands give
back the running state. -/
theorem busyCommandWriteIsIgnored : Obligations.BusyCommandWriteIsIgnored := fun _ hbusy =>
  ⟨fun _ _ => step_writeCmd_of_busy hbusy, execEncode_of_busy hbusy, execDecode_of_busy hbusy⟩

end Sys2Proof.Machine
end

section
/-! Encodings, O1, O2, O3 and O5 (30_encoding.md R90 to R103): each format's bytes hold its fields, so encoding and decoding undo
each other, and what is no encoding is refused. -/

namespace Sys2Proof

/-! ### A word and its bytes (R64) -/

/-- The bytes of a word put together from four bytes are those four. -/
theorem bytesOfWord_wordOfBytes (b0 b1 b2 b3 : Byte) : bytesOfWord (wordOfBytes b0 b1 b2 b3) = [b0, b1, b2, b3] := by
  have hbyte := fun j hj => Machine.byteOfWord_wordOfBytes (fun j => [b0, b1, b2, b3].getD j 0) (j := j) hj
  have h0 := hbyte 0 (by decide)
  have h1 := hbyte 1 (by decide)
  have h2 := hbyte 2 (by decide)
  have h3 := hbyte 3 (by decide)
  simp only [List.getD_cons_zero, List.getD_cons_succ] at h0 h1 h2 h3
  rw [bytesOfWord, h0, h1, h2, h3]

/-! ### The fields of a header (R92) -/

/-- The tag of a header is its first byte (R64, R92). -/
theorem wordOfBytes_tag (b0 b1 b2 b3 : Byte) : (wordOfBytes b0 b1 b2 b3).extractLsb' 0 8 = b0 :=
  BitVec.extractLsb'_append_eq_right

/-- The length of a header is its other three bytes, the last the highest (R64, R92). -/
theorem wordOfBytes_len (b0 b1 b2 b3 : Byte) : (wordOfBytes b0 b1 b2 b3).extractLsb' 8 24 = b3 ++ b2 ++ b1 :=
  BitVec.extractLsb'_append_eq_left

/-- A header decodes to its fields, or is refused by its tag (R92, R103). -/
theorem decode_hdr (b0 b1 b2 b3 : Byte) : decode .hdr [b0, b1, b2, b3] =
    if b0 = Config.tag then .ok (.hdr b0 (b3 ++ b2 ++ b1)) else .error (.badTag b0) := by
  simp only [decode, decodeHeader, wordOfBytes_tag, wordOfBytes_len]

/-! ### The fields of a reference (R96) -/

theorem refF1_refByte (f1 f2 : Bool) (skip : BitVec 6) : refF1 (refByte f1 f2 skip) = f1 :=
  Machine.refByte_flag f1 f2 skip false

theorem refF2_refByte (f1 f2 : Bool) (skip : BitVec 6) : refF2 (refByte f1 f2 skip) = f2 :=
  Machine.refByte_flag f1 f2 skip true

theorem refSkip_refByte (f1 f2 : Bool) (skip : BitVec 6) : refSkip (refByte f1 f2 skip) = skip :=
  BitVec.extractLsb'_append_eq_right

/-- A byte is the reference of its own three fields. -/
theorem refByte_fields (e : Byte) : refByte (refF1 e) (refF2 e) (refSkip e) = e := by
  refine BitVec.eq_of_getLsbD_eq fun i hi => ?_
  rw [Machine.getLsbD_refByte, BitVec.getLsbD_append, BitVec.getLsbD_ofBool, BitVec.getLsbD_ofBool, refSkip,
    BitVec.getLsbD_extractLsb']
  by_cases hskip : i < 6
  · simp [hskip]
  · obtain rfl | rfl : i = 6 ∨ i = 7 := by omega
    · simp [refF2]
    · simp [refF1]

/-! ### The phase codes (R25) -/

/-- A phase code decodes to the micro-operation whose encoding it is. -/
theorem encode_of_decodePhase {b : Byte} {i : Instr} (h : decodePhase b.toNat = .ok i) :
    i.format = .phase ∧ encode i = [b] := by
  have hb := Machine.ofNat8_toNat b
  unfold decodePhase at h
  split at h
  case h_10 => cases h
  all_goals
    rename_i hcode
    rw [hcode] at hb
    cases h
    exact ⟨rfl, congrArg (fun b => [b]) hb⟩

/-- Code 0 and the codes from 10 on are no phase (R25, R103). -/
theorem decodePhase_of_reserved {code : Nat} (h : code = 0 ∨ 10 ≤ code) : decodePhase code = .error (.noSuchPhase code) := by
  unfold decodePhase
  split
  case h_10 => rfl
  all_goals omega

/-- Only a header has a field that can be wrong (R92, R103). -/
theorem wellFormed_of_format_ne_hdr {i : Instr} (h : i.format ≠ .hdr) : i.wellFormed = true := by
  cases i with
  | hdr tag len => exact absurd rfl h
  | _ => rfl

/-! ### The statements -/

/-- Settles O1, row by row: the operands of a row are the fields its format reads back. -/
theorem decodeOfEncodeIsTheInstruction : Obligations.DecodeOfEncodeIsTheInstruction := by
  intro i hwf
  cases i with
  | encodeCmd | decodeCmd => rfl
  | freq | merge | place | serialize | codebuild | hdrwrite | pack | dvalidate | dwalk => rfl
  | hdr tag len =>
    have htag : tag = Config.tag := eq_of_beq hwf
    rw [Machine.encode_hdr, Instr.format, decode_hdr, if_pos htag, Machine.headerLength_append]
  | count n => rfl
  | ref f1 f2 skip =>
    rw [encode, Instr.format, decode, refF1_refByte, refF2_refByte, refSkip_refByte]
  | leaf v => rfl
  | group w =>
    rw [encode, Instr.format, bytesOfWord, decode, wordOfBytes_byteOfWord]

/-- Settles O2: by the format, and within it by the number of bytes; each decoded field is read back by `encode`. -/
theorem encodeOfDecodedIsTheBytes : Obligations.EncodeOfDecodedIsTheBytes := by
  intro f bytes i h
  unfold decode at h
  split at h
  case h_1 =>
    obtain rfl := Except.ok.inj h
    unfold decodeCommand
    split <;> exact ⟨rfl, rfl, fun hne => absurd rfl hne⟩
  case h_2 b =>
    obtain ⟨hformat, hbytes⟩ := encode_of_decodePhase h
    exact ⟨hformat, wellFormed_of_format_ne_hdr (by rw [hformat]; decide), fun _ => hbytes⟩
  case h_3 b0 b1 b2 b3 =>
    have hdr := (decode_hdr b0 b1 b2 b3).symm.trans h
    split at hdr
    · next htag =>
      obtain rfl := Except.ok.inj hdr
      refine ⟨rfl, beq_of_eq htag, fun _ => ?_⟩
      have hword : headerWord b0 (b3 ++ b2 ++ b1) = wordOfBytes b0 b1 b2 b3 := rfl
      rw [encode, hword, bytesOfWord_wordOfBytes]
    · cases hdr
  case h_4 b =>
    obtain rfl := Except.ok.inj h
    exact ⟨rfl, rfl, fun _ => rfl⟩
  case h_5 b =>
    obtain rfl := Except.ok.inj h
    exact ⟨rfl, rfl, fun _ => congrArg (fun b => [b]) (refByte_fields b)⟩
  case h_6 b =>
    obtain rfl := Except.ok.inj h
    exact ⟨rfl, rfl, fun _ => rfl⟩
  case h_7 b0 b1 b2 b3 =>
    obtain rfl := Except.ok.inj h
    exact ⟨rfl, rfl, fun _ => bytesOfWord_wordOfBytes b0 b1 b2 b3⟩
  case h_8 => cases h

/-- Settles O3: the decoder evaluated on each word. -/
theorem writtenWordsDecode : Obligations.WrittenWordsDecode := by
  unfold Obligations.WrittenWordsDecode
  decide

/-- Settles O5: the reserved codes by `decodePhase_of_reserved`, a wrong tag by the header's first byte. -/
theorem reservedEncodingsAreRejected : Obligations.ReservedEncodingsAreRejected := by
  refine ⟨fun b hb => ?_, fun b0 b1 b2 b3 htag => ?_⟩
  · refine decodePhase_of_reserved (hb.imp_left fun hzero => ?_)
    rw [hzero]
    rfl
  · exact (decode_hdr b0 b1 b2 b3).trans (if_neg htag)

end Sys2Proof
end

section
/-! The tree of `MERGE` and its placement, O21, O24 and O26 (42_huffman_merger.md R160 to R169; 43_node_placer.md R181, R187). -/

namespace Sys2Proof.Machine

open Sys2Proof.Safety

/-! ### MERGE as a whole (R160, R167) -/

/-- The symbols present are as many as there are byte values with a count (R161). -/
theorem symbolsPresent_length (freq : Vector (BitVec 24) 256) :
    (symbolsPresent freq).length = (List.range 256).countP fun b => entry freq (BitVec.ofNat 8 b) ≠ 0 := by
  rw [symbolsPresent, ← List.countP_eq_length_filter, List.countP_map, List.countP_reverse]
  rfl

/-- Settles O21: the merge tree of `mergeOp_ok`, and the registers it is written to. -/
theorem mergeBuildsATree : Obligations.MergeBuildsATree := by
  intro s
  obtain ⟨ws, seq, ns, stem, root, n, hmerge, hshape, hroot, hcount, hleaves⟩ := mergeOp_ok s
  have hexec : exec .merge s = (mergeOp s).finish := rfl
  exact ⟨_, by rw [hexec, hmerge, Flow.finish_ok], hshape, hroot, hcount.trans (by rw [symbolsPresent_length]), hleaves, rfl⟩

/-! ### MERGE of two leaves (R162, R169) -/

/-- The registers the merge loop starts from (R161, R162). -/
def mergeStart (s : State) : MergeRegs where
  ws := startingItems s.freq
  seq := BitVec.ofNat 10 (startingItems s.freq).length
  ns := 0
  stem := s.stem

/-- From two leaves the loop makes one stem, of the smaller and the other (R164). -/
theorem mergedRegs_of_two {s : State} {lo hi : Item} (hws : (startingItems s.freq).Perm [lo, hi]) (hlt : lo.key < hi.key) :
    mergedRegs s = mergePair lo hi [] (mergeStart s) := by
  have hlen : (mergeStart s).ws.length = 1 + 1 := hws.length_eq
  obtain ⟨lo', hi', rest, hperm, hlo, -, hloop⟩ := mergeLoop_succ 1 hlen.ge
  obtain rfl : rest = [] := by
    have := hperm.length_eq
    rw [hlen] at this
    exact List.length_eq_zero_iff.1 (by simpa using this.symm)
  have hle : lo'.key ≤ hi'.key := hlo hi' List.mem_cons_self
  have hpair : [lo', hi'].Perm [lo, hi] := hperm.symm.trans hws
  obtain ⟨rfl, rfl⟩ : lo' = lo ∧ hi' = hi := by
    obtain heq | hswap := List.perm_pair.1 hpair
    · simpa using heq
    · simp only [List.cons.injEq, and_true] at hswap
      obtain ⟨rfl, rfl⟩ := hswap
      exact absurd hlt (not_lt.2 hle)
  have hdone : mergeLoop 1 (mergePair lo' hi' [] (mergeStart s)) = mergePair lo' hi' [] (mergeStart s) :=
    mergeLoop_of_length_le_one 1 (by simp [mergePair])
  rw [mergedRegs_eq, ← hdone, ← hloop, ← hlen]
  rfl

/-- What `MERGE` leaves then: that stem, the root, and the sentinel behind it (R166). -/
theorem exec_merge_of_two {s : State} {lo hi : Item} (hws : (startingItems s.freq).Perm [lo, hi]) (hlt : lo.key < hi.key) :
    ∃ t, exec .merge s = .next t ∧ t.n = 2 ∧ t.root = 0 ∧ at256 t.stem 0 = mergedStem lo hi := by
  have hns : (mergedRegs s).ns = 1 := by
    rw [mergedRegs_of_two hws hlt]
    rfl
  have hstem : (mergedRegs s).stem = setEntry s.stem (BitVec.ofNat 8 0) (mergedStem lo hi) := by
    rw [mergedRegs_of_two hws hlt]
    rfl
  refine ⟨_, exec_merge_eq_next s, ?_, ?_, ?_⟩
  · rw [enterPhase_n, hns]
    rfl
  · rw [enterPhase_root, hns]
    rfl
  · rw [enterPhase_stem, hns, hstem]
    change at256 (setEntry _ (BitVec.ofNat 8 1) _) 0 = _
    rw [at256_setEntry _ _ (by decide) (by decide), if_neg zero_ne_one,
      at256_setEntry _ _ (by decide) (by decide), if_pos rfl]

/-- The symbols present, when `v` is the only one (R161). -/
theorem symbolsPresent_eq_singleton {freq : Vector (BitVec 24) 256} {v : Byte} (hv : entry freq v ≠ 0)
    (hother : ∀ b, b ≠ v → entry freq b = 0) : symbolsPresent freq = [v] := by
  refine List.perm_singleton.1 ((List.perm_ext_iff_of_nodup (symbolsPresent_nodup freq) (List.nodup_singleton v)).2 fun b => ?_)
  rw [mem_symbolsPresent, List.mem_singleton]
  exact ⟨fun hb => by_contra fun hne => hb (hother b hne), fun hb => hb ▸ hv⟩

/-- Settles O24: for no symbol leaf 0x00 is the smaller, by its sequence number; for one symbol its complement is, by its
weight 0. -/
theorem mergeOfFewSymbols : Obligations.MergeOfFewSymbols := by
  intro s
  refine ⟨fun hnone => ?_, fun v hv hother => ?_⟩
  · have hempty : symbolsPresent s.freq = [] :=
      List.eq_nil_iff_forall_not_mem.2 fun b hb => mem_symbolsPresent.1 hb (hnone b)
    refine exec_merge_of_two (lo := { w := 0, kind := .leaf, id := 0x00, seq := 0 })
      (hi := { w := 0, kind := .leaf, id := 0xFF, seq := 1 }) ?_ (by decide)
    rw [startingItems, leavesInOrder, hempty]
    rfl
  · have hone := symbolsPresent_eq_singleton hv hother
    refine exec_merge_of_two (lo := { w := 0, kind := .leaf, id := v ^^^ 0xFF, seq := 1 })
      (hi := { w := entry s.freq v, kind := .leaf, id := v, seq := 0 }) ?_ (Item.key_lt_iff.2 (.inl ?_))
    · rw [startingItems, leavesInOrder, hone]
      exact List.Perm.swap _ _ _
    · exact (BitVec.pos_iff_ne_zero _).2 hv

/-! ### PLACE of a small tree (R187, R191) -/

section SmallTree

variable {stem : Vector Stem 256} {n t : Nat} {placed : List Byte} {r : PlaceRegs}

/-- The ranked stems and those waiting are different real stems, so there are no more of them than real stems. -/
theorem PlaceInv.frontier_length_le (h : PlaceInv stem n t placed r) (hs : TreeShape stem n) : t + r.fr.length ≤ n := by
  have hreal : placed ++ r.fr.map FrontierEntry.node ⊆ realIds n := fun c hc => by
    refine mem_realIds.2 ((List.mem_append.1 hc).elim (h.real c) fun hf => ?_)
    obtain ⟨e, he, rfl⟩ := List.mem_map.1 hf
    exact h.frontier_real hs he
  have hle := (List.subperm_of_subset (h.nodes_nodup hs) hreal).length_le
  have hcount := h.count
  have hn := hs.1
  simp only [realIds, List.length_append, List.length_map, List.length_range] at hle
  omega

/-- A pushed entry is due at rank 64 or later, as those already there (R186). -/
theorem due_pushChildren {m : Stem} {fr : List FrontierEntry} (ht : t < 256) (hdue : ∀ e ∈ fr, 64 ≤ e.due.toNat) :
    ∀ e ∈ pushChildren m t fr, 64 ≤ e.due.toNat := by
  have hchild : ∀ f c, ∀ e ∈ frontierChild f c t, 64 ≤ e.due.toNat := by
    intro f c e he
    cases f with
    | true => cases he
    | false =>
      obtain rfl := List.mem_singleton.1 he
      simp only [BitVec.toNat_ofNat, Config.maxGap]
      omega
  simp only [pushChildren, List.mem_append]
  rintro e ((he | he) | he)
  · exact hdue e he
  · exact hchild _ _ e he
  · exact hchild _ _ e he

/-- On at most 65 stems the loop goes through: the ranks end at 64, where the first entry is due (R187). -/
theorem placeLoop_ok_of_small (hs : TreeShape stem n) (hn : n ≤ 65) (sz : Vector (BitVec 9) 256) (count : Nat)
    (h : PlaceInv stem n t placed r) (hdue : ∀ e ∈ r.fr, 64 ≤ e.due.toNat) (ht : t + count = n) :
    ∃ r', placeLoop stem sz t count r = .ok r' := by
  induction count generalizing t placed r with
  | zero => exact ⟨r, rfl⟩
  | succ count ih =>
    obtain ⟨htest, -⟩ | ⟨hfr, -⟩ | ⟨tight, hi, htest, hloop⟩ := placeLoop_succ_cases stem sz t count r
    · obtain ⟨k, hk, hlate⟩ := frontierTight_eq_none.1 htest
      have := hdue _ (List.getElem_mem hk)
      have := h.frontier_length_le hs
      omega
    · exact absurd hfr (h.frontier_ne_nil hs (by omega))
    · have hintime := le_due_of_frontierTight htest hi
      rw [hloop]
      exact ih (h.placeEntry hs (by omega) hi (by omega))
        (due_pushChildren (by omega) fun e he => hdue e (List.mem_of_mem_eraseIdx he)) (by omega)

end SmallTree

/-- `PLACE` of a small tree goes through (R191). -/
theorem placeRun_ok_of_small {s : State} (hs : TreeShape s.stem s.n.toNat) (hn : s.n.toNat ≤ 65) :
    ∃ r, placeRun s = .ok r :=
  placeLoop_ok_of_small hs hn _ _ (placeInv_start hs) (due_pushChildren (by decide) (by simp)) (by omega)

/-- Settles O26: the run of a small tree goes through (`placeRun_ok_of_small`), with the contract of `placeRun_ok`. -/
theorem placeOfASmallTreeCompletes : Obligations.PlaceOfASmallTreeCompletes := by
  intro s hs hn
  obtain ⟨r, hr⟩ := placeRun_ok_of_small hs hn
  refine ⟨enterPhase .serialize (withPlacement s r), ?_, rfl, (placeRun_ok hs hr).1, rfl, rfl, rfl⟩
  rw [exec_place_eq_finish, hr, Flow.map_ok, Flow.andThen_ok, Flow.finish_ok]

end Sys2Proof.Machine
end

section
/-! `SERIALIZE` with a rank out of reach, O29 (44_tree_serializer.md R202; 60_exceptions.md R290). -/

namespace Sys2Proof.Machine

open Sys2Proof.Safety

/-- One stem's slots are written, or a distance overflows (R201, R202). -/
theorem serializeStem_cases (stem : Vector Stem 256) (rank : Vector Byte 256) (i : Byte) (table : Vector Byte 512) :
    (∃ table', serializeStem stem rank i table = .ok table') ∨
      ∃ table', serializeStem stem rank i table = .raise .skipOverflow table' := by
  simp only [serializeStem]
  split
  · exact .inr ⟨_, rfl⟩
  · split
    · exact .inr ⟨_, rfl⟩
    · exact .inl ⟨_, rfl⟩

/-- The slots of a stem are written only when its stem children are in reach (R202, R290). -/
theorem kidsInReach_of_serializeStem_ok {stem : Vector Stem 256} {rank : Vector Byte 256} {i : Byte}
    {table table' : Vector Byte 512} (h : serializeStem stem rank i table = .ok table') : KidsInReach stem rank i := by
  have hbranch : ∀ b, tableEntry stem rank (entry rank i) (branchLeaf (entry stem i) b)
      (if b then (entry stem i).c2 else (entry stem i).c1) ≠ none := by
    intro b hnone
    simp only [serializeStem] at h
    split at h
    · cases h
    · next hfirst =>
      split at h
      · cases h
      · next hsecond =>
        cases b with
        | false => exact Option.noConfusion rfl (heq_of_eq (hfirst.symm.trans hnone))
        | true => exact Option.noConfusion rfl (heq_of_eq (hsecond.symm.trans hnone))
  intro c hc
  obtain ⟨b, hf, rfl⟩ := mem_stemChildren_iff.1 hc
  by_contra hfar
  exact hbranch b (tableEntry_eq_none.2 ⟨hf, hfar⟩)

/-- The loop raises `SkipOverflow` at the first stem with a child out of reach (R201, R290). -/
theorem serializeLoop_raise {stem : Vector Stem 256} {rank : Vector Byte 256} (count : Nat) {j i : Nat} (hi : j ≤ i)
    (hlt : i < j + count) (hfar : ¬ KidsInReach stem rank (BitVec.ofNat 8 i)) (table : Vector Byte 512) :
    ∃ table', serializeLoop stem rank j count table = .raise .skipOverflow table' := by
  induction count generalizing j table with
  | zero => omega
  | succ count ih =>
    rw [serializeLoop]
    obtain ⟨table1, hstem⟩ | ⟨table1, hstem⟩ := serializeStem_cases stem rank (BitVec.ofNat 8 j) table
    · have hne : j ≠ i := fun e => hfar (e ▸ kidsInReach_of_serializeStem_ok hstem)
      rw [hstem, Flow.andThen_ok]
      exact ih (by omega) (by omega) table1
    · exact ⟨table1, by rw [hstem, Flow.andThen_raise]⟩

/-- Settles O29: the loop reaches the stem with the child out of reach, or raises before. -/
theorem serializeRejectsABadSkip : Obligations.SerializeRejectsABadSkip := by
  rintro s - ⟨i, hi, c, hc, hfar⟩
  obtain ⟨table, hraise⟩ := serializeLoop_raise (stem := s.stem) (rank := s.rank) s.n.toNat (Nat.zero_le i) (by omega)
    (fun hreach => hfar (hreach c hc)) s.table
  have hop : serializeOp s = .raise .skipOverflow { s with table := table } := by
    rw [serializeOp, hraise, Flow.map_raise, Flow.andThen_raise]
  exact ⟨takeFault .skipOverflow { s with table := table }, by rw [exec_serialize_eq_finish, hop, Flow.finish_raise],
    faultTaken_takeFault .skipOverflow { s with table := table }, rfl, rfl⟩

end Sys2Proof.Machine
end

section
/-! The codes of `CODEBUILD` are the paths of the leaves, O31, and so none begins another, O32
(45_code_builder_bit_packer.md R221 to R223): in a merge tree every node has one parent, so one path from the root. -/

namespace Sys2Proof.Machine

open Sys2Proof.Safety

/-! ### The parent of a node (R167) -/

/-- In a list joined without repetition each element comes from one part. -/
theorem eq_of_mem_of_nodup_flatMap {α β : Type} {l : List α} {f : α → List β} (h : (l.flatMap f).Nodup) {a b : α} {x : β}
    (ha : a ∈ l) (hb : b ∈ l) (hxa : x ∈ f a) (hxb : x ∈ f b) : a = b := by
  obtain ⟨-, hdisjoint⟩ := List.nodup_flatMap.1 h
  by_contra hne
  have : Std.Symm (Function.onFun List.Disjoint f) := ⟨fun _ _ hd => List.Disjoint.symm hd⟩
  exact hdisjoint.forall ha hb hne hxa hxb

/-- Branches of one kind that lead to the same child are the same when the two branches differ. -/
theorem branch_eq_of_ne {m : Stem} {kind b d : Bool}
    (hne : branchLeaf m false = kind → branchLeaf m true = kind → branchByte m false ≠ branchByte m true)
    (hb : branchLeaf m b = kind) (hd : branchLeaf m d = kind) (heq : branchByte m b = branchByte m d) : b = d := by
  cases b with
  | false =>
    cases d with
    | false => rfl
    | true => exact absurd heq (hne hb hd)
  | true =>
    cases d with
    | false => exact absurd heq.symm (hne hd hb)
    | true => rfl

/-- Two stem branches of one stem that lead to the same stem are the same branch. -/
theorem branch_eq_of_stem {m : Stem} (h : (stemChildren m).Nodup) {b d : Bool} (hb : branchLeaf m b = false)
    (hd : branchLeaf m d = false) (heq : branchByte m b = branchByte m d) : b = d := by
  refine branch_eq_of_ne (fun h1 h2 => ?_) hb hd heq
  simp only [branchLeaf, Bool.false_eq_true, if_false, if_true] at h1 h2
  simpa [stemChildren, branchByte, h1, h2] using h

/-- Two leaf branches of one stem that lead to the same byte are the same branch. -/
theorem branch_eq_of_leaf {m : Stem} (h : (leafChildren m).Nodup) {b d : Bool} (hb : branchLeaf m b = true)
    (hd : branchLeaf m d = true) (heq : branchByte m b = branchByte m d) : b = d := by
  refine branch_eq_of_ne (fun h1 h2 => ?_) hb hd heq
  simp only [branchLeaf, Bool.false_eq_true, if_false, if_true] at h1 h2
  simpa [leafChildren, branchByte, h1, h2] using h

section Tree

variable {stem : Vector Stem 256} {n : Nat}

theorem treeLeaves_eq (stem : Vector Stem 256) (n : Nat) :
    treeLeaves stem n = (realIds n).flatMap fun c => leafChildren (entry stem c) := by
  simp only [treeLeaves, realStems, realIds, List.flatMap_map]
  rfl

/-- The parent of a stem, and the branch it stands on, are the only ones (R167). -/
theorem parent_unique (hs : TreeShape stem n) {p q : Byte} {b d : Bool} (hp : p.toNat < n - 1) (hq : q.toNat < n - 1)
    (hb : branchLeaf (entry stem p) b = false) (hd : branchLeaf (entry stem q) d = false)
    (heq : branchByte (entry stem p) b = branchByte (entry stem q) d) : p = q ∧ b = d := by
  obtain ⟨-, hnodup⟩ := List.nodup_cons.1 (rootAndKids_nodup hs)
  obtain rfl : p = q := eq_of_mem_of_nodup_flatMap hnodup (mem_realIds.2 hp) (mem_realIds.2 hq)
    (mem_stemChildren_iff.2 ⟨b, hb, heq⟩) (mem_stemChildren_iff.2 ⟨d, hd, rfl⟩)
  exact ⟨rfl, branch_eq_of_stem ((List.nodup_flatMap.1 hnodup).1 p (mem_realIds.2 hp)) hb hd heq⟩

/-- The stem of a leaf, and the branch it stands on, are the only ones (R167). -/
theorem leafParent_unique (hs : TreeShape stem n) {p q : Byte} {b d : Bool} (hp : p.toNat < n - 1) (hq : q.toNat < n - 1)
    (hb : branchLeaf (entry stem p) b = true) (hd : branchLeaf (entry stem q) d = true)
    (heq : branchByte (entry stem p) b = branchByte (entry stem q) d) : p = q ∧ b = d := by
  have hnodup := hs.2.2.2.2
  rw [treeLeaves_eq] at hnodup
  obtain rfl : p = q := eq_of_mem_of_nodup_flatMap hnodup (mem_realIds.2 hp) (mem_realIds.2 hq)
    (mem_leafChildren_iff.2 ⟨b, hb, heq⟩) (mem_leafChildren_iff.2 ⟨d, hd, rfl⟩)
  exact ⟨rfl, branch_eq_of_leaf ((List.nodup_flatMap.1 hnodup).1 p (mem_realIds.2 hp)) hb hd heq⟩

/-- The root is no stem's child (R167). -/
theorem root_not_child (hs : TreeShape stem n) {root p : Byte} {b : Bool} (hroot : root.toNat + 2 = n)
    (hp : p.toNat < n - 1) (hb : branchLeaf (entry stem p) b = false) : branchByte (entry stem p) b ≠ root := by
  intro heq
  have := kids_lt hs hp (mem_stemChildren_iff.2 ⟨b, hb, rfl⟩)
  rw [heq] at this
  omega

/-! ### Paths (R222) -/

/-- The stem that a path from stem `s` ends at, `none` when it goes through a leaf: the counterpart of `leafAt`. -/
def stemAt (stem : Vector Stem 256) : Byte → List Bool → Option Byte
  | s, [] => some s
  | s, b :: p => if branchLeaf (entry stem s) b then none else stemAt stem (branchByte (entry stem s) b) p

/-- The last step of a path to a stem is a stem branch. -/
theorem stemAt_concat {s c : Byte} {b : Bool} {p : List Bool} (h : stemAt stem s (p ++ [b]) = some c) :
    ∃ d, stemAt stem s p = some d ∧ branchLeaf (entry stem d) b = false ∧ branchByte (entry stem d) b = c := by
  induction p generalizing s with
  | nil => simpa [stemAt] using h
  | cons a p ih =>
    simp only [List.cons_append, stemAt, Option.ite_none_left_eq_some] at h ⊢
    obtain ⟨hf, h⟩ := h
    obtain ⟨d, hd, hb⟩ := ih h
    exact ⟨d, ⟨hf, hd⟩, hb⟩

/-- The last step of a path to a leaf is a leaf branch. -/
theorem leafAt_concat {s v : Byte} {b : Bool} {p : List Bool} (h : leafAt stem s (p ++ [b]) = some v) :
    ∃ d, stemAt stem s p = some d ∧ branchLeaf (entry stem d) b = true ∧ branchByte (entry stem d) b = v := by
  induction p generalizing s with
  | nil => simpa [leafAt_cons, stemAt] using h
  | cons a p ih =>
    rw [List.cons_append, leafAt_cons] at h
    split at h
    · simp at h
    · next hf =>
      obtain ⟨d, hd, hb⟩ := ih h
      exact ⟨d, by rw [stemAt, if_neg hf, hd], hb⟩

/-- A path from a real stem ends at a real stem. -/
theorem stemAt_real (hs : TreeShape stem n) {s c : Byte} {p : List Bool} (hreal : s.toNat < n - 1)
    (h : stemAt stem s p = some c) : c.toNat < n - 1 := by
  induction p generalizing s with
  | nil => exact Option.some.inj h ▸ hreal
  | cons b p ih =>
    simp only [stemAt, Option.ite_none_left_eq_some] at h
    obtain ⟨hf, h⟩ := h
    have := kids_lt hs hreal (mem_stemChildren_iff.2 ⟨b, by simpa using hf, rfl⟩)
    exact ih (by omega) h

/-- A stem has one path from the root. -/
theorem stemAt_inj (hs : TreeShape stem n) {root c : Byte} (hroot : root.toNat + 2 = n) {p q : List Bool}
    (hp : stemAt stem root p = some c) (hq : stemAt stem root q = some c) : p = q := by
  have hreal : root.toNat < n - 1 := by omega
  induction p using List.reverseRecOn generalizing q c with
  | nil =>
    cases q using List.reverseRecOn with
    | nil => rfl
    | append_singleton q d =>
      obtain ⟨e, he, hd, rfl⟩ := stemAt_concat hq
      exact absurd (Option.some.inj hp).symm (root_not_child hs hroot (stemAt_real hs hreal he) hd)
  | append_singleton p b ih =>
    obtain ⟨e, he, hb, rfl⟩ := stemAt_concat hp
    cases q using List.reverseRecOn with
    | nil => exact absurd (Option.some.inj hq).symm (root_not_child hs hroot (stemAt_real hs hreal he) hb)
    | append_singleton q d =>
      obtain ⟨e', he', hd, heq⟩ := stemAt_concat hq
      obtain ⟨rfl, rfl⟩ := parent_unique hs (stemAt_real hs hreal he) (stemAt_real hs hreal he') hb hd heq.symm
      rw [ih he he']

/-- A leaf has one path from the root. -/
theorem leafAt_inj (hs : TreeShape stem n) {root v : Byte} (hroot : root.toNat + 2 = n) {p q : List Bool}
    (hp : leafAt stem root p = some v) (hq : leafAt stem root q = some v) : p = q := by
  have hreal : root.toNat < n - 1 := by omega
  cases p using List.reverseRecOn with
  | nil => cases hp
  | append_singleton p b =>
    cases q using List.reverseRecOn with
    | nil => cases hq
    | append_singleton q d =>
      obtain ⟨e, he, hb, rfl⟩ := leafAt_concat hp
      obtain ⟨e', he', hd, heq⟩ := leafAt_concat hq
      obtain ⟨rfl, rfl⟩ := leafParent_unique hs (stemAt_real hs hreal he) (stemAt_real hs hreal he') hb hd heq.symm
      rw [stemAt_inj hs hroot he he']

/-- A path that ends at a leaf ends at a leaf of the tree. -/
theorem mem_treeLeaves_of_leafAt (hs : TreeShape stem n) {s v : Byte} {p : List Bool} (hreal : s.toNat < n - 1)
    (h : leafAt stem s p = some v) : v ∈ treeLeaves stem n := by
  cases p using List.reverseRecOn with
  | nil => cases h
  | append_singleton p b =>
    obtain ⟨d, hd, hb, rfl⟩ := leafAt_concat h
    rw [treeLeaves_eq]
    exact List.mem_flatMap.2 ⟨d, mem_realIds.2 (stemAt_real hs hreal hd), mem_leafChildren_iff.2 ⟨b, hb, rfl⟩⟩

/-- Behind a leaf no path goes on. -/
theorem leafAt_append_of_leafAt {s v : Byte} {p q : List Bool} (h : leafAt stem s p = some v) (hq : q ≠ []) :
    leafAt stem s (p ++ q) = none := by
  induction p generalizing s with
  | nil => cases h
  | cons b p ih =>
    rw [leafAt_cons] at h
    rw [List.cons_append, leafAt_cons]
    split at h
    · next hf => rw [if_pos hf, if_neg (by simp [hq])]
    · next hf => rw [if_neg hf, ih h]

end Tree

/-! ### The codes (R221 to R223) -/

/-- Settles O31: a code is a path to its byte (`codebuildOp_ok`), and that path is the only one (`leafAt_inj`). -/
theorem codebuildAssignsThePaths : Obligations.CodebuildAssignsThePaths := by
  intro s hs hroot hmax
  obtain ⟨code, hok, hpath, hleaves⟩ := codebuildOp_ok hs hroot hmax
  have hreal : s.root.toNat < s.n.toNat - 1 := by omega
  refine ⟨code, by rw [exec_codebuild_eq_finish, hok, Flow.finish_ok, enterPhase], fun b p hp => ⟨?_, fun hleaf => ?_⟩,
    fun b => ⟨fun hnil hleaf => ?_, fun hnot => ?_⟩⟩
  · rintro rfl
    exact (hpath b).resolve_left hp
  · exact leafAt_inj hs hroot (hleaves b (mem_treeLeaves_of_leafAt hs hreal hleaf)) hleaf
  · have := hleaves b hleaf
    rw [hnil, leafAt_nil] at this
    cases this
  · exact (hpath b).resolve_right fun hleaf => hnot (mem_treeLeaves_of_leafAt hs hreal hleaf)

/-- Settles O32: a code that began another would be a path through a leaf. -/
theorem codesArePrefixFree : Obligations.CodesArePrefixFree := by
  intro s t hs hroot hmax hexec b c hne hb hbegins
  obtain ⟨code, hok, hpath, -⟩ := codebuildOp_ok hs hroot hmax
  rw [exec_codebuild_eq_finish, hok, Flow.finish_ok] at hexec
  obtain rfl := Host.Outcome.next.inj hexec
  obtain ⟨q, hq⟩ : ∃ q, entry code b ++ q = entry code c := hbegins
  have hleafb := (hpath b).resolve_left hb
  have hleafc := (hpath c).resolve_left fun hnil => hb (List.append_eq_nil_iff.1 (hq.trans hnil)).1
  by_cases hend : q = []
  · rw [hend, List.append_nil] at hq
    rw [← hq, hleafb] at hleafc
    exact hne (Option.some.inj hleafc)
  · rw [← hq, leafAt_append_of_leafAt hleafb hend] at hleafc
    cases hleafc

end Sys2Proof.Machine
end

section
/-! The host's port, O6, O7, O8, O11, O12, O59 and O60 (10_state.md R21, R24 to R26; 20_memory.md R60, R61;
70_reset_and_hazards.md R321, R322, R325): the `STATUS` word, and each host action as one step. -/

namespace Sys2Proof.Machine

open Sys2Proof.Safety

/-! ### The STATUS word (R24 to R26) -/

theorem RunState.code_lt (x : RunState) : x.code < 4 := by cases x <;> decide
theorem Phase.code_lt (x : Phase) : x.code < 16 := by cases x <;> decide
theorem Err.code_lt (x : Err) : x.code < 16 := by cases x <;> decide
theorem Op.code_eq (x : Op) : x.code = (decide (x = .decode)).toNat := by cases x <;> rfl

/-- A bit of a word, by its value. -/
theorem getLsbD_eq_of_div {w : Word} {i : Nat} {b : Bool} (h : w.toNat / 2 ^ i % 2 = b.toNat) : w.getLsbD i = b := by
  rw [BitVec.getLsbD, Nat.testBit_eq_decide_div_mod_eq, h]
  cases b <;> rfl

/-- A range of bits of a word, by its value. -/
theorem extractLsb'_eq_of_div {w : Word} {i n c : Nat} (h : w.toNat / 2 ^ i % 2 ^ n = c % 2 ^ n) :
    w.extractLsb' i n = BitVec.ofNat n c := by
  refine BitVec.eq_of_toNat_eq ?_
  rw [BitVec.extractLsb'_toNat, Nat.shiftRight_eq_div_pow, h, BitVec.toNat_ofNat]

/-- Settles O6: each field of the word stands above the ones before it, and none is wider than its bits. -/
theorem statusWordHoldsItsFields : Obligations.StatusWordHoldsItsFields := by
  refine ⟨fun st => ?_, by decide, by decide, by decide, rfl⟩
  have hstate := st.state.code_lt
  have hphase := st.phase.code_lt
  have herr := st.err.code_lt
  have htrailing := Bool.toNat_lt st.trailing
  have hshort := Bool.toNat_lt st.short
  have hlastop := Bool.toNat_lt (decide (st.lastop = .decode))
  have hword : st.word.toNat = st.state.code + st.phase.code * 4 + st.err.code * 64 + st.trailing.toNat * 1024 +
      st.short.toNat * 2048 + (decide (st.lastop = .decode)).toNat * 4096 := by
    rw [Status.word, BitVec.toNat_ofNat, st.lastop.code_eq]
    omega
  refine ⟨extractLsb'_eq_of_div ?_, extractLsb'_eq_of_div ?_, extractLsb'_eq_of_div ?_, getLsbD_eq_of_div ?_,
    getLsbD_eq_of_div ?_, getLsbD_eq_of_div ?_, extractLsb'_eq_of_div (c := 0) ?_⟩
  all_goals
    rw [hword]
    omega

/-! ### Register accesses (R21) -/

/-- Settles O7: a read is a settled action, and `readReg` gives each number its register. -/
theorem registerReadsFollowTheTable : Obligations.RegisterReadsFollowTheTable := by
  intro s number rest hscript
  rw [step_of_fetchHost_ok hscript rfl, hostReads]
  match number with
  | 0 | 1 | 2 | 3 | 4 | 5 => rfl
  | _ + 6 => rfl

/-- Settles O8: `writeReg` knows the numbers 1 and 2 alone. -/
theorem readOnlyRegistersIgnoreWrites : Obligations.ReadOnlyRegistersIgnoreWrites := by
  intro s number v rest hscript hnumber
  rw [step_writeReg_of_ne_cmd (by omega) hscript]
  match number, hnumber with
  | _ + 3, _ => rfl

/-! ### Waiting (R321, R329, R298) -/

theorem busy_eq_false {s : State} (h : s.status.state ≠ .busy) : s.busy = false := decide_eq_false h

theorem busy_eq_true {s : State} (h : s.status.state = .busy) : s.busy = true := decide_eq_true h

/-- With no host action left, what a step does is the sequencer's, or nothing. -/
theorem fetch_of_script_nil {s : State} (h : s.script = []) :
    fetch s = if s.busy then fetchSequencer s else .settled (.ok s) := by
  rw [fetch, h]

/-- A block that is not `BUSY` and has no host action keeps its state. -/
theorem step_of_waiting {s : State} (h : s.script = []) (hidle : s.status.state ≠ .busy) : step s = .next s :=
  step_of_fetch_ok (by rw [fetch_of_script_nil h, busy_eq_false hidle, if_neg Bool.false_ne_true])

/-- Settles O12. -/
theorem blockWaitsWithoutACommand : Obligations.BlockWaitsWithoutACommand := fun _ => step_of_waiting

/-! ### Reset (R320 to R322) -/

theorem step_reset {s : State} {rest : List HostAction} (h : s.script = .reset :: rest) :
    step s = .next (resetBlock { s with script := rest }) := step_of_fetchHost_ok h rfl

theorem outAtReset_of_idle {s : State} (h : s.status.state ≠ .busy) : outAtReset s = s.outMem := by
  rw [outAtReset, busy_eq_false h, if_neg Bool.false_ne_true]

theorem outAtReset_of_busy {s : State} (h : s.status.state = .busy) :
    outAtReset s = Memory.splice (Config.resetCut s.free) (outWhenDone s) s.outMem := by
  rw [outAtReset, busy_eq_true h, if_pos rfl]

/-- Settles O11: `OUT` is spliced at the free address while `BUSY`, and left alone otherwise. -/
theorem resetAtAnyTime : Obligations.ResetAtAnyTime := by
  intro s rest hscript
  refine ⟨_, step_reset hscript, rfl, rfl, rfl, rfl, rfl, rfl, rfl, rfl, rfl, fun hidle => ?_, fun hbusy => ?_⟩
  · exact outAtReset_of_idle (s := { s with script := rest }) hidle
  · refine ⟨Config.resetCut s.free, fun a => ?_⟩
    have hout : (resetBlock { s with script := rest }).outMem = _ := outAtReset_of_busy (s := { s with script := rest }) hbusy
    rw [hout, Memory.read_splice]

/-! ### Memory accesses (R60, R61, R325) -/

theorem hostAccess_of_busy {s : State} (h : s.status.state = .busy) (found : Bool) (missing : Fault) (next : State) :
    hostAccess s found missing next = .refuse .hostAccessWhileBusy := by
  rw [hostAccess, busy_eq_true h, if_pos rfl]

theorem hostAccess_of_idle {s : State} (h : s.status.state ≠ .busy) {found : Bool} (hfound : found = true) (missing : Fault)
    (next : State) : hostAccess s found missing next = .settled (.ok next) := by
  rw [hostAccess, busy_eq_false h, if_neg Bool.false_ne_true, if_pos hfound]

/-- Settles O60: each of the four accesses is one `hostAccess`. -/
theorem hostAccessWhileBusyIsRefused : Obligations.HostAccessWhileBusyIsRefused := by
  intro s a v rest hbusy hscript
  have hrefused : fetch s = .refuse .hostAccessWhileBusy := by
    obtain h | h | h | h := hscript
    all_goals exact (fetch_of_script h).trans (hostAccess_of_busy (s := { s with script := rest }) hbusy _ _ _)
  rw [step, hrefused]

/-- Two steps of a run. -/
theorem run_two {s t u : State} (h1 : step s = .next t) (h2 : step t = .next u) : Sys2Proof.core.run 2 s = .next u := by
  have hcore : Sys2Proof.core.step = step := rfl
  simp only [Host.Core.run, hcore, h1, h2]

section Accesses

variable {s : State} {a : Word} {rest : List HostAction} (hidle : s.status.state ≠ .busy)

include hidle

theorem step_writeIn {v : Byte} (ha : a.toNat < s.cfg.inSize) (h : s.script = .writeIn a v :: rest) :
    step s = .next { s with script := rest, inMem := Memory.write s.inMem a.toNat v } :=
  step_of_fetchHost_ok h (hostAccess_of_idle (s := { s with script := rest }) hidle (decide_eq_true ha) _ _)

theorem step_readIn (ha : a.toNat < s.cfg.inSize) (h : s.script = .readIn a :: rest) :
    step s = .next (hostReads ((Memory.read s.inMem a.toNat).setWidth 32) { s with script := rest }) :=
  step_of_fetchHost_ok h (hostAccess_of_idle (s := { s with script := rest }) hidle (decide_eq_true ha) _ _)

theorem step_writeOut {v : Byte} (ha : outHas s.cfg a.toNat = true) (h : s.script = .writeOut a v :: rest) :
    step s = .next { s with script := rest, outMem := Memory.write s.outMem a.toNat v } :=
  step_of_fetchHost_ok h (hostAccess_of_idle (s := { s with script := rest }) hidle ha _ _)

theorem step_readOut (ha : outHas s.cfg a.toNat = true) (h : s.script = .readOut a :: rest) :
    step s = .next (hostReads ((Memory.read s.outMem a.toNat).setWidth 32) { s with script := rest }) :=
  step_of_fetchHost_ok h (hostAccess_of_idle (s := { s with script := rest }) hidle ha _ _)

end Accesses

/-- Settles O59: the byte written is the byte read (`Memory.read_write`), in each memory. -/
theorem hostReadsBackWhatItWrote : Obligations.HostReadsBackWhatItWrote := by
  intro s a v hidle hin hout
  refine ⟨fun hscript ha => ?_, fun hscript hfits => ?_⟩
  · refine ⟨_, run_two (step_writeIn hidle ha hscript) (step_readIn hidle ha rfl), ?_, rfl, rfl⟩
    rw [hostReads_reads, Memory.read_write hin, if_pos rfl]
  · have ha : outHas s.cfg a.toNat = true := outHas_of_fitsOut hfits (Nat.lt_succ_self _)
    refine ⟨_, run_two (step_writeOut hidle ha hscript) (step_readOut hidle ha rfl), ?_, rfl, rfl⟩
    rw [hostReads_reads, Memory.read_write hout, if_pos rfl]

end Sys2Proof.Machine
end

section
/-! The items of the encoded buffer as instructions, O37 to O41 (30_encoding.md R92 to R100; 46_bit_walker.md R251, R256, R257). -/

namespace Sys2Proof.Machine

open Sys2Proof.Safety

theorem exec_count_eq_finish (b : Byte) (s : State) : exec (.count b) s = (countItem b s).finish := rfl

theorem exec_hdr_eq_finish (tag : Byte) (len : BitVec 24) (s : State) :
    exec (.hdr tag len) s = (headerItem tag len s).finish := rfl

theorem exec_leaf_eq_finish (v : Byte) (s : State) : exec (.leaf v) s = (leafItem v s).finish := rfl

theorem exec_group_eq_next (bits : Word) (s : State) : exec (.group bits) s = .next (groupItem bits s) := rfl

/-- A reference is the bootstrap entry in `DVALIDATE` (R99). -/
theorem exec_ref_of_dvalidate {s : State} (h : s.status.phase = .dvalidate) (f1 f2 : Bool) (skip : BitVec 6) :
    exec (.ref f1 f2 skip) s = .next (bootItem (refByte f1 f2 skip) s) := by
  change execRef f1 f2 skip s = _
  rw [execRef, h]

/-- A reference is the walk's entry elsewhere (R257). -/
theorem exec_ref_of_ne_dvalidate {s : State} (h : s.status.phase ≠ .dvalidate) (f1 f2 : Bool) (skip : BitVec 6) :
    exec (.ref f1 f2 skip) s = .next (refItem (refByte f1 f2 skip) s) := by
  change execRef f1 f2 skip s = _
  unfold execRef
  split
  · next hphase => exact absurd hphase h
  · rfl

/-- Settles O37: the two cases of `countItem_cases`. -/
theorem countByteSetsCnt : Obligations.CountByteSetsCnt := by
  intro s b
  refine ⟨fun hfits => ?_, fun hshort => ?_⟩
  · rw [exec_count_eq_finish, countItem_ok hfits, Flow.finish_ok]
  · obtain ⟨-, hraise⟩ | ⟨hle, -⟩ := countItem_cases b s
    · exact ⟨takeFault .truncatedTable { s with cnt := b }, by rw [exec_count_eq_finish, hraise, Flow.finish_raise],
        faultTaken_takeFault .truncatedTable { s with cnt := b }, rfl⟩
    · omega

/-- Settles O38: the three cases of `headerItem_cases`. -/
theorem headerSetsTheExpectedLength : Obligations.HeaderSetsTheExpectedLength := by
  intro s tag len
  refine ⟨fun htag => ?_, fun htag hlong => ?_, fun htag hfits => ?_⟩
  · exact ⟨takeFault .badFormatTag s, by rw [exec_hdr_eq_finish, headerItem, if_pos (show tag ≠ Config.tag from htag), Flow.finish_raise],
      faultTaken_takeFault .badFormatTag s, rfl⟩
  · obtain ⟨hne, -⟩ | ⟨-, -, hraise⟩ | ⟨-, hexceeds, -⟩ := headerItem_cases tag len s
    · exact absurd htag hne
    · exact ⟨takeFault .outOverflow { s with explen := len }, by rw [exec_hdr_eq_finish, hraise, Flow.finish_raise],
        faultTaken_takeFault .outOverflow { s with explen := len }, rfl⟩
    · exact absurd (exceedsOut_eq_false.1 hexceeds) hlong
  · rw [exec_hdr_eq_finish, headerItem_ok htag hfits, Flow.finish_ok]

/-- Settles O39: the entry is `refByte` of the fields, and the phase decides what it is taken for. -/
theorem referenceBecomesTheEntry : Obligations.ReferenceBecomesTheEntry := by
  intro s f1 f2 skip
  refine ⟨refByte f1 f2 skip, ?_, fun hphase => ?_, fun hphase => ?_⟩
  · have h1 := Bool.toNat_lt f1
    have h2 := Bool.toNat_lt f2
    have hskip := skip.isLt
    have hbyte := refByte_eq_ofNat f1 f2 hskip
    rw [BitVec.ofNat_toNat, BitVec.setWidth_eq] at hbyte
    rw [hbyte, BitVec.toNat_ofNat]
    omega
  · rw [exec_ref_of_ne_dvalidate hphase, refItem]
  · rw [exec_ref_of_dvalidate hphase, bootItem, tableEnd, enterPhase, ← Nat.add_assoc, Nat.sub_sub]

/-- Settles O40: the one byte is written (`Memory.read_write`). -/
theorem literalIsEmitted : Obligations.LiteralIsEmitted := by
  intro s v hwf hfits
  have hhas := outHas_of_fitsOut hfits (Nat.lt_succ_self _)
  refine ⟨Memory.write s.outMem s.outcnt.toNat v, ?_, ?_, fun a ha => ?_⟩
  · rw [exec_leaf_eq_finish, leafItem, writeOut_ok hhas, Flow.access_ok, Flow.finish_ok]
  · rw [Memory.read_write hwf, if_pos rfl]
  · rw [Memory.read_write hwf, if_neg ha]

/-- Settles O41: a fresh group has 32 bits left, of which the next is the highest. -/
theorem groupIsTakenToWalk : Obligations.GroupIsTakenToWalk := fun s bits => ⟨exec_group_eq_next bits s, rfl⟩

end Sys2Proof.Machine
end

section
/-! What a step runs, O13, O14 and O15 (10_state.md R22, R25; 40_commands.md R131, R132, R141): the command or micro-operation
selected, and the item the decoder stands at. -/

namespace Sys2Proof.Machine

open Sys2Proof.Safety

/-! ### What the sequencer runs -/

theorem step_of_fetch_run {s s1 : State} {i : Instr} (h : fetch s = .run i s1) : step s = exec i s1 := by
  simp only [step, h]

/-- While `BUSY`, with no host action before it, a step is the sequencer's. -/
theorem fetch_of_busy {s : State} (h : s.script = []) (hbusy : s.status.state = .busy) : fetch s = fetchSequencer s := by
  rw [fetch_of_script_nil h, busy_eq_true hbusy, if_pos rfl]

theorem fetch_pass_of_busy {s : State} {rest : List HostAction} (h : s.script = .pass :: rest)
    (hbusy : s.status.state = .busy) : fetch s = fetchSequencer { s with script := rest } := by
  have hrest : ({ s with script := rest } : State).busy = true := busy_eq_true hbusy
  rw [fetch_of_script h, fetchHost, hrest, if_pos rfl]

/-- A `wait` while `BUSY` is a step of the sequencer, and stays. -/
theorem fetch_wait_of_busy {s : State} {rest : List HostAction} (h : s.script = .wait :: rest)
    (hbusy : s.status.state = .busy) : fetch s = fetchSequencer s := by
  have hrest : ({ s with script := rest } : State).busy = true := busy_eq_true hbusy
  rw [fetch_of_script h, fetchHost, hrest, if_pos rfl]
  change fetchSequencer { s with script := .wait :: rest } = _
  rw [← h]

/-- Item by item, a micro-operation of `ENCODE` is one step (R141). -/
theorem fetchItem_eq_fetchPhase {s : State} (hdvalidate : s.status.phase ≠ .dvalidate) (hdwalk : s.status.phase ≠ .dwalk) :
    fetchItem s = fetchPhase s := by
  unfold fetchItem
  split
  case h_7 => rfl
  all_goals contradiction

/-- The sequencer runs a whole micro-operation, but for the two of `DECODE` item by item (R141). -/
theorem fetchSequencer_eq_fetchPhase {s : State}
    (h : s.cfg.grain = .item → s.status.phase ≠ .dvalidate ∧ s.status.phase ≠ .dwalk) :
    fetchSequencer s = fetchPhase s := by
  unfold fetchSequencer
  split
  · next hgrain =>
    obtain ⟨hdvalidate, hdwalk⟩ := h hgrain
    exact fetchItem_eq_fetchPhase hdvalidate hdwalk
  · rfl

theorem fetchSequencer_of_item {s : State} (h : s.cfg.grain = .item) : fetchSequencer s = fetchItem s := by
  rw [fetchSequencer, h]

theorem fetchPhase_of_decode {s : State} {i : Instr} (h : decode .phase [BitVec.ofNat 8 s.status.phase.code] = .ok i) :
    fetchPhase s = .run i s := by
  rw [fetchPhase, h]

theorem fetchCommand_of_command {s : State} (hidle : s.status.state ≠ .busy) (hgrain : s.cfg.grain = .command) (v : Word) :
    fetchCommand v s = .run (decodeCommand v) s := by
  rw [fetchCommand, busy_eq_false hidle, if_neg Bool.false_ne_true, hgrain]

/-- Settles O13: the command by `fetchCommand`, the micro-operation by `fetchPhase`, under each of the three scripts. -/
theorem stepRunsTheCommandOrPhase : Obligations.StepRunsTheCommandOrPhase := by
  intro s i rest
  refine ⟨fun v hscript hidle hgrain hdecode => ?_, fun hbusy hgrain hdecode => ⟨fun hscript => ?_, fun hscript => ?_,
    fun hscript => ?_⟩⟩
  · obtain rfl := Except.ok.inj ((decode_cmd_bytesOfWord v).symm.trans hdecode)
    exact step_of_fetch_run ((fetch_of_script hscript).trans
      (fetchCommand_of_command (s := { s with script := rest }) hidle hgrain v))
  · exact step_of_fetch_run ((fetch_of_busy hscript hbusy).trans
      ((fetchSequencer_eq_fetchPhase hgrain).trans (fetchPhase_of_decode hdecode)))
  · exact step_of_fetch_run ((fetch_pass_of_busy hscript hbusy).trans
      ((fetchSequencer_eq_fetchPhase (s := { s with script := rest }) hgrain).trans
        (fetchPhase_of_decode (s := { s with script := rest }) hdecode)))
  · exact step_of_fetch_run ((fetch_wait_of_busy hscript hbusy).trans
      ((fetchSequencer_eq_fetchPhase hgrain).trans (fetchPhase_of_decode hdecode)))

/-! ### The item the decoder stands at (R251, R256, R257) -/

theorem fetchByte_of_decode {f : Format} {a : Nat} {s : State} {b : Byte} {i : Instr} (hread : readIn s a = .ok b)
    (h : decode f [b] = .ok i) : fetchByte f a s = .run i s := by
  rw [fetchByte, hread]
  simp only [h]

theorem fetchWord_of_decode {f : Format} {a : Nat} {s : State} {bytes : List Byte} {i : Instr}
    (hread : readInRange s a 4 = .ok bytes) (h : decode f bytes = .ok i) : fetchWord f a s = .run i s := by
  rw [fetchWord, hread]
  simp only [h]

/-- In the loops of `DWALK` the next item is a bit's table entry or a group, while a byte is wanted (R256). -/
theorem fetchItem_of_walk {s : State} (hphase : s.status.phase = .dwalk) (hpoint : s.point = .walk) :
    fetchItem s = fetchWalk s := by
  rw [fetchItem, hphase, hpoint]

theorem fetchWalk_of_bit {s : State} (hshort : shortOf s = true) (hk : s.k ≠ 0) : fetchWalk s = fetchEntry s := by
  rw [fetchWalk, if_pos hshort, if_pos hk]

theorem fetchWalk_of_group {s : State} (hshort : shortOf s = true) (hk : s.k = 0) (hg : s.g.toNat < s.ng.toNat) :
    fetchWalk s = fetchWord .group (groupAddress s) s := by
  rw [fetchWalk, if_pos hshort, if_neg (not_not.2 hk), if_pos hg]

/-- A step inside the bound goes to the entry at its new position, in the format of the flag held (R257, R98). -/
theorem fetchEntry_of_inside {s : State} (h : nextPosition s ≤ s.cnt.toNat) : fetchEntry s =
    fetchByte (if leafFlag s.cur (nextBit s) then .leaf else .ref) (tableAddress (moved s) (nextBit s)) (moved s) := by
  rw [fetchEntry, advance_ok h]
  rfl

theorem tableAddress_moved {s : State} (h : nextPosition s ≤ s.cnt.toNat) :
    tableAddress (moved s) (nextBit s) = s.off.toNat + 4 + 2 * nextPosition s + (nextBit s).toNat := by
  have hpos : (moved s).pos.toNat = nextPosition s := by
    rw [moved, BitVec.toNat_ofNat]
    omega
  rw [tableAddress, hpos]
  rfl

/-- Settles O14: `fetchItem` at each place, and the bytes it reads there decoded. -/
theorem stepRunsTheBufferItem : Obligations.StepRunsTheBufferItem := by
  intro s i hscript hbusy hgrain
  have hfetch : fetch s = fetchItem s := (fetch_of_busy hscript hbusy).trans (fetchSequencer_of_item hgrain)
  refine ⟨fun hphase => ⟨fun b hpoint hread hdecode => ?_, fun bytes hpoint hread hdecode => ?_,
    fun b hpoint hread hdecode => ?_⟩, fun hphase hpoint hwanted => ⟨fun bytes hk hg hread hdecode => ?_,
    fun e hk hinside hread hdecode => ?_⟩⟩
  · refine step_of_fetch_run (hfetch.trans ?_)
    rw [fetchItem, hphase, hpoint]
    exact fetchByte_of_decode hread hdecode
  · refine step_of_fetch_run (hfetch.trans ?_)
    rw [fetchItem, hphase, hpoint]
    exact fetchWord_of_decode hread hdecode
  · refine step_of_fetch_run (hfetch.trans ?_)
    rw [fetchItem, hphase, hpoint]
    exact fetchByte_of_decode hread hdecode
  · refine step_of_fetch_run ((hfetch.trans (fetchItem_of_walk hphase hpoint)).trans ?_)
    rw [fetchWalk_of_group (decide_eq_true hwanted) hk hg]
    exact fetchWord_of_decode hread hdecode
  · refine step_of_fetch_run ((hfetch.trans (fetchItem_of_walk hphase hpoint)).trans ?_)
    rw [fetchWalk_of_bit (decide_eq_true hwanted) hk, fetchEntry_of_inside hinside]
    exact fetchByte_of_decode ((congrArg (readIn (moved s)) (tableAddress_moved hinside)).trans hread) hdecode

/-! ### The command start (R131, R132) -/

/-- A started command makes its range check when `PHASE` is `NONE` (R132). -/
theorem step_of_started {s : State} (hscript : s.script = []) (hbusy : s.status.state = .busy)
    (hphase : s.status.phase = .none) : step s = (enterSequence s).finish := by
  have hdecode : fetchPhase s = .settled (enterSequence s) := by
    rw [fetchPhase, hphase]
    rfl
  have hfetch : fetch s = .settled (enterSequence s) := by
    rw [fetch_of_busy hscript hbusy, fetchSequencer_eq_fetchPhase fun _ => by rw [hphase]; decide, hdecode]
  rw [step, hfetch]

/-- The first micro-operation, by the bit that selects the command (R91, R133, R137). -/
theorem firstPhase_commandOp (v : Word) : firstPhase (commandOp v) = if v.getLsbD 0 then .dvalidate else .freq := by
  rw [commandOp]
  cases v.getLsbD 0 <;> rfl

/-- Settles O15: the start is `startCommand`, and the step after it the range check (`enterSequence_cases`). -/
theorem commandStartSetsTheRegisters : Obligations.CommandStartSetsTheRegisters := by
  intro s v hscript hidle hgrain
  have hstart := step_writeCmd_of_idle hidle hgrain hscript
  have hcheck := step_of_started (s := startCommand (commandOp v) { s with script := [] }) rfl rfl rfl
  refine ⟨startCommand (commandOp v) { s with script := [] }, rfl, hstart, fun hout => ?_, fun hin => ?_⟩
  · obtain ⟨-, hraise⟩ | ⟨hle, -⟩ := enterSequence_cases (startCommand (commandOp v) { s with script := [] })
    · exact ⟨_, by rw [hcheck, hraise, Flow.finish_raise], faultTaken_takeFault .badRange _⟩
    · omega
  · obtain ⟨hlt, -⟩ | ⟨-, hok⟩ := enterSequence_cases (startCommand (commandOp v) { s with script := [] })
    · omega
    · rw [hcheck, hok, Flow.finish_ok, enterPhase, startCommand_op, firstPhase_commandOp]
      rfl

end Sys2Proof.Machine
end

section
/-! A step of the sequencer as a run of statements (40_commands.md R133, R137, R141): whatever the size of a step, it is the end
of a `Flow`, so the statements about steps (O50 to O53, O55) need not look at what was decoded. -/

namespace Sys2Proof.Machine

open Sys2Proof.Safety

/-! ### The outcome of what is fetched -/

/-- What comes of what a step does: `step` gives the outcome of what `fetch` gives. -/
def Fetched.outcome : Fetched → Host.Outcome State Fault Refusal
  | .run i s => exec i s
  | .settled f => f.finish
  | .refuse r => .refused r

@[simp] theorem Fetched.outcome_run (i : Instr) (s : State) : (Fetched.run i s).outcome = exec i s := rfl
@[simp] theorem Fetched.outcome_settled (f : Flow State) : (Fetched.settled f).outcome = f.finish := rfl

theorem step_eq_outcome (s : State) : step s = (fetch s).outcome := by
  unfold step
  cases fetch s <;> rfl

/-! ### Micro-operations and items as runs -/

/-- One item of the walk: a bit while bits of `W` are left, else a group, else the end (R256, R261). -/
def walkItem (s : State) : Flow State :=
  if shortOf s then
    if s.k ≠ 0 then stepBit s
    else if s.g.toNat < s.ng.toNat then readGroup s
    else .ok (finishWalk s)
  else .ok (finishWalk s)

/-- One item of `DVALIDATE`, by where it stands (R251). -/
def dvalidateItem (s : State) : Flow State :=
  match s.point with
  | .count => readCount s
  | .header => readHeader s
  | .boot => readBoot s
  | _ => lengthTests s

/-- One item of `DWALK`, by where it stands (R255, R256). -/
def dwalkItem (s : State) : Flow State :=
  match s.point with
  | .walk => walkItem s
  | _ => .ok (walkStart s)

/-- What the sequencer runs when a step is one item (R141). -/
def itemOp (s : State) : Flow State :=
  match s.status.phase with
  | .dvalidate => dvalidateItem s
  | .dwalk => dwalkItem s
  | p => microOp p s

/-- What the sequencer runs next while `BUSY`, by the size of a step. -/
def sequencerOp (s : State) : Flow State :=
  match s.cfg.grain with
  | .item => itemOp s
  | _ => microOp s.status.phase s

theorem fetchPhase_outcome (s : State) : (fetchPhase s).outcome = (microOp s.status.phase s).finish := by
  unfold fetchPhase
  cases s.status.phase <;> rfl

theorem fetchCount_outcome (s : State) : (fetchByte .count (countAddress s) s).outcome = (readCount s).finish := by
  unfold fetchByte readCount
  cases readIn s (countAddress s) <;> rfl

/-- The header item is the header read: a wrong tag raises the same fault, whether the decoder sees it or the item (R288). -/
theorem fetchHeader_outcome (s : State) : (fetchWord .hdr s.off.toNat s).outcome = (readHeader s).finish := by
  unfold fetchWord readHeader
  cases hread : readInRange s s.off.toNat 4 with
  | error fault => rfl
  | ok bytes =>
    obtain ⟨rfl, -⟩ := readInRange_eq_ok hread
    simp only [inBytes, List.range_succ, List.range_zero, List.nil_append, List.cons_append, List.map_cons, List.map_nil,
      decode_hdr, Flow.access_ok]
    split
    · next i hdecode =>
      split at hdecode
      · obtain rfl := Except.ok.inj hdecode
        rfl
      · cases hdecode
    · next hdecode =>
      split at hdecode
      · cases hdecode
      · next htag => rw [headerItem, if_pos htag, Fetched.outcome_settled]

theorem fetchBoot_outcome {s : State} (h : s.status.phase = .dvalidate) :
    (fetchByte .ref (bootAddress s) s).outcome = (readBoot s).finish := by
  unfold fetchByte readBoot
  cases readIn s (bootAddress s) with
  | error fault => rfl
  | ok b =>
    rw [Flow.access_ok, Flow.finish_ok]
    exact (exec_ref_of_dvalidate h _ _ _).trans (by rw [refByte_fields])

theorem fetchGroup_outcome (s : State) : (fetchWord .group (groupAddress s) s).outcome = (readGroup s).finish := by
  unfold fetchWord readGroup
  cases hread : readInRange s (groupAddress s) 4 with
  | error fault => rfl
  | ok bytes =>
    obtain ⟨rfl, -⟩ := readInRange_eq_ok hread
    simp only [inBytes, List.range_succ, List.range_zero, List.nil_append, List.cons_append, List.map_cons, List.map_nil]
    rfl

/-- The table entry a bit leads to is read as a literal or a reference by the flag held, as in a step of the walk (R98,
R257). -/
theorem fetchEntry_outcome {s : State} (h : s.status.phase = .dwalk) : (fetchEntry s).outcome = (stepBit s).finish := by
  have hmoved : (moved s).status.phase ≠ .dvalidate := by
    change s.status.phase ≠ .dvalidate
    rw [h]
    decide
  by_cases hle : nextPosition s ≤ s.cnt.toNat
  · rw [fetchEntry_of_inside hle, stepBit, advance_ok hle, Flow.andThen_ok]
    change (fetchByte _ _ (moved s)).outcome = (interpret (nextBit s) (moved s)).finish
    unfold fetchByte interpret
    cases readIn (moved s) (tableAddress (moved s) (nextBit s)) with
    | error fault => rfl
    | ok e =>
      have hflag : leafFlag (moved s).cur (nextBit s) = leafFlag s.cur (nextBit s) := rfl
      rw [Flow.access_ok, hflag]
      cases leafFlag s.cur (nextBit s) with
      | true => rfl
      | false => exact (exec_ref_of_ne_dvalidate hmoved _ _ _).trans (by rw [refByte_fields]; rfl)
  · obtain ⟨-, hraise⟩ | ⟨hin, -⟩ := advance_cases s
    · rw [fetchEntry, stepBit, hraise]
      rfl
    · exact absurd hin hle

theorem fetchWalk_outcome {s : State} (h : s.status.phase = .dwalk) : (fetchWalk s).outcome = (walkItem s).finish := by
  unfold fetchWalk walkItem
  split
  · split
    · exact fetchEntry_outcome h
    · split
      · exact fetchGroup_outcome s
      · rfl
  · rfl

theorem itemOp_of_dvalidate {s : State} (h : s.status.phase = .dvalidate) : itemOp s = dvalidateItem s := by
  rw [itemOp, h]

theorem itemOp_of_dwalk {s : State} (h : s.status.phase = .dwalk) : itemOp s = dwalkItem s := by
  rw [itemOp, h]

theorem itemOp_eq_microOp {s : State} (hdvalidate : s.status.phase ≠ .dvalidate) (hdwalk : s.status.phase ≠ .dwalk) :
    itemOp s = microOp s.status.phase s := by
  unfold itemOp
  split
  · contradiction
  · contradiction
  · rfl

theorem fetchItem_of_dvalidate_outcome {s : State} (h : s.status.phase = .dvalidate) :
    (fetchItem s).outcome = (dvalidateItem s).finish := by
  rw [fetchItem, dvalidateItem, h]
  cases s.point with
  | count => exact fetchCount_outcome s
  | header => exact fetchHeader_outcome s
  | boot => exact fetchBoot_outcome h
  | enter | walk => rfl

theorem fetchItem_of_dwalk_outcome {s : State} (h : s.status.phase = .dwalk) :
    (fetchItem s).outcome = (dwalkItem s).finish := by
  rw [fetchItem, dwalkItem, h]
  cases s.point with
  | walk => exact fetchWalk_outcome h
  | enter | count | header | boot => rfl

theorem fetchItem_outcome (s : State) : (fetchItem s).outcome = (itemOp s).finish := by
  by_cases hdvalidate : s.status.phase = .dvalidate
  · rw [itemOp_of_dvalidate hdvalidate, fetchItem_of_dvalidate_outcome hdvalidate]
  by_cases hdwalk : s.status.phase = .dwalk
  · rw [itemOp_of_dwalk hdwalk, fetchItem_of_dwalk_outcome hdwalk]
  · rw [itemOp_eq_microOp hdvalidate hdwalk, fetchItem_eq_fetchPhase hdvalidate hdwalk, fetchPhase_outcome]

/-- A step of the sequencer is the end of the run its size gives. -/
theorem fetchSequencer_outcome (s : State) : (fetchSequencer s).outcome = (sequencerOp s).finish := by
  unfold fetchSequencer sequencerOp
  cases s.cfg.grain with
  | item => exact fetchItem_outcome s
  | command | phase => exact fetchPhase_outcome s

/-- A running command with no host action before it takes a step of the sequencer. -/
theorem step_of_busy {s : State} (h : s.script = []) (hbusy : s.status.state = .busy) : step s = (sequencerOp s).finish := by
  rw [step_eq_outcome, fetch_of_busy h hbusy, fetchSequencer_outcome]

end Sys2Proof.Machine
end

section
/-! What each micro-operation writes (R133, R137, R282): the states it goes through to and those it raises in, said once. The
frames O55, O56 and O57 and the statements about whole commands rest on it. -/

namespace Sys2Proof.Machine

open Sys2Proof.Safety

/-! ### The ends of a run -/

section Ends

variable {α β : Type} {P P' : α → Prop} {Q Q' : Err → α → Prop} {x : Flow α}

theorem Flow.Ends.mono (hx : x.Ends P Q) (hok : ∀ a, P a → P' a) (hraise : ∀ e a, Q e a → Q' e a) : x.Ends P' Q' := by
  cases x with
  | ok a => exact hok a hx
  | raise e a => exact hraise e a hx
  | stop f => trivial

/-- Both parts of a composed run, the second from where the first went through to. -/
theorem Flow.Ends.seq {R : Err → α → Prop} {k : α → Flow α} (hx : x.Ends P R) (hraise : ∀ e a, R e a → Q e a)
    (hk : ∀ a, P a → (k a).Ends P' Q) : (x.andThen k).Ends P' Q :=
  (hx.mono (fun _ h => h) hraise).andThen hk

/-- What a property of both ends says of each. -/
theorem Flow.Keeps.ends (hx : x.Keeps P) : x.Ends P fun _ => P := by
  cases x with
  | ok a => exact hx
  | raise e a => exact hx
  | stop f => trivial

theorem Flow.Ends.keeps (hx : x.Ends P Q) (hok : ∀ a, P a → P' a) (hraise : ∀ e a, Q e a → P' a) : x.Keeps P' := by
  cases x with
  | ok a => exact hok a hx
  | raise e a => exact hraise e a hx
  | stop f => trivial

theorem Flow.Ends.ok {a : α} (hx : x.Ends P Q) (h : x = .ok a) : P a := (Flow.ends_iff.1 hx).1 a h

theorem Flow.Ends.raise {e : Err} {a : α} (hx : x.Ends P Q) (h : x = .raise e a) : Q e a := (Flow.ends_iff.1 hx).2 e a h

/-- A next state is one the run went through to, or one it raised in with the fault taken (R283). -/
theorem Flow.Ends.finish {P : State → Prop} {Q : Err → State → Prop} {x : Flow State} {t : State} (hx : x.Ends P Q)
    (h : x.finish = .next t) : P t ∨ ∃ e u, Q e u ∧ t = takeFault e u := by
  obtain hok | ⟨e, u, hraise, rfl⟩ := Flow.finish_eq_next.1 h
  · exact .inl (hx.ok hok)
  · exact .inr ⟨e, u, hx.raise hraise, rfl⟩

/-- The shape of `PLACE`, `SERIALIZE` and `CODEBUILD`: a loop over working registers, put back into the state, and then the end
of the phase. -/
theorem Flow.ends_loop {x : Flow α} {c : Err} (hx : ∀ e a, x = .raise e a → e = c) (g : α → State) (f : State → State) :
    ((x.map g).andThen fun u => .ok (f u)).Ends (fun t => ∃ a, t = f (g a)) fun e t => e = c ∧ ∃ a, t = g a := by
  cases x with
  | ok a => exact ⟨a, rfl⟩
  | raise e a => exact ⟨hx e a rfl, a, rfl⟩
  | stop f => trivial

end Ends

/-! ### ENCODE (R133) -/

theorem enterSequence_ends (s : State) :
    (enterSequence s).Ends (fun t => t = enterPhase (firstPhase s.op) s ∧ s.off.toNat + s.len.toNat ≤ s.cfg.inSize)
      fun e t => e = .badRange ∧ t = s := by
  obtain ⟨-, hrun⟩ | ⟨hin, hrun⟩ := enterSequence_cases s
  · exact .of_raise hrun ⟨rfl, rfl⟩
  · exact .of_ok hrun ⟨rfl, hin⟩

theorem freqOp_ends (s : State) :
    (freqOp s).Ends (fun t => ∃ freq, t = enterPhase .merge { s with freq := freq }) fun e t => e = .inputTooLarge ∧ t = s := by
  obtain ⟨-, hrun⟩ | ⟨-, ⟨f, hrun⟩ | ⟨bytes, -, hrun⟩⟩ := freqOp_cases s
  · exact .of_raise hrun ⟨rfl, rfl⟩
  · exact .of_stop hrun
  · exact .of_ok hrun ⟨_, rfl⟩

theorem mergeOp_ends (s : State) :
    (mergeOp s).Ends (fun t => ∃ ws seq ns stem root n,
      t = enterPhase .place { s with ws := ws, seq := seq, ns := ns, stem := stem, root := root, n := n }) fun _ _ => False :=
  ⟨_, _, _, _, _, _, rfl⟩

theorem placeLoop_raise_eq {stem : Vector Stem 256} {sz : Vector (BitVec 9) 256} {t count : Nat} {r r' : PlaceRegs} {e : Err}
    (h : placeLoop stem sz t count r = .raise e r') : e = .placementUnsatisfiable := by
  induction count generalizing t r with
  | zero => cases h
  | succ count ih =>
    obtain ⟨-, hloop⟩ | ⟨-, hloop⟩ | ⟨tight, hi, -, hloop⟩ := placeLoop_succ_cases stem sz t count r
    · rw [hloop] at h
      cases h
      rfl
    · rw [hloop] at h
      cases h
    · exact ih (hloop ▸ h)

theorem placeOp_ends (s : State) :
    (placeOp s).Ends (fun t => ∃ r, t = enterPhase .serialize (withPlacement s r))
      fun e t => e = .placementUnsatisfiable ∧ ∃ r, t = withPlacement s r :=
  Flow.ends_loop (fun _ _ => placeLoop_raise_eq) (withPlacement s) (enterPhase .serialize)

theorem serializeLoop_raise_eq {stem : Vector Stem 256} {rank : Vector Byte 256} {i count : Nat} {table table' : Vector Byte 512}
    {e : Err} (h : serializeLoop stem rank i count table = .raise e table') : e = .skipOverflow := by
  induction count generalizing i table with
  | zero => cases h
  | succ count ih =>
    obtain ⟨table1, hstem⟩ | ⟨table1, hstem⟩ := serializeStem_cases stem rank (BitVec.ofNat 8 i) table
    · rw [serializeLoop, hstem, Flow.andThen_ok] at h
      exact ih h
    · rw [serializeLoop, hstem, Flow.andThen_raise] at h
      cases h
      rfl

theorem serializeOp_ends (s : State) :
    (serializeOp s).Ends (fun t => ∃ table, t = enterPhase .codebuild { s with table := table })
      fun e t => e = .skipOverflow ∧ ∃ table, t = { s with table := table } := by
  refine (Flow.ends_loop (fun _ _ => serializeLoop_raise_eq) (fun table => { s with table := table }) fun u =>
    enterPhase .codebuild { u with table := setSlotByte u.table 0 ((s.n - 1).setWidth 8) }).mono ?_ fun _ _ h => h
  rintro _ ⟨table, rfl⟩
  exact ⟨_, rfl⟩

theorem codebuildOp_ends (s : State) :
    (codebuildOp s).Ends (fun t => ∃ code, t = enterPhase .hdrwrite { s with code := code })
      fun e t => e = .codeTooLong ∧ ∃ code, t = { s with code := code } := by
  refine Flow.ends_loop (fun e code hraise => ?_) (fun code => { s with code := code }) (enterPhase .hdrwrite)
  obtain ⟨code', h⟩ | ⟨code', h⟩ := visit_cases s.stem s.cfg.maxCodeLen s.root [] (Vector.replicate 256 [])
  · rw [h] at hraise
    cases hraise
  · rw [h] at hraise
    cases hraise
    rfl

theorem hdrwriteOp_ends (s : State) :
    (hdrwriteOp s).Ends
      (fun t => ∃ m, writeOutBytes s.cfg s.outMem 0 (headerAndTable s) = .ok m ∧ t = enterPhase .pack { s with
        tbits := BitVec.ofNat 33 (bitTotal s)
        outMem := m
        opos := BitVec.ofNat 32 (4 + 2 * s.n.toNat) })
      fun e t => e = .outOverflow ∧ t = { s with tbits := BitVec.ofNat 33 (bitTotal s) } :=
  Flow.ends_iff.2 ⟨fun _ => hdrwriteOp_eq_ok, fun _ _ hraise => (hdrwriteOp_eq_raise hraise).2⟩

theorem packOp_ne_raise (s t : State) (e : Err) : packOp s ≠ .raise e t := by
  intro h
  obtain ⟨bytes, -, hrun⟩ := Flow.access_eq_raise.1 h
  obtain hmap | ⟨u, -, hend⟩ := Flow.andThen_eq_raise.1 hrun
  · obtain ⟨r, hloop, -⟩ := Flow.map_eq_raise.1 hmap
    obtain hpack | ⟨r1, -, hflush⟩ := Flow.andThen_eq_raise.1 hloop
    · exact packBytes_ne_raise _ _ _ _ _ _ hpack
    · exact flush_ne_raise _ _ _ _ hflush
  · cases hend

theorem packOp_ends (s : State) :
    (packOp s).Ends (fun t => ∃ acc rem opos m,
      t = endCommand { s with acc := acc, rem := rem, opos := opos, outMem := m }) fun _ _ => False :=
  Flow.ends_iff.2 ⟨fun _ hok => have ⟨_, _, _, _, h⟩ := packOp_eq_ok hok; ⟨_, _, _, _, h⟩,
    fun e t hraise => packOp_ne_raise s t e hraise⟩

/-! ### DECODE (R137) -/

/-- The faults of `DVALIDATE` (R251). -/
def dvalidateErrs : List Err := [.truncatedHeader, .truncatedTable, .badFormatTag, .outOverflow]

/-- Where a statement of `DVALIDATE` leaves the state: only `CNT`, `EXPLEN` and the place may differ (R251). -/
def DvalidateReads (s t : State) : Prop := t = { s with cnt := t.cnt, explen := t.explen, point := t.point }

theorem DvalidateReads.trans {s t u : State} (h : DvalidateReads s t) (h' : DvalidateReads t u) : DvalidateReads s u := by
  unfold DvalidateReads at *
  rw [h', h]

/-- A statement of `DVALIDATE` before the bootstrap entry is read. -/
abbrev Flow.Reads (s : State) (x : Flow State) : Prop :=
  x.Ends (DvalidateReads s) fun e t => e ∈ dvalidateErrs ∧ DvalidateReads s t

theorem lengthTests_reads (s : State) : (lengthTests s).Reads s := by
  unfold lengthTests
  split
  · exact ⟨by decide, rfl⟩
  · split
    · exact ⟨by decide, rfl⟩
    · exact rfl

theorem countItem_reads (b : Byte) (s : State) : (countItem b s).Reads s := by
  obtain ⟨-, hrun⟩ | ⟨-, hrun⟩ := countItem_cases b s
  · exact .of_raise hrun ⟨by decide, rfl⟩
  · exact .of_ok hrun rfl

theorem headerItem_reads (tag : Byte) (len : BitVec 24) (s : State) : (headerItem tag len s).Reads s := by
  obtain ⟨-, hrun⟩ | ⟨-, -, hrun⟩ | ⟨-, -, hrun⟩ := headerItem_cases tag len s
  · exact .of_raise hrun ⟨by decide, rfl⟩
  · exact .of_raise hrun ⟨by decide, rfl⟩
  · exact .of_ok hrun rfl

theorem readCount_reads (s : State) : (readCount s).Reads s := Flow.Ends.access fun b => countItem_reads b s

theorem readHeader_reads (s : State) : (readHeader s).Reads s := by
  refine Flow.Ends.access fun bytes => ?_
  split
  · exact headerItem_reads _ _ s
  · exact rfl

/-- Statements of `DVALIDATE` in a row. -/
theorem Flow.Reads.andThen {s : State} {x : Flow State} {k : State → Flow State} (hx : x.Reads s) (hk : ∀ a, (k a).Reads a) :
    (x.andThen k).Reads s :=
  Flow.Ends.andThen hx fun a ha => (hk a).mono (fun _ => ha.trans) fun _ _ he => ⟨he.1, ha.trans he.2⟩

theorem readBoot_ends (s : State) : (readBoot s).Ends (fun t => ∃ e, t = bootItem e s) fun _ _ => False :=
  Flow.Ends.access fun e => ⟨e, rfl⟩

theorem dvalidateOp_ends (s : State) :
    (dvalidateOp s).Ends (fun t => ∃ u e, DvalidateReads s u ∧ t = bootItem e u)
      fun e t => e ∈ dvalidateErrs ∧ DvalidateReads s t :=
  (((lengthTests_reads s).andThen readCount_reads).andThen readHeader_reads).seq (fun _ _ h => h) fun a ha =>
    (readBoot_ends a).mono (fun _ ⟨e, he⟩ => ⟨a, e, ha, he⟩) fun _ _ h => h.elim

/-- A step of the walk raises `PositionOutOfTree` alone (R257). -/
abbrev Flow.RaisesOutOfTree (x : Flow State) : Prop := x.Ends (fun _ => True) fun e _ => e = .positionOutOfTree

theorem stepBit_raisesOutOfTree (s : State) : (stepBit s).RaisesOutOfTree := by
  obtain ⟨-, hrun⟩ | ⟨-, hrun⟩ := advance_cases s
  · rw [stepBit, hrun, Flow.andThen_raise]
    exact rfl
  · rw [stepBit, hrun, Flow.andThen_ok]
    refine Flow.Ends.access fun e => ?_
    split
    · exact Flow.Ends.access fun _ => trivial
    · trivial

theorem readGroup_raisesOutOfTree (s : State) : (readGroup s).RaisesOutOfTree := by
  refine Flow.Ends.access fun bytes => ?_
  split <;> trivial

theorem walkBits_raisesOutOfTree (count : Nat) (s : State) : (walkBits count s).RaisesOutOfTree := by
  induction count generalizing s with
  | zero => trivial
  | succ count ih =>
    rw [walkBits]
    split
    · trivial
    · exact (stepBit_raisesOutOfTree s).andThen fun a _ => ih a

theorem walkGroups_raisesOutOfTree (count : Nat) (s : State) : (walkGroups count s).RaisesOutOfTree := by
  induction count generalizing s with
  | zero => trivial
  | succ count ih =>
    rw [walkGroups]
    split
    · exact ((readGroup_raisesOutOfTree s).andThen fun a _ => walkBits_raisesOutOfTree 32 a).andThen fun a _ => ih a
    · trivial

/-- The two ends of a walk that keeps all but its own registers. -/
theorem Flow.Keeps.walkEnds {s : State} {x : Flow State} (hkeeps : x.Keeps (WalkKeeps s)) (hraises : x.RaisesOutOfTree) :
    x.Ends (WalkKeeps s) fun e t => e = .positionOutOfTree ∧ WalkKeeps s t := by
  cases x with
  | ok a => exact hkeeps
  | raise e a => exact ⟨hraises, hkeeps⟩
  | stop f => trivial

theorem dwalkOp_ends (s : State) :
    (dwalkOp s).Ends (fun t => ∃ u, WalkKeeps (walkStart s) u ∧ t = finishWalk u)
      fun e t => e = .positionOutOfTree ∧ WalkKeeps (walkStart s) t :=
  ((walkGroups_walkKeeps s.ng.toNat (walkStart s)).walkEnds (walkGroups_raisesOutOfTree _ _)).andThen
    fun u hu => ⟨u, hu, rfl⟩

end Sys2Proof.Machine
end

section
/-! What instructions and steps leave unchanged (10_state.md R21, R31 to R41, 20_memory.md R60, R63, 70_reset_and_hazards.md
R336): O55, O56 and O57. -/

namespace Sys2Proof.Machine

open Sys2Proof.Safety

/-! ### Views that a run keeps -/

/-- A run that leaves a view of the state as it was, whether it goes through or raises. -/
abbrev Flow.KeepsView {β : Type} (view : State → β) (s : State) (x : Flow State) : Prop := x.Keeps fun t => view t = view s

theorem Flow.KeepsView.andThen {β : Type} {view : State → β} {s : State} {x : Flow State} {k : State → Flow State}
    (hx : x.KeepsView view s) (hk : ∀ a, (k a).KeepsView view a) : (x.andThen k).KeepsView view s :=
  Flow.Keeps.andThen hx (fun _ h => h) fun a ha => (hk a).mono fun _ h => h.trans ha

theorem Flow.KeepsView.finish {β : Type} {view : State → β} {s t : State} {x : Flow State} (hx : x.KeepsView view s)
    (hfault : ∀ e u, view (takeFault e u) = view u) (h : x.finish = .next t) : view t = view s :=
  Flow.Keeps.finish hx (fun e u hu => (hfault e u).trans hu) h

/-! ### The host's side of the state (O56) -/

/-- What no instruction writes: `IN`, the source registers, the parameters, and the host's own fields. -/
def hostSide (s : State) : Memory × Word × Word × Config.Params × List HostAction × List Word × Nat :=
  (s.inMem, s.srcOff, s.srcLen, s.cfg, s.script, s.reads, s.free)

theorem hostSide_takeFault (e : Err) (s : State) : hostSide (takeFault e s) = hostSide s := rfl
theorem hostSide_startCommand (op : Op) (s : State) : hostSide (startCommand op s) = hostSide s := rfl

theorem DvalidateReads.hostSide {s t : State} (h : DvalidateReads s t) : hostSide t = hostSide s := by
  rw [h]
  rfl

theorem WalkKeeps.hostSide {s t : State} (h : WalkKeeps s t) : hostSide t = hostSide s := by
  rw [h]
  rfl

/-- Every micro-operation keeps the host's side. -/
theorem microOp_keepsHostSide (p : Phase) (s : State) : (microOp p s).KeepsView hostSide s := by
  cases p with
  | none => exact (enterSequence_ends s).keeps (fun _ ⟨h, _⟩ => h ▸ rfl) fun _ _ ⟨_, h⟩ => h ▸ rfl
  | freq => exact (freqOp_ends s).keeps (fun _ ⟨_, h⟩ => h ▸ rfl) fun _ _ ⟨_, h⟩ => h ▸ rfl
  | merge => exact (mergeOp_ends s).keeps (fun _ ⟨_, _, _, _, _, _, h⟩ => h ▸ rfl) fun _ _ h => h.elim
  | place => exact (placeOp_ends s).keeps (fun _ ⟨_, h⟩ => h ▸ rfl) fun _ _ ⟨_, _, h⟩ => h ▸ rfl
  | serialize => exact (serializeOp_ends s).keeps (fun _ ⟨_, h⟩ => h ▸ rfl) fun _ _ ⟨_, _, h⟩ => h ▸ rfl
  | codebuild => exact (codebuildOp_ends s).keeps (fun _ ⟨_, h⟩ => h ▸ rfl) fun _ _ ⟨_, _, h⟩ => h ▸ rfl
  | hdrwrite =>
    refine (hdrwriteOp_ends s).keeps ?_ ?_
    · rintro _ ⟨_, -, rfl⟩
      rfl
    · rintro _ _ ⟨-, rfl⟩
      simp only [hostSide]
  | pack => exact (packOp_ends s).keeps (fun _ ⟨_, _, _, _, h⟩ => h ▸ rfl) fun _ _ h => h.elim
  | dvalidate =>
    exact (dvalidateOp_ends s).keeps (fun _ ⟨_, _, hu, h⟩ => h ▸ hu.hostSide) fun _ _ ⟨_, hu⟩ => hu.hostSide
  | dwalk =>
    exact (dwalkOp_ends s).keeps (fun _ ⟨_, hu, h⟩ => h ▸ hu.hostSide) fun _ _ ⟨_, hu⟩ => hu.hostSide

/-- The commands as their micro-operations by phase (R132, R133, R137). -/
theorem encodeFlow_eq_microOps (s : State) : encodeFlow s =
    (((((((microOp .none s).andThen (microOp .freq)).andThen (microOp .merge)).andThen (microOp .place)).andThen
      (microOp .serialize)).andThen (microOp .codebuild)).andThen (microOp .hdrwrite)).andThen (microOp .pack) := rfl

theorem decodeFlow_eq_microOps (s : State) :
    decodeFlow s = ((microOp .none s).andThen (microOp .dvalidate)).andThen (microOp .dwalk) := rfl

theorem encodeFlow_keepsHostSide (s : State) : (encodeFlow s).KeepsView hostSide s := by
  rw [encodeFlow_eq_microOps]
  refine Flow.KeepsView.andThen ?_ (microOp_keepsHostSide .pack)
  refine Flow.KeepsView.andThen ?_ (microOp_keepsHostSide .hdrwrite)
  refine Flow.KeepsView.andThen ?_ (microOp_keepsHostSide .codebuild)
  refine Flow.KeepsView.andThen ?_ (microOp_keepsHostSide .serialize)
  refine Flow.KeepsView.andThen ?_ (microOp_keepsHostSide .place)
  refine Flow.KeepsView.andThen ?_ (microOp_keepsHostSide .merge)
  exact (microOp_keepsHostSide .none s).andThen (microOp_keepsHostSide .freq)

theorem decodeFlow_keepsHostSide (s : State) : (decodeFlow s).KeepsView hostSide s := by
  rw [decodeFlow_eq_microOps]
  exact ((microOp_keepsHostSide .none s).andThen (microOp_keepsHostSide .dvalidate)).andThen (microOp_keepsHostSide .dwalk)

/-- What a `CMD` write runs keeps the host's side, also while `BUSY`, when it does nothing (R327). -/
theorem exec_encode_hostSide {s t : State} (h : exec .encodeCmd s = .next t) : hostSide t = hostSide s := by
  by_cases hbusy : s.status.state = .busy
  · rw [execEncode_of_busy hbusy] at h
    rw [Host.Outcome.next.inj h]
  · rw [execEncode_of_idle hbusy] at h
    exact ((encodeFlow_keepsHostSide _).finish hostSide_takeFault h).trans (hostSide_startCommand .encode s)

theorem exec_decode_hostSide {s t : State} (h : exec .decodeCmd s = .next t) : hostSide t = hostSide s := by
  by_cases hbusy : s.status.state = .busy
  · rw [execDecode_of_busy hbusy] at h
    rw [Host.Outcome.next.inj h]
  · rw [execDecode_of_idle hbusy] at h
    exact ((decodeFlow_keepsHostSide _).finish hostSide_takeFault h).trans (hostSide_startCommand .decode s)

theorem countItem_keepsHostSide (b : Byte) (s : State) : (countItem b s).KeepsView hostSide s :=
  (countItem_reads b s).keeps (fun _ h => h.hostSide) fun _ _ ⟨_, h⟩ => h.hostSide

theorem headerItem_keepsHostSide (tag : Byte) (len : BitVec 24) (s : State) :
    (headerItem tag len s).KeepsView hostSide s :=
  (headerItem_reads tag len s).keeps (fun _ h => h.hostSide) fun _ _ ⟨_, h⟩ => h.hostSide

theorem leafItem_keepsHostSide (v : Byte) (s : State) : (leafItem v s).KeepsView hostSide s :=
  (leafItem_walkKeeps v s).mono fun _ h => h.hostSide

theorem exec_ref_hostSide {f1 f2 : Bool} {skip : BitVec 6} {s t : State} (h : exec (.ref f1 f2 skip) s = .next t) :
    hostSide t = hostSide s := by
  obtain hexec | hexec := exec_ref_cases f1 f2 skip s
  · rw [← Host.Outcome.next.inj (hexec.symm.trans h)]
    rfl
  · rw [← Host.Outcome.next.inj (hexec.symm.trans h)]
    rfl

/-- No instruction writes the host's side. -/
theorem exec_hostSide {i : Instr} {s t : State} (h : exec i s = .next t) : hostSide t = hostSide s := by
  cases i with
  | encodeCmd => exact exec_encode_hostSide h
  | decodeCmd => exact exec_decode_hostSide h
  | freq => exact (microOp_keepsHostSide .freq s).finish hostSide_takeFault h
  | merge => exact (microOp_keepsHostSide .merge s).finish hostSide_takeFault h
  | place => exact (microOp_keepsHostSide .place s).finish hostSide_takeFault h
  | serialize => exact (microOp_keepsHostSide .serialize s).finish hostSide_takeFault h
  | codebuild => exact (microOp_keepsHostSide .codebuild s).finish hostSide_takeFault h
  | hdrwrite => exact (microOp_keepsHostSide .hdrwrite s).finish hostSide_takeFault h
  | pack => exact (microOp_keepsHostSide .pack s).finish hostSide_takeFault h
  | dvalidate => exact (microOp_keepsHostSide .dvalidate s).finish hostSide_takeFault h
  | dwalk => exact (microOp_keepsHostSide .dwalk s).finish hostSide_takeFault h
  | hdr tag len => exact (headerItem_keepsHostSide tag len s).finish hostSide_takeFault h
  | count nminus1 => exact (countItem_keepsHostSide nminus1 s).finish hostSide_takeFault h
  | ref f1 f2 skip => exact exec_ref_hostSide h
  | leaf value => exact (leafItem_keepsHostSide value s).finish hostSide_takeFault h
  | group bits =>
    rw [← Host.Outcome.next.inj h]
    rfl

/-- Settles O56: the fields stated are the host's side, which every instruction keeps (`exec_hostSide`). -/
theorem instructionsKeepInputAndHostState : Obligations.InstructionsKeepInputAndHostState := by
  intro i s t h
  have hside := exec_hostSide h
  simp only [hostSide, Prod.mk.injEq] at hside
  obtain ⟨hin, hoff, hlen, hcfg, hscript, hreads, hfree⟩ := hside
  exact ⟨fun a => by rw [hin], hoff, hlen, hcfg, hscript, hreads, hfree⟩

/-! ### The registers of the encoder and of the decoder (O57) -/

/-- The registers of the decoder and the operands a command sampled (R31, R32). -/
def decoderSide (s : State) :=
  ((s.cnt, s.explen, s.boot, s.cur, s.pos, s.outcnt, s.pay), (s.ng, s.g, s.w, s.k), s.op, s.off, s.len, s.expLen)

/-- The registers and tables of the encoder and the operands a command sampled (R31, R33 to R39). -/
def encoderSide (s : State) :=
  ((s.freq, s.ws, s.stem, s.rank, s.hasRank, s.sz, s.fr, s.table, s.code), (s.seq, s.ns, s.n, s.root, s.t),
    (s.acc, s.rem, s.opos, s.tbits), s.op, s.off, s.len)

/-- The frame of a micro-operation of `ENCODE`: the decoder's registers, and each table but the one the micro-operation is
named for. -/
structure EncoderFrame (i : Instr) (s t : State) : Prop where
  decoder : decoderSide t = decoderSide s
  freq : i ≠ .freq → t.freq = s.freq
  tree : i ≠ .merge → t.stem = s.stem ∧ t.n = s.n ∧ t.root = s.root ∧ t.ws = s.ws
  ranks : i ≠ .place → t.rank = s.rank ∧ t.hasRank = s.hasRank ∧ t.sz = s.sz ∧ t.fr = s.fr
  table : i ≠ .serialize → t.table = s.table
  code : i ≠ .codebuild → t.code = s.code

/-- The micro-operations of `ENCODE`. -/
abbrev encoderInstrs : List Instr := [.freq, .merge, .place, .serialize, .codebuild, .hdrwrite, .pack]

theorem exec_encoderFrame {i : Instr} {s t : State} (hi : i ∈ encoderInstrs) (h : exec i s = .next t) :
    EncoderFrame i s t := by
  simp only [encoderInstrs, List.mem_cons, List.not_mem_nil, or_false] at hi
  obtain rfl | rfl | rfl | rfl | rfl | rfl | rfl := hi
  · obtain ⟨_, rfl⟩ | ⟨_, _, ⟨-, rfl⟩, rfl⟩ := (freqOp_ends s).finish h
    · exact ⟨rfl, fun hne => absurd rfl hne, fun _ => ⟨rfl, rfl, rfl, rfl⟩, fun _ => ⟨rfl, rfl, rfl, rfl⟩, fun _ => rfl,
        fun _ => rfl⟩
    · exact ⟨rfl, fun _ => rfl, fun _ => ⟨rfl, rfl, rfl, rfl⟩, fun _ => ⟨rfl, rfl, rfl, rfl⟩, fun _ => rfl, fun _ => rfl⟩
  · obtain ⟨_, _, _, _, _, _, rfl⟩ | ⟨_, _, hfalse, -⟩ := (mergeOp_ends s).finish h
    · exact ⟨rfl, fun _ => rfl, fun hne => absurd rfl hne, fun _ => ⟨rfl, rfl, rfl, rfl⟩, fun _ => rfl, fun _ => rfl⟩
    · exact hfalse.elim
  · obtain ⟨_, rfl⟩ | ⟨_, _, ⟨-, _, rfl⟩, rfl⟩ := (placeOp_ends s).finish h
    · exact ⟨rfl, fun _ => rfl, fun _ => ⟨rfl, rfl, rfl, rfl⟩, fun hne => absurd rfl hne, fun _ => rfl, fun _ => rfl⟩
    · exact ⟨rfl, fun _ => rfl, fun _ => ⟨rfl, rfl, rfl, rfl⟩, fun hne => absurd rfl hne, fun _ => rfl, fun _ => rfl⟩
  · obtain ⟨_, rfl⟩ | ⟨_, _, ⟨-, _, rfl⟩, rfl⟩ := (serializeOp_ends s).finish h
    · exact ⟨rfl, fun _ => rfl, fun _ => ⟨rfl, rfl, rfl, rfl⟩, fun _ => ⟨rfl, rfl, rfl, rfl⟩, fun hne => absurd rfl hne,
        fun _ => rfl⟩
    · exact ⟨rfl, fun _ => rfl, fun _ => ⟨rfl, rfl, rfl, rfl⟩, fun _ => ⟨rfl, rfl, rfl, rfl⟩, fun hne => absurd rfl hne,
        fun _ => rfl⟩
  · obtain ⟨_, rfl⟩ | ⟨_, _, ⟨-, _, rfl⟩, rfl⟩ := (codebuildOp_ends s).finish h
    · exact ⟨rfl, fun _ => rfl, fun _ => ⟨rfl, rfl, rfl, rfl⟩, fun _ => ⟨rfl, rfl, rfl, rfl⟩, fun _ => rfl,
        fun hne => absurd rfl hne⟩
    · exact ⟨rfl, fun _ => rfl, fun _ => ⟨rfl, rfl, rfl, rfl⟩, fun _ => ⟨rfl, rfl, rfl, rfl⟩, fun _ => rfl,
        fun hne => absurd rfl hne⟩
  · obtain ⟨_, -, rfl⟩ | ⟨_, _, ⟨-, rfl⟩, rfl⟩ := (hdrwriteOp_ends s).finish h
    · exact ⟨rfl, fun _ => rfl, fun _ => ⟨rfl, rfl, rfl, rfl⟩, fun _ => ⟨rfl, rfl, rfl, rfl⟩, fun _ => rfl, fun _ => rfl⟩
    · exact ⟨rfl, fun _ => rfl, fun _ => ⟨rfl, rfl, rfl, rfl⟩, fun _ => ⟨rfl, rfl, rfl, rfl⟩, fun _ => rfl, fun _ => rfl⟩
  · obtain ⟨_, _, _, _, rfl⟩ | ⟨_, _, hfalse, -⟩ := (packOp_ends s).finish h
    · exact ⟨rfl, fun _ => rfl, fun _ => ⟨rfl, rfl, rfl, rfl⟩, fun _ => ⟨rfl, rfl, rfl, rfl⟩, fun _ => rfl, fun _ => rfl⟩
    · exact hfalse.elim

theorem DvalidateReads.encoderSide {s t : State} (h : DvalidateReads s t) : encoderSide t = encoderSide s := by
  rw [h]
  rfl

theorem WalkKeeps.encoderSide {s t : State} (h : WalkKeeps s t) : encoderSide t = encoderSide s := by
  rw [h]
  rfl

theorem encoderSide_takeFault (e : Err) (s : State) : encoderSide (takeFault e s) = encoderSide s := rfl

/-- The micro-operations and items of `DECODE` write no register or table of the encoder. -/
theorem exec_encoderSide {i : Instr} {s t : State} (hcmd : i.format ≠ .cmd) (hi : i ∉ encoderInstrs)
    (h : exec i s = .next t) : encoderSide t = encoderSide s := by
  cases i with
  | encodeCmd | decodeCmd => exact absurd rfl hcmd
  | freq | merge | place | serialize | codebuild | hdrwrite | pack => exact absurd (by decide) hi
  | dvalidate =>
    obtain ⟨_, _, hu, rfl⟩ | ⟨_, _, ⟨-, hu⟩, rfl⟩ := (dvalidateOp_ends s).finish h
    · exact hu.encoderSide
    · exact hu.encoderSide
  | dwalk =>
    obtain ⟨_, hu, rfl⟩ | ⟨_, _, ⟨-, hu⟩, rfl⟩ := (dwalkOp_ends s).finish h
    · exact hu.encoderSide
    · exact hu.encoderSide
  | hdr tag len =>
    exact ((headerItem_reads tag len s).keeps (fun _ h => h.encoderSide) fun _ _ ⟨_, h⟩ => h.encoderSide).finish
      (fun e u hu => (encoderSide_takeFault e u).trans hu) h
  | count nminus1 =>
    exact ((countItem_reads nminus1 s).keeps (fun _ h => h.encoderSide) fun _ _ ⟨_, h⟩ => h.encoderSide).finish
      (fun e u hu => (encoderSide_takeFault e u).trans hu) h
  | ref f1 f2 skip =>
    obtain hexec | hexec := exec_ref_cases f1 f2 skip s
    · rw [← Host.Outcome.next.inj (hexec.symm.trans h)]
      rfl
    · rw [← Host.Outcome.next.inj (hexec.symm.trans h)]
      rfl
  | leaf value =>
    exact ((leafItem_walkKeeps value s).mono fun _ h => h.encoderSide).finish
      (fun e u hu => (encoderSide_takeFault e u).trans hu) h
  | group bits =>
    rw [← Host.Outcome.next.inj h]
    rfl

theorem DvalidateReads.outMem {s t : State} (h : DvalidateReads s t) : t.outMem = s.outMem := by rw [h]

/-- `OUT` after the instructions that store nothing: `HDRWRITE`, `PACK`, `DWALK` and a literal are left out (R63). -/
theorem exec_outMem {i : Instr} {s t : State} (hcmd : i.format ≠ .cmd)
    (hi : i ∉ [Instr.hdrwrite, .pack, .dwalk]) (hleaf : i.format ≠ .leaf) (h : exec i s = .next t) :
    t.outMem = s.outMem := by
  cases i with
  | encodeCmd | decodeCmd => exact absurd rfl hcmd
  | hdrwrite | pack | dwalk => exact absurd (by decide) hi
  | leaf value => exact absurd rfl hleaf
  | freq =>
    obtain ⟨_, rfl⟩ | ⟨_, _, ⟨-, rfl⟩, rfl⟩ := (freqOp_ends s).finish h
    · rfl
    · rfl
  | merge =>
    obtain ⟨_, _, _, _, _, _, rfl⟩ | ⟨_, _, hfalse, -⟩ := (mergeOp_ends s).finish h
    · rfl
    · exact hfalse.elim
  | place =>
    obtain ⟨_, rfl⟩ | ⟨_, _, ⟨-, _, rfl⟩, rfl⟩ := (placeOp_ends s).finish h
    · rfl
    · rfl
  | serialize =>
    obtain ⟨_, rfl⟩ | ⟨_, _, ⟨-, _, rfl⟩, rfl⟩ := (serializeOp_ends s).finish h
    · rfl
    · rfl
  | codebuild =>
    obtain ⟨_, rfl⟩ | ⟨_, _, ⟨-, _, rfl⟩, rfl⟩ := (codebuildOp_ends s).finish h
    · rfl
    · rfl
  | dvalidate =>
    obtain ⟨_, _, hu, rfl⟩ | ⟨_, _, ⟨-, hu⟩, rfl⟩ := (dvalidateOp_ends s).finish h
    · exact hu.outMem
    · exact hu.outMem
  | hdr tag len =>
    obtain hu | ⟨_, _, ⟨-, hu⟩, rfl⟩ := (headerItem_reads tag len s).finish h
    · exact hu.outMem
    · exact hu.outMem
  | count nminus1 =>
    obtain hu | ⟨_, _, ⟨-, hu⟩, rfl⟩ := (countItem_reads nminus1 s).finish h
    · exact hu.outMem
    · exact hu.outMem
  | ref f1 f2 skip =>
    obtain hexec | hexec := exec_ref_cases f1 f2 skip s
    · rw [← Host.Outcome.next.inj (hexec.symm.trans h)]
      rfl
    · rw [← Host.Outcome.next.inj (hexec.symm.trans h)]
      rfl
  | group bits =>
    rw [← Host.Outcome.next.inj h]
    rfl

/-- The instructions O57 says leave `OUT` alone are among those of `exec_outMem`. -/
theorem stores_nothing {i : Instr} (hi : i ∈ [Instr.freq, .merge, .place, .serialize, .codebuild, .dvalidate] ∨
    i.format ∈ [Format.hdr, .count, .ref, .group]) :
    i.format ≠ .cmd ∧ i ∉ [Instr.hdrwrite, .pack, .dwalk] ∧ i.format ≠ .leaf := by
  cases i <;> simp_all [Instr.format]

/-- Settles O57: the frames of the encoder's micro-operations (`exec_encoderFrame`), of the decoder's micro-operations and
items (`exec_encoderSide`), and of `OUT` (`exec_outMem`). -/
theorem microOperationFrames : Obligations.MicroOperationFrames := by
  intro i s t h
  refine ⟨fun hi => ?_, fun hcmd hi => ?_, fun hi a => ?_⟩
  · obtain ⟨hdecoder, hfreq, htree, hranks, htable, hcode⟩ := exec_encoderFrame hi h
    simp only [decoderSide, Prod.mk.injEq] at hdecoder
    obtain ⟨⟨hcnt, hexplen, hboot, hcur, hpos, houtcnt, hpay⟩, ⟨hng, hg, hw, hk⟩, hop, hoff, hlen, hexpLen⟩ := hdecoder
    exact ⟨hcnt, hexplen, hboot, hcur, hpos, houtcnt, hpay, hng, hg, hw, hk, hop, hoff, hlen, hexpLen, hfreq, htree,
      hranks, htable, hcode⟩
  · have hside := exec_encoderSide (fun hformat => hcmd (List.mem_singleton.2 hformat)) hi h
    simp only [encoderSide, Prod.mk.injEq] at hside
    obtain ⟨⟨hfreq, hws, hstem, hrank, hhasRank, hsz, hfr, htable, hcode⟩, ⟨hseq, hns, hn, hroot, ht⟩,
      ⟨hacc, hrem, hopos, htbits⟩, hop, hoff, hlen⟩ := hside
    exact ⟨hfreq, hws, hstem, hrank, hhasRank, hsz, hfr, htable, hcode, hseq, hns, hn, hroot, ht, hacc, hrem, hopos,
      htbits, hop, hoff, hlen⟩
  · obtain ⟨hcmd, hstore, hleaf⟩ := stores_nothing hi
    rw [exec_outMem hcmd hstore hleaf h]

end Sys2Proof.Machine
end

section
/-! What a step can do (10_state.md R21, R42, 40_commands.md R141, 70_reset_and_hazards.md R320 to R329), said once, and O55. -/

namespace Sys2Proof.Machine

open Sys2Proof.Safety

/-! ### Items of DECODE (R141, R251, R256) -/

/-- The ends of an item of `DVALIDATE`. -/
theorem dvalidateItem_ends (s : State) :
    (dvalidateItem s).Ends (fun t => DvalidateReads s t ∨ ∃ e, t = bootItem e s)
      fun e t => e ∈ dvalidateErrs ∧ DvalidateReads s t := by
  unfold dvalidateItem
  split
  · exact (readCount_reads s).mono (fun _ => .inl) fun _ _ h => h
  · exact (readHeader_reads s).mono (fun _ => .inl) fun _ _ h => h
  · exact (readBoot_ends s).mono (fun _ => .inr) fun _ _ h => h.elim
  · exact (lengthTests_reads s).mono (fun _ => .inl) fun _ _ h => h

/-- The ends of an item of `DWALK`. -/
theorem dwalkItem_ends (s : State) :
    (dwalkItem s).Ends (fun t => WalkKeeps s t ∨ t = walkStart s ∨ t = finishWalk s)
      fun e t => e = .positionOutOfTree ∧ WalkKeeps s t := by
  have hfinish : (Flow.ok (finishWalk s)).Ends (fun t => WalkKeeps s t ∨ t = walkStart s ∨ t = finishWalk s)
      fun e t => e = .positionOutOfTree ∧ WalkKeeps s t := .inr (.inr rfl)
  unfold dwalkItem walkItem
  split
  · split
    · split
      · exact ((stepBit_walkKeeps s).walkEnds (stepBit_raisesOutOfTree s)).mono (fun _ => .inl) fun _ _ h => h
      · split
        · exact ((readGroup_walkKeeps s).walkEnds (readGroup_raisesOutOfTree s)).mono (fun _ => .inl) fun _ _ h => h
        · exact hfinish
    · exact hfinish
  · exact .inr (.inl rfl)

theorem itemOp_keepsHostSide (s : State) : (itemOp s).KeepsView hostSide s := by
  by_cases hdvalidate : s.status.phase = .dvalidate
  · rw [itemOp_of_dvalidate hdvalidate]
    refine (dvalidateItem_ends s).keeps ?_ fun _ _ ⟨_, h⟩ => h.hostSide
    rintro _ (h | ⟨_, rfl⟩)
    · exact h.hostSide
    · rfl
  by_cases hdwalk : s.status.phase = .dwalk
  · rw [itemOp_of_dwalk hdwalk]
    refine (dwalkItem_ends s).keeps ?_ fun _ _ ⟨_, h⟩ => h.hostSide
    rintro _ (h | rfl | rfl)
    · exact h.hostSide
    · rfl
    · rfl
  · rw [itemOp_eq_microOp hdvalidate hdwalk]
    exact microOp_keepsHostSide _ s

theorem sequencerOp_keepsHostSide (s : State) : (sequencerOp s).KeepsView hostSide s := by
  unfold sequencerOp
  split
  · exact itemOp_keepsHostSide s
  · exact microOp_keepsHostSide _ s

/-! ### The moves of a step -/

/-- The instruction of a command. -/
def commandInstr : Op → Instr
  | .encode => .encodeCmd
  | .decode => .decodeCmd

/-- A run of a command from a state that is not `BUSY` is the end of its flow. -/
def commandFlow : Op → State → Flow State
  | .encode => encodeFlow
  | .decode => decodeFlow

/-- What one step can do to the state `s` it finds when the host's action, if there is one, is off the script. -/
inductive Moves (s : State) : State → Prop
  | same : Moves s s
  | writeReg (number : Nat) (v : Word) : Moves s (writeReg number v s)
  | hostReads (v : Word) : Moves s (hostReads v s)
  | writeIn {a : Nat} (v : Byte) (ha : a < s.cfg.inSize) : Moves s { s with inMem := Memory.write s.inMem a v }
  | writeOut {a : Nat} (v : Byte) (ha : outHas s.cfg a = true) : Moves s { s with outMem := Memory.write s.outMem a v }
  | start (op : Op) (hidle : s.status.state ≠ .busy) : Moves s (startCommand op s)
  | command {t : State} (op : Op) (hidle : s.status.state ≠ .busy)
      (hrun : (commandFlow op (startCommand op s)).finish = .next t) : Moves s t
  | reset : Moves s (resetBlock s)
  | sequencer {t : State} (hbusy : s.status.state = .busy) (hrun : (sequencerOp s).finish = .next t) : Moves s t

theorem ne_busy_of_busy_ne_true {s : State} (h : ¬ s.busy = true) : s.status.state ≠ .busy :=
  fun hbusy => h (busy_eq_true hbusy)

theorem busy_of_busy_eq_true {s : State} (h : s.busy = true) : s.status.state = .busy := of_decide_eq_true h

theorem moves_of_settled_ok {s t u : State} (h : (Fetched.settled (.ok u)).outcome = .next t) (hu : Moves s u) :
    Moves s t := by
  cases h
  exact hu

theorem moves_of_sequencer {s t : State} (hbusy : s.busy = true) (h : (fetchSequencer s).outcome = .next t) : Moves s t :=
  .sequencer (busy_of_busy_eq_true hbusy) ((fetchSequencer_outcome s).symm.trans h)

theorem moves_of_hostAccess {s t next : State} {found : Bool} {missing : Fault}
    (h : (hostAccess s found missing next).outcome = .next t) (hnext : found = true → Moves s next) : Moves s t := by
  unfold hostAccess at h
  split at h
  · cases h
  · split at h
    · next hfound => exact moves_of_settled_ok h (hnext hfound)
    · cases h

/-- The `CMD` write of a whole command. -/
theorem exec_decodeCommand_of_idle {s : State} (hidle : s.status.state ≠ .busy) (v : Word) :
    exec (decodeCommand v) s =
      (commandFlow (commandOp v) (startCommand (commandOp v) s)).finish := by
  unfold decodeCommand commandOp
  split
  · exact execDecode_of_idle hidle
  · exact execEncode_of_idle hidle

theorem moves_of_fetchCommand {s t : State} {v : Word} (h : (fetchCommand v s).outcome = .next t) : Moves s t := by
  unfold fetchCommand at h
  split at h
  · exact moves_of_settled_ok h .same
  · next hbusy =>
    have hidle := ne_busy_of_busy_ne_true hbusy
    split at h
    · exact .command (commandOp v) hidle ((exec_decodeCommand_of_idle hidle v).symm.trans h)
    · exact moves_of_settled_ok h (.start _ hidle)

/-- A host action moves the state it finds, or, when it is a `wait` while `BUSY`, that state with the `wait` put back. -/
theorem moves_of_fetchHost {s t : State} {a : HostAction} (h : (fetchHost a s).outcome = .next t) :
    ∃ script, Moves { s with script := script } t := by
  cases a with
  | writeReg number v =>
    refine ⟨s.script, ?_⟩
    by_cases hcmd : number = 0
    · rw [fetchHost, if_pos hcmd] at h
      exact moves_of_fetchCommand h
    · rw [fetchHost, if_neg hcmd] at h
      exact moves_of_settled_ok h (.writeReg number v)
  | readReg number => exact ⟨s.script, moves_of_settled_ok h (.hostReads _)⟩
  | writeIn adr v => exact ⟨s.script, moves_of_hostAccess h fun ha => .writeIn v (of_decide_eq_true ha)⟩
  | readIn adr => exact ⟨s.script, moves_of_hostAccess h fun _ => .hostReads _⟩
  | writeOut adr v => exact ⟨s.script, moves_of_hostAccess h fun ha => .writeOut v ha⟩
  | readOut adr => exact ⟨s.script, moves_of_hostAccess h fun _ => .hostReads _⟩
  | pass =>
    refine ⟨s.script, ?_⟩
    rw [fetchHost] at h
    split at h
    · next hbusy => exact moves_of_sequencer hbusy h
    · exact moves_of_settled_ok h .same
  | wait =>
    rw [fetchHost] at h
    split at h
    · next hbusy => exact ⟨.wait :: s.script, moves_of_sequencer (s := { s with script := .wait :: s.script }) hbusy h⟩
    · exact ⟨s.script, moves_of_settled_ok h .same⟩
  | reset => exact ⟨s.script, moves_of_settled_ok h .reset⟩

/-- What one step can do: a move of the state with another script. -/
theorem moves_of_step {s t : State} (h : step s = .next t) : ∃ script, Moves { s with script := script } t := by
  rw [step_eq_outcome] at h
  cases hscript : s.script with
  | nil =>
    refine ⟨s.script, ?_⟩
    rw [fetch_of_script_nil hscript] at h
    split at h
    · next hbusy => exact moves_of_sequencer hbusy h
    · exact moves_of_settled_ok h .same
  | cons a rest =>
    rw [fetch_of_script hscript] at h
    exact moves_of_fetchHost (s := { s with script := rest }) h

/-! ### The parameters (R336) -/

theorem cfg_eq_of_hostSide_eq {s t : State} (h : hostSide t = hostSide s) : t.cfg = s.cfg :=
  congrArg (fun view => view.2.2.2.1) h

theorem commandFlow_keepsHostSide (op : Op) (s : State) : (commandFlow op s).KeepsView hostSide s := by
  cases op with
  | encode => exact encodeFlow_keepsHostSide s
  | decode => exact decodeFlow_keepsHostSide s

theorem writeReg_cfg (number : Nat) (v : Word) (s : State) : (writeReg number v s).cfg = s.cfg := by
  unfold writeReg
  split <;> rfl

theorem Moves.cfg {s t : State} (h : Moves s t) : t.cfg = s.cfg := by
  cases h with
  | same | hostReads | writeIn | writeOut | start | reset => rfl
  | writeReg number v => exact writeReg_cfg number v s
  | command op hidle hrun =>
    exact cfg_eq_of_hostSide_eq
      (((commandFlow_keepsHostSide op _).finish hostSide_takeFault hrun).trans (hostSide_startCommand op s))
  | sequencer hbusy hrun => exact cfg_eq_of_hostSide_eq ((sequencerOp_keepsHostSide s).finish hostSide_takeFault hrun)

/-- Settles O55: each move keeps the parameters (`Moves.cfg`). -/
theorem noStepChangesTheParameters : Obligations.NoStepChangesTheParameters := fun _ _ h =>
  have ⟨_, hmoves⟩ := moves_of_step h
  hmoves.cfg

end Sys2Proof.Machine
end

section
/-! The invariant (10_state.md R24 to R29, 20_memory.md R60, R61): O53 and O54. While a command runs, what the registers say of
each other is `Running`, by phase; every micro-operation and item takes it to that of the next phase or to the end. -/

namespace Sys2Proof.Machine

open Sys2Proof.Safety

/-- Settles O54. -/
theorem resetMeetsTheInvariant : Obligations.ResetMeetsTheInvariant := by
  refine ⟨by decide, ⟨Memory.wf_nil, Memory.wf_nil, by decide, by decide⟩, by decide⟩

/-! ### OUT in its space (R61) -/

/-- A memory in canonical form that lists only bytes of `OUT`. -/
abbrev MemoryHolds (cfg : Config.Params) (m : Memory) : Prop := Memory.wf m ∧ ∀ size ∈ cfg.outSize, Memory.below m size

theorem lt_of_outHas {cfg : Config.Params} {a size : Nat} (ha : outHas cfg a = true) (hsize : size ∈ cfg.outSize) :
    a < size := by
  rw [outHas, Option.mem_def.1 hsize] at ha
  exact of_decide_eq_true ha

theorem writeOutBytes_holds {cfg : Config.Params} {m m' : Memory} {a : Nat} {vs : List Byte} (hm : MemoryHolds cfg m)
    (h : writeOutBytes cfg m a vs = .ok m') : MemoryHolds cfg m' :=
  ⟨((writeOutBytes_spec h).2 hm.1).1,
    fun size hsize => writeOutBytes_below h (hm.2 size hsize) fun _ hx => lt_of_outHas hx hsize⟩

theorem flush_holds {cfg : Config.Params} {r r' : PackRegs} (hr : MemoryHolds cfg r.out) (h : flush cfg r = .ok r') :
    MemoryHolds cfg r'.out := by
  obtain ⟨-, -, -, hwrite⟩ := flush_eq_ok h
  exact writeOutBytes_holds hr hwrite

theorem packBit_holds {cfg : Config.Params} {b : Bool} {r r' : PackRegs} (hr : MemoryHolds cfg r.out)
    (h : packBit cfg b r = .ok r') : MemoryHolds cfg r'.out := by
  obtain ⟨r1, hfirst, hput⟩ := Flow.andThen_eq_ok.1 h
  cases hput
  split at hfirst
  · exact flush_holds (r' := r1) hr hfirst
  · cases hfirst
    exact hr

theorem packBits_holds {cfg : Config.Params} {bits : List Bool} {r r' : PackRegs} (hr : MemoryHolds cfg r.out)
    (h : packBits cfg bits r = .ok r') : MemoryHolds cfg r'.out := by
  induction bits generalizing r with
  | nil =>
    cases h
    exact hr
  | cons b bits ih =>
    obtain ⟨r1, hbit, hrest⟩ := Flow.andThen_eq_ok.1 h
    exact ih (packBit_holds hr hbit) hrest

theorem packOp_outHolds {s t : State} (hs : OutHolds s) (h : packOp s = .ok t) : OutHolds t := by
  obtain ⟨r, r', hbits, hflush, rfl⟩ := packOp_eq_ok h
  exact flush_holds (packBits_holds (r := packStart s) hs hbits) hflush

theorem DvalidateReads.outHolds {s t : State} (h : DvalidateReads s t) (hs : OutHolds s) : OutHolds t := by
  rw [h]
  exact hs

/-- Every micro-operation leaves `OUT` in its space, where it goes through and where it raises. -/
theorem microOp_outHolds (p : Phase) {s : State} (hs : OutHolds s) : (microOp p s).Keeps OutHolds := by
  cases p with
  | none => exact (enterSequence_ends s).keeps (fun _ ⟨h, _⟩ => h ▸ hs) fun _ _ ⟨_, h⟩ => h ▸ hs
  | freq => exact (freqOp_ends s).keeps (fun _ ⟨_, h⟩ => h ▸ hs) fun _ _ ⟨_, h⟩ => h ▸ hs
  | merge => exact (mergeOp_ends s).keeps (fun _ ⟨_, _, _, _, _, _, h⟩ => h ▸ hs) fun _ _ h => h.elim
  | place => exact (placeOp_ends s).keeps (fun _ ⟨_, h⟩ => h ▸ hs) fun _ _ ⟨_, _, h⟩ => h ▸ hs
  | serialize => exact (serializeOp_ends s).keeps (fun _ ⟨_, h⟩ => h ▸ hs) fun _ _ ⟨_, _, h⟩ => h ▸ hs
  | codebuild => exact (codebuildOp_ends s).keeps (fun _ ⟨_, h⟩ => h ▸ hs) fun _ _ ⟨_, _, h⟩ => h ▸ hs
  | hdrwrite =>
    refine (hdrwriteOp_ends s).keeps ?_ ?_
    · rintro _ ⟨m, hwrite, rfl⟩
      exact writeOutBytes_holds hs hwrite
    · rintro _ _ ⟨-, rfl⟩
      exact hs
  | pack => exact (Flow.ends_iff.2 ⟨fun _ => packOp_outHolds hs, fun e t h => packOp_ne_raise s t e h⟩ :
      (packOp s).Ends OutHolds fun _ _ => False).keeps (fun _ h => h) fun _ _ h => h.elim
  | dvalidate =>
    exact (dvalidateOp_ends s).keeps (fun _ ⟨_, _, hu, h⟩ => h ▸ hu.outHolds hs) fun _ _ ⟨_, hu⟩ => hu.outHolds hs
  | dwalk =>
    exact Flow.Keeps.andThen (walkGroups_outHolds s.ng.toNat (s := walkStart s) hs) (fun _ h => h) fun _ h => h

/-! ### A running command -/

/-- The status of a running command. -/
def busyStatus (op : Op) (p : Phase) : Status :=
  { state := .busy, phase := p, err := .none, trailing := false, short := false, lastop := op }

theorem eq_busyStatus {st : Status} (hstate : st.state = .busy) (herr : st.err = .none) (htrailing : st.trailing = false)
    (hshort : st.short = false) : st = busyStatus st.lastop st.phase := by
  obtain ⟨_, _, _, _, _, _⟩ := st
  subst hstate herr htrailing hshort
  rfl

/-- What is true of a state in which a command runs and stands at phase `p`. -/
structure Running (p : Phase) (s : State) : Prop where
  params : s.cfg.wf
  memories : MemoriesHold s
  status : s.status = busyStatus s.op p
  outLen : s.outLen = 0
  ofOp : phaseOf s.op p = true
  expLen_lt : s.expLen.toNat < 16777216
  expLen_encode : s.op = .encode → s.expLen = 0
  expLen_early : p ≠ .dwalk → s.expLen = 0

/-- The registers `Running` speaks of, and the parameters and `IN`. -/
def runView (s : State) := (s.cfg, s.inMem, s.status, s.outLen, s.expLen, s.op)

theorem outHolds_of_memoriesHold {s : State} (h : MemoriesHold s) : OutHolds s :=
  have ⟨_, hwf, _, hbelow⟩ := h
  ⟨hwf, hbelow⟩

theorem memoriesHold_of_eq {s t : State} (h : MemoriesHold s) (hcfg : t.cfg = s.cfg) (hin : t.inMem = s.inMem)
    (hout : OutHolds t) : MemoriesHold t := by
  obtain ⟨hinWf, -, hinBelow, -⟩ := h
  refine ⟨hin ▸ hinWf, hout.1, ?_, hout.2⟩
  rw [hin, hcfg]
  exact hinBelow

theorem Running.of_view {p : Phase} {s t : State} (h : Running p s) (hview : runView t = runView s) (hout : OutHolds t) :
    Running p t := by
  simp only [runView, Prod.mk.injEq] at hview
  obtain ⟨hcfg, hin, hstatus, hlen, hexp, hop⟩ := hview
  exact ⟨hcfg ▸ h.params, memoriesHold_of_eq h.memories hcfg hin hout, by rw [hstatus, hop, h.status],
    hlen.trans h.outLen, by rw [hop, h.ofOp], by rw [hexp]; exact h.expLen_lt,
    fun he => hexp.trans (h.expLen_encode (hop ▸ he)), fun hp => hexp.trans (h.expLen_early hp)⟩

theorem Running.outHolds {p : Phase} {s : State} (h : Running p s) : OutHolds s := outHolds_of_memoriesHold h.memories

/-- A running command that enters another phase of its own (R133, R137). -/
theorem Running.enterPhase {p q : Phase} {s : State} (h : Running p s) (hq : phaseOf s.op q = true) (hlate : p ≠ .dwalk) :
    Running q (enterPhase q s) :=
  ⟨h.params, h.memories, by rw [enterPhase_status, h.status]; rfl, h.outLen, hq, h.expLen_lt, h.expLen_encode,
    fun _ => h.expLen_early hlate⟩

/-- The invariant while a command runs. -/
theorem Running.invariant {p : Phase} {s : State} (h : Running p s) : Invariant s := by
  refine ⟨h.params, h.memories, ?_⟩
  have hop := h.ofOp
  have hexp := h.expLen_encode
  have hearly := h.expLen_early
  simp only [RegistersAgree, h.status, busyStatus]
  exact ⟨by decide, by simp, fun _ => ⟨h.outLen, trivial, trivial⟩, h.expLen_lt, fun _ => trivial, hop,
    fun he => ⟨trivial, trivial, hexp he⟩, fun _ => hearly, by simp⟩

/-- A state of the invariant that is `BUSY` runs a command at its phase. -/
theorem running_of_invariant {s : State} (h : Invariant s) (hbusy : s.status.state = .busy) : Running s.status.phase s := by
  obtain ⟨hparams, hmem, herr, -, hflags, hlt, hop, hof, hencode, hearly, -⟩ := h
  obtain ⟨hlen, htrailing, hshort⟩ := hflags (by rw [hbusy]; decide)
  have hnone : s.status.err = .none := herr.2 (by rw [hbusy]; decide)
  have hlast := hop hbusy
  refine ⟨hparams, hmem, ?_, hlen, by rw [hlast]; exact hof, hlt, fun he => (hencode (hlast ▸ he)).2.2,
    hearly (.inl hbusy)⟩
  rw [hlast]
  exact eq_busyStatus hbusy hnone htrailing hshort

/-- Taking a fault ends a running command in the invariant (R283). -/
theorem Running.takeFault {p : Phase} {s : State} (h : Running p s) {e : Err} (he : e ≠ .none) :
    Invariant (takeFault e s) := by
  refine ⟨h.params, h.memories, ?_⟩
  have hop := h.ofOp
  have hexp := h.expLen_encode
  have hearly := h.expLen_early
  simp only [RegistersAgree, takeFault_status, takeFault_outLen, takeFault_expLen, takeFault_op, h.status, busyStatus]
  refine ⟨by simp [he], by simp, fun _ => ⟨trivial, trivial, trivial⟩, h.expLen_lt, by simp, hop, fun h => ⟨trivial, trivial, hexp h⟩,
    fun _ => hearly, by simp⟩

/-- A running `ENCODE` that ends in `DONE` ends in the invariant (R140). -/
theorem Running.endCommand {p : Phase} {s : State} (h : Running p s) : Invariant (endCommand s) := by
  refine ⟨h.params, h.memories, ?_⟩
  have hexp := h.expLen_encode
  simp only [RegistersAgree, endCommand_status, endCommand_expLen, endCommand_op, h.status, busyStatus]
  refine ⟨by simp, by simp, by simp, h.expLen_lt, by simp, by cases s.op <;> rfl, fun h => ⟨trivial, trivial, hexp h⟩, by simp,
    by simp⟩

/-- A running `DECODE` that ends in `DONE` ends in the invariant (R140, R262). -/
theorem Running.finishWalk {p : Phase} {s : State} (h : Running p s) (hop : s.op = .decode) : Invariant (finishWalk s) := by
  refine ⟨h.params, h.memories, ?_⟩
  simp only [RegistersAgree, finishWalk_status, finishWalk_expLen, finishWalk_op, h.status, busyStatus, hop]
  refine ⟨by simp, by simp, by simp, h.expLen_lt, by simp, rfl, by simp, by simp, by simp⟩

/-! ### The micro-operations and items of a running command -/

theorem op_eq_encode {op : Op} {p : Phase} (h : phaseOf op p = true) (hp : phaseOf .decode p = false) : op = .encode := by
  cases op with
  | encode => rfl
  | decode => exact absurd (h.symm.trans hp) (by decide)

theorem op_eq_decode {op : Op} {p : Phase} (h : phaseOf op p = true) (hp : phaseOf .encode p = false) : op = .decode := by
  cases op with
  | encode => exact absurd (h.symm.trans hp) (by decide)
  | decode => rfl

theorem phaseOf_firstPhase (op : Op) : phaseOf op (firstPhase op) = true := by cases op <;> rfl

/-- Where a running command stands after the micro-operation of a phase (R132, R133, R137). -/
def AfterPhase : Phase → State → Prop
  | .none, t => Running (firstPhase t.op) t
  | .freq, t => Running .merge t
  | .merge, t => Running .place t
  | .place, t => Running .serialize t
  | .serialize, t => Running .codebuild t
  | .codebuild, t => Running .hdrwrite t
  | .hdrwrite, t => Running .pack t
  | .dvalidate, t => Running .dwalk t
  | .pack, t => Invariant t
  | .dwalk, t => Invariant t

/-- Where it stands when the micro-operation raises. -/
def RaisedRunning (p : Phase) (e : Err) (u : State) : Prop := e ≠ .none ∧ Running p u

/-- A micro-operation of `ENCODE` goes on to a phase of `ENCODE`. -/
theorem Running.enterEncoder {p q : Phase} {s t : State} (h : Running p s) (hp : phaseOf .decode p = false)
    (hq : phaseOf .encode q = true) (hview : runView t = runView s) (hout : OutHolds t) :
    Running q (Machine.enterPhase q t) := by
  have ht := h.of_view hview hout
  refine ht.enterPhase ?_ fun hwalk => ?_
  · rw [op_eq_encode ht.ofOp hp]
    exact hq
  · rw [hwalk] at hp
    cases hp

theorem DvalidateReads.runView {s t : State} (h : DvalidateReads s t) : runView t = runView s := by
  rw [h]
  rfl

theorem WalkKeeps.runView {s t : State} (h : WalkKeeps s t) : runView t = runView s := by
  rw [h]
  rfl

theorem ne_none_of_mem_dvalidateErrs {e : Err} (h : e ∈ dvalidateErrs) : e ≠ .none := by
  rintro rfl
  exact absurd h (by decide)

/-- The bootstrap entry takes a running `DECODE` to its walk, with a length of 24 bits (R29, R251). -/
theorem Running.bootItem {s : State} (h : Running .dvalidate s) (e : Byte) : Running .dwalk (bootItem e s) := by
  have hop : s.op = .decode := op_eq_decode h.ofOp rfl
  refine ⟨h.params, h.memories, by rw [bootItem_status, h.status]; rfl, h.outLen, by rw [bootItem_op, hop]; rfl, ?_,
    fun he => absurd (hop.symm.trans he) (by decide), fun hne => absurd rfl hne⟩
  rw [bootItem_expLen, BitVec.toNat_setWidth]
  exact (Nat.mod_le _ _).trans_lt s.explen.isLt

/-- The end of a walk is in the invariant. -/
theorem Running.finishWalk_invariant {s t : State} (h : Running .dwalk s) (hview : Machine.runView t = Machine.runView s)
    (hout : OutHolds t) : Invariant (Machine.finishWalk t) :=
  have ht := h.of_view hview hout
  ht.finishWalk (op_eq_decode ht.ofOp rfl)

/-- Both ends of a part of the walk, with `OUT` in its space. -/
theorem Flow.Keeps.walkEnds_outHolds {s : State} {x : Flow State} (hkeeps : x.Keeps (WalkKeeps s))
    (hraises : x.RaisesOutOfTree) (hout : x.Keeps OutHolds) :
    x.Ends (fun t => WalkKeeps s t ∧ OutHolds t) fun e t => e = .positionOutOfTree ∧ WalkKeeps s t ∧ OutHolds t := by
  cases x with
  | ok a => exact ⟨hkeeps, hout⟩
  | raise e a => exact ⟨hraises, hkeeps, hout⟩
  | stop f => trivial

theorem Running.raisedOutOfTree {s u : State} {e : Err} (h : Running .dwalk s)
    (hraise : e = .positionOutOfTree ∧ WalkKeeps s u ∧ OutHolds u) : RaisedRunning .dwalk e u := by
  obtain ⟨rfl, hkeeps, hout⟩ := hraise
  exact ⟨by decide, h.of_view hkeeps.runView hout⟩

/-- A micro-operation takes a running command from its phase to the next, or raises in it. -/
theorem microOp_running {p : Phase} {s : State} (h : Running p s) :
    (microOp p s).Ends (AfterPhase p) (RaisedRunning p) := by
  have hout := h.outHolds
  cases p with
  | none =>
    refine (enterSequence_ends s).mono ?_ ?_
    · rintro _ ⟨rfl, -⟩
      exact h.enterPhase (phaseOf_firstPhase s.op) (by decide)
    · rintro _ _ ⟨rfl, rfl⟩
      exact ⟨by decide, h⟩
  | freq =>
    refine (freqOp_ends s).mono ?_ ?_
    · rintro _ ⟨_, rfl⟩
      exact h.enterEncoder rfl rfl rfl hout
    · rintro _ _ ⟨rfl, rfl⟩
      exact ⟨by decide, h⟩
  | merge =>
    refine (mergeOp_ends s).mono ?_ fun _ _ hfalse => hfalse.elim
    rintro _ ⟨_, _, _, _, _, _, rfl⟩
    exact h.enterEncoder rfl rfl rfl hout
  | place =>
    refine (placeOp_ends s).mono ?_ ?_
    · rintro _ ⟨_, rfl⟩
      exact h.enterEncoder rfl rfl rfl hout
    · rintro _ _ ⟨rfl, _, rfl⟩
      exact ⟨by decide, h.of_view rfl hout⟩
  | serialize =>
    refine (serializeOp_ends s).mono ?_ ?_
    · rintro _ ⟨_, rfl⟩
      exact h.enterEncoder rfl rfl rfl hout
    · rintro _ _ ⟨rfl, _, rfl⟩
      exact ⟨by decide, h.of_view rfl hout⟩
  | codebuild =>
    refine (codebuildOp_ends s).mono ?_ ?_
    · rintro _ ⟨_, rfl⟩
      exact h.enterEncoder rfl rfl rfl hout
    · rintro _ _ ⟨rfl, _, rfl⟩
      exact ⟨by decide, h.of_view rfl hout⟩
  | hdrwrite =>
    refine (hdrwriteOp_ends s).mono ?_ ?_
    · rintro _ ⟨m, hwrite, rfl⟩
      exact h.enterEncoder rfl rfl (by simp only [runView]) (writeOutBytes_holds hout hwrite)
    · rintro _ _ ⟨rfl, rfl⟩
      exact ⟨by decide, h.of_view (by simp only [runView]) hout⟩
  | pack =>
    refine Flow.ends_iff.2 ⟨fun t ht => ?_, fun e t ht => (packOp_ne_raise s t e ht).elim⟩
    have houtEnd := packOp_outHolds hout ht
    obtain ⟨acc, rem, opos, m, rfl⟩ := (packOp_ends s).ok ht
    exact (h.of_view (t := { s with acc := acc, rem := rem, opos := opos, outMem := m }) rfl houtEnd).endCommand
  | dvalidate =>
    refine (dvalidateOp_ends s).mono ?_ ?_
    · rintro _ ⟨u, e, hu, rfl⟩
      exact (h.of_view hu.runView (hu.outHolds hout)).bootItem e
    · rintro e u ⟨he, hu⟩
      exact ⟨ne_none_of_mem_dvalidateErrs he, h.of_view hu.runView (hu.outHolds hout)⟩
  | dwalk =>
    have hstart : Running .dwalk (walkStart s) := h.of_view rfl hout
    have hwalk := (walkGroups_walkKeeps s.ng.toNat (walkStart s)).walkEnds_outHolds (walkGroups_raisesOutOfTree _ _)
      (walkGroups_outHolds _ hout)
    refine hwalk.seq (fun e u he => hstart.raisedOutOfTree he) fun u hu => ?_
    exact hstart.finishWalk_invariant hu.1.runView hu.2

/-- An item of `DECODE` keeps the invariant, and raises in a running command. -/
theorem dvalidateItem_running {s : State} (h : Running .dvalidate s) :
    (dvalidateItem s).Ends Invariant (RaisedRunning .dvalidate) := by
  refine (dvalidateItem_ends s).mono ?_ ?_
  · rintro t (hu | ⟨e, rfl⟩)
    · exact (h.of_view hu.runView (hu.outHolds h.outHolds)).invariant
    · exact (h.bootItem e).invariant
  · rintro e u ⟨he, hu⟩
    exact ⟨ne_none_of_mem_dvalidateErrs he, h.of_view hu.runView (hu.outHolds h.outHolds)⟩

theorem dwalkItem_outHolds {s : State} (h : OutHolds s) : (dwalkItem s).Keeps OutHolds := by
  unfold dwalkItem walkItem
  split
  · split
    · split
      · exact stepBit_outHolds h
      · split
        · exact readGroup_outHolds h
        · exact h
    · exact h
  · exact h

theorem dwalkItem_running {s : State} (h : Running .dwalk s) : (dwalkItem s).Ends Invariant (RaisedRunning .dwalk) := by
  have hout := Flow.ends_iff.1 (dwalkItem_outHolds h.outHolds).ends
  obtain ⟨hok, hraise⟩ := Flow.ends_iff.1 (dwalkItem_ends s)
  refine Flow.ends_iff.2 ⟨fun t ht => ?_, fun e u hu => ?_⟩
  · obtain hkeeps | rfl | rfl := hok t ht
    · exact (h.of_view hkeeps.runView (hout.1 t ht)).invariant
    · exact (h.of_view (t := walkStart s) rfl h.outHolds).invariant
    · exact h.finishWalk_invariant rfl h.outHolds
  · obtain ⟨he, hkeeps⟩ := hraise e u hu
    exact h.raisedOutOfTree ⟨he, hkeeps, hout.2 e u hu⟩

theorem AfterPhase.invariant {p : Phase} {t : State} (h : AfterPhase p t) : Invariant t := by
  cases p with
  | pack | dwalk => exact h
  | none | freq | merge | place | serialize | codebuild | hdrwrite | dvalidate => exact Running.invariant h

/-- A step of the sequencer keeps the invariant, and raises in a running command. -/
theorem sequencerOp_running {s : State} (h : Running s.status.phase s) :
    (sequencerOp s).Ends Invariant (RaisedRunning s.status.phase) := by
  have hphase : (microOp s.status.phase s).Ends Invariant (RaisedRunning s.status.phase) :=
    (microOp_running h).mono (fun _ => AfterPhase.invariant) fun _ _ h => h
  unfold sequencerOp
  split
  · by_cases hdvalidate : s.status.phase = .dvalidate
    · rw [itemOp_of_dvalidate hdvalidate, hdvalidate]
      exact dvalidateItem_running (hdvalidate ▸ h)
    by_cases hdwalk : s.status.phase = .dwalk
    · rw [itemOp_of_dwalk hdwalk, hdwalk]
      exact dwalkItem_running (hdwalk ▸ h)
    · rw [itemOp_eq_microOp hdvalidate hdwalk]
      exact hphase
  · exact hphase

theorem Flow.Ends.finish_invariant {p : Phase} {x : Flow State} {t : State} (hx : x.Ends Invariant (RaisedRunning p))
    (h : x.finish = .next t) : Invariant t := by
  obtain hok | ⟨e, u, ⟨hne, hu⟩, rfl⟩ := hx.finish h
  · exact hok
  · exact hu.takeFault hne

/-! ### Commands -/

/-- A command that has started (R131). -/
theorem running_startCommand {s : State} (h : Invariant s) (op : Op) : Running .none (startCommand op s) :=
  ⟨h.1, h.2.1, rfl, rfl, by cases op <;> rfl, by rw [startCommand_expLen]; decide, fun _ => rfl, fun _ => rfl⟩

/-- Where a command that ends in a fault stands. -/
def RaisedSomewhere (e : Err) (u : State) : Prop := ∃ p, RaisedRunning p e u

/-- One more micro-operation of a command. -/
theorem Flow.Ends.andThen_microOp {p : Phase} {P : State → Prop} {x : Flow State} (hx : x.Ends P RaisedSomewhere)
    (hp : ∀ a, P a → Running p a) : (x.andThen (microOp p)).Ends (AfterPhase p) RaisedSomewhere :=
  hx.andThen fun a ha => (microOp_running (hp a ha)).mono (fun _ h => h) fun _ _ h => ⟨p, h⟩

theorem encodeFlow_invariant {s : State} (h : Running .none s) (hop : s.op = .encode) :
    (encodeFlow s).Ends Invariant RaisedSomewhere := by
  rw [encodeFlow_eq_microOps]
  have hstart : (microOp .none s).Ends (Running .freq) RaisedSomewhere := by
    refine (enterSequence_ends s).mono ?_ ?_
    · rintro _ ⟨rfl, -⟩
      rw [hop]
      exact h.enterPhase (by rw [hop]; rfl) (by decide)
    · rintro _ _ ⟨rfl, rfl⟩
      exact ⟨_, by decide, h⟩
  refine Flow.Ends.andThen_microOp (p := .pack) ?_ fun _ h => h
  refine Flow.Ends.andThen_microOp (p := .hdrwrite) ?_ fun _ h => h
  refine Flow.Ends.andThen_microOp (p := .codebuild) ?_ fun _ h => h
  refine Flow.Ends.andThen_microOp (p := .serialize) ?_ fun _ h => h
  refine Flow.Ends.andThen_microOp (p := .place) ?_ fun _ h => h
  refine Flow.Ends.andThen_microOp (p := .merge) ?_ fun _ h => h
  exact hstart.andThen_microOp (p := .freq) fun _ h => h

theorem decodeFlow_invariant {s : State} (h : Running .none s) (hop : s.op = .decode) :
    (decodeFlow s).Ends Invariant RaisedSomewhere := by
  rw [decodeFlow_eq_microOps]
  have hstart : (microOp .none s).Ends (Running .dvalidate) RaisedSomewhere := by
    refine (enterSequence_ends s).mono ?_ ?_
    · rintro _ ⟨rfl, -⟩
      rw [hop]
      exact h.enterPhase (by rw [hop]; rfl) (by decide)
    · rintro _ _ ⟨rfl, rfl⟩
      exact ⟨_, by decide, h⟩
  refine Flow.Ends.andThen_microOp (p := .dwalk) ?_ fun _ h => h
  exact hstart.andThen_microOp (p := .dvalidate) fun _ h => h

theorem commandFlow_invariant {s : State} (h : Invariant s) (op : Op) :
    (commandFlow op (startCommand op s)).Ends Invariant RaisedSomewhere := by
  cases op with
  | encode => exact encodeFlow_invariant (running_startCommand h .encode) rfl
  | decode => exact decodeFlow_invariant (running_startCommand h .decode) rfl

/-! ### Every move of a step -/

theorem outWhenDone_holds {s : State} (h : OutHolds s) : MemoryHolds s.cfg (outWhenDone s) := by
  have hkeeps := (microOp_outHolds s.status.phase h).and (microOp_keepsHostSide s.status.phase s)
  unfold outWhenDone
  split
  · cases hrun : microOp s.status.phase s with
    | ok t =>
      rw [hrun] at hkeeps
      exact cfg_eq_of_hostSide_eq hkeeps.2 ▸ hkeeps.1
    | raise e t =>
      rw [hrun] at hkeeps
      exact cfg_eq_of_hostSide_eq hkeeps.2 ▸ hkeeps.1
    | stop f => exact h
  · exact h

/-- What a reset leaves in `OUT` is in its space (R322). -/
theorem outAtReset_holds {s : State} (h : OutHolds s) : MemoryHolds s.cfg (outAtReset s) := by
  obtain ⟨hwf, hbelow⟩ := outWhenDone_holds h
  unfold outAtReset
  split
  · exact ⟨Memory.splice_wf hwf h.1 _, fun size hsize => Memory.splice_below (hbelow size hsize) (h.2 size hsize) _⟩
  · exact h

theorem invariant_writeReg {s : State} (h : Invariant s) (number : Nat) (v : Word) : Invariant (writeReg number v s) := by
  unfold writeReg
  split
  · exact h
  · exact h
  · exact h

theorem invariant_writeIn {s : State} (h : Invariant s) {a : Nat} (v : Byte) (ha : a < s.cfg.inSize) :
    Invariant { s with inMem := Memory.write s.inMem a v } := by
  obtain ⟨hcfg, ⟨hwf, houtWf, hbelow, hout⟩, hregs⟩ := h
  exact ⟨hcfg, ⟨Memory.write_wf hwf a v, houtWf, Memory.write_below hbelow ha, hout⟩, hregs⟩

theorem invariant_writeOut {s : State} (h : Invariant s) {a : Nat} (v : Byte) (ha : outHas s.cfg a = true) :
    Invariant { s with outMem := Memory.write s.outMem a v } := by
  obtain ⟨hcfg, ⟨hwf, houtWf, hbelow, hout⟩, hregs⟩ := h
  exact ⟨hcfg, ⟨hwf, Memory.write_wf houtWf a v, hbelow,
    fun size hsize => Memory.write_below (hout size hsize) (lt_of_outHas ha hsize)⟩, hregs⟩

theorem invariant_resetBlock {s : State} (h : Invariant s) : Invariant (resetBlock s) := by
  obtain ⟨hcfg, ⟨hwf, houtWf, hbelow, hout⟩, -⟩ := h
  obtain ⟨hresetWf, hresetBelow⟩ := outAtReset_holds (s := s) ⟨houtWf, hout⟩
  exact ⟨hcfg, ⟨hwf, hresetWf, hbelow, hresetBelow⟩, resetMeetsTheInvariant.2.2⟩

theorem Moves.invariant {s t : State} (hmoves : Moves s t) (h : Invariant s) : Invariant t := by
  cases hmoves with
  | same => exact h
  | writeReg number v => exact invariant_writeReg h number v
  | hostReads v => exact h
  | writeIn v ha => exact invariant_writeIn h v ha
  | writeOut v ha => exact invariant_writeOut h v ha
  | start op hidle => exact (running_startCommand h op).invariant
  | command op hidle hrun =>
    obtain hok | ⟨e, u, ⟨p, hne, hu⟩, rfl⟩ := (commandFlow_invariant h op).finish hrun
    · exact hok
    · exact hu.takeFault hne
  | reset => exact invariant_resetBlock h
  | sequencer hbusy hrun => exact (sequencerOp_running (running_of_invariant h hbusy)).finish_invariant hrun

/-- Settles O53: a step is a move (`moves_of_step`), and each move keeps the invariant (`Moves.invariant`). -/
theorem everyStepKeepsTheInvariant : Obligations.EveryStepKeepsTheInvariant := fun s _ h hstep =>
  have ⟨script, hmoves⟩ := moves_of_step hstep
  hmoves.invariant (s := { s with script := script }) h

end Sys2Proof.Machine
end

section
/-! Runs of steps (40_commands.md R133, R137, R141, R143): O50 and O52. Micro-operation by micro-operation a command goes through
the phases `phaseAfter` gives, as often as `phaseRank` says; item by item the walk's own counters bound it. -/

namespace Sys2Proof.Machine

open Sys2Proof.Safety

/-! ### Runs of steps -/

/-- Statements with nothing after them. -/
theorem Flow.andThen_ok_self {α : Type} (x : Flow α) : x.andThen .ok = x := by cases x <;> rfl

theorem core_step : Sys2Proof.core.step = step := rfl

theorem run_succ_of_next {s t : State} (n : Nat) (h : step s = .next t) :
    Sys2Proof.core.run (n + 1) s = Sys2Proof.core.run n t := by
  simp only [Host.Core.run, core_step, h]

theorem run_succ_of_fault {s : State} {f : Fault} (n : Nat) (h : step s = .fault f) :
    Sys2Proof.core.run (n + 1) s = .fault f := by
  simp only [Host.Core.run, core_step, h]

/-- A block that waits stays as it is for any number of steps (R321). -/
theorem run_of_waiting (n : Nat) {s : State} (h : s.script = []) (hidle : s.status.state ≠ .busy) :
    Sys2Proof.core.run n s = .next s := by
  induction n with
  | zero => rfl
  | succ n ih => rw [run_succ_of_next n (step_of_waiting h hidle), ih]

theorem run_of_fault (n : Nat) {e : Err} {u : State} (h : u.script = []) :
    Sys2Proof.core.run n (takeFault e u) = .next (takeFault e u) :=
  run_of_waiting n h fun hbusy => RunState.noConfusion hbusy

/-- A step of the sequencer, and what follows it. -/
theorem run_succ_of_busy {n : Nat} {s : State} {rest : State → Flow State} (hscript : s.script = [])
    (hbusy : s.status.state = .busy)
    (hrest : ∀ t, sequencerOp s = .ok t → Sys2Proof.core.run n t = (rest t).finish) :
    Sys2Proof.core.run (n + 1) s = ((sequencerOp s).andThen rest).finish := by
  have hstep := step_of_busy hscript hbusy
  have hkeeps := Flow.ends_iff.1 (sequencerOp_keepsHostSide s).ends
  cases hrun : sequencerOp s with
  | ok t =>
    rw [run_succ_of_next n (hstep.trans (by rw [hrun, Flow.finish_ok])), hrest t hrun, Flow.andThen_ok]
  | raise e u =>
    have hu : u.script = [] := (congrArg (fun view => view.2.2.2.2.1) (hkeeps.2 e u hrun)).trans hscript
    rw [run_succ_of_next n (hstep.trans (by rw [hrun, Flow.finish_raise])), run_of_fault n hu, Flow.andThen_raise]
    rfl
  | stop f =>
    rw [run_succ_of_fault n (hstep.trans (by rw [hrun, Flow.finish_stop])), Flow.andThen_stop]
    rfl

theorem script_eq_of_hostSide_eq {s t : State} (h : hostSide t = hostSide s) : t.script = s.script :=
  congrArg (fun view => view.2.2.2.2.1) h

/-! ### Phase by phase -/

/-- Whether a phase is the last of its command (R133, R137). -/
def Phase.isLast : Phase → Bool
  | .pack | .dwalk => true
  | _ => false

/-- The phase entered after a phase, in a run of `op` (R132, R133, R137); `NONE` after the last. -/
def phaseAfter (op : Op) : Phase → Phase
  | .none => firstPhase op
  | .freq => .merge
  | .merge => .place
  | .place => .serialize
  | .serialize => .codebuild
  | .codebuild => .hdrwrite
  | .hdrwrite => .pack
  | .dvalidate => .dwalk
  | .pack | .dwalk => .none

/-- How many micro-operations are left at a phase, the range check among them. -/
def phaseRank : Phase → Nat
  | .none => 8
  | .freq => 7
  | .merge => 6
  | .place => 5
  | .serialize => 4
  | .codebuild => 3
  | .hdrwrite => 2
  | .pack => 1
  | .dvalidate => 2
  | .dwalk => 1

theorem phaseRank_phaseAfter_lt (op : Op) {p : Phase} (h : p.isLast = false) :
    phaseRank (phaseAfter op p) < phaseRank p := by
  cases p with
  | none => cases op <;> decide
  | freq | merge | place | serialize | codebuild | hdrwrite | dvalidate => exact Nat.lt_succ_self _
  | pack | dwalk => cases h

theorem phaseRank_pos (p : Phase) : 0 < phaseRank p := by cases p <;> decide

/-- Where a state stands: its status and the running command. -/
def standing (s : State) : Status × Op := (s.status, s.op)

theorem DvalidateReads.standing {s t : State} (h : DvalidateReads s t) : standing t = standing s := by
  rw [h]
  rfl

/-- A micro-operation that is not the last enters the next phase (R133, R137). -/
theorem standing_of_microOp {p : Phase} {s t : State} (hlast : p.isLast = false) (h : microOp p s = .ok t) :
    standing t = ({ s.status with phase := phaseAfter s.op p }, s.op) := by
  cases p with
  | none =>
    obtain ⟨rfl, -⟩ := (enterSequence_ends s).ok h
    rfl
  | freq =>
    obtain ⟨_, rfl⟩ := (freqOp_ends s).ok h
    rfl
  | merge =>
    obtain ⟨_, _, _, _, _, _, rfl⟩ := (mergeOp_ends s).ok h
    rfl
  | place =>
    obtain ⟨_, rfl⟩ := (placeOp_ends s).ok h
    rfl
  | serialize =>
    obtain ⟨_, rfl⟩ := (serializeOp_ends s).ok h
    rfl
  | codebuild =>
    obtain ⟨_, rfl⟩ := (codebuildOp_ends s).ok h
    rfl
  | hdrwrite =>
    obtain ⟨_, -, rfl⟩ := (hdrwriteOp_ends s).ok h
    rfl
  | dvalidate =>
    obtain ⟨u, e, hu, rfl⟩ := (dvalidateOp_ends s).ok h
    obtain ⟨hstatus, hop⟩ := Prod.mk.inj hu.standing
    exact Prod.ext (by rw [← hstatus]; rfl) hop
  | pack | dwalk => cases hlast

/-- The last micro-operation of a command ends it (R140). -/
theorem state_of_last_microOp {p : Phase} {s t : State} (hlast : p.isLast = true) (h : microOp p s = .ok t) :
    t.status.state = .done := by
  cases p with
  | pack =>
    obtain ⟨_, _, _, _, rfl⟩ := (packOp_ends s).ok h
    rfl
  | dwalk =>
    obtain ⟨_, -, rfl⟩ := (dwalkOp_ends s).ok h
    rfl
  | none | freq | merge | place | serialize | codebuild | hdrwrite | dvalidate => cases hlast

/-- The micro-operations of `op` from a phase on, at most `n` of them. -/
def phasesFrom (op : Op) : Nat → Phase → State → Flow State
  | 0, _, s => .ok s
  | n + 1, p, s => (microOp p s).andThen (if p.isLast then .ok else phasesFrom op n (phaseAfter op p))

theorem encodeFlow_eq_phasesFrom (s : State) : encodeFlow s = phasesFrom .encode 8 .none s := by
  simp only [encodeFlow_eq_microOps, Flow.andThen_assoc, phasesFrom, phaseAfter, firstPhase, Phase.isLast, if_pos,
    Bool.false_eq_true, if_false, Flow.andThen_ok_self]


theorem decodeFlow_eq_phasesFrom (s : State) : decodeFlow s = phasesFrom .decode 8 .none s := by
  simp only [decodeFlow_eq_microOps, Flow.andThen_assoc, phasesFrom, phaseAfter, firstPhase, Phase.isLast, if_pos,
    Bool.false_eq_true, if_false, Flow.andThen_ok_self]

theorem sequencerOp_of_ne_item {s : State} (h : s.cfg.grain ≠ .item) : sequencerOp s = microOp s.status.phase s := by
  unfold sequencerOp
  split
  · contradiction
  · rfl

/-- A command that runs micro-operation by micro-operation, with no host action before it. -/
structure AtPhase (op : Op) (p : Phase) (s : State) : Prop where
  script : s.script = []
  grain : s.cfg.grain ≠ .item
  state : s.status.state = .busy
  phase : s.status.phase = p
  op : s.op = op

theorem AtPhase.sequencerOp_eq {op : Op} {p : Phase} {s : State} (h : AtPhase op p s) : sequencerOp s = microOp p s := by
  rw [sequencerOp_of_ne_item h.grain, h.phase]

theorem AtPhase.after {op : Op} {p : Phase} {s t : State} (h : AtPhase op p s) (hlast : p.isLast = false)
    (hrun : microOp p s = .ok t) : AtPhase op (phaseAfter op p) t := by
  have hside : hostSide t = hostSide s := (microOp_keepsHostSide p s).ends.ok hrun
  obtain ⟨hstatus, hop⟩ := Prod.mk.inj (standing_of_microOp hlast hrun)
  refine ⟨(script_eq_of_hostSide_eq hside).trans h.script, ?_, ?_, ?_, hop.trans h.op⟩
  · rw [cfg_eq_of_hostSide_eq hside]
    exact h.grain
  · rw [hstatus]
    exact h.state
  · rw [hstatus, h.op]

/-- As many steps as micro-operations are left, or more, run what is left of the command. -/
theorem run_eq_phasesFrom (n : Nat) {op : Op} {p : Phase} {s : State} (h : AtPhase op p s) (hn : phaseRank p ≤ n) :
    Sys2Proof.core.run n s = (phasesFrom op n p s).finish := by
  induction n generalizing p s with
  | zero => exact absurd hn (Nat.not_le.2 (phaseRank_pos p))
  | succ n ih =>
    rw [phasesFrom, ← h.sequencerOp_eq]
    refine run_succ_of_busy h.script h.state fun t ht => ?_
    rw [h.sequencerOp_eq] at ht
    cases hlast : p.isLast with
    | true =>
      have hside : hostSide t = hostSide s := (microOp_keepsHostSide p s).ends.ok ht
      rw [if_pos rfl, Flow.finish_ok]
      refine run_of_waiting n ((script_eq_of_hostSide_eq hside).trans h.script) ?_
      rw [state_of_last_microOp hlast ht]
      decide
    | false =>
      have hlt := phaseRank_phaseAfter_lt op hlast
      rw [if_neg Bool.false_ne_true]
      exact ih (h.after hlast ht) (by omega)

theorem commandFlow_eq_phasesFrom (op : Op) (s : State) : commandFlow op s = phasesFrom op 8 .none s := by
  cases op with
  | encode => exact encodeFlow_eq_phasesFrom s
  | decode => exact decodeFlow_eq_phasesFrom s

/-- The instruction a `CMD` value names, run from a state that is not `BUSY`. -/
theorem exec_command_of_idle {s : State} (hidle : s.status.state ≠ .busy) (v : Word) :
    exec (if v.getLsbD 0 then .decodeCmd else .encodeCmd) s =
      (commandFlow (commandOp v) (startCommand (commandOp v) s)).finish := by
  unfold commandOp
  split
  · exact execDecode_of_idle hidle
  · exact execEncode_of_idle hidle

/-- Settles O50: after the `CMD` write, eight steps run the phases of the command (`run_eq_phasesFrom`). -/
theorem phaseStepsMakeTheCommand : Obligations.PhaseStepsMakeTheCommand := by
  intro s v hscript hidle hgrain
  have hne : s.cfg.grain ≠ .command := by rw [hgrain]; decide
  have hstart : AtPhase (commandOp v) .none (startCommand (commandOp v) { s with script := [] }) :=
    ⟨rfl, by rw [startCommand_cfg, hgrain]; decide, rfl, rfl, rfl⟩
  rw [run_succ_of_next 8 (step_writeCmd_of_idle hidle hne hscript), run_eq_phasesFrom 8 hstart (by decide),
    ← commandFlow_eq_phasesFrom, ← exec_command_of_idle (s := { s with script := [] }) hidle]

/-! ### Every command ends (R143) -/

/-- The machine comes to a stop or to a state that is not `BUSY`. -/
def Terminates (s : State) : Prop := ∃ n, ∀ t, Sys2Proof.core.run n s = .next t → t.status.state ≠ .busy

theorem terminates_of_not_busy {s : State} (h : s.status.state ≠ .busy) : Terminates s :=
  ⟨0, fun _ ht => Host.Outcome.next.inj ht ▸ h⟩

/-- A command that ends from wherever its next step goes ends. -/
theorem terminates_of_busy {s : State} (hscript : s.script = []) (hbusy : s.status.state = .busy)
    (hnext : ∀ t, sequencerOp s = .ok t → t.script = [] → Terminates t) : Terminates s := by
  have hstep := step_of_busy hscript hbusy
  have hkeeps := Flow.ends_iff.1 (sequencerOp_keepsHostSide s).ends
  cases hrun : sequencerOp s with
  | ok t =>
    rw [hrun, Flow.finish_ok] at hstep
    obtain ⟨n, hn⟩ := hnext t hrun ((script_eq_of_hostSide_eq (hkeeps.1 t hrun)).trans hscript)
    exact ⟨n + 1, by rw [run_succ_of_next n hstep]; exact hn⟩
  | raise e u =>
    rw [hrun, Flow.finish_raise] at hstep
    refine ⟨1, fun t ht hfault => ?_⟩
    rw [run_succ_of_next 0 hstep] at ht
    obtain rfl := Host.Outcome.next.inj ht
    cases hfault
  | stop f =>
    rw [hrun, Flow.finish_stop] at hstep
    refine ⟨1, fun t ht => ?_⟩
    rw [run_succ_of_fault 0 hstep] at ht
    cases ht

theorem state_of_phasesFrom (n : Nat) {op : Op} {p : Phase} {s t : State} (hn : phaseRank p ≤ n)
    (h : phasesFrom op n p s = .ok t) : t.status.state = .done := by
  induction n generalizing p s with
  | zero => exact absurd hn (Nat.not_le.2 (phaseRank_pos p))
  | succ n ih =>
    rw [phasesFrom] at h
    obtain ⟨u, hrun, hrest⟩ := Flow.andThen_eq_ok.1 h
    cases hlast : p.isLast with
    | true =>
      rw [hlast, if_pos rfl] at hrest
      obtain rfl := Flow.ok.inj hrest
      exact state_of_last_microOp hlast hrun
    | false =>
      have hlt := phaseRank_phaseAfter_lt op hlast
      rw [hlast, if_neg Bool.false_ne_true] at hrest
      exact ih (by omega) hrest

theorem phaseRank_le (p : Phase) : phaseRank p ≤ 8 := by cases p <;> decide

/-- Eight steps end a command when a step is not one item. -/
theorem not_busy_after_eight {s t : State} (hscript : s.script = []) (hbusy : s.status.state = .busy)
    (hgrain : s.cfg.grain ≠ .item) (h : Sys2Proof.core.run 8 s = .next t) : t.status.state ≠ .busy := by
  have hat : AtPhase s.op s.status.phase s := ⟨hscript, hgrain, hbusy, rfl, rfl⟩
  rw [run_eq_phasesFrom 8 hat (phaseRank_le _)] at h
  obtain hok | ⟨e, u, -, rfl⟩ := Flow.finish_eq_next.1 h
  · rw [state_of_phasesFrom 8 (phaseRank_le _) hok]
    decide
  · exact fun hfault => RunState.noConfusion hfault

/-! ### Item by item -/

/-- A command that runs item by item, with no host action before it, at a phase and a place in it. -/
structure AtItem (p : Phase) (point : Point) (s : State) : Prop where
  script : s.script = []
  grain : s.cfg.grain = .item
  phase : s.status.phase = p
  point : s.point = point

theorem sequencerOp_of_item {s : State} (h : s.cfg.grain = .item) : sequencerOp s = itemOp s := by
  rw [sequencerOp, h]

/-- A step of the walk takes one bit off `W`, keeps `G`, and emits at most one byte (R257). -/
theorem stepBit_eq_ok {s t : State} (h : stepBit s = .ok t) :
    t.k = s.k - 1 ∧ t.g = s.g ∧ (t.outcnt = s.outcnt ∨ t.outcnt = s.outcnt + 1) := by
  obtain ⟨u, hadvance, hinterpret⟩ := Flow.andThen_eq_ok.1 h
  obtain ⟨-, hraise⟩ | ⟨-, hok⟩ := advance_cases s
  · rw [hraise] at hadvance
    cases hadvance
  · rw [hok] at hadvance
    obtain rfl := Flow.ok.inj hadvance
    obtain ⟨-, ⟨-, hleaf⟩ | ⟨-, rfl⟩⟩ := interpret_eq_ok hinterpret
    · obtain ⟨-, rfl⟩ := leafItem_eq_ok hleaf
      exact ⟨rfl, rfl, .inr rfl⟩
    · exact ⟨rfl, rfl, .inl rfl⟩

theorem WalkKeeps.atItem {p : Phase} {point : Point} {s t : State} (h : AtItem p point s) (hk : WalkKeeps s t) :
    AtItem p point t := by
  have hside := hk.hostSide
  refine ⟨(script_eq_of_hostSide_eq hside).trans h.script, ?_, ?_, ?_⟩
  · rw [hk.cfg, h.grain]
  · rw [hk.status, h.phase]
  · rw [hk]
    exact h.point

/-- What is left of a walk: bits of `W`, and groups of 32 bits not yet fetched. -/
def walkLeft (s : State) : Nat := (s.ng.toNat - s.g.toNat) * 64 + s.k.toNat

theorem walkLeft_stepBit {s t : State} (hk : s.k ≠ 0) (h : stepBit s = .ok t) : walkLeft t < walkLeft s := by
  obtain ⟨hkt, hg, -⟩ := stepBit_eq_ok h
  have hng : t.ng = s.ng := WalkKeeps.ng ((stepBit_walkKeeps s).ends.ok h)
  have hpos : 1 ≤ s.k.toNat := Nat.one_le_iff_ne_zero.2 fun hzero => hk (BitVec.eq_of_toNat_eq hzero)
  rw [walkLeft, walkLeft, hkt, hg, hng, toNat_sub_one hpos]
  omega

theorem toNat_succ_group {s : State} (hg : s.g.toNat < s.ng.toNat) : (s.g + 1).toNat = s.g.toNat + 1 :=
  toNat_add_one (by have := s.ng.isLt; omega)

theorem walkLeft_readGroup {s t : State} (hg : s.g.toNat < s.ng.toNat) (h : readGroup s = .ok t) :
    walkLeft t < walkLeft s := by
  obtain ⟨-, rfl⟩ := readGroup_eq_ok h
  rw [walkLeft, walkLeft, groupItem_k, groupItem_g, groupItem_ng, toNat_succ_group hg]
  have hthirtyTwo : (32 : BitVec 6).toNat = 32 := rfl
  omega

/-- A walk that runs item by item ends: each item makes `walkLeft` smaller (R143). -/
theorem terminates_of_walk (m : Nat) {s : State} (hm : walkLeft s < m) (h : AtItem .dwalk .walk s) : Terminates s := by
  induction m generalizing s with
  | zero => exact absurd hm (Nat.not_lt_zero _)
  | succ m ih =>
    by_cases hbusy : s.status.state = .busy
    · refine terminates_of_busy h.script hbusy fun t ht _ => ?_
      rw [sequencerOp_of_item h.grain, itemOp_of_dwalk h.phase, dwalkItem, h.point] at ht
      change walkItem s = .ok t at ht
      have hdone : ∀ u, Flow.ok (finishWalk s) = .ok u → Terminates u := fun u hu =>
        terminates_of_not_busy (Flow.ok.inj hu ▸ fun hfinish => RunState.noConfusion hfinish)
      unfold walkItem at ht
      split at ht
      · split at ht
        · next hk =>
          have hlt := walkLeft_stepBit hk ht
          exact ih (by omega) (WalkKeeps.atItem h ((stepBit_walkKeeps s).ends.ok ht))
        · split at ht
          · next hg =>
            have hlt := walkLeft_readGroup hg ht
            exact ih (by omega) (WalkKeeps.atItem h ((readGroup_walkKeeps s).ends.ok ht))
          · exact hdone t ht
      · exact hdone t ht
    · exact terminates_of_not_busy hbusy

theorem terminates_of_dwalk {s : State} {point : Point} (h : AtItem .dwalk point s) : Terminates s := by
  by_cases hwalk : point = .walk
  · subst hwalk
    exact terminates_of_walk _ (Nat.lt_succ_self _) h
  by_cases hbusy : s.status.state = .busy
  · refine terminates_of_busy h.script hbusy fun t ht _ => ?_
    rw [sequencerOp_of_item h.grain, itemOp_of_dwalk h.phase] at ht
    have hstart : dwalkItem s = .ok (walkStart s) := by
      unfold dwalkItem
      split
      · next hp => exact absurd (h.point.symm.trans hp) hwalk
      · rfl
    rw [hstart] at ht
    obtain rfl := Flow.ok.inj ht
    exact terminates_of_walk _ (Nat.lt_succ_self _) ⟨h.script, h.grain, h.phase, rfl⟩
  · exact terminates_of_not_busy hbusy

/-- The place after an item of `DVALIDATE` (R251, R252). -/
theorem point_of_lengthTests {s t : State} (h : lengthTests s = .ok t) : t.point = .count := by
  unfold lengthTests at h
  split at h
  · cases h
  · split at h
    · cases h
    · cases h
      rfl

theorem point_of_countItem {b : Byte} {s t : State} (h : countItem b s = .ok t) : t.point = .header := by
  obtain ⟨-, hrun⟩ | ⟨-, hrun⟩ := countItem_cases b s
  · rw [hrun] at h
    cases h
  · rw [hrun] at h
    cases h
    rfl

theorem point_of_readCount {s t : State} (h : readCount s = .ok t) : t.point = .header := by
  obtain ⟨b, -, hitem⟩ := Flow.access_eq_ok.1 h
  exact point_of_countItem hitem

theorem point_of_headerItem {tag : Byte} {len : BitVec 24} {s t : State} (h : headerItem tag len s = .ok t) :
    t.point = .boot := by
  obtain ⟨-, hrun⟩ | ⟨-, -, hrun⟩ | ⟨-, -, hrun⟩ := headerItem_cases tag len s
  · rw [hrun] at h
    cases h
  · rw [hrun] at h
    cases h
  · rw [hrun] at h
    cases h
    rfl

theorem point_of_readHeader {s t : State} (h : readHeader s = .ok t) : t.point = .boot := by
  obtain ⟨bytes, hread, -⟩ := Flow.access_eq_ok.1 h
  rw [readHeader_ok ((readInRange_eq_ok hread).2 (by decide))] at h
  exact point_of_headerItem h

theorem DvalidateReads.atItem {p : Phase} {point point' : Point} {s t : State} (h : AtItem p point s)
    (hr : DvalidateReads s t) (hpoint : t.point = point') : AtItem p point' t := by
  have hside := hr.hostSide
  refine ⟨(script_eq_of_hostSide_eq hside).trans h.script, ?_, ?_, hpoint⟩
  · rw [cfg_eq_of_hostSide_eq hside, h.grain]
  · rw [(Prod.mk.inj hr.standing).1, h.phase]

/-- An item of `DVALIDATE` that goes on to a place from where the command ends. -/
theorem terminates_of_dvalidateItem {point : Point} {s : State} (h : AtItem .dvalidate point s)
    (hnext : ∀ t, dvalidateItem s = .ok t → Terminates t) : Terminates s := by
  by_cases hbusy : s.status.state = .busy
  · refine terminates_of_busy h.script hbusy fun t ht _ => hnext t ?_
    rwa [sequencerOp_of_item h.grain, itemOp_of_dvalidate h.phase] at ht
  · exact terminates_of_not_busy hbusy

theorem terminates_of_dvalidate_boot {s : State} (h : AtItem .dvalidate .boot s) : Terminates s := by
  refine terminates_of_dvalidateItem h fun t ht => ?_
  rw [dvalidateItem, h.point] at ht
  obtain ⟨e, rfl⟩ := (readBoot_ends s).ok ht
  exact terminates_of_dwalk (point := .enter) ⟨h.script, h.grain, rfl, rfl⟩

theorem terminates_of_dvalidate_header {s : State} (h : AtItem .dvalidate .header s) : Terminates s := by
  refine terminates_of_dvalidateItem h fun t ht => ?_
  rw [dvalidateItem, h.point] at ht
  exact terminates_of_dvalidate_boot (DvalidateReads.atItem h ((readHeader_reads s).ok ht) (point_of_readHeader ht))

theorem terminates_of_dvalidate_count {s : State} (h : AtItem .dvalidate .count s) : Terminates s := by
  refine terminates_of_dvalidateItem h fun t ht => ?_
  rw [dvalidateItem, h.point] at ht
  exact terminates_of_dvalidate_header (DvalidateReads.atItem h ((readCount_reads s).ok ht) (point_of_readCount ht))

theorem terminates_of_dvalidate {s : State} {point : Point} (h : AtItem .dvalidate point s) : Terminates s := by
  have hlength (hitem : dvalidateItem s = lengthTests s) : Terminates s := by
    refine terminates_of_dvalidateItem h fun t ht => ?_
    rw [hitem] at ht
    exact terminates_of_dvalidate_count (DvalidateReads.atItem h ((lengthTests_reads s).ok ht) (point_of_lengthTests ht))
  cases point with
  | count => exact terminates_of_dvalidate_count h
  | header => exact terminates_of_dvalidate_header h
  | boot => exact terminates_of_dvalidate_boot h
  | enter | walk => exact hlength (by rw [dvalidateItem, h.point])

/-- Item by item every running command ends: `ENCODE` and the range check phase by phase, `DECODE` by its items. -/
theorem terminates_of_item (n : Nat) {p : Phase} {s : State} (hn : phaseRank p ≤ n) (h : AtItem p s.point s) :
    Terminates s := by
  induction n generalizing p s with
  | zero => exact absurd hn (Nat.not_le.2 (phaseRank_pos p))
  | succ n ih =>
    by_cases hdvalidate : p = .dvalidate
    · subst hdvalidate
      exact terminates_of_dvalidate h
    by_cases hdwalk : p = .dwalk
    · subst hdwalk
      exact terminates_of_dwalk h
    by_cases hbusy : s.status.state = .busy
    · refine terminates_of_busy h.script hbusy fun t ht hscript => ?_
      rw [sequencerOp_of_item h.grain, itemOp_eq_microOp (by rwa [h.phase]) (by rwa [h.phase]), h.phase] at ht
      cases hlast : p.isLast with
      | true =>
        refine terminates_of_not_busy ?_
        rw [state_of_last_microOp hlast ht]
        decide
      | false =>
        have hlt := phaseRank_phaseAfter_lt s.op hlast
        have hside : hostSide t = hostSide s := (microOp_keepsHostSide p s).ends.ok ht
        obtain ⟨hstatus, -⟩ := Prod.mk.inj (standing_of_microOp hlast ht)
        refine ih (p := phaseAfter s.op p) (by omega) ⟨hscript, ?_, by rw [hstatus], rfl⟩
        rw [cfg_eq_of_hostSide_eq hside, h.grain]
    · exact terminates_of_not_busy hbusy

/-- Settles O52: eight steps when a step is not one item (`not_busy_after_eight`), and the walk's counters otherwise
(`terminates_of_item`). -/
theorem everyCommandTerminates : Obligations.EveryCommandTerminates := by
  intro s hscript hbusy
  have height : s.cfg.grain ≠ .item → ∀ t, Sys2Proof.core.run 8 s = .next t → t.status.state ≠ .busy :=
    fun hgrain _ => not_busy_after_eight hscript hbusy hgrain
  refine ⟨?_, height⟩
  by_cases hgrain : s.cfg.grain = .item
  · exact terminates_of_item 8 (phaseRank_le _) ⟨hscript, hgrain, rfl, rfl⟩
  · exact ⟨8, height hgrain⟩

end Sys2Proof.Machine
end

section
/-! Item by item a `DECODE` reaches what it reaches as one transition (40_commands.md R137, R141, 46_bit_walker.md R256): O51.
The items of the walk are the bits and groups of its two loops, so the loops are followed from where the walk stands. -/

namespace Sys2Proof.Machine

open Sys2Proof.Safety

/-- Some number of steps leads to an outcome. -/
def Reaches (s : State) (o : Host.Outcome State Fault Refusal) : Prop := ∃ n, Sys2Proof.core.run n s = o

theorem reaches_of_step {s t : State} {o : Host.Outcome State Fault Refusal} (h : step s = .next t) (ht : Reaches t o) :
    Reaches s o :=
  have ⟨n, hn⟩ := ht
  ⟨n + 1, (run_succ_of_next n h).trans hn⟩

theorem reaches_self (s : State) : Reaches s (Flow.ok s).finish := ⟨0, rfl⟩

/-- A step of the sequencer, and what is reached from where it goes through to. -/
theorem reaches_of_busy {s : State} {x : Flow State} {rest : State → Flow State} (hscript : s.script = [])
    (hbusy : s.status.state = .busy) (hx : sequencerOp s = x) (hrest : ∀ t, x = .ok t → Reaches t (rest t).finish) :
    Reaches s (x.andThen rest).finish := by
  have hstep := step_of_busy hscript hbusy
  rw [hx] at hstep
  cases x with
  | ok t => exact reaches_of_step hstep (hrest t rfl)
  | raise e u => exact reaches_of_step hstep ⟨0, rfl⟩
  | stop f => exact ⟨1, run_succ_of_fault 0 hstep⟩

/-- A step of the sequencer that is the last. -/
theorem reaches_of_last {s : State} {x : Flow State} (hscript : s.script = []) (hbusy : s.status.state = .busy)
    (hx : sequencerOp s = x) : Reaches s x.finish := by
  have h := reaches_of_busy (rest := .ok) hscript hbusy hx fun t _ => reaches_self t
  rwa [Flow.andThen_ok_self] at h

/-! ### The walk -/

/-- The end of the walk, after its loops (R262). -/
def endWalk (s : State) : Flow State := .ok (finishWalk s)

/-- A walk that runs item by item stands with `bits` bits of `W` and `groups` groups left. -/
structure Walking (bits groups : Nat) (s : State) : Prop where
  item : AtItem .dwalk .walk s
  state : s.status.state = .busy
  bits : s.k.toNat = bits
  groups : s.g.toNat + groups = s.ng.toNat
  count : s.outcnt.toNat ≤ s.explen.toNat

theorem Walking.sequencerOp_eq {bits groups : Nat} {s : State} (h : Walking bits groups s) : sequencerOp s = walkItem s := by
  rw [sequencerOp_of_item h.item.grain, itemOp_of_dwalk h.item.phase, dwalkItem, h.item.point]

theorem walkItem_of_done {s : State} (h : shortOf s = false) : walkItem s = endWalk s := by
  rw [walkItem, h, if_neg Bool.false_ne_true, endWalk]

theorem walkItem_of_bit {s : State} (h : shortOf s = true) (hk : s.k ≠ 0) : walkItem s = stepBit s := by
  rw [walkItem, if_pos h, if_pos hk]

theorem walkItem_of_group {s : State} (h : shortOf s = true) (hk : s.k = 0) (hg : s.g.toNat < s.ng.toNat) :
    walkItem s = readGroup s := by
  rw [walkItem, if_pos h, if_neg (not_not_intro hk), if_pos hg]

theorem walkItem_of_exhausted {s : State} (hk : s.k = 0) (hg : ¬ s.g.toNat < s.ng.toNat) : walkItem s = endWalk s := by
  rw [walkItem]
  split
  · simp only [hk, ne_eq, not_true_eq_false, if_false, endWalk]
  · rfl

theorem shortOf_eq_true {s : State} : shortOf s = true ↔ s.outcnt.toNat < s.explen.toNat := decide_eq_true_iff

theorem walkGroups_of_done {s : State} (h : shortOf s = false) (count : Nat) : walkGroups count s = .ok s := by
  cases count with
  | zero => rfl
  | succ count => rw [walkGroups, h, if_neg Bool.false_ne_true]

theorem Walking.readGroup {groups : Nat} {s t : State} (h : Walking 0 (groups + 1) s) (ht : readGroup s = .ok t) :
    Walking 32 groups t := by
  have hgroups := h.groups
  have hkeeps := (readGroup_walkKeeps s).ends.ok ht
  obtain ⟨-, rfl⟩ := readGroup_eq_ok ht
  refine ⟨WalkKeeps.atItem h.item hkeeps, h.state, rfl, ?_, h.count⟩
  rw [groupItem_g, toNat_succ_group (by omega), groupItem_ng]
  omega

theorem Walking.stepBit {bits groups : Nat} {s t : State} (h : Walking (bits + 1) groups s) (hshort : shortOf s = true)
    (ht : stepBit s = .ok t) : Walking bits groups t := by
  have hkeeps := (stepBit_walkKeeps s).ends.ok ht
  obtain ⟨hk, hg, hout⟩ := stepBit_eq_ok ht
  have hbits := h.bits
  have hlt := shortOf_eq_true.1 hshort
  refine ⟨WalkKeeps.atItem h.item hkeeps, by rw [hkeeps.status, h.state], ?_, by rw [hg, hkeeps.ng, h.groups], ?_⟩
  · rw [hk, toNat_sub_one (by omega), hbits, Nat.add_sub_cancel]
  · rw [hkeeps.explen]
    obtain hsame | hmore := hout
    · rw [hsame]
      exact hlt.le
    · rw [hmore, toNat_add_one (by have := s.explen.isLt; omega)]
      exact hlt

theorem reaches_endWalk {bits groups : Nat} {s : State} (h : Walking bits groups s) (hitem : walkItem s = endWalk s) :
    Reaches s (endWalk s).finish := reaches_of_last h.item.script h.state (h.sequencerOp_eq.trans hitem)

/-- The bits left of a group, and then the groups left, as items. -/
theorem reaches_walkBits {groups : Nat} (hgroups : ∀ t, Walking 0 groups t → Reaches t ((walkGroups groups t).andThen endWalk).finish)
    (bits : Nat) {s : State} (h : Walking bits groups s) :
    Reaches s ((walkBits bits s).andThen fun t => (walkGroups groups t).andThen endWalk).finish := by
  induction bits generalizing s with
  | zero => exact hgroups s h
  | succ bits ih =>
    rw [walkBits]
    split
    · next hdone =>
      have hshort : shortOf s = false := by simp [shortOf, hdone]
      rw [Flow.andThen_ok, walkGroups_of_done hshort, Flow.andThen_ok]
      exact reaches_endWalk h (walkItem_of_done hshort)
    · next hwanted =>
      have hshort : shortOf s = true :=
        shortOf_eq_true.2 (lt_of_le_of_ne h.count fun heq => hwanted (BitVec.eq_of_toNat_eq heq))
      have hk : s.k ≠ 0 := fun hzero => by
        have hbits := h.bits
        rw [hzero] at hbits
        cases hbits
      rw [Flow.andThen_assoc]
      exact reaches_of_busy h.item.script h.state (h.sequencerOp_eq.trans (walkItem_of_bit hshort hk))
        fun t ht => ih (h.stepBit hshort ht)

/-- The groups left, as items. -/
theorem reaches_walkGroups (groups : Nat) {s : State} (h : Walking 0 groups s) :
    Reaches s ((walkGroups groups s).andThen endWalk).finish := by
  induction groups generalizing s with
  | zero =>
    have hk : s.k = 0 := BitVec.eq_of_toNat_eq h.bits
    have hg := h.groups
    exact reaches_endWalk h (walkItem_of_exhausted hk (by omega))
  | succ groups ih =>
    cases hshort : shortOf s with
    | false =>
      rw [walkGroups_of_done hshort, Flow.andThen_ok]
      exact reaches_endWalk h (walkItem_of_done hshort)
    | true =>
      have hk : s.k = 0 := BitVec.eq_of_toNat_eq h.bits
      have hg := h.groups
      rw [walkGroups, if_pos hshort, Flow.andThen_assoc, Flow.andThen_assoc]
      exact reaches_of_busy h.item.script h.state (h.sequencerOp_eq.trans (walkItem_of_group hshort hk (by omega)))
        fun t ht => reaches_walkBits (fun u hu => ih hu) 32 (h.readGroup ht)

/-! ### DWALK and DVALIDATE -/

theorem reaches_dwalkOp {s : State} (h : AtItem .dwalk .enter s) (hbusy : s.status.state = .busy) :
    Reaches s (dwalkOp s).finish := by
  have hop : sequencerOp s = .ok (walkStart s) := by
    rw [sequencerOp_of_item h.grain, itemOp_of_dwalk h.phase, dwalkItem, h.point]
  have hwalking : Walking 0 s.ng.toNat (walkStart s) :=
    ⟨⟨h.script, h.grain, h.phase, rfl⟩, hbusy, rfl, Nat.zero_add _, Nat.zero_le _⟩
  exact reaches_of_step ((step_of_busy h.script hbusy).trans (by rw [hop, Flow.finish_ok]))
    (reaches_walkGroups s.ng.toNat hwalking)

/-- One item of `DVALIDATE`, and what is reached from the place it goes on to. -/
theorem reaches_dvalidateItem {point point' : Point} {s : State} {x : Flow State} {rest : State → Flow State}
    (h : AtItem .dvalidate point s) (hbusy : s.status.state = .busy) (hx : dvalidateItem s = x) (hreads : x.Reads s)
    (hpoint : ∀ t, x = .ok t → t.point = point')
    (hrest : ∀ t, AtItem .dvalidate point' t → t.status.state = .busy → Reaches t (rest t).finish) :
    Reaches s (x.andThen rest).finish := by
  refine reaches_of_busy h.script hbusy ?_ fun t ht => ?_
  · rw [sequencerOp_of_item h.grain, itemOp_of_dvalidate h.phase, hx]
  · have hread := hreads.ok ht
    refine hrest t (DvalidateReads.atItem h hread (hpoint t ht)) ?_
    rw [(Prod.mk.inj hread.standing).1, hbusy]

theorem reaches_readBoot {s : State} (h : AtItem .dvalidate .boot s) (hbusy : s.status.state = .busy) :
    Reaches s ((readBoot s).andThen dwalkOp).finish := by
  refine reaches_of_busy h.script hbusy ?_ fun t ht => ?_
  · rw [sequencerOp_of_item h.grain, itemOp_of_dvalidate h.phase, dvalidateItem, h.point]
  · obtain ⟨e, rfl⟩ := (readBoot_ends s).ok ht
    exact reaches_dwalkOp ⟨h.script, h.grain, rfl, rfl⟩ hbusy

theorem reaches_readHeader {s : State} (h : AtItem .dvalidate .header s) (hbusy : s.status.state = .busy) :
    Reaches s ((readHeader s).andThen fun t => (readBoot t).andThen dwalkOp).finish :=
  reaches_dvalidateItem h hbusy (by rw [dvalidateItem, h.point]) (readHeader_reads s) (fun _ => point_of_readHeader)
    fun _ => reaches_readBoot

theorem reaches_readCount {s : State} (h : AtItem .dvalidate .count s) (hbusy : s.status.state = .busy) :
    Reaches s ((readCount s).andThen fun t => (readHeader t).andThen fun u => (readBoot u).andThen dwalkOp).finish :=
  reaches_dvalidateItem h hbusy (by rw [dvalidateItem, h.point]) (readCount_reads s) (fun _ => point_of_readCount)
    fun _ => reaches_readHeader

theorem reaches_dvalidateOp {s : State} (h : AtItem .dvalidate .enter s) (hbusy : s.status.state = .busy) :
    Reaches s ((dvalidateOp s).andThen dwalkOp).finish := by
  rw [dvalidateOp, Flow.andThen_assoc, Flow.andThen_assoc, Flow.andThen_assoc]
  exact reaches_dvalidateItem h hbusy (by rw [dvalidateItem, h.point]) (lengthTests_reads s) (fun _ => point_of_lengthTests)
    fun _ => reaches_readCount

/-- A `DECODE` that has started runs item by item to the end of its flow. -/
theorem reaches_decodeFlow {s : State} (h : AtItem .none .enter s) (hbusy : s.status.state = .busy) (hop : s.op = .decode) :
    Reaches s (decodeFlow s).finish := by
  rw [decodeFlow, Flow.andThen_assoc]
  refine reaches_of_busy h.script hbusy ?_ fun t ht => ?_
  · rw [sequencerOp_of_item h.grain, itemOp_eq_microOp (by rw [h.phase]; decide) (by rw [h.phase]; decide), h.phase]
    rfl
  · obtain ⟨rfl, -⟩ := (enterSequence_ends s).ok ht
    refine reaches_dvalidateOp ⟨h.script, h.grain, ?_, rfl⟩ hbusy
    rw [hop]
    rfl

/-- Settles O51: after the `CMD` write the items run the flow of `DECODE` (`reaches_decodeFlow`). -/
theorem itemStepsMakeTheDecode : Obligations.ItemStepsMakeTheDecode := by
  intro s v hscript hv hidle hgrain
  have hne : s.cfg.grain ≠ .command := by rw [hgrain]; decide
  have hop : commandOp v = .decode := if_pos hv
  have hstart := step_writeCmd_of_idle hidle hne hscript
  rw [hop] at hstart
  rw [execDecode_of_idle (s := { s with script := [] }) hidle]
  exact reaches_of_step hstart (reaches_decodeFlow ⟨rfl, hgrain, rfl, rfl⟩ rfl rfl)

end Sys2Proof.Machine
end

section
/-! Two runs of `DECODE` on the same input bytes (40_commands.md R138, R46, 70_reset_and_hazards.md R323). They agree step for
step: in what they read, in whether they raise, and in what they write. Where the operands lie, and what stands in `IN` and
`OUT` elsewhere, does not matter. What is claimed of the two `OUT` memories is a parameter, so the same lemmas say that a run
does not depend on `OUT` at all. -/

namespace Sys2Proof.Machine

open Sys2Proof.Safety

/-! ### Runs that agree -/

/-- Two runs that end in the same way: both go through, both raise the same fault, or both stop. -/
inductive Flow.Agree {α : Type} (R Q : α → α → Prop) : Flow α → Flow α → Prop
  | ok {a b : α} (h : R a b) : Flow.Agree R Q (.ok a) (.ok b)
  | raise {e : Err} {a b : α} (h : Q a b) : Flow.Agree R Q (.raise e a) (.raise e b)
  | stop (f g : Fault) : Flow.Agree R Q (.stop f) (.stop g)

section Agree

variable {α β : Type} {R R' Q Q' : α → α → Prop}

theorem Flow.Agree.andThen {x y : Flow α} {k l : α → Flow α} (h : x.Agree R Q y)
    (hk : ∀ a b, R a b → (k a).Agree R' Q (l b)) : (x.andThen k).Agree R' Q (y.andThen l) := by
  cases h with
  | ok h => exact hk _ _ h
  | raise h => exact .raise h
  | stop f g => exact .stop f g

theorem Flow.Agree.map {S T : β → β → Prop} {x y : Flow α} {g g' : α → β} (h : x.Agree R Q y)
    (hok : ∀ a b, R a b → S (g a) (g' b)) (hraise : ∀ a b, Q a b → T (g a) (g' b)) : (x.map g).Agree S T (y.map g') := by
  cases h with
  | ok h => exact .ok (hok _ _ h)
  | raise h => exact .raise (hraise _ _ h)
  | stop f g => exact .stop f g

theorem Flow.Agree.mono {x y : Flow α} (h : x.Agree R Q y) (hok : ∀ a b, R a b → R' a b) (hraise : ∀ a b, Q a b → Q' a b) :
    x.Agree R' Q' y := by
  cases h with
  | ok h => exact .ok (hok _ _ h)
  | raise h => exact .raise (hraise _ _ h)
  | stop f g => exact .stop f g

/-- What the first run keeps holds where both go through. -/
theorem Flow.Agree.and_keeps {P : α → Prop} {x y : Flow α} (h : x.Agree R Q y) (hx : x.Keeps P) :
    x.Agree (fun a b => R a b ∧ P a) Q y := by
  cases h with
  | ok h => exact .ok ⟨h, hx⟩
  | raise h => exact .raise h
  | stop f g => exact .stop f g

/-- Where one of two runs that agree goes through, the other does. -/
theorem Flow.Agree.ok_of_right {x y : Flow α} {b : α} (h : x.Agree R Q y) (hy : y = .ok b) : ∃ a, x = .ok a ∧ R a b := by
  subst hy
  cases h with
  | ok h => exact ⟨_, rfl, h⟩

theorem Flow.Agree.raise_of_right {x y : Flow α} {e : Err} {b : α} (h : x.Agree R Q y) (hy : y = .raise e b) :
    ∃ a, x = .raise e a ∧ Q a b := by
  subst hy
  cases h with
  | raise h => exact ⟨_, rfl, h⟩

end Agree

/-- A relation between two `OUT` memories below an address, kept when both are written there. -/
structure OutRelation (M : Memory → Memory → Nat → Prop) : Prop where
  mono : ∀ {m m' : Memory} {a b : Nat}, M m m' a → b ≤ a → M m m' b
  write : ∀ {m m' : Memory} {a : Nat} (v : Byte), M m m' a → M (Memory.write m a v) (Memory.write m' a v) (a + 1)

/-- No claim on the memories. -/
def AnyOut : Memory → Memory → Nat → Prop := fun _ _ _ => True

theorem outRelation_anyOut : OutRelation AnyOut := ⟨fun _ _ => trivial, fun _ _ => trivial⟩

/-- The memories hold the same bytes below an address. -/
def SameBelow (m m' : Memory) (a : Nat) : Prop :=
  Memory.wf m ∧ Memory.wf m' ∧ ∀ x < a, Memory.read m x = Memory.read m' x

theorem outRelation_sameBelow : OutRelation SameBelow where
  mono := fun ⟨hm, hm', hread⟩ hle => ⟨hm, hm', fun x hx => hread x (hx.trans_le hle)⟩
  write := by
    rintro m m' a v ⟨hm, hm', hread⟩
    refine ⟨Memory.write_wf hm a v, Memory.write_wf hm' a v, fun x hx => ?_⟩
    rw [Memory.read_write hm, Memory.read_write hm']
    split
    · rfl
    · exact hread x (by omega)

theorem outHas_congr {cfg cfg' : Config.Params} (h : cfg.outSize = cfg'.outSize) (a : Nat) : outHas cfg a = outHas cfg' a := by
  rw [outHas, outHas, h]

theorem exceedsOut_congr {cfg cfg' : Config.Params} (h : cfg.outSize = cfg'.outSize) (length : Nat) :
    exceedsOut cfg length = exceedsOut cfg' length := by
  rw [exceedsOut, exceedsOut, h]

/-- The same byte written to both memories. -/
theorem OutRelation.agree_writeOut {M : Memory → Memory → Nat → Prop} (hM : OutRelation M) {α : Type} {R Q : α → α → Prop}
    {cfg cfg' : Config.Params} (hsize : cfg.outSize = cfg'.outSize) {m m' : Memory} {a : Nat} (h : M m m' a) (v : Byte)
    {k l : Memory → Flow α} (hk : ∀ n n', M n n' (a + 1) → (k n).Agree R Q (l n')) :
    (Flow.access (writeOut cfg m a v) k).Agree R Q (Flow.access (writeOut cfg' m' a v) l) := by
  unfold writeOut
  rw [outHas_congr hsize]
  split
  · exact hk _ _ (hM.write v h)
  · exact .stop _ _

/-- The same bytes written to both memories. -/
theorem OutRelation.agree_writeOutBytes {M : Memory → Memory → Nat → Prop} (hM : OutRelation M) {α : Type}
    {R Q : α → α → Prop} {cfg cfg' : Config.Params} (hsize : cfg.outSize = cfg'.outSize) (vs : List Byte) {m m' : Memory}
    {a : Nat} (h : M m m' a) {k l : Memory → Flow α} (hk : ∀ n n', M n n' (a + vs.length) → (k n).Agree R Q (l n')) :
    (Flow.access (writeOutBytes cfg m a vs) k).Agree R Q (Flow.access (writeOutBytes cfg' m' a vs) l) := by
  induction vs generalizing m m' a with
  | nil => exact hk _ _ h
  | cons v vs ih =>
    unfold writeOutBytes writeOut
    rw [outHas_congr hsize]
    split
    · next hwrite =>
      split at hwrite
      · next hhas =>
        obtain rfl := Except.ok.inj hwrite
        rw [if_pos hhas]
        exact ih (hM.write v h) fun n n' hn => hk n n' (by rwa [List.length_cons, Nat.add_comm vs.length, ← Nat.add_assoc])
      · cases hwrite
    · next hwrite =>
      split at hwrite
      · cases hwrite
      · next hhas =>
        rw [if_neg hhas]
        exact .stop _ _

/-! ### Two commands on the same input -/

/-- Two running commands with the same operation, the same input bytes, and the same parameters but `INSIZE`. -/
structure SameInput (s t : State) : Prop where
  outSize : s.cfg.outSize = t.cfg.outSize
  maxCodeLen : s.cfg.maxCodeLen = t.cfg.maxCodeLen
  op : s.op = t.op
  len : s.len = t.len
  input : ∀ i < s.len.toNat, Memory.read s.inMem (s.off.toNat + i) = Memory.read t.inMem (t.off.toNat + i)
  inRange : s.off.toNat + s.len.toNat ≤ s.cfg.inSize
  inRange' : t.off.toNat + t.len.toNat ≤ t.cfg.inSize

/-- What the host sees of the status while a command runs. -/
def SameStatus (s t : State) : Prop := s.status = t.status ∧ s.expLen = t.expLen

/-- The parts `SameInput` speaks of. -/
def inputView (s : State) := (s.cfg, s.inMem, s.op, s.off, s.len)

theorem SameInput.of_view {s t s' t' : State} (h : SameInput s t) (hs : inputView s' = inputView s)
    (ht : inputView t' = inputView t) : SameInput s' t' := by
  simp only [inputView, Prod.mk.injEq] at hs ht
  obtain ⟨hcfg, hin, hop, hoff, hlen⟩ := hs
  obtain ⟨hcfg', hin', hop', hoff', hlen'⟩ := ht
  constructor
  · rw [hcfg, hcfg', h.outSize]
  · rw [hcfg, hcfg', h.maxCodeLen]
  · rw [hop, hop', h.op]
  · rw [hlen, hlen', h.len]
  · rw [hlen, hin, hin', hoff, hoff']
    exact h.input
  · rw [hcfg, hoff, hlen]
    exact h.inRange
  · rw [hcfg', hoff', hlen']
    exact h.inRange'

theorem SameInput.inputOf_eq {s t : State} (h : SameInput s t) : inputOf s = inputOf t := by
  rw [inputOf, inputOf, ← h.len]
  exact List.map_congr_left fun i hi => h.input i (List.mem_range.1 hi)

/-- A byte of the input is read, the same in both. -/
theorem SameInput.readIn_left {s t : State} (h : SameInput s t) {i : Nat} (hi : i < s.len.toNat) :
    readIn s (s.off.toNat + i) = .ok (Memory.read s.inMem (s.off.toNat + i)) :=
  readIn_ok (by have := h.inRange; omega)

theorem SameInput.readIn_right {s t : State} (h : SameInput s t) {i : Nat} (hi : i < s.len.toNat) :
    readIn t (t.off.toNat + i) = .ok (Memory.read s.inMem (s.off.toNat + i)) := by
  rw [h.input i hi]
  rw [h.len] at hi
  exact readIn_ok (by have := h.inRange'; omega)

/-- What a command leaves when it ends: the same in both, and the `OUT` memories related below `OUT_LEN`. -/
structure SameResult (M : Memory → Memory → Nat → Prop) (s t : State) : Prop where
  status : s.status = t.status
  outLen : s.outLen = t.outLen
  expLen : s.expLen = t.expLen
  out : M s.outMem t.outMem s.outLen.toNat

theorem toNat_one_le (w : Nat) : (1 : BitVec w).toNat ≤ 1 := (BitVec.toNat_ofNat 1 w).trans_le (Nat.mod_le _ _)

theorem toNat_add_one_le {w : Nat} (x : BitVec w) : (x + 1).toNat ≤ x.toNat + 1 := by
  rw [BitVec.toNat_add]
  exact (Nat.mod_le _ _).trans (Nat.add_le_add_left (toNat_one_le w) _)

section Decode

variable {M : Memory → Memory → Nat → Prop}

/-! ### DVALIDATE (R251) -/

/-- Two validations that stand at the same statement, and know their input to hold `need` bytes. -/
structure SameValidation (M : Memory → Memory → Nat → Prop) (need : Nat) (s t : State) : Prop extends SameInput s t where
  status : SameStatus s t
  out : M s.outMem t.outMem 0
  size : need ≤ s.len.toNat

/-- What `DVALIDATE` hands to `DWALK`: the bound, the length and the place of the payload (R251). -/
structure SameTable (M : Memory → Memory → Nat → Prop) (s t : State) : Prop extends SameInput s t where
  status : SameStatus s t
  out : M s.outMem t.outMem 0
  cnt : s.cnt = t.cnt
  explen : s.explen = t.explen
  boot : s.boot = t.boot
  ng : s.ng = t.ng
  table : tableEnd s ≤ s.len.toNat
  pay : s.pay.toNat = s.off.toNat + tableEnd s
  pay' : t.pay.toNat = t.off.toNat + tableEnd s
  payload : tableEnd s + 4 * s.ng.toNat ≤ s.len.toNat

theorem SameInput.len_toNat {s t : State} (h : SameInput s t) : s.len.toNat = t.len.toNat := congrArg BitVec.toNat h.len

theorem lengthTests_agree {s t : State} (h : SameValidation M 0 s t) :
    (lengthTests s).Agree (SameValidation M 6) SameStatus (lengthTests t) := by
  unfold lengthTests
  rw [← h.len_toNat]
  split
  · exact .raise h.status
  · split
    · exact .raise h.status
    · next h6 => exact .ok ⟨h.of_view rfl rfl, h.status, h.out, not_lt.1 h6⟩

/-- After the count byte: the bound is the same, and the table is all there. -/
def AfterCount (M : Memory → Memory → Nat → Prop) (s t : State) : Prop :=
  SameValidation M (tableEnd s) s t ∧ s.cnt = t.cnt

theorem countItem_agree {s t : State} (h : SameValidation M 6 s t) (b : Byte) :
    (countItem b s).Agree (AfterCount M) SameStatus (countItem b t) := by
  obtain ⟨hlt, hs⟩ | ⟨hle, hs⟩ := countItem_cases b s
  · obtain ⟨-, ht⟩ | ⟨hle, -⟩ := countItem_cases b t
    · rw [hs, ht]
      exact .raise h.status
    · exact absurd (h.len_toNat ▸ hlt) (not_lt.2 hle)
  · obtain ⟨hlt, -⟩ | ⟨-, ht⟩ := countItem_cases b t
    · exact absurd (h.len_toNat ▸ hle) (not_le.2 hlt)
    · rw [hs, ht]
      exact .ok ⟨⟨h.of_view rfl rfl, h.status, h.out, hle⟩, rfl⟩

theorem readCount_agree {s t : State} (h : SameValidation M 6 s t) :
    (readCount s).Agree (AfterCount M) SameStatus (readCount t) := by
  have hsize : 4 < s.len.toNat := lt_of_lt_of_le (by decide) h.size
  rw [readCount, readCount, countAddress, countAddress, h.readIn_left hsize, h.readIn_right hsize]
  exact countItem_agree h _

/-- After the header: the length is the same too. -/
def AfterHeader (M : Memory → Memory → Nat → Prop) (s t : State) : Prop := AfterCount M s t ∧ s.explen = t.explen

theorem headerItem_agree {s t : State} (h : AfterCount M s t) (tag : Byte) (len : BitVec 24) :
    (headerItem tag len s).Agree (AfterHeader M) SameStatus (headerItem tag len t) := by
  obtain ⟨hval, hcnt⟩ := h
  unfold headerItem
  rw [exceedsOut_congr hval.outSize]
  split
  · exact .raise hval.status
  · split
    · exact .raise hval.status
    · exact .ok ⟨⟨⟨hval.of_view rfl rfl, hval.status, hval.out, hval.size⟩, hcnt⟩, rfl⟩

theorem tableEnd_ge (s : State) : 6 ≤ tableEnd s := Nat.le_add_right _ _

theorem readHeader_agree {s t : State} (h : AfterCount M s t) :
    (readHeader s).Agree (AfterHeader M) SameStatus (readHeader t) := by
  have hval := h.1
  have hsize := hval.size
  have hge := tableEnd_ge s
  have hs := hval.inRange
  have ht := hval.inRange'
  have hlen := hval.len_toNat
  have hbyte (i : Nat) (hi : i < 4) := hval.input i (by omega)
  have hbyte0 := hbyte 0 (by decide)
  rw [Nat.add_zero, Nat.add_zero] at hbyte0
  rw [readHeader_ok (by omega), readHeader_ok (s := t) (by omega), ← hbyte0, ← hbyte 1 (by decide), ← hbyte 2 (by decide),
    ← hbyte 3 (by decide)]
  exact headerItem_agree h _ _

theorem readBoot_agree {s t : State} (h : AfterHeader M s t) :
    (readBoot s).Agree (SameTable M) SameStatus (readBoot t) := by
  obtain ⟨⟨hval, hcnt⟩, hexplen⟩ := h
  have hsize := hval.size
  have hge := tableEnd_ge s
  have hlen := hval.len_toNat
  have htable : tableEnd t = tableEnd s := by rw [tableEnd, tableEnd, hcnt]
  have hoff := s.off.isLt
  have hoff' := t.off.isLt
  have hlt := s.len.isLt
  have hpay : (BitVec.ofNat 33 (s.off.toNat + tableEnd s)).toNat = s.off.toNat + tableEnd s := by
    rw [BitVec.toNat_ofNat]
    omega
  have hpay' : (BitVec.ofNat 33 (t.off.toNat + tableEnd t)).toNat = t.off.toNat + tableEnd s := by
    rw [BitVec.toNat_ofNat, htable]
    omega
  have hng : (BitVec.ofNat 30 ((s.len.toNat - tableEnd s) / 4)).toNat = (s.len.toNat - tableEnd s) / 4 := by
    rw [BitVec.toNat_ofNat]
    omega
  rw [readBoot, readBoot, bootAddress, bootAddress, hval.readIn_left (i := 5) (by omega), hval.readIn_right (i := 5) (by omega)]
  refine .ok ⟨hval.of_view rfl rfl, ⟨?_, ?_⟩, hval.out, hcnt, hexplen, rfl, ?_, hsize, hpay, hpay', ?_⟩
  · rw [bootItem_status, bootItem_status, hval.status.1]
  · rw [bootItem_expLen, bootItem_expLen, hexplen]
  · rw [bootItem_ng, bootItem_ng, htable, hlen]
  · change tableEnd s + 4 * (BitVec.ofNat 30 ((s.len.toNat - tableEnd s) / 4)).toNat ≤ s.len.toNat
    rw [hng]
    omega

theorem dvalidateOp_agree {s t : State} (h : SameValidation M 0 s t) :
    (dvalidateOp s).Agree (SameTable M) SameStatus (dvalidateOp t) :=
  (((lengthTests_agree h).andThen fun _ _ => readCount_agree).andThen fun _ _ => readHeader_agree).andThen
    fun _ _ => readBoot_agree

/-! ### DWALK (R255 to R262) -/

/-- Two walks that stand at the same place, with `left` whole groups left. -/
structure SameWalk (M : Memory → Memory → Nat → Prop) (left : Nat) (s t : State) : Prop extends SameTable AnyOut s t where
  cur : s.cur = t.cur
  pos : s.pos = t.pos
  outcnt : s.outcnt = t.outcnt
  g : s.g = t.g
  written : M s.outMem t.outMem s.outcnt.toNat
  left : s.g.toNat + left = s.ng.toNat

/-- Two walks inside a group, at the same bit of it. -/
structure SameBits (M : Memory → Memory → Nat → Prop) (left : Nat) (s t : State) : Prop extends SameWalk M left s t where
  w : s.w = t.w
  k : s.k = t.k

theorem SameTable.walkStart {s t : State} (h : SameTable M s t) :
    SameWalk M s.ng.toNat (walkStart s) (walkStart t) :=
  ⟨⟨h.of_view rfl rfl, h.status, trivial, h.cnt, h.explen, h.boot, h.ng, h.table, h.pay, h.pay', h.payload⟩, h.boot, rfl, rfl,
    rfl, h.out, Nat.zero_add _⟩

/-- Only the walk's own registers differ from what `SameTable` speaks of. -/
theorem SameTable.of_walkKeeps {N : Memory → Memory → Nat → Prop} {s t s' t' : State} (h : SameTable N s t) (hs : WalkKeeps s s')
    (ht : WalkKeeps t t') : SameTable AnyOut s' t' := by
  have htable : tableEnd s' = tableEnd s := by rw [tableEnd, tableEnd, hs.cnt]
  refine ⟨h.of_view ?_ ?_, ⟨?_, ?_⟩, trivial, ?_, ?_, ?_, ?_, ?_, ?_, ?_, ?_⟩
  · rw [hs]
    rfl
  · rw [ht]
    rfl
  · rw [hs.status, ht.status, h.status.1]
  · rw [hs.expLen, ht.expLen, h.status.2]
  · rw [hs.cnt, ht.cnt, h.cnt]
  · rw [hs.explen, ht.explen, h.explen]
  · rw [hs.boot, ht.boot, h.boot]
  · rw [hs.ng, ht.ng, h.ng]
  · rw [htable, hs.len]
    exact h.table
  · rw [htable, hs.pay, hs.off]
    exact h.pay
  · rw [htable, ht.pay, ht.off]
    exact h.pay'
  · rw [htable, hs.ng, hs.len]
    exact h.payload

theorem readGroup_agree {left : Nat} {s t : State} (h : SameWalk M (left + 1) s t) :
    (readGroup s).Agree (SameBits M left) SameStatus (readGroup t) := by
  have hleft := h.left
  have hpayload := h.payload
  have hs := h.inRange
  have ht := h.inRange'
  have hlen := h.len_toNat
  have hpay := h.pay
  have hpay' := h.pay'
  have hread (j : Nat) (hj : j < 4) :
      Memory.read s.inMem (groupAddress s + j) = Memory.read t.inMem (groupAddress t + j) := by
    have haddr : groupAddress s + j = s.off.toNat + (tableEnd s + 4 * s.g.toNat + j) := by
      rw [groupAddress]
      omega
    have haddr' : groupAddress t + j = t.off.toNat + (tableEnd s + 4 * s.g.toNat + j) := by
      rw [groupAddress, ← h.g]
      omega
    rw [haddr, haddr']
    exact h.input _ (by omega)
  have hend : groupAddress s + 4 ≤ s.cfg.inSize := by
    rw [groupAddress]
    omega
  have hend' : groupAddress t + 4 ≤ t.cfg.inSize := by
    rw [groupAddress, ← h.g]
    omega
  have hword : wordAt s.inMem (groupAddress s) = wordAt t.inMem (groupAddress t) := by
    rw [wordAt, wordAt, hread 0 (by decide), hread 1 (by decide), hread 2 (by decide), hread 3 (by decide)]
  rw [readGroup_ok hend, readGroup_ok hend', ← hword]
  refine .ok ⟨⟨h.toSameTable.of_walkKeeps rfl rfl, h.cur, h.pos, h.outcnt, congrArg (· + 1) h.g, h.written, ?_⟩, rfl, rfl⟩
  rw [groupItem_g, groupItem_ng, toNat_succ_group (by omega)]
  omega

/-- The byte of the table that a step inside the bound reads, the same in both. -/
theorem SameWalk.readIn_table {left : Nat} {s t : State} (h : SameWalk M left s t) (hp : nextPosition s ≤ s.cnt.toNat)
    (b : Bool) : ∃ e, readIn (moved s) (tableAddress (moved s) b) = .ok e ∧
      readIn (moved t) (tableAddress (moved t) b) = .ok e := by
  have htable : 6 + 2 * s.cnt.toNat ≤ s.len.toNat := h.table
  have hnext : nextPosition t = nextPosition s := by rw [nextPosition, nextPosition, h.pos, h.cur]
  have hbit := Bool.toNat_lt b
  have hpos : (BitVec.ofNat 9 (nextPosition s)).toNat = nextPosition s := by
    have := s.cnt.isLt
    rw [BitVec.toNat_ofNat]
    omega
  have hindex : 4 + 2 * nextPosition s + b.toNat < s.len.toNat := by omega
  have haddr : tableAddress (moved s) b = s.off.toNat + (4 + 2 * nextPosition s + b.toNat) := by
    change s.off.toNat + 4 + 2 * (BitVec.ofNat 9 (nextPosition s)).toNat + b.toNat = _
    rw [hpos]
    omega
  have haddr' : tableAddress (moved t) b = t.off.toNat + (4 + 2 * nextPosition s + b.toNat) := by
    change t.off.toNat + 4 + 2 * (BitVec.ofNat 9 (nextPosition t)).toNat + b.toNat = _
    rw [hnext, hpos]
    omega
  rw [haddr, haddr']
  exact ⟨_, h.readIn_left hindex, h.readIn_right hindex⟩

theorem leafItem_agree {left : Nat} {s t : State} (hM : OutRelation M) (h : SameBits M left s t) (e : Byte) :
    (leafItem e s).Agree (SameBits M left) SameStatus (leafItem e t) := by
  rw [leafItem, leafItem, ← h.outcnt]
  refine hM.agree_writeOut h.outSize h.written e fun n n' hn => .ok ⟨⟨h.toSameTable.of_walkKeeps rfl rfl, h.boot, rfl, rfl,
    h.g, hM.mono hn (toNat_add_one_le _), h.left⟩, h.w, h.k⟩

theorem SameBits.moved {left : Nat} {s t : State} (h : SameBits M left s t) : SameBits M left (moved s) (moved t) :=
  ⟨⟨h.toSameTable.of_walkKeeps rfl rfl, h.cur,
    congrArg (BitVec.ofNat 9) (by rw [nextPosition, nextPosition, h.pos, h.cur]), h.outcnt, h.g, h.written, h.left⟩, h.w,
    congrArg (· - 1) h.k⟩

theorem stepBit_agree {left : Nat} {s t : State} (hM : OutRelation M) (h : SameBits M left s t) :
    (stepBit s).Agree (SameBits M left) SameStatus (stepBit t) := by
  have hmoved := h.moved
  have hnext : nextPosition t = nextPosition s := by rw [nextPosition, nextPosition, h.pos, h.cur]
  have hbit : nextBit t = nextBit s := by rw [nextBit, nextBit, h.w, h.k]
  by_cases hp : nextPosition s ≤ s.cnt.toNat
  · obtain ⟨e, hs, ht⟩ := h.readIn_table hp (nextBit s)
    have hp' : nextPosition t ≤ t.cnt.toNat := by rwa [hnext, ← h.cnt]
    rw [stepBit, stepBit, advance_ok hp, advance_ok hp', Flow.andThen_ok, Flow.andThen_ok, hbit]
    change (interpret (nextBit s) (Machine.moved s)).Agree _ _ (interpret (nextBit s) (Machine.moved t))
    rw [interpret, interpret, hs, ht, Flow.access_ok, Flow.access_ok, hmoved.cur]
    split
    · exact leafItem_agree hM hmoved e
    · exact .ok ⟨⟨hmoved.toSameTable.of_walkKeeps rfl rfl, rfl, hmoved.pos, hmoved.outcnt, hmoved.g, hmoved.written,
        hmoved.left⟩, hmoved.w, hmoved.k⟩
  · have hlt := not_le.1 hp
    rw [stepBit_past hlt, stepBit_past (s := t) (by rwa [hnext, ← h.cnt])]
    exact .raise hmoved.status

theorem walkBits_agree {left : Nat} (hM : OutRelation M) (count : Nat) {s t : State} (h : SameBits M left s t) :
    (walkBits count s).Agree (SameWalk M left) SameStatus (walkBits count t) := by
  induction count generalizing s t with
  | zero => exact .ok h.toSameWalk
  | succ count ih =>
    rw [walkBits, walkBits, ← h.outcnt, ← h.explen]
    split
    · exact .ok h.toSameWalk
    · exact (stepBit_agree hM h).andThen fun _ _ => ih

theorem SameWalk.shortOf_eq {left : Nat} {s t : State} (h : SameWalk M left s t) : shortOf s = shortOf t := by
  rw [shortOf, shortOf, h.outcnt, h.explen]

/-- Some number of groups is left. -/
def WalkEnded (M : Memory → Memory → Nat → Prop) (s t : State) : Prop := ∃ left, SameWalk M left s t

theorem walkGroups_agree (hM : OutRelation M) (left : Nat) {s t : State} (h : SameWalk M left s t) :
    (walkGroups left s).Agree (WalkEnded M) SameStatus (walkGroups left t) := by
  induction left generalizing s t with
  | zero => exact .ok ⟨0, h⟩
  | succ left ih =>
    rw [walkGroups, walkGroups, h.shortOf_eq]
    split
    · exact ((readGroup_agree h).andThen fun _ _ => walkBits_agree hM 32).andThen fun _ _ => ih
    · exact .ok ⟨_, h⟩

theorem finishWalk_same {s t : State} (hM : OutRelation M) (h : WalkEnded M s t) (hop : s.op = .decode) :
    SameResult M (finishWalk s) (finishWalk t) := by
  obtain ⟨left, h⟩ := h
  have hop' : t.op = .decode := h.op ▸ hop
  have hpay := h.pay
  have hpay' := h.pay'
  have hlen := h.len_toNat
  have htrailing : trailingOf s = trailingOf t := by
    rw [trailingOf, trailingOf, ← h.g]
    exact decide_eq_decide.2 (by omega)
  have hout : (finishWalk s).outLen = s.outcnt.setWidth 32 := by rw [finishWalk_outLen, hop]
  have hout' : (finishWalk t).outLen = t.outcnt.setWidth 32 := by rw [finishWalk_outLen, hop']
  refine ⟨?_, ?_, h.status.2, hM.mono h.written ?_⟩
  · rw [finishWalk_status, finishWalk_status, h.status.1, h.shortOf_eq, htrailing]
  · rw [hout, hout', h.outcnt]
  · rw [hout, BitVec.toNat_setWidth]
    exact Nat.mod_le _ _

theorem dwalkOp_agree {s t : State} (hM : OutRelation M) (h : SameTable M s t) (hop : s.op = .decode) :
    (dwalkOp s).Agree (SameResult M) SameStatus (dwalkOp t) := by
  rw [dwalkOp, dwalkOp, ← h.ng]
  refine ((walkGroups_agree hM s.ng.toNat h.walkStart).and_keeps (walkGroups_walkKeeps s.ng.toNat (walkStart s))).andThen
    fun a b hab => .ok (finishWalk_same hM hab.1 ?_)
  rw [hab.2.op, walkStart_op, hop]

end Decode

end Sys2Proof.Machine
end

section
/-! `DECODE` as a whole (40_commands.md R137, R138, 60_exceptions.md R280, R282): O44 and O45. -/

namespace Sys2Proof.Machine

open Sys2Proof.Safety

/-! ### The faults of DECODE -/

/-- The faults `DECODE` can end in (R280). -/
def decodeErrs : List Err :=
  [.badRange, .truncatedHeader, .truncatedTable, .badFormatTag, .outOverflow, .positionOutOfTree]

theorem mem_decodeErrs_of_dvalidate {e : Err} (h : e ∈ dvalidateErrs) : e ∈ decodeErrs := by
  revert e
  decide

/-- `DECODE` goes through to `DONE`, or raises one of its faults, and but for `PositionOutOfTree` before `OUT` is written
(R140, R282). -/
theorem decodeFlow_ends (s : State) :
    (decodeFlow s).Ends (fun t => t.status.state = .done)
      fun e u => e ∈ decodeErrs ∧ (e ≠ .positionOutOfTree → u.outMem = s.outMem) := by
  rw [decodeFlow, Flow.andThen_assoc]
  refine (enterSequence_ends s).seq ?_ ?_
  · rintro _ _ ⟨rfl, rfl⟩
    exact ⟨by decide, fun _ => rfl⟩
  · rintro _ ⟨rfl, -⟩
    refine (dvalidateOp_ends _).seq ?_ fun u _ => (dwalkOp_ends u).mono ?_ ?_
    · rintro e u ⟨he, hu⟩
      exact ⟨mem_decodeErrs_of_dvalidate he, fun _ => hu.outMem⟩
    · rintro _ ⟨w, -, rfl⟩
      rw [finishWalk_status]
    · rintro _ _ ⟨rfl, -⟩
      exact ⟨by decide, fun hne => absurd rfl hne⟩

/-! ### Ends of DECODE on an input in range -/

theorem decodeFlow_of_range {s : State} (hop : s.op = .decode) (hrange : s.off.toNat + s.len.toNat ≤ s.cfg.inSize) :
    decodeFlow s = (dvalidateOp (enterPhase .dvalidate s)).andThen dwalkOp := by
  have henter : enterSequence s = .ok (enterPhase .dvalidate s) := by
    rw [enterSequence, if_neg (not_lt.2 hrange), hop]
    rfl
  rw [decodeFlow, henter, Flow.andThen_ok]

/-- `DVALIDATE` of an input in range raises, or leaves what `Validated` says of a table that is all there and a length that
fits (R251). -/
theorem dvalidateOp_cases {s : State} (hrange : s.off.toNat + s.len.toNat ≤ s.cfg.inSize) :
    (∃ e u, dvalidateOp s = .raise e u) ∨ ∃ t, dvalidateOp s = .ok t ∧ Validated s t ∧
      6 + 2 * (countByte s).toNat ≤ s.len.toNat ∧ fitsOut s.cfg (headerLength s).toNat := by
  by_cases h4 : s.len.toNat < 4
  · exact .inl ⟨_, _, by rw [dvalidateOp, lengthTests, if_pos h4]; rfl⟩
  by_cases h6 : s.len.toNat < 6
  · exact .inl ⟨_, _, by rw [dvalidateOp, lengthTests, if_neg h4, if_pos h6]; rfl⟩
  obtain ⟨-, hraise⟩ | ⟨hle, -⟩ := countItem_cases (countByte s) { s with point := .count }
  · exact .inl ⟨_, _, by rw [dvalidateOp_of_count hrange (not_lt.1 h6), hraise]; rfl⟩
  obtain ⟨-, hraise⟩ | ⟨-, -, hraise⟩ | ⟨htag, hfits, -⟩ := headerItem_cases (Memory.read s.inMem s.off.toNat)
    (headerLength s) { s with cnt := countByte s, point := .header }
  · exact .inl ⟨_, _, by rw [dvalidateOp_of_table hrange hle, hraise]; rfl⟩
  · exact .inl ⟨_, _, by rw [dvalidateOp_of_table hrange hle, hraise]; rfl⟩
  · have hfits := exceedsOut_eq_false.1 hfits
    obtain ⟨t, hrun, hvalid⟩ := dvalidateOp_ok hrange hle htag hfits
    exact .inr ⟨t, hrun, hvalid, hle, hfits⟩

/-- After `DVALIDATE` the walk can run (R251, R254). -/
theorem Validated.walkReady {s t : State} (h : Validated s t) (hrange : s.off.toNat + s.len.toNat ≤ s.cfg.inSize)
    (htable : 6 + 2 * (countByte s).toNat ≤ s.len.toNat) (hfits : fitsOut s.cfg (headerLength s).toNat)
    (hwf : Memory.wf s.outMem) : WalkReady (walkStart t) := by
  have hcnt : t.cnt.toNat = (countByte s).toNat := congrArg BitVec.toNat h.cnt
  have hpay := h.pay
  have hng := h.ng
  refine ⟨?_, ?_, ?_, Nat.zero_le _, ?_⟩
  · rw [walkStart_off, walkStart_cnt, walkStart_cfg, h.off, h.cfg]
    omega
  · rw [walkStart_pay, walkStart_ng, walkStart_cfg, h.cfg]
    omega
  · rw [walkStart_explen, walkStart_cfg, h.explen, h.cfg]
    exact hfits
  · rw [walkStart_outMem, h.outMem]
    exact hwf

/-- The end of a walk that has not emitted too much: `OUT_LEN` is at most `EXP_LEN`, and equal when `SHORT` is clear (R138). -/
theorem finishWalk_lengths {t : State} (hop : t.op = .decode) (hexp : t.expLen = t.explen.setWidth 32)
    (hle : t.outcnt.toNat ≤ t.explen.toNat) :
    (finishWalk t).outLen.toNat ≤ (finishWalk t).expLen.toNat ∧
      ((finishWalk t).outLen = (finishWalk t).expLen ↔ (finishWalk t).status.short = false) := by
  have hout : (finishWalk t).outLen.toNat = t.outcnt.toNat := by
    have := t.outcnt.isLt
    simp only [finishWalk_outLen, hop, BitVec.toNat_setWidth]
    omega
  have hexplen : (finishWalk t).expLen.toNat = t.explen.toNat := by
    have := t.explen.isLt
    rw [finishWalk_expLen, hexp, BitVec.toNat_setWidth]
    omega
  have hshort : (finishWalk t).status.short = false ↔ t.explen.toNat ≤ t.outcnt.toNat := by
    rw [finishWalk_status]
    change shortOf t = false ↔ _
    rw [shortOf, decide_eq_false_iff_not, not_lt]
  refine ⟨by rwa [hout, hexplen], ?_⟩
  rw [hshort, ← BitVec.toNat_inj, hout, hexplen]
  omega

/-- What `DECODE` leaves when it goes through: the status of a command that is done, and the two lengths (R138, R140). -/
structure Decoded (s v : State) : Prop where
  status : v.status = { s.status with phase := .none, state := .done, short := v.status.short, trailing := v.status.trailing }
  outLen_le : v.outLen.toNat ≤ v.expLen.toNat
  short : v.outLen = v.expLen ↔ v.status.short = false

/-- `DECODE` of an input in range raises or goes through, when `OUT` is in canonical form. -/
theorem decodeFlow_cases {s : State} (hop : s.op = .decode) (hrange : s.off.toNat + s.len.toNat ≤ s.cfg.inSize)
    (hwf : Memory.wf s.outMem) : (∃ e u, decodeFlow s = .raise e u) ∨ ∃ v, decodeFlow s = .ok v ∧ Decoded s v := by
  rw [decodeFlow_of_range hop hrange]
  obtain ⟨e, u, hraise⟩ | ⟨t, hrun, hvalid, htable, hfits⟩ := dvalidateOp_cases (s := enterPhase .dvalidate s) hrange
  · exact .inl ⟨e, u, by rw [hraise, Flow.andThen_raise]⟩
  have hready := hvalid.walkReady hrange htable hfits hwf
  rw [hrun, Flow.andThen_ok]
  cases hwalk : payloadWalk t with
  | none =>
    obtain ⟨u, hraise, -⟩ := dwalkOp_raise hready hwalk
    exact .inl ⟨_, u, hraise⟩
  | some result =>
    obtain ⟨out, used⟩ := result
    obtain ⟨w, hdone, hemit, -⟩ := dwalkOp_ok hready hwalk
    have hkeeps := hemit.keeps
    have hkept : w.outcnt.toNat ≤ w.explen.toNat := by
      have hloops := (walkGroups_outKept t.ng.toNat (s := walkStart t) (Nat.zero_le _) hready.wf).andThen
        (k := fun u => .ok (finishWalk u)) (fun _ h => h) fun a (ha : OutKept (walkStart t) a) =>
          (⟨ha.count, ha.within, ha.wf, ha.beyond⟩ : OutKept (walkStart t) (finishWalk a))
      exact (hloops.ends.ok hdone).within
    have hexp : w.expLen = w.explen.setWidth 32 := by
      rw [hkeeps.expLen, hkeeps.explen, walkStart_expLen, walkStart_explen, hvalid.expLen]
    have hwop : w.op = .decode := by rw [hkeeps.op, walkStart_op, hvalid.op, enterPhase_op, hop]
    obtain ⟨hle, hshort⟩ := finishWalk_lengths hwop hexp hkept
    refine .inr ⟨_, hdone, ?_, hle, hshort⟩
    rw [finishWalk_status, hkeeps.status, walkStart_status, hvalid.status, enterPhase_status]

/-! ### DECODE does not look at OUT -/

/-- The state with an empty `OUT`. -/
def withoutOut (s : State) : State := { s with outMem := [] }

theorem SameInput.withoutOut {s : State} (hrange : s.off.toNat + s.len.toNat ≤ s.cfg.inSize) :
    SameInput s (withoutOut s) := ⟨rfl, rfl, rfl, rfl, fun _ _ => rfl, hrange, hrange⟩

/-- Two runs of `DECODE` on the same input in range agree. -/
theorem decodeFlow_agree {M : Memory → Memory → Nat → Prop} (hM : OutRelation M) {s t : State} (h : SameInput s t)
    (hop : s.op = .decode) (hstatus : SameStatus s t) (hout : M s.outMem t.outMem 0) :
    (decodeFlow s).Agree (SameResult M) SameStatus (decodeFlow t) := by
  rw [decodeFlow_of_range hop h.inRange, decodeFlow_of_range (h.op ▸ hop) h.inRange']
  have hval : SameValidation M 0 (enterPhase .dvalidate s) (enterPhase .dvalidate t) :=
    ⟨h.of_view rfl rfl, ⟨by rw [enterPhase_status, enterPhase_status, hstatus.1], hstatus.2⟩, hout, Nat.zero_le _⟩
  refine ((dvalidateOp_agree hval).and_keeps
    (P := fun a => a.op = .decode) (((dvalidateOp_ends _).keeps (P' := fun a => a.op = .decode) ?_ ?_))).andThen
    fun a b hab => dwalkOp_agree hM hab.1 hab.2
  · rintro _ ⟨u, e, hu, rfl⟩
    rw [bootItem_op, hu]
    exact hop
  · rintro e u ⟨-, hu⟩
    rw [hu]
    exact hop

/-- `DECODE` of an input in range raises or goes through, whatever `OUT` holds. -/
theorem decodeFlow_cases_of_range {s : State} (hop : s.op = .decode) (hrange : s.off.toNat + s.len.toNat ≤ s.cfg.inSize) :
    (∃ e u, decodeFlow s = .raise e u) ∨ ∃ v, decodeFlow s = .ok v ∧ Decoded s v := by
  have hagree := decodeFlow_agree outRelation_anyOut (SameInput.withoutOut hrange) hop ⟨rfl, rfl⟩ trivial
  obtain ⟨e, u, hraise⟩ | ⟨v, hok, hv⟩ := decodeFlow_cases (s := withoutOut s) hop hrange Memory.wf_nil
  · obtain ⟨u', hraise', -⟩ := hagree.raise_of_right hraise
    exact .inl ⟨e, u', hraise'⟩
  · obtain ⟨v', hok', hsame⟩ := hagree.ok_of_right hok
    refine .inr ⟨v', hok', ?_, ?_, ?_⟩
    · rw [hsame.status]
      exact hv.status
    · rw [hsame.outLen, hsame.expLen]
      exact hv.outLen_le
    · rw [hsame.outLen, hsame.expLen, hsame.status]
      exact hv.short

/-- Settles O44: out of range the fault is `BadRange`; in range `DECODE` raises one of its faults or goes through
(`decodeFlow_cases_of_range`). -/
theorem decodeEndsInDoneOrFault : Obligations.DecodeEndsInDoneOrFault := by
  intro s _ hidle
  rw [execDecode_of_idle hidle]
  have herrs := Flow.ends_iff.1 (decodeFlow_ends (startCommand .decode s))
  by_cases hrange : s.srcOff.toNat + s.srcLen.toNat ≤ s.cfg.inSize
  · obtain ⟨e, u, hraise⟩ | ⟨v, hok, hv⟩ := decodeFlow_cases_of_range (s := startCommand .decode s) rfl hrange
    · exact ⟨_, by rw [hraise, Flow.finish_raise], .inr ⟨rfl, rfl, (herrs.2 e u hraise).1⟩⟩
    · exact ⟨v, by rw [hok, Flow.finish_ok], .inl ⟨_, _, hv.status, hv.outLen_le, hv.short⟩⟩
  · exact ⟨_, decodeFlow_checksRange.finish_of_out_of_range .decode (not_le.1 hrange), .inr ⟨rfl, rfl, (by decide : Err.badRange ∈ decodeErrs)⟩⟩

/-! ### DECODE of a valid buffer (R137, R138, R262) -/

/-- Settles O45: `DVALIDATE` hands the walk its table and payload (`dvalidateOp_ok`), and the walk emits its bytes
(`dwalkOp_ok`). -/
theorem decodeOfAValidBufferCompletes : Obligations.DecodeOfAValidBufferCompletes := by
  intro s out used byte size want hidle hwf _ hrange hsize htag hfits hwalk
  obtain ⟨t, hval, hvalid⟩ := dvalidateOp_ok (s := enterPhase .dvalidate (startCommand .decode s)) hrange hsize htag hfits
  have hready := hvalid.walkReady hrange hsize hfits hwf
  have hcnt : t.cnt = byte 4 := hvalid.cnt
  have hpay : t.pay.toNat = s.srcOff.toNat + size := hvalid.pay.trans (by rw [hcnt]; rfl)
  have hng : t.ng.toNat = (s.srcLen.toNat - size) / 4 := hvalid.ng.trans (by rw [hcnt]; rfl)
  have hexplen : t.explen = want := hvalid.explen
  have hpayload : payloadWalk t = some (out, used) := by
    have hin : t.inMem = s.inMem := hvalid.inMem
    have hoff : t.off = s.srcOff := hvalid.off
    have hboot : t.boot = byte 5 := hvalid.boot
    rw [payloadWalk, hin, hoff, hcnt, hboot, hpay, hng, hexplen]
    simpa only [byte, Nat.add_assoc] using hwalk
  obtain ⟨w, hdone, hemit, hg⟩ := dwalkOp_ok hready hpayload
  have hrun : exec .decodeCmd s = .next (finishWalk w) := by
    rw [execDecode_of_idle hidle, decodeFlow_of_range rfl hrange, hval, Flow.andThen_ok, hdone, Flow.finish_ok]
  have hkeeps := hemit.keeps
  obtain ⟨hcount, hbytes⟩ := hemit.inBytes_eq
  have hwop : w.op = .decode := hkeeps.op.trans hvalid.op
  refine ⟨_, hrun, ?_, ?_, ?_, hbytes⟩
  · rw [finishWalk_status_of_emitted hemit hg, hvalid.status, hexplen, hpay, hvalid.off, hvalid.len]
    have hflag : (s.srcOff.toNat + size + 4 * ((used + 31) / 32) < s.srcOff.toNat + s.srcLen.toNat) ↔
        size + 4 * ((used + 31) / 32) < s.srcLen.toNat := by omega
    simp only [enterPhase_off, enterPhase_len, startCommand_off, startCommand_len, hflag]
    rfl
  · have := w.outcnt.isLt
    simp only [finishWalk_outLen, hwop, BitVec.toNat_setWidth]
    omega
  · rw [finishWalk_expLen, hkeeps.expLen, walkStart_expLen, hvalid.expLen, hexplen]

end Sys2Proof.Machine
end

section
/-! Two runs of `ENCODE` on the same input bytes (40_commands.md R134, R46, 70_reset_and_hazards.md R323). They agree phase for
phase: each table is the same below `N`, whatever stood in it, in `IN` outside the input, and in `OUT`. -/

namespace Sys2Proof.Machine

open Sys2Proof.Safety

/-! ### Two running commands (R63) -/

/-- Two running commands `ENCODE` on the same input, at the same phase, with the memories related from their start. -/
structure SameRun (M : Memory → Memory → Nat → Prop) (s t : State) : Prop extends SameInput s t where
  encode : s.op = .encode
  status : SameStatus s t
  out : M s.outMem t.outMem 0

/-- What `SameRun` speaks of. -/
def sameView (s : State) := (inputView s, s.status, s.expLen, s.outMem)

theorem SameStatus.of_view {s t s' t' : State} (h : SameStatus s t) (hs : sameView s' = sameView s)
    (ht : sameView t' = sameView t) : SameStatus s' t' := by
  simp only [sameView, Prod.mk.injEq] at hs ht
  obtain ⟨-, hstatus, hexp, -⟩ := hs
  obtain ⟨-, hstatus', hexp', -⟩ := ht
  exact ⟨by rw [hstatus, hstatus', h.1], by rw [hexp, hexp', h.2]⟩

variable {M : Memory → Memory → Nat → Prop}

theorem SameRun.of_view {s t s' t' : State} (h : SameRun M s t) (hs : sameView s' = sameView s)
    (ht : sameView t' = sameView t) : SameRun M s' t' := by
  have hstatus := h.status.of_view hs ht
  simp only [sameView, Prod.mk.injEq] at hs ht
  obtain ⟨hin, -, -, hout⟩ := hs
  obtain ⟨hin', -, -, hout'⟩ := ht
  have hop : s'.op = s.op := congrArg (fun view => view.2.2.1) hin
  exact ⟨h.toSameInput.of_view hin hin', hop.trans h.encode, hstatus, by rw [hout, hout']; exact h.out⟩

/-- Both enter the same phase. -/
theorem SameRun.enterPhase {s t : State} (h : SameRun M s t) (p : Phase) :
    SameRun M (Machine.enterPhase p s) (Machine.enterPhase p t) :=
  ⟨h.toSameInput.of_view rfl rfl, h.encode, ⟨by rw [enterPhase_status, enterPhase_status, h.status.1], h.status.2⟩, h.out⟩

theorem SameRun.enter {s t s' t' : State} (h : SameRun M s t) (p : Phase) (hs : sameView s' = sameView s)
    (ht : sameView t' = sameView t) : SameRun M (Machine.enterPhase p s') (Machine.enterPhase p t') :=
  (h.of_view hs ht).enterPhase p

/-! ### FREQ (R151) -/

/-- After `FREQ`: the same counts. -/
structure SameCounts (M : Memory → Memory → Nat → Prop) (s t : State) : Prop extends SameRun M s t where
  freq : s.freq = t.freq

theorem freqOp_agree {s t : State} (h : SameRun M s t) :
    (freqOp s).Agree (SameCounts M) SameStatus (freqOp t) := by
  have hinput := h.inputOf_eq
  unfold inputOf at hinput
  rw [freqOp, freqOp, sourceBytes_ok h.inRange, sourceBytes_ok h.inRange', hinput, h.len_toNat]
  split
  · exact .raise h.status
  · exact .ok ⟨h.enter .merge rfl rfl, rfl⟩

/-! ### MERGE (R161 to R166) -/

/-- The stem lists hold the same entries below `n`. -/
def SameStems (stem stem' : Vector Stem 256) (n : Nat) : Prop := ∀ i : Byte, i.toNat < n → entry stem i = entry stem' i

theorem SameStems.mono {stem stem' : Vector Stem 256} {m n : Nat} (h : SameStems stem stem' n) (hle : m ≤ n) :
    SameStems stem stem' m := fun i hi => h i (hi.trans_le hle)

/-- One more stem, the same in both. -/
theorem SameStems.append {stem stem' : Vector Stem 256} {ns : BitVec 9} (h : SameStems stem stem' ns.toNat) (m : Stem) :
    SameStems (setEntry stem (ns.setWidth 8) m) (setEntry stem' (ns.setWidth 8) m) (ns + 1).toNat := by
  intro i hi
  rw [entry_setEntry, entry_setEntry]
  split
  · rfl
  · next hne =>
    refine h i (lt_of_le_of_ne (Nat.lt_succ_iff.1 (hi.trans_le (toNat_add_one_le ns))) fun heq => hne ?_)
    have hlt := i.isLt
    refine BitVec.eq_of_toNat_eq ?_
    rw [BitVec.toNat_setWidth, ← heq, Nat.mod_eq_of_lt hlt]

/-- The registers of two merge loops that stand at the same turn. -/
structure SameMerge (r r' : MergeRegs) : Prop where
  ws : r.ws = r'.ws
  seq : r.seq = r'.seq
  ns : r.ns = r'.ns
  stem : SameStems r.stem r'.stem r.ns.toNat

theorem SameMerge.mergePair {r r' : MergeRegs} (h : SameMerge r r') (lo hi : Item) (rest : List Item) :
    SameMerge (mergePair lo hi rest r) (mergePair lo hi rest r') := by
  refine ⟨?_, ?_, ?_, ?_⟩
  · simp only [Machine.mergePair, h.ns, h.seq]
  · simp only [Machine.mergePair, h.seq]
  · simp only [Machine.mergePair, h.ns]
  · simp only [Machine.mergePair, ← h.ns]
    exact h.stem.append _

theorem mergeLoop_same (fuel : Nat) {r r' : MergeRegs} (h : SameMerge r r') :
    SameMerge (mergeLoop fuel r) (mergeLoop fuel r') := by
  induction fuel generalizing r r' with
  | zero => exact h
  | succ fuel ih =>
    unfold mergeLoop
    rw [← h.ws]
    split
    · dsimp only
      split
      · exact ih (h.mergePair _ _ _)
      · exact h
    · exact h

theorem mergedRegs_same {s t : State} (h : s.freq = t.freq) : SameMerge (mergedRegs s) (mergedRegs t) := by
  unfold mergedRegs
  rw [h]
  exact mergeLoop_same _ ⟨rfl, rfl, rfl, fun i hi => absurd hi (Nat.not_lt_zero _)⟩

/-- After `MERGE`: merge trees with the same stems. -/
structure SameTree (M : Memory → Memory → Nat → Prop) (s t : State) : Prop extends SameCounts M s t where
  n : s.n = t.n
  root : s.root = t.root
  stems : SameStems s.stem t.stem s.n.toNat
  shape : TreeShape s.stem s.n.toNat
  shape' : TreeShape t.stem t.n.toNat
  root_n : s.root.toNat + 2 = s.n.toNat

/-- What `MERGE` leaves is a merge tree with its root (R167). -/
theorem mergeOp_treeShape {s t : State} (h : mergeOp s = .ok t) : TreeShape t.stem t.n.toNat ∧ t.root.toNat + 2 = t.n.toNat := by
  obtain ⟨ws, seq, ns, stem, root, n, hrun, hshape, hroot, -⟩ := mergeOp_ok s
  obtain rfl := Flow.ok.inj (hrun.symm.trans h)
  exact ⟨hshape, hroot⟩

theorem mergeOp_agree {s t : State} (h : SameCounts M s t) :
    (mergeOp s).Agree (SameTree M) SameStatus (mergeOp t) := by
  obtain ⟨-, -, hns, hstem⟩ := mergedRegs_same h.freq
  obtain ⟨hshape, hroot⟩ := mergeOp_treeShape (s := s) rfl
  obtain ⟨hshape', -⟩ := mergeOp_treeShape (s := t) rfl
  refine .ok ⟨⟨h.enter .place rfl rfl, h.freq⟩, ?_, ?_, ?_, hshape, hshape', hroot⟩
  · rw [enterPhase_n, enterPhase_n, hns]
  · rw [enterPhase_root, enterPhase_root, hns]
  · rw [enterPhase_stem, enterPhase_stem, enterPhase_n, ← hns]
    exact hstem.append _

/-! ### PLACE (R186, R187) -/

/-- The stem children of the same stems are the same. -/
theorem SameStems.at256_eq {stem stem' : Vector Stem 256} {n i : Nat} (h : SameStems stem stem' n) (hi : i < n) (hn : n ≤ 256) :
    at256 stem i = at256 stem' i := by
  refine h _ ?_
  rw [BitVec.toNat_ofNat]
  omega

/-- The sizes of the subtrees do not depend on what stood in `SZ` (R186). -/
theorem sizes_same {stem stem' : Vector Stem 256} {n : Nat} (hs : TreeShape stem n) (hs' : TreeShape stem' n)
    (h : SameStems stem stem' n) (sz sz' : Vector (BitVec 9) 256) {c : Byte} (hc : c.toNat < n) :
    entry (sizes stem 0 n sz) c = entry (sizes stem' 0 n sz') c := by
  have hn := hs.1.2
  have hsize := at256_sizes n hn (Nat.zero_add n) (fun i hi => stemChildren_lt hs hi) (sz := sz)
    fun i hi => absurd hi (Nat.not_lt_zero i)
  have hsize' := at256_sizes n hn (Nat.zero_add n) (fun i hi => stemChildren_lt hs' hi) (sz := sz')
    fun i hi => absurd hi (Nat.not_lt_zero i)
  induction hk : c.toNat using Nat.strong_induction_on generalizing c with
  | _ k ih =>
    subst hk
    have hstem := h.at256_eq hc hn
    have hchild (b : Bool) (hb : branchLeaf (at256 stem c.toNat) b = false) :
        entry (sizes stem 0 n sz) (branchByte (at256 stem c.toNat) b) =
          entry (sizes stem' 0 n sz') (branchByte (at256 stem c.toNat) b) := by
      have hlt := stemChildren_lt hs hc _ (mem_stemChildren_iff.2 ⟨b, hb, rfl⟩)
      exact ih _ hlt (hlt.trans hc) rfl
    have hleft : childSizeOf (sizes stem 0 n sz) (at256 stem c.toNat).f1 (at256 stem c.toNat).c1 =
        childSizeOf (sizes stem' 0 n sz') (at256 stem c.toNat).f1 (at256 stem c.toNat).c1 := childSizeOf_congr (hchild false)
    have hright : childSizeOf (sizes stem 0 n sz) (at256 stem c.toNat).f2 (at256 stem c.toNat).c2 =
        childSizeOf (sizes stem' 0 n sz') (at256 stem c.toNat).f2 (at256 stem c.toNat).c2 := childSizeOf_congr (hchild true)
    rw [← at256_toNat, ← at256_toNat (sizes stem' 0 n sz'), hsize _ hc, hsize' _ hc, subtreeSize, subtreeSize, ← hstem,
      hleft, hright]

/-- The scan of the frontier looks at the sizes of its nodes alone (R187). -/
theorem smallestSubtree_congr {sz sz' : Vector (BitVec 9) 256} {fr : List FrontierEntry}
    (h : ∀ e ∈ fr, entry sz e.node = entry sz' e.node) (best size k : Nat) :
    smallestSubtree sz best size k fr = smallestSubtree sz' best size k fr := by
  induction fr generalizing best size k with
  | nil => rfl
  | cons e fr ih =>
    have hrest := fun e he => h e (List.mem_cons_of_mem _ he)
    simp only [smallestSubtree, h e List.mem_cons_self]
    split
    · exact ih hrest _ _ _
    · exact ih hrest _ _ _

theorem frontierPick_congr {sz sz' : Vector (BitVec 9) 256} {fr : List FrontierEntry}
    (h : ∀ e ∈ fr, entry sz e.node = entry sz' e.node) (tight : Bool) : frontierPick sz tight fr = frontierPick sz' tight fr := by
  cases tight with
  | true => rfl
  | false =>
    cases fr with
    | nil => rfl
    | cons e fr =>
      simp only [frontierPick, h e List.mem_cons_self]
      exact smallestSubtree_congr (fun e he => h e (List.mem_cons_of_mem _ he)) _ _ _

/-- Two placement loops that stand at the same rank: the same frontier, and the same ranks of the stems ranked so far. -/
structure SamePlacing (placed : List Byte) (n : Nat) (r r' : PlaceRegs) : Prop where
  fr : r.fr = r'.fr
  ranks : ∀ c ∈ BitVec.ofNat 8 (n - 1) :: placed, entry r.rank c = entry r'.rank c

/-- The ranks of all stems are the same. -/
def SameRanks (n : Nat) (rank rank' : Vector Byte 256) : Prop := ∀ c : Byte, c.toNat < n → entry rank c = entry rank' c

theorem SamePlacing.placeEntry {stem stem' : Vector Stem 256} {placed : List Byte} {n t i : Nat} {r r' : PlaceRegs}
    (h : SamePlacing placed n r r') {e : FrontierEntry} (hstem : entry stem e.node = entry stem' e.node) :
    SamePlacing (e.node :: placed) n (placeEntry stem t i e r) (placeEntry stem' t i e r') := by
  refine ⟨?_, fun c hc => ?_⟩
  · simp only [Machine.placeEntry, hstem, h.fr]
  · rw [entry_placeEntry_rank, entry_placeEntry_rank]
    split
    · rfl
    · next hne =>
      refine h.ranks c ?_
      obtain rfl | hc := List.mem_cons.1 hc
      · exact List.mem_cons_self
      · exact List.mem_cons_of_mem _ (List.mem_of_ne_of_mem hne hc)

theorem placeLoop_agree {stem stem' : Vector Stem 256} {sz sz' : Vector (BitVec 9) 256} {n : Nat} (hs : TreeShape stem n)
    (hstems : SameStems stem stem' n) (hsizes : ∀ c : Byte, c.toNat < n → entry sz c = entry sz' c) (count : Nat) {t : Nat}
    {placed : List Byte} {r r' : PlaceRegs} (hinv : PlaceInv stem n t placed r) (h : SamePlacing placed n r r')
    (ht : t + count = n) :
    (placeLoop stem sz t count r).Agree (fun r r' => SameRanks n r.rank r'.rank) (fun _ _ => True)
      (placeLoop stem' sz' t count r') := by
  induction count generalizing t placed r r' with
  | zero =>
    obtain rfl : t = n := ht
    refine .ok fun c hc => h.ranks c ?_
    by_cases hlast : c = BitVec.ofNat 8 (t - 1)
    · exact hlast ▸ List.mem_cons_self
    · refine List.mem_cons_of_mem _ (hinv.mem_placed ?_)
      have hne : c.toNat ≠ t - 1 := fun heq => hlast (by rw [← heq, ofNat8_toNat])
      omega
  | succ count ih =>
    have hreal {e : FrontierEntry} (he : e ∈ r.fr) : e.node.toNat < n := by
      have := hinv.frontier_real hs he
      omega
    unfold placeLoop
    rw [← h.fr]
    split
    · exact .raise trivial
    · next tight htight =>
      rw [← frontierPick_congr (fun e he => hsizes _ (hreal he)) tight]
      dsimp only
      cases hpick : r.fr[frontierPick sz tight r.fr]? with
      | none => exact .stop _ _
      | some e =>
        obtain ⟨hi, rfl⟩ := List.getElem?_eq_some_iff.1 hpick
        have hintime := le_due_of_frontierTight htight hi
        have hmem := List.getElem_mem hi
        exact ih (hinv.placeEntry hs (by omega) hi (by omega)) (h.placeEntry (hstems _ (hreal hmem))) (by omega)

/-- After `PLACE`: the same ranks, within the contract. -/
structure SamePlaced (M : Memory → Memory → Nat → Prop) (s t : State) : Prop extends SameTree M s t where
  ranks : SameRanks s.n.toNat s.rank t.rank
  contract : PlacementContract s.stem s.rank s.n.toNat
  contract' : PlacementContract t.stem t.rank t.n.toNat

theorem placeRun_agree {s t : State} (h : SameTree M s t) :
    (placeRun s).Agree (fun r r' => SameRanks s.n.toNat r.rank r'.rank) (fun _ _ => True) (placeRun t) := by
  have hs' : TreeShape t.stem s.n.toNat := h.n ▸ h.shape'
  have hn := h.shape.1
  have hlast : (BitVec.ofNat 8 (s.n.toNat - 1)).toNat < s.n.toNat := by
    rw [BitVec.toNat_ofNat]
    omega
  have hstart : SamePlacing [] s.n.toNat (placeStart s) (placeStart t) := by
    have hindex : sentinelIndex s = sentinelIndex t := by rw [sentinelIndex, sentinelIndex, h.n]
    have hstem : entry s.stem (sentinelIndex t) = entry t.stem (sentinelIndex t) := by
      rw [← hindex, sentinelIndex_eq h.shape]
      exact h.stems _ hlast
    refine ⟨?_, fun c hc => ?_⟩
    · simp only [placeStart, hindex, hstem]
    · obtain rfl := List.mem_singleton.1 hc
      rw [← sentinelIndex_eq h.shape, placeStart, placeStart, ← hindex, entry_setEntry_same, entry_setEntry_same]
  unfold placeRun
  rw [← h.n]
  exact placeLoop_agree h.shape h.stems (fun c hc => sizes_same h.shape hs' h.stems _ _ hc) _ (placeInv_start h.shape) hstart
    (by omega)

theorem placeOp_eq (s : State) :
    placeOp s = ((placeRun s).map (withPlacement s)).andThen fun u => .ok (enterPhase .serialize u) := rfl

theorem placeOp_agree {s t : State} (h : SameTree M s t) :
    (placeOp s).Agree (SamePlaced M) SameStatus (placeOp t) := by
  have hrun := placeRun_agree h
  rw [placeOp_eq, placeOp_eq]
  generalize hx : placeRun s = x at hrun
  generalize hy : placeRun t = y at hrun
  cases hrun with
  | ok hranks =>
    exact .ok ⟨⟨⟨h.enter .serialize rfl rfl, h.freq⟩, h.n, h.root, h.stems, h.shape, h.shape', h.root_n⟩, hranks,
      (placeRun_ok h.shape hx).1, (placeRun_ok h.shape' hy).1⟩
  | raise _ => exact .raise (h.status.of_view rfl rfl)
  | stop f g => exact .stop f g

/-! ### SERIALIZE (R201 to R204) -/

/-- The ranks of `n` stems, all below `n`. -/
def rankBelow {rank : Vector Byte 256} {n : Nat} (h : ∀ i < n, (at256 rank i).toNat < n) (i : Fin n) : Fin n :=
  ⟨(at256 rank i).toNat, h i i.isLt⟩

/-- Every rank below `n` is some stem's: `n` stems have different ranks below `n` (R181). -/
theorem exists_rank {stem : Vector Stem 256} {rank : Vector Byte 256} {n : Nat} (h : PlacementContract stem rank n) {j : Nat}
    (hj : j < n) : ∃ i < n, (at256 rank i).toNat = j := by
  obtain ⟨hlt, hinj, -⟩ := h
  have hinjective : Function.Injective (rankBelow hlt) := fun i k hik =>
    Fin.ext (hinj i i.isLt k k.isLt (BitVec.eq_of_toNat_eq (Fin.mk.inj hik)))
  obtain ⟨i, hi⟩ := Finite.surjective_of_injective hinjective ⟨j, hj⟩
  exact ⟨i, i.isLt, congrArg Fin.val hi⟩

/-- The slot of a stem is its own entry and those of its stem children (R202). -/
theorem slotValue_same {stem stem' : Vector Stem 256} {rank rank' : Vector Byte 256} {n i : Nat} (hs : TreeShape stem n)
    (hstems : SameStems stem stem' n) (hranks : SameRanks n rank rank') (hi : i < n) (b : Bool) :
    slotValue stem rank (BitVec.ofNat 8 i) b = slotValue stem' rank' (BitVec.ofNat 8 i) b := by
  have hn := hs.1
  have hlt : (BitVec.ofNat 8 i).toNat < n := by
    rw [BitVec.toNat_ofNat]
    omega
  rw [slotValue_eq, slotValue_eq, ← hstems _ hlt, ← hranks _ hlt]
  cases hleaf : branchLeaf (entry stem (BitVec.ofNat 8 i)) b with
  | true => rfl
  | false =>
    have hchild : (branchByte (entry stem (BitVec.ofNat 8 i)) b).toNat < n :=
      (stemChildren_lt hs hi _ (mem_stemChildren_iff.2 ⟨b, hleaf, rfl⟩)).trans hi
    rw [if_neg Bool.false_ne_true, if_neg Bool.false_ne_true, refTo, refTo, ← hstems _ hchild, ← hranks _ hchild]

/-- The tables hold the same bytes below `size`. -/
def SameSlots (size : Nat) (table table' : Vector Byte 512) : Prop :=
  ∀ x : BitVec 9, x.toNat < size → slotByte table x = slotByte table' x

/-- After `SERIALIZE`: the same table. -/
structure SameSerialized (M : Memory → Memory → Nat → Prop) (s t : State) : Prop extends SamePlaced M s t where
  table : SameSlots (2 * s.n.toNat) s.table t.table

theorem serializeOp_agree {s t : State} (h : SamePlaced M s t) :
    (serializeOp s).Agree (SameSerialized M) SameStatus (serializeOp t) := by
  have hn := h.shape.1
  have hn' := h.shape'.1
  obtain ⟨table, hrun, hcount, hslots⟩ := serializeOp_ok hn.1 hn.2 h.contract
  obtain ⟨table', hrun', hcount', hslots'⟩ := serializeOp_ok hn'.1 hn'.2 h.contract'
  rw [hrun, hrun']
  refine .ok ⟨⟨⟨⟨h.enter .codebuild rfl rfl, h.freq⟩, h.n, h.root, h.stems, h.shape, h.shape', h.root_n⟩, h.ranks, h.contract,
    h.contract'⟩, fun x hx => ?_⟩
  change x.toNat < 2 * s.n.toNat at hx
  by_cases hzero : x = 0
  · rw [hzero]
    exact BitVec.eq_of_toNat_eq (hcount.trans ((congrArg (·.toNat - 1) h.n).trans hcount'.symm))
  · obtain ⟨i, hi, hrank⟩ := exists_rank h.contract (j := x.toNat / 2) (by omega)
    have hi' : i < t.n.toNat := h.n ▸ hi
    have hlt : (BitVec.ofNat 8 i).toNat < s.n.toNat := by
      rw [BitVec.toNat_ofNat]
      omega
    have hindex : slotIndex s.rank (BitVec.ofNat 8 i) (decide (x.toNat % 2 = 1)) = x := by
      refine BitVec.eq_of_toNat_eq ?_
      rw [slotIndex_toNat, ← at256, hrank]
      obtain heven | hodd := Nat.mod_two_eq_zero_or_one x.toNat
      · rw [heven, decide_eq_false (by decide), Bool.toNat_false]
        omega
      · rw [hodd, decide_eq_true rfl, Bool.toNat_true]
        omega
    have hindex' : slotIndex t.rank (BitVec.ofNat 8 i) (decide (x.toNat % 2 = 1)) = x := by
      conv_rhs => rw [← hindex]
      rw [slotIndex, slotIndex, h.ranks _ hlt]
    have hvalue := hslots i hi (decide (x.toNat % 2 = 1)) (by rwa [hindex])
    have hvalue' := hslots' i hi' (decide (x.toNat % 2 = 1)) (by rwa [hindex'])
    rw [hindex] at hvalue
    rw [hindex'] at hvalue'
    exact hvalue.trans ((slotValue_same h.shape h.stems h.ranks hi _).trans hvalue'.symm)

/-! ### CODEBUILD (R221, R222) -/

/-- `VISIT` looks at the stems below a real stem alone (R222). -/
theorem visit_same {stem stem' : Vector Stem 256} {n : Nat} (hs : TreeShape stem n) (hstems : SameStems stem stem' n)
    (room : Nat) {s : Byte} (hreal : s.toNat < n - 1) (p : Code) (code : Vector Code 256) :
    visit stem room s p code = visit stem' room s p code := by
  induction room generalizing s p code with
  | zero => rfl
  | succ room ih =>
    have hstem := hstems s (by omega)
    have hbranch (b : Bool) (code : Vector Code 256) :
        visitBranch stem room s p b code = visitBranch stem' room s p b code := by
      rw [visitBranch, visitBranch, ← hstem]
      split
      · rfl
      · next hleaf =>
        have hlt := kids_lt hs hreal (mem_stemChildren_iff.2 ⟨b, Bool.eq_false_iff.2 hleaf, rfl⟩)
        exact ih (hlt.trans hreal) _ _
    rw [visit_branches, visit_branches, hbranch false, funext (hbranch true)]

/-- After `CODEBUILD`: the same codes. -/
structure SameCodes (M : Memory → Memory → Nat → Prop) (s t : State) : Prop extends SameSerialized M s t where
  code : s.code = t.code

theorem codebuildOp_agree {s t : State} (h : SameSerialized M s t) :
    (codebuildOp s).Agree (SameCodes M) SameStatus (codebuildOp t) := by
  have hroot := h.root_n
  have hvisit : visit s.stem s.cfg.maxCodeLen s.root [] (Vector.replicate 256 []) =
      visit t.stem t.cfg.maxCodeLen t.root [] (Vector.replicate 256 []) := by
    rw [visit_same h.shape h.stems _ (by omega), h.maxCodeLen, h.root]
  unfold codebuildOp
  rw [hvisit]
  cases visit t.stem t.cfg.maxCodeLen t.root [] (Vector.replicate 256 []) with
  | ok code =>
    exact .ok ⟨⟨⟨⟨⟨h.enter .hdrwrite rfl rfl, h.freq⟩, h.n, h.root, h.stems, h.shape, h.shape', h.root_n⟩, h.ranks,
      h.contract, h.contract'⟩, h.table⟩, rfl⟩
  | raise e code => exact .raise (h.status.of_view rfl rfl)
  | stop f => exact .stop f f

/-! ### HDRWRITE (R206, R207) -/

theorem tableBytesFrom_congr {table table' : Vector Byte 512} (count : Nat) {i size : Nat} (h : SameSlots size table table')
    (hi : i + count ≤ size) : tableBytesFrom table i count = tableBytesFrom table' i count := by
  induction count generalizing i with
  | zero => rfl
  | succ count ih =>
    have hslot : (BitVec.ofNat 9 i).toNat < size := by
      rw [BitVec.toNat_ofNat]
      exact (Nat.mod_le _ _).trans_lt (by omega)
    rw [tableBytesFrom, tableBytesFrom, h _ hslot, ih (by omega)]

theorem SameSerialized.headerAndTable_eq {s t : State} (h : SameSerialized M s t) : headerAndTable s = headerAndTable t := by
  have hn := h.shape.1
  rw [headerAndTable, headerAndTable, ← h.len, ← h.n, tableBytesFrom_congr _ h.table (by omega)]

/-- Two packers about to start: the same codes, and `OUT` written alike below `OPOS`. -/
structure SamePacking (M : Memory → Memory → Nat → Prop) (s t : State) : Prop extends SameInput s t where
  encode : s.op = .encode
  status : SameStatus s t
  code : s.code = t.code
  opos : s.opos = t.opos
  written : M s.outMem t.outMem s.opos.toNat

theorem hdrwriteOp_agree {s t : State} (hM : OutRelation M) (h : SameCodes M s t) :
    (hdrwriteOp s).Agree (SamePacking M) SameStatus (hdrwriteOp t) := by
  have hbits : totalBits s.freq s.code 256 = totalBits t.freq t.code 256 := by rw [h.freq, h.code]
  have hlength : resultLength s (totalBits t.freq t.code 256) = resultLength t (totalBits t.freq t.code 256) := by
    rw [resultLength, resultLength, h.n]
  have hbytes := headerAndTable_length t
  unfold hdrwriteOp
  dsimp only
  rw [hbits, hlength, exceedsOut_congr h.outSize, h.headerAndTable_eq]
  split
  · exact .raise (h.status.of_view rfl rfl)
  · refine hM.agree_writeOutBytes h.outSize _ h.out fun m m' hm => ?_
    refine .ok ⟨h.toSameInput.of_view rfl rfl, h.encode, ⟨?_, h.status.2⟩, h.code, ?_, hM.mono hm ?_⟩
    · rw [enterPhase_status, enterPhase_status, h.status.1]
    · rw [enterPhase_opos, enterPhase_opos, h.n]
    · rw [enterPhase_opos, BitVec.toNat_ofNat, h.n, hbytes, Nat.zero_add]
      exact Nat.mod_le _ _

/-! ### PACK (R226, R227) -/

/-- Two packers at the same bit. -/
structure SamePacker (M : Memory → Memory → Nat → Prop) (r r' : PackRegs) : Prop where
  acc : r.acc = r'.acc
  rem : r.rem = r'.rem
  opos : r.opos = r'.opos
  written : M r.out r'.out r.opos.toNat

section Pack

variable {cfg cfg' : Config.Params} (hM : OutRelation M) (hsize : cfg.outSize = cfg'.outSize)

include hM hsize

theorem flush_agree {r r' : PackRegs} (h : SamePacker M r r') :
    (flush cfg r).Agree (SamePacker M) (fun _ _ => True) (flush cfg' r') := by
  rw [flush, flush, ← h.opos, ← h.acc]
  refine hM.agree_writeOutBytes hsize _ h.written fun m m' hm => .ok ⟨rfl, rfl, rfl, hM.mono hm ?_⟩
  rw [BitVec.toNat_add]
  exact Nat.mod_le _ _

theorem packBit_agree (b : Bool) {r r' : PackRegs} (h : SamePacker M r r') :
    (packBit cfg b r).Agree (SamePacker M) (fun _ _ => True) (packBit cfg' b r') := by
  have hput {u u' : PackRegs} (hu : SamePacker M u u') : SamePacker M (putBit b u) (putBit b u') := by
    refine ⟨?_, ?_, hu.opos, hu.written⟩
    · simp only [putBit, hu.acc, hu.rem]
    · simp only [putBit, hu.rem]
  unfold packBit
  rw [← h.rem]
  refine Flow.Agree.andThen (R := SamePacker M) ?_ fun _ _ hu => .ok (hput hu)
  split
  · exact flush_agree hM hsize h
  · exact .ok h

theorem packBits_agree (bits : List Bool) {r r' : PackRegs} (h : SamePacker M r r') :
    (packBits cfg bits r).Agree (SamePacker M) (fun _ _ => True) (packBits cfg' bits r') := by
  induction bits generalizing r r' with
  | nil => exact .ok h
  | cons b bits ih => exact (packBit_agree hM hsize b h).andThen fun _ _ => ih

end Pack

theorem packOp_agree {s t : State} (hM : OutRelation M) (h : SamePacking M s t) :
    (packOp s).Agree (SameResult M) SameStatus (packOp t) := by
  have hinput := h.inputOf_eq
  have hop := h.encode
  have hop' : t.op = .encode := h.op ▸ hop
  unfold inputOf at hinput
  rw [packOp, packOp, sourceBytes_ok h.inRange, sourceBytes_ok h.inRange', hinput, Flow.access_ok, Flow.access_ok,
    packBytes_eq, packBytes_eq]
  have hstart : SamePacker M (packStart s) (packStart t) := ⟨rfl, rfl, h.opos, h.written⟩
  have hpacked : ((packBits s.cfg ((inputOf t).flatMap (entry s.code)) (packStart s)).andThen (flush s.cfg)).Agree
      (SamePacker M) (fun _ _ => True)
      ((packBits t.cfg ((inputOf t).flatMap (entry t.code)) (packStart t)).andThen (flush t.cfg)) := by
    rw [h.code]
    exact (packBits_agree hM h.outSize _ hstart).andThen fun _ _ => flush_agree hM h.outSize
  refine (hpacked.map (S := fun a b => ∃ r r' : PackRegs, SamePacker M r r' ∧
      a = { s with acc := r.acc, rem := r.rem, opos := r.opos, outMem := r.out } ∧
      b = { t with acc := r'.acc, rem := r'.rem, opos := r'.opos, outMem := r'.out }) (T := SameStatus)
    (g := fun r => { s with acc := r.acc, rem := r.rem, opos := r.opos, outMem := r.out })
    (g' := fun r => { t with acc := r.acc, rem := r.rem, opos := r.opos, outMem := r.out })
    (fun r r' hr => ⟨r, r', hr, rfl, rfl⟩) fun _ _ _ => h.status).andThen ?_
  rintro _ _ ⟨r, r', hr, rfl, rfl⟩
  refine .ok ⟨?_, ?_, h.status.2, ?_⟩
  · rw [endCommand_status, endCommand_status, h.status.1]
  · simp only [endCommand_outLen, hop, hop', hr.opos]
  · simp only [endCommand_outLen, hop]
    exact hr.written

/-! ### ENCODE -/

theorem encodeFlow_of_range {s : State} (hop : s.op = .encode) (hrange : s.off.toNat + s.len.toNat ≤ s.cfg.inSize) :
    encodeFlow s = ((((((freqOp (enterPhase .freq s)).andThen mergeOp).andThen placeOp).andThen serializeOp).andThen
      codebuildOp).andThen hdrwriteOp).andThen packOp := by
  have henter : enterSequence s = .ok (enterPhase .freq s) := by
    rw [enterSequence, if_neg (not_lt.2 hrange), hop]
    rfl
  rw [encodeFlow, henter, Flow.andThen_ok]

/-- Two runs of `ENCODE` on the same input in range agree. -/
theorem encodeFlow_agree {s t : State} (hM : OutRelation M) (h : SameRun M s t) :
    (encodeFlow s).Agree (SameResult M) SameStatus (encodeFlow t) := by
  rw [encodeFlow_of_range h.encode h.inRange, encodeFlow_of_range (h.op ▸ h.encode) h.inRange']
  have htables := ((((freqOp_agree (h.enterPhase .freq)).andThen fun _ _ => mergeOp_agree).andThen fun _ _ =>
    placeOp_agree).andThen fun _ _ => serializeOp_agree).andThen fun _ _ => codebuildOp_agree
  exact (htables.andThen fun _ _ => hdrwriteOp_agree hM).andThen fun _ _ => packOp_agree hM

end Sys2Proof.Machine
end

section
/-! `ENCODE` as a whole (40_commands.md R133, R140, 60_exceptions.md R280, R282): O42, O43, and O46 for both commands. -/

namespace Sys2Proof.Machine

open Sys2Proof.Safety

/-! ### Ends of ENCODE, whatever OUT holds -/

/-- A running `ENCODE` and the same with an empty `OUT`. -/
theorem SameRun.withoutOut {s : State} (hop : s.op = .encode) (hrange : s.off.toNat + s.len.toNat ≤ s.cfg.inSize) :
    SameRun AnyOut s (withoutOut s) := ⟨SameInput.withoutOut hrange, hop, ⟨rfl, rfl⟩, trivial⟩

/-- A short input in range, at `MAXCODELEN` 255: `ENCODE` raises `PlacementUnsatisfiable` or `OutOverflow`, or ends the
command (R133). -/
theorem encodeFlow_ends_of_short {s : State} (hop : s.op = .encode) (hrange : s.off.toNat + s.len.toNat ≤ s.cfg.inSize)
    (hlen : s.len.toNat < 16777216) (hmax : s.cfg.maxCodeLen = 255) :
    (∃ e u, encodeFlow s = .raise e u ∧ (e = .placementUnsatisfiable ∨ e = .outOverflow)) ∨
      ∃ u, encodeFlow s = .ok u ∧ u.status = { s.status with phase := .none, state := .done } := by
  have hagree := encodeFlow_agree outRelation_anyOut (SameRun.withoutOut hop hrange)
  obtain ⟨e, u, hraise, he⟩ | ⟨u, _, _, _, _, hok, hstatus, -⟩ :=
    encodeFlow_cases (s := withoutOut s) hop hrange hlen hmax Memory.wf_nil
  · obtain ⟨u', hraise', -⟩ := hagree.raise_of_right hraise
    exact .inl ⟨e, u', hraise', he⟩
  · obtain ⟨u', hok', hsame⟩ := hagree.ok_of_right hok
    exact .inr ⟨u', hok', hsame.status.trans hstatus⟩

/-- An input of 2^24 bytes or more makes `ENCODE` raise `InputTooLarge` (R152). -/
theorem encodeFlow_of_long {s : State} (hop : s.op = .encode) (hrange : s.off.toNat + s.len.toNat ≤ s.cfg.inSize)
    (hlen : 16777216 ≤ s.len.toNat) : encodeFlow s = .raise .inputTooLarge (enterPhase .freq s) := by
  rw [encodeFlow_of_range hop hrange, freqOp_of_lenLimit_le (s := enterPhase .freq s) hlen]
  rfl

/-- Settles O43: out of range the fault is `BadRange`, from 2^24 bytes on `InputTooLarge`; a shorter input has the two ends
of `encodeFlow_ends_of_short`. -/
theorem encodeEndsInDoneOrFault : Obligations.EncodeEndsInDoneOrFault := by
  intro s _ hmax hidle
  rw [execEncode_of_idle hidle]
  by_cases hrange : s.srcOff.toNat + s.srcLen.toNat ≤ s.cfg.inSize
  · by_cases hlen : s.srcLen.toNat < 16777216
    · obtain ⟨e, u, hraise, he⟩ | ⟨u, hok, hstatus⟩ :=
        encodeFlow_ends_of_short (s := startCommand .encode s) rfl hrange hlen hmax
      · refine ⟨_, by rw [hraise, Flow.finish_raise], .inr ⟨rfl, rfl, ?_⟩⟩
        change e ∈ _
        obtain rfl | rfl := he
        · decide
        · decide
      · exact ⟨u, by rw [hok, Flow.finish_ok], .inl hstatus⟩
    · have hraise := encodeFlow_of_long (s := startCommand .encode s) rfl hrange (not_lt.1 hlen)
      refine ⟨_, by rw [hraise, Flow.finish_raise], .inr ⟨rfl, rfl, ?_⟩⟩
      change Err.inputTooLarge ∈ _
      decide
  · refine ⟨_, encodeFlow_checksRange.finish_of_out_of_range .encode (not_le.1 hrange), .inr ⟨rfl, rfl, ?_⟩⟩
    change Err.badRange ∈ _
    decide

/-! ### A fault leaves OUT alone (R133, R282) -/

theorem Flow.Keeps.tables {s : State} {x : Flow State} {k : State → Flow State} (hx : x.Keeps (EncodeKeeps s))
    (hk : ∀ a, (k a).Keeps (EncodeKeeps a)) : (x.andThen k).Keeps (EncodeKeeps s) :=
  hx.andThen (fun _ h => h) fun a ha => (hk a).mono fun _ => ha.trans

/-- The micro-operations up to `CODEBUILD` write the tables and the phase, whether they go through or raise. -/
theorem buildTables_keeps (s : State) : (buildTables s).Keeps (EncodeKeeps s) := by
  have henter : (enterSequence s).Keeps (EncodeKeeps s) := (enterSequence_ends s).keeps
    (fun _ ⟨h, _⟩ => h ▸ ⟨rfl, rfl, rfl, rfl, rfl, rfl, rfl⟩) fun _ _ ⟨_, h⟩ => h ▸ ⟨rfl, rfl, rfl, rfl, rfl, rfl, rfl⟩
  have hfreq (a : State) : (freqOp a).Keeps (EncodeKeeps a) := (freqOp_ends a).keeps
    (fun _ ⟨_, h⟩ => h ▸ ⟨rfl, rfl, rfl, rfl, rfl, rfl, rfl⟩) fun _ _ ⟨_, h⟩ => h ▸ ⟨rfl, rfl, rfl, rfl, rfl, rfl, rfl⟩
  have hmerge (a : State) : (mergeOp a).Keeps (EncodeKeeps a) := (mergeOp_ends a).keeps
    (fun _ ⟨_, _, _, _, _, _, h⟩ => h ▸ ⟨rfl, rfl, rfl, rfl, rfl, rfl, rfl⟩) fun _ _ h => h.elim
  have hplace (a : State) : (placeOp a).Keeps (EncodeKeeps a) := (placeOp_ends a).keeps
    (fun _ ⟨_, h⟩ => h ▸ ⟨rfl, rfl, rfl, rfl, rfl, rfl, rfl⟩) fun _ _ ⟨_, _, h⟩ => h ▸ ⟨rfl, rfl, rfl, rfl, rfl, rfl, rfl⟩
  have hserialize (a : State) : (serializeOp a).Keeps (EncodeKeeps a) := (serializeOp_ends a).keeps
    (fun _ ⟨_, h⟩ => h ▸ ⟨rfl, rfl, rfl, rfl, rfl, rfl, rfl⟩) fun _ _ ⟨_, _, h⟩ => h ▸ ⟨rfl, rfl, rfl, rfl, rfl, rfl, rfl⟩
  have hcodebuild (a : State) : (codebuildOp a).Keeps (EncodeKeeps a) := (codebuildOp_ends a).keeps
    (fun _ ⟨_, h⟩ => h ▸ ⟨rfl, rfl, rfl, rfl, rfl, rfl, rfl⟩) fun _ _ ⟨_, _, h⟩ => h ▸ ⟨rfl, rfl, rfl, rfl, rfl, rfl, rfl⟩
  exact ((((henter.tables hfreq).tables hmerge).tables hplace).tables hserialize).tables hcodebuild

/-- `ENCODE` goes through to `DONE`, or raises before `OUT` is written (R140, R282). -/
theorem encodeFlow_ends (s : State) :
    (encodeFlow s).Ends (fun t => t.status.state = .done) fun _ u => u.outMem = s.outMem := by
  rw [encodeFlow_eq, Flow.andThen_assoc]
  refine (buildTables_keeps s).ends.seq (fun _ _ h => h.outMem) fun a ha => ?_
  refine (hdrwriteOp_ends a).seq ?_ fun b _ => (packOp_ends b).mono ?_ fun _ _ h => h.elim
  · rintro _ _ ⟨-, rfl⟩
    exact ha.outMem
  · rintro _ ⟨_, _, _, _, rfl⟩
    rw [endCommand_status]

/-- Settles O46: `DECODE` raises nothing but `PositionOutOfTree` once it writes (`decodeFlow_ends`), `ENCODE` nothing
(`encodeFlow_ends`); a command that goes through is `DONE`. -/
theorem faultBeforeTheWalkLeavesOutAlone : Obligations.FaultBeforeTheWalkLeavesOutAlone := by
  rintro s t i (rfl | rfl) hidle hexec hfault herr a
  · rw [execEncode_of_idle hidle] at hexec
    obtain hdone | ⟨e, u, hu, rfl⟩ := (encodeFlow_ends _).finish hexec
    · rw [hdone] at hfault
      cases hfault
    · exact congrArg (Memory.read · a) hu
  · rw [execDecode_of_idle hidle] at hexec
    obtain hdone | ⟨e, u, ⟨-, hu⟩, rfl⟩ := (decodeFlow_ends _).finish hexec
    · rw [hdone] at hfault
      cases hfault
    · exact congrArg (Memory.read · a) (hu herr)

/-! ### ENCODE of few symbols (R142, R191) -/

/-- The symbols present are the distinct bytes of the input. -/
theorem Counted.symbolsPresent_length {t : State} (h : Counted t) :
    (symbolsPresent t.freq).length = (inputOf t).dedup.length := by
  refine ((List.perm_ext_iff_of_nodup (symbolsPresent_nodup _) (List.nodup_dedup _)).2 fun b => ?_).length_eq
  have hzero : entry t.freq b = 0 ↔ (inputOf t).count b = 0 := by
    rw [← h.freq b, ← BitVec.toNat_inj]
    rfl
  rw [mem_symbolsPresent, List.mem_dedup, Ne, hzero, List.count_eq_zero, not_not]

/-- The tables are filled when at most 65 symbols are present, with a stem list of their number, at least 2 (R165, R191). -/
theorem buildTables_of_few {s : State} (hop : s.op = .encode) (hrange : s.off.toNat + s.len.toNat ≤ s.cfg.inSize)
    (hlen : s.len.toNat < 16777216) (hmax : s.cfg.maxCodeLen = 255) (hfew : (inputOf s).dedup.length ≤ 65) :
    ∃ t, buildTables s = .ok t ∧ TablesBuilt t ∧ t.n.toNat = max 2 (inputOf s).dedup.length := by
  have henter : enterSequence s = .ok (enterPhase .freq s) := by
    rw [enterSequence, if_neg (not_lt.2 hrange), hop]
    rfl
  obtain ⟨s2, h2, hk2, hcounted⟩ := freqOp_counted (s := enterPhase .freq s) hrange hlen
  obtain ⟨s3, h3, hk3, hmerged⟩ := mergeOp_merged hcounted
  have hn : s3.n.toNat = max 2 (inputOf s).dedup.length := by
    obtain ⟨_, _, _, _, _, n, hmerge, -, -, hcount, -⟩ := mergeOp_ok s2
    obtain rfl := Flow.ok.inj (h3.symm.trans hmerge)
    rw [enterPhase_n, hcount, hcounted.symbolsPresent_length, hk2.inputOf]
    rfl
  obtain ⟨r, hr⟩ := placeRun_ok_of_small hmerged.shape (by omega)
  have h4 : placeOp s3 = .ok (enterPhase .serialize (withPlacement s3 r)) := by
    rw [placeOp_eq, hr, Flow.map_ok, Flow.andThen_ok]
  obtain ⟨_, hraise⟩ | ⟨s4, h4', hk4, hplaced⟩ := placeOp_placed hmerged
  · rw [h4] at hraise
    cases hraise
  obtain rfl := Flow.ok.inj (h4.symm.trans h4')
  obtain ⟨s5, h5, hk5, hserialized⟩ := serializeOp_serialized hplaced
  have hkeep := ((hk2.trans hk3).trans hk4).trans hk5
  obtain ⟨s6, h6, -, hbuilt⟩ := codebuildOp_built hserialized (by rw [hkeep.cfg]; exact hmax)
  refine ⟨s6, ?_, hbuilt, ?_⟩
  · rw [buildTables, henter, Flow.andThen_ok, h2, Flow.andThen_ok, h3, Flow.andThen_ok, h4, Flow.andThen_ok, h5,
      Flow.andThen_ok, h6]
  · obtain ⟨_, rfl⟩ := (serializeOp_ends _).ok h5
    obtain ⟨_, rfl⟩ := (codebuildOp_ends _).ok h6
    exact hn

/-- What `HDRWRITE` and `PACK` leave when they go through: the tables they read, `TBITS` and the length of the result, and the
command ended (R206, R226, R140). -/
structure ResultWritten (t u : State) : Prop where
  status : u.status = { t.status with phase := .none, state := .done }
  n : u.n = t.n
  bitTotal : bitTotal u = bitTotal t
  tbits : u.tbits.toNat = Safety.bitTotal t
  outLen : u.outLen.toNat = 4 + 2 * t.n.toNat + 4 * groupCount (Safety.bitTotal t)

theorem TablesBuilt.bitTotal_eq {t : State} (h : TablesBuilt t) : bitTotal t = (codedBits t).length := by
  rw [← totalBits_eq_bitTotal, totalBits_eq_length h.freq]

theorem TablesBuilt.bitTotal_le {t : State} (h : TablesBuilt t) : bitTotal t ≤ t.len.toNat * 255 :=
  h.bitTotal_eq.trans_le (codedBits_length_le h)

/-- What `HDRWRITE` leaves, with `m` for `OUT` (R206, R207, R226). -/
def headerWritten (t : State) (m : Memory) : State :=
  enterPhase .pack { t with
    tbits := BitVec.ofNat 33 (bitTotal t)
    outMem := m
    opos := BitVec.ofNat 32 (4 + 2 * t.n.toNat) }

theorem codedBits_headerWritten (t : State) (m : Memory) : codedBits (headerWritten t m) = codedBits t := rfl

theorem headerWritten_opos {t : State} (hn : t.n.toNat ≤ 256) (m : Memory) :
    (headerWritten t m).opos.toNat = 4 + 2 * t.n.toNat := by
  rw [headerWritten, enterPhase_opos, BitVec.toNat_ofNat]
  omega

/-- An unbounded `OUT` has every address, so `HDRWRITE` goes through (R206, R207). -/
theorem hdrwriteOp_of_unbounded {t : State} (hout : t.cfg.outSize = none) : ∃ m, hdrwriteOp t = .ok (headerWritten t m) := by
  obtain ⟨m, hm⟩ := writeOutBytes_ok (cfg := t.cfg) (m := t.outMem) (a := 0) (vs := headerAndTable t) fun i _ => by
    rw [outHas, hout]
  refine ⟨m, ?_⟩
  rw [hdrwriteOp]
  simp only [totalBits_eq_bitTotal, exceedsOut, hout, hm, Flow.access_ok]
  rfl

/-- `PACK` goes through when the result fits, and `OPOS` stands behind its groups, whatever `OUT` holds (R226, R227). -/
theorem packOp_ok_of_fits {s : State} {limit : Nat} (hop : s.op = .encode) (hrange : s.off.toNat + s.len.toNat ≤ s.cfg.inSize)
    (hfits : fitsOut s.cfg limit) (hlimit : limit < 4294967296)
    (hroom : s.opos.toNat + 4 * groupCount (codedBits s).length ≤ limit) :
    ∃ acc rem opos m, packOp s = .ok (endCommand { s with acc := acc, rem := rem, opos := opos, outMem := m }) ∧
      opos.toNat = s.opos.toNat + 4 * groupCount (codedBits s).length := by
  have hsame : SamePacking AnyOut s (withoutOut s) := ⟨SameInput.withoutOut hrange, hop, ⟨rfl, rfl⟩, rfl, rfl, trivial⟩
  obtain ⟨acc, rem, opos, m, hpack, hend, -⟩ := packOp_ok (s := withoutOut s) Memory.wf_nil hrange hfits hlimit hroom
  obtain ⟨u, hok, hresult⟩ := (packOp_agree outRelation_anyOut hsame).ok_of_right hpack
  obtain ⟨acc', rem', opos', m', rfl⟩ := (packOp_ends s).ok hok
  have hopos : opos' = opos := by
    have hlen := hresult.outLen
    simpa only [endCommand_outLen, hop, Machine.withoutOut] using hlen
  exact ⟨acc', rem', opos', m', hok, by rw [hopos]; exact hend⟩

/-- With an unbounded `OUT` the result is written (R206, R226). -/
theorem writeResult_of_unbounded {t : State} (h : TablesBuilt t) (hop : t.op = .encode) (hout : t.cfg.outSize = none)
    (hrange : t.off.toNat + t.len.toNat ≤ t.cfg.inSize) (hlen : t.len.toNat < 16777216) :
    ∃ u, (hdrwriteOp t).andThen packOp = .ok u ∧ ResultWritten t u := by
  have hn := h.shape.1
  have hbits := h.bitTotal_le
  have hgroups : 4 + 2 * t.n.toNat + 4 * groupCount (bitTotal t) < 4294967296 := by
    simp only [groupCount]
    omega
  have htbits : (BitVec.ofNat 33 (bitTotal t)).toNat = bitTotal t := by
    rw [BitVec.toNat_ofNat]
    omega
  obtain ⟨m, hhdr⟩ := hdrwriteOp_of_unbounded hout
  have hfits : fitsOut (headerWritten t m).cfg (4 + 2 * t.n.toNat + 4 * groupCount (bitTotal t)) := fun size hsize => by
    change size ∈ t.cfg.outSize at hsize
    rw [hout] at hsize
    cases hsize
  obtain ⟨acc, rem, opos, m', hpack, hend⟩ := packOp_ok_of_fits (s := headerWritten t m) hop hrange hfits hgroups
    (by rw [codedBits_headerWritten, headerWritten_opos hn.2, h.bitTotal_eq])
  rw [codedBits_headerWritten, headerWritten_opos hn.2, ← h.bitTotal_eq] at hend
  refine ⟨_, by rw [hhdr, Flow.andThen_ok, hpack], ?_, ?_, ?_, ?_, ?_⟩
  · simp only [endCommand_status, headerWritten, enterPhase_status]
  · simp only [endCommand_n, headerWritten, enterPhase_n]
  · simp only [Safety.bitTotal, headerWritten, endCommand_freq, endCommand_code, enterPhase_freq, enterPhase_code]
  · simp only [endCommand_tbits, headerWritten, enterPhase_tbits, htbits]
  · simpa only [endCommand_outLen, headerWritten, enterPhase_op, hop] using hend

/-- Settles O42: the tables of few symbols are filled (`buildTables_of_few`), and the result is written into an unbounded `OUT`
(`writeResult_of_unbounded`). -/
theorem encodeOfFewSymbolsCompletes : Obligations.EncodeOfFewSymbolsCompletes := by
  intro s hidle hrange hlen hout hmax hfew
  obtain ⟨t, hbuild, htables, hn⟩ := buildTables_of_few (s := startCommand .encode s) rfl hrange hlen hmax hfew
  have hkeep := (Flow.Keeps.ends (buildTables_keeps _)).ok hbuild
  obtain ⟨u, hwrite, hu⟩ := writeResult_of_unbounded htables hkeep.op (by rw [hkeep.cfg]; exact hout)
    (by rw [hkeep.off, hkeep.len, hkeep.cfg]; exact hrange) (by rw [hkeep.len]; exact hlen)
  refine ⟨u, ?_, ?_, ?_, ?_, ?_⟩
  · rw [execEncode_of_idle hidle, encodeFlow_eq, hbuild, Flow.andThen_ok, hwrite, Flow.finish_ok]
  · rw [hu.status, hkeep.status]
    rfl
  · rw [hu.n, hn]
    rfl
  · rw [hu.tbits, hu.bitTotal]
  · rw [hu.outLen, hu.n, hu.tbits]

end Sys2Proof.Machine
end

section
/-! What a command's result depends on and what of `OUT` it keeps (20_memory.md R70, 40_commands.md R134, R138): O47 and O48. -/

namespace Sys2Proof.Machine

open Sys2Proof.Safety

/-! ### The result depends on the input alone (R134, R138) -/

theorem exec_commandInstr {op : Op} {s : State} (hidle : s.status.state ≠ .busy) :
    exec (commandInstr op) s = (commandFlow op (startCommand op s)).finish := by
  cases op with
  | encode => exact execEncode_of_idle hidle
  | decode => exact execDecode_of_idle hidle

theorem commandFlow_agree {M : Memory → Memory → Nat → Prop} (hM : OutRelation M) {s t : State} (h : SameInput s t)
    (hstatus : SameStatus s t) (hout : M s.outMem t.outMem 0) :
    (commandFlow s.op s).Agree (SameResult M) SameStatus (commandFlow s.op t) := by
  cases hop : s.op with
  | encode => exact encodeFlow_agree hM ⟨h, hop, hstatus, hout⟩
  | decode => exact decodeFlow_agree hM h hop hstatus hout

/-- Two commands that have ended agree in `STATUS`, the lengths, and the bytes of the result. -/
def SameOutcome (s t : State) : Prop :=
  s.status = t.status ∧ s.outLen = t.outLen ∧ s.expLen = t.expLen ∧
    inBytes s.outMem 0 s.outLen.toNat = inBytes t.outMem 0 t.outLen.toNat

theorem SameResult.sameOutcome {s t : State} (h : SameResult SameBelow s t) : SameOutcome s t := by
  obtain ⟨hstatus, hlen, hexp, -, -, hread⟩ := h
  refine ⟨hstatus, hlen, hexp, ?_⟩
  rw [← hlen]
  exact List.map_congr_left fun i hi => hread _ (by rw [Nat.zero_add]; exact List.mem_range.1 hi)

/-- A fault taken leaves no result (R283). -/
theorem SameStatus.sameOutcome_takeFault {s t : State} (h : SameStatus s t) (e : Err) :
    SameOutcome (takeFault e s) (takeFault e t) := by
  obtain ⟨hstatus, hexp⟩ := h
  refine ⟨?_, rfl, hexp, rfl⟩
  rw [takeFault_status, takeFault_status, hstatus]

theorem Flow.Agree.finish {x y : Flow State} {t u : State} (h : x.Agree (SameResult SameBelow) SameStatus y)
    (hx : x.finish = .next t) (hy : y.finish = .next u) : SameOutcome t u := by
  cases h with
  | ok h =>
    cases hx
    cases hy
    exact h.sameOutcome
  | raise h =>
    cases hx
    cases hy
    exact h.sameOutcome_takeFault _
  | stop f g => cases hx

/-- Equal operands are the same input of the commands they start. -/
theorem sameInput_startCommand {s t : State} (op : Op) (hout : s.cfg.outSize = t.cfg.outSize)
    (hmax : s.cfg.maxCodeLen = t.cfg.maxCodeLen) (hs : s.srcOff.toNat + s.srcLen.toNat ≤ s.cfg.inSize)
    (ht : t.srcOff.toNat + t.srcLen.toNat ≤ t.cfg.inSize) (hbytes : operandOf s = operandOf t) :
    SameInput (startCommand op s) (startCommand op t) := by
  have hlen : s.srcLen = t.srcLen := BitVec.eq_of_toNat_eq (by
    have hlength := congrArg List.length hbytes
    rwa [operandOf, operandOf, inBytes_length, inBytes_length] at hlength)
  refine ⟨hout, hmax, rfl, hlen, fun i hi => ?_, hs, ht⟩
  rw [operandOf, operandOf, ← hlen] at hbytes
  exact read_eq_of_inBytes_eq hbytes hi

/-- Settles O48: the two runs agree micro-operation by micro-operation (`encodeFlow_agree`, `decodeFlow_agree`), with `OUT`
the same below what each has written. -/
theorem resultDependsOnTheInputAlone : Obligations.ResultDependsOnTheInputAlone := by
  intro s1 s2 t1 t2 i hi hidle1 hidle2 _ _ hout hmax hwf1 hwf2 hrange1 hrange2 hbytes h1 h2
  obtain ⟨op, rfl⟩ : ∃ op, i = commandInstr op := by
    obtain rfl | rfl := hi
    · exact ⟨.encode, rfl⟩
    · exact ⟨.decode, rfl⟩
  rw [exec_commandInstr hidle1] at h1
  rw [exec_commandInstr hidle2] at h2
  have hbelow : SameBelow s1.outMem s2.outMem 0 := ⟨hwf1, hwf2, fun _ hx => absurd hx (Nat.not_lt_zero _)⟩
  have hstatus : SameStatus (startCommand op s1) (startCommand op s2) := by
    refine ⟨?_, rfl⟩
    rw [startCommand_status, startCommand_status]
  exact (commandFlow_agree outRelation_sameBelow (sameInput_startCommand op hout hmax hrange1 hrange2 hbytes)
    hstatus hbelow).finish h1 h2

/-! ### OUT behind the result of DECODE (R70) -/

theorem decodeFlow_keeps_beyond {s t : State} (hop : s.op = .decode) (hwf : Memory.wf s.outMem) (h : decodeFlow s = .ok t)
    {a : Nat} (ha : t.outLen.toNat ≤ a) : Memory.read t.outMem a = Memory.read s.outMem a := by
  obtain ⟨v, hfront, hwalk⟩ := Flow.andThen_eq_ok.1 h
  obtain ⟨u, henter, hval⟩ := Flow.andThen_eq_ok.1 hfront
  obtain ⟨rfl, -⟩ := (enterSequence_ends s).ok henter
  obtain ⟨x, e, hx, rfl⟩ := (dvalidateOp_ends _).ok hval
  have hvout : (bootItem e x).outMem = s.outMem := hx.outMem
  have hvop : (bootItem e x).op = .decode := by
    rw [bootItem_op, hx]
    exact hop
  have hkeeps : DwalkKeeps (bootItem e x) t :=
    exec_dwalk_keeps (by rw [hvout]; exact hwf) (by rw [exec_dwalk_eq_finish, hwalk, Flow.finish_ok])
  obtain ⟨w, hw, rfl⟩ := (dwalkOp_ends _).ok hwalk
  have hlen : (finishWalk w).outLen.toNat = (finishWalk w).outcnt.toNat := by
    have := w.outcnt.isLt
    simp only [finishWalk_outLen, finishWalk_outcnt, hw.op, walkStart_op, hvop, BitVec.toNat_setWidth]
    omega
  rw [hkeeps.beyond a (hlen ▸ ha), hvout]

/-! ### The codes of a CODEBUILD that goes through (R221, R222) -/

theorem visitBranch_mono {stem : Vector Stem 256} {room room' : Nat} {s : Byte} {b : Bool} {p : Code}
    {code code' : Vector Code 256}
    (ih : ∀ {s p code code'}, visit stem room s p code = .ok code' → visit stem room' s p code = .ok code')
    (h : visitBranch stem room s p b code = .ok code') : visitBranch stem room' s p b code = .ok code' := by
  unfold visitBranch at h ⊢
  split
  · next hleaf => rwa [if_pos hleaf] at h
  · next hstem =>
    rw [if_neg hstem] at h
    exact ih h

/-- A `VISIT` that goes through gives the same codes with more room. -/
theorem visit_mono {stem : Vector Stem 256} {room room' : Nat} (hle : room ≤ room') {s : Byte} {p : Code}
    {code code' : Vector Code 256} (h : visit stem room s p code = .ok code') : visit stem room' s p code = .ok code' := by
  induction room generalizing room' s p code code' with
  | zero => cases h
  | succ room ih =>
    cases room' with
    | zero => cases hle
    | succ room' =>
      have hbranch {b : Bool} {code code' : Vector Code 256} (hrun : visitBranch stem room s p b code = .ok code') :
          visitBranch stem room' s p b code = .ok code' := visitBranch_mono (ih (Nat.le_of_succ_le_succ hle)) hrun
      rw [visit_branches] at h ⊢
      obtain ⟨code1, hfirst, hsecond⟩ := Flow.andThen_eq_ok.1 h
      rw [hbranch hfirst, Flow.andThen_ok, hbranch hsecond]

theorem codebuildOp_eq_ok {s t : State} (h : codebuildOp s = .ok t) :
    ∃ code, visit s.stem s.cfg.maxCodeLen s.root [] (Vector.replicate 256 []) = .ok code ∧
      t = enterPhase .hdrwrite { s with code := code } := by
  obtain ⟨u, hmap, hend⟩ := Flow.andThen_eq_ok.1 h
  obtain ⟨code, hvisit, rfl⟩ := Flow.map_eq_ok.1 hmap
  exact ⟨code, hvisit, (Flow.ok.inj hend).symm⟩

/-- The state with the largest `MAXCODELEN`. -/
def withLongCodes (s : State) : State := { s with cfg := { s.cfg with maxCodeLen := 255 } }

/-- A `CODEBUILD` that goes through gives the codes it gives at `MAXCODELEN` 255, so every input byte has its path. -/
theorem codebuildOp_tablesBuilt {s t : State} (h : Serialized s) (hrun : codebuildOp s = .ok t) : TablesBuilt t := by
  have hlong : Serialized (withLongCodes s) := ⟨⟨⟨⟨h.freq⟩, h.shape, h.root, h.leaves⟩, h.contract, h.sentinel⟩, h.count, h.slots⟩
  obtain ⟨u, hrun255, -, hbuilt⟩ := codebuildOp_built hlong rfl
  obtain ⟨code, hvisit, rfl⟩ := codebuildOp_eq_ok hrun
  obtain ⟨code255, hvisit255, rfl⟩ := codebuildOp_eq_ok hrun255
  obtain rfl : code255 = code := by
    obtain hle | hle := le_total s.cfg.maxCodeLen 255
    · exact Flow.ok.inj (hvisit255.symm.trans (visit_mono hle hvisit))
    · exact Flow.ok.inj ((visit_mono hle hvisit255).symm.trans hvisit)
  exact ⟨⟨⟨⟨⟨hbuilt.freq⟩, hbuilt.shape, hbuilt.root, hbuilt.leaves⟩, hbuilt.contract, hbuilt.sentinel⟩, hbuilt.count,
    hbuilt.slots⟩, hbuilt.paths⟩

/-- The tables `ENCODE` fills, whatever `MAXCODELEN`, are those of a short input in range (R132, R152, R222). -/
theorem buildTables_eq_ok {s t : State} (h : buildTables s = .ok t) :
    s.off.toNat + s.len.toNat ≤ s.cfg.inSize ∧ s.len.toNat < 16777216 ∧ TablesBuilt t := by
  obtain ⟨s5, h5, h6⟩ := Flow.andThen_eq_ok.1 h
  obtain ⟨s4, h4, h5⟩ := Flow.andThen_eq_ok.1 h5
  obtain ⟨s3, h3, h4⟩ := Flow.andThen_eq_ok.1 h4
  obtain ⟨s2, h2, h3⟩ := Flow.andThen_eq_ok.1 h3
  obtain ⟨s1, h1, h2⟩ := Flow.andThen_eq_ok.1 h2
  obtain ⟨rfl, hrange⟩ := (enterSequence_ends s).ok h1
  have hlen : s.len.toNat < 16777216 := by
    by_contra hlong
    rw [freqOp_of_lenLimit_le (s := enterPhase (firstPhase s.op) s) (not_lt.1 hlong)] at h2
    cases h2
  refine ⟨hrange, hlen, ?_⟩
  obtain ⟨_, hfreq, -, hcounted⟩ := freqOp_counted (s := enterPhase (firstPhase s.op) s) hrange hlen
  obtain rfl := Flow.ok.inj (hfreq.symm.trans h2)
  obtain ⟨_, hmerge, -, hmerged⟩ := mergeOp_merged hcounted
  obtain rfl := Flow.ok.inj (hmerge.symm.trans h3)
  obtain ⟨_, hraise⟩ | ⟨_, hplace, -, hplaced⟩ := placeOp_placed hmerged
  · rw [h4] at hraise
    cases hraise
  obtain rfl := Flow.ok.inj (hplace.symm.trans h4)
  obtain ⟨_, hserialize, -, hserialized⟩ := serializeOp_serialized hplaced
  obtain rfl := Flow.ok.inj (hserialize.symm.trans h5)
  exact codebuildOp_tablesBuilt hserialized h6

/-! ### OUT behind the result of ENCODE (R70) -/

/-- A `HDRWRITE` that goes through has a result that fits, and leaves `OUT` in canonical form and kept behind the table (R206,
R207). -/
theorem hdrwriteOp_eq_headerWritten {s w : State} (hwf : Memory.wf s.outMem) (h : hdrwriteOp s = .ok w) :
    fitsOut s.cfg (4 + 2 * s.n.toNat + 4 * groupCount (bitTotal s)) ∧ ∃ m, w = headerWritten s m ∧ Memory.wf m ∧
      ∀ a, 4 + 2 * s.n.toNat ≤ a → Memory.read m a = Memory.read s.outMem a := by
  have hfits : fitsOut s.cfg (4 + 2 * s.n.toNat + 4 * groupCount (bitTotal s)) := by
    by_contra hlong
    rw [hdrwriteOp_of_not_fits hwf hlong] at h
    cases h
  obtain ⟨m, hm, rfl⟩ := hdrwriteOp_eq_ok h
  obtain ⟨_, hrun, hwritten⟩ := hdrwriteOp_of_fits hwf hfits
  obtain rfl := Flow.ok.inj (h.symm.trans hrun)
  exact ⟨hfits, m, rfl, hwritten.wf, fun a => read_behind_headerAndTable hwf hm⟩

theorem encodeFlow_keeps_beyond {s t : State} (hop : s.op = .encode) (hwf : Memory.wf s.outMem) (h : encodeFlow s = .ok t)
    {a : Nat} (ha : t.outLen.toNat ≤ a) : Memory.read t.outMem a = Memory.read s.outMem a := by
  rw [encodeFlow_eq] at h
  obtain ⟨w, hfront, hpack⟩ := Flow.andThen_eq_ok.1 h
  obtain ⟨u, hbuild, hhdr⟩ := Flow.andThen_eq_ok.1 hfront
  have hkeep := (buildTables_keeps s).ends.ok hbuild
  obtain ⟨hrange, hlen, hbuilt⟩ := buildTables_eq_ok hbuild
  obtain ⟨hfits, m, rfl, hmwf, hbehind⟩ := hdrwriteOp_eq_headerWritten (by rwa [hkeep.outMem]) hhdr
  have hn := hbuilt.shape.1
  have hbits := hbuilt.bitTotal_le
  rw [hkeep.len] at hbits
  have hlimit : 4 + 2 * u.n.toNat + 4 * groupCount (bitTotal u) < 4294967296 := by
    simp only [groupCount]
    omega
  have hroom : (headerWritten u m).opos.toNat + 4 * groupCount (codedBits (headerWritten u m)).length ≤
      4 + 2 * u.n.toNat + 4 * groupCount (bitTotal u) := by
    rw [codedBits_headerWritten, headerWritten_opos hn.2, hbuilt.bitTotal_eq]
  have hrange' : (headerWritten u m).off.toNat + (headerWritten u m).len.toNat ≤ (headerWritten u m).cfg.inSize := by
    simpa only [headerWritten, enterPhase_off, enterPhase_len, enterPhase_cfg, hkeep.off, hkeep.len, hkeep.cfg] using hrange
  obtain ⟨acc, rem, opos, m', hrun, hend, -⟩ := packOp_ok (s := headerWritten u m) hmwf hrange' hfits hlimit hroom
  obtain ⟨r, r', hpacked, hflush, rfl⟩ := packOp_eq_ok hpack
  have hopos : r'.opos = opos := congrArg State.opos (Flow.ok.inj (hpack.symm.trans hrun))
  rw [codedBits_headerWritten, headerWritten_opos hn.2, ← hbuilt.bitTotal_eq, ← hopos] at hend
  have hbeyond : 4 + 2 * u.n.toNat + 4 * groupCount (bitTotal u) ≤ a := by
    have hwop : (headerWritten u m).op = .encode := hkeep.op.trans hop
    simp only [endCommand_outLen, hwop, hend] at ha
    exact ha
  calc Memory.read r'.out a
      = Memory.read m a := packRun_keeps_from (s := headerWritten u m) hmwf hfits hlimit hroom hpacked hflush hbeyond
    _ = Memory.read u.outMem a := hbehind a ((Nat.le_add_right _ _).trans hbeyond)
    _ = Memory.read s.outMem a := by rw [hkeep.outMem]

/-- Settles O47: a command that is `DONE` has gone through; `PACK` keeps `OUT` behind its last group
(`encodeFlow_keeps_beyond`) and `DWALK` behind the last byte emitted (`decodeFlow_keeps_beyond`). -/
theorem outBeyondTheResultIsKept : Obligations.OutBeyondTheResultIsKept := by
  rintro s t i (rfl | rfl) hwf hidle hexec hdone a ha
  · rw [execEncode_of_idle hidle] at hexec
    obtain hok | ⟨e, u, -, rfl⟩ := Flow.finish_eq_next.1 hexec
    · exact encodeFlow_keeps_beyond (s := startCommand .encode s) rfl hwf hok ha
    · cases hdone
  · rw [execDecode_of_idle hidle] at hexec
    obtain hok | ⟨e, u, -, rfl⟩ := Flow.finish_eq_next.1 hexec
    · exact decodeFlow_keeps_beyond (s := startCommand .decode s) rfl hwf hok ha
    · cases hdone

end Sys2Proof.Machine
end
